-- ==== Sys2Proof/Word.lean ====
section
/-! DEFINITION. The widths of the ZNEO CPU: Byte, Word and Quad data, register numbers, and the two
selectors (access size, extension) that the encodings carry (spec/00_scope.md R5, R10; spec/30_encoding.md
R103). -/

namespace Sys2Proof

/-- 8-bit datum (00_scope.md R10). -/
abbrev Byte := BitVec 8

/-- 16-bit datum, and the unit of the instruction stream (00_scope.md R10, 30_encoding.md R100). -/
abbrev Word := BitVec 16

/-- 32-bit datum, address or ALU register (00_scope.md R5, R10). -/
abbrev Quad := BitVec 32

/-- A 4-bit register number: R0 to R15 (30_encoding.md R102). -/
abbrev Reg := BitVec 4

/-- Memory data size (20_memory.md R75). -/
inductive Size where
  | byte
  | word
  | quad
deriving DecidableEq, Repr

/-- The width in bits, W of 00_scope.md R14. -/
@[reducible] def Size.bits : Size → Nat
  | .byte => 8
  | .word => 16
  | .quad => 32

/-- The size in bytes, n = W/8 of 00_scope.md R14. -/
@[reducible] def Size.bytes : Size → Nat
  | .byte => 1
  | .word => 2
  | .quad => 4

/-- How a narrow value fills a register: the z selector of 30_encoding.md R103. -/
inductive Extension where
  | unsigned
  | signed
deriving DecidableEq, Repr

end Sys2Proof
end

