-- ==== Sys2Proof/Syntax.lean ====
section
/-! DEFINITION. The instructions of the ZNEO CPU: one constructor for each mnemonic of spec/opcode_table.json, the
rows of a mnemonic being the operand forms of its constructor (spec/30_encoding.md R123 to R131). In a form the
operands stand in the order the assembler writes them; d, s, p are register numbers, a an address, off an offset,
i an immediate. -/

namespace Sys2Proof

/-- The sixteen condition codes of 10_state.md R36, in the order of their 4-bit values. -/
inductive Cond where
  | b | lt | le | ule | ov | mi | z | c | nb | ge | gt | ugt | nov | pl | nz | nc
deriving DecidableEq, Repr

/-- Two-operand forms with 32-bit operands: B1 to B4, B6, B8, the Quad forms of B10 to B12, B13 and B15
(40_arithmetic.md R150). -/
inductive BopQuad where
  | regImm32    (d : Reg) (i : Quad)
  | regUimm16   (d : Reg) (i : Word)
  | regReg      (d s : Reg)
  | regAddr16   (d : Reg) (a : Word)
  | regAddr32   (d : Reg) (a : Quad)
  | regInd      (d : Reg) (off : BitVec 13) (s : Reg)
  | addr16Reg   (a : Word) (s : Reg)
  | addr32Reg   (a : Quad) (s : Reg)
  | indReg      (off : BitVec 13) (d s : Reg)
  | indImm32    (d : Reg) (i : Quad)
  | indSimm16   (d : Reg) (i : Word)
deriving DecidableEq, Repr

/-- The forms of ADD and ADC: those of `BopQuad`, Rd,#simm8 and Rd,Rs1,Rs2 (40_arithmetic.md R152). -/
inductive AddQuad where
  | bop       (f : BopQuad)
  | regSimm8  (d : Reg) (i : Byte)
  | regRegReg (d s1 s2 : Reg)
deriving DecidableEq, Repr

/-- The forms of CP and CPC: those of `BopQuad` and Rd,#simm8 (40_arithmetic.md R156). -/
inductive CpQuad where
  | bop      (f : BopQuad)
  | regSimm8 (d : Reg) (i : Byte)
deriving DecidableEq, Repr

/-- The source of the extending two-operand forms B5, B7 and B9 (40_arithmetic.md R150). -/
inductive BopSource where
  | addr16 (a : Word)
  | addr32 (a : Quad)
  | ind    (off : BitVec 13) (s : Reg)
deriving DecidableEq, Repr

/-- Two-operand forms with an 8- or 16-bit memory destination: the .B and .W forms of B10 to B12, B14 and B16
(40_arithmetic.md R150); w is the width of the immediate. -/
inductive BopDest (w : Nat) where
  | addr16Reg (a : Word) (s : Reg)
  | addr32Reg (a : Quad) (s : Reg)
  | indReg    (off : BitVec 13) (d s : Reg)
  | indImm    (d : Reg) (i : BitVec w)
deriving DecidableEq, Repr

/-- The memory operand of CLR, CPZ, INC and DEC: UF1 to UF12 of 40_arithmetic.md R151. -/
inductive UopDest where
  | addr16 (a : Word)
  | addr32 (a : Quad)
  | ind    (d : Reg)
  | off    (off : BitVec 14) (d : Reg)
deriving DecidableEq, Repr

/-- The memory source of a load (44_load.md R254, R255). -/
inductive LoadSource where
  | addr16  (a : Word)
  | addr32  (a : Quad)
  | ind     (s : Reg)
  | postInc (s : Reg)
  | off     (off : BitVec 14) (s : Reg)
  | pcRel   (off : BitVec 14)
  | fpRel   (off : BitVec 6)
deriving DecidableEq, Repr

/-- The memory destination of a store from a register (44_load.md R256). -/
inductive StoreDest where
  | addr16  (a : Word)
  | addr32  (a : Quad)
  | ind     (d : Reg)
  | preDec  (d : Reg)
  | postInc (d : Reg)
  | off     (off : BitVec 14) (d : Reg)
  | fpRel   (off : BitVec 6)
deriving DecidableEq, Repr

/-- The pointer of a store from an immediate (44_load.md R257). -/
inductive StorePtr where
  | ind
  | preDec
  | postInc
deriving DecidableEq, Repr

/-- The forms of LD without suffix (44_load.md R253, R254, R256, R257). -/
inductive LdQuad where
  | regSimm8    (d : Reg) (i : Byte)
  | regSimm17   (d : Reg) (i : BitVec 17)
  | regImm32    (d : Reg) (i : Quad)
  | regReg      (d s : Reg)
  | load        (d : Reg) (m : LoadSource)
  | store       (m : StoreDest) (s : Reg)
  | storeImm32  (p : StorePtr) (d : Reg) (i : Quad)
  | storeSimm16 (p : StorePtr) (d : Reg) (i : Word)
deriving DecidableEq, Repr

/-- The forms of LD.B and LD.W (44_load.md R256, R257); w is the width of the datum. -/
inductive LdNarrow (w : Nat) where
  | store    (m : StoreDest) (s : Reg)
  | storeImm (p : StorePtr) (d : Reg) (i : BitVec w)
deriving DecidableEq, Repr

/-- The forms of LEA (44_load.md R282). -/
inductive LeaSource where
  | pcRel (off : BitVec 14)
  | off   (off : BitVec 14) (s : Reg)
  | fpRel (off : BitVec 6)
deriving DecidableEq, Repr

/-- Where RL, SLL, SRA and SRL take their count from (43_rotate_shift.md R230). -/
inductive ShiftCount where
  | uimm5 (n : BitVec 5)
  | reg   (s : Reg)
deriving DecidableEq, Repr

/-- The forms of JP and CALL (46_program_control.md R342, R350). -/
inductive JumpTarget where
  | reg   (s : Reg)
  | rel12 (r : BitVec 12)
  | rel24 (r : BitVec 24)
deriving DecidableEq, Repr

/-- The forms of JP cc (46_program_control.md R352, R353). -/
inductive CondTarget where
  | rel8  (r : Byte)
  | rel16 (r : Word)
deriving DecidableEq, Repr

/-- The instructions: every mnemonic of spec/opcode_table.json, in its order. -/
inductive Instr where
  -- one-word opcodes of 30_encoding.md R123
  | brk
  | unlink
  | pushf
  | popf
  | atm
  | noflags
  | extend
  -- loads
  | ld   (f : LdQuad)
  | lea  (d : Reg) (m : LeaSource)
  | ldUB (d : Reg) (m : LoadSource)
  | ldUW (d : Reg) (m : LoadSource)
  | ldSB (d : Reg) (m : LoadSource)
  | ldSW (d : Reg) (m : LoadSource)
  | ldCc (cc : Cond) (d : Reg)
  | ldB  (f : LdNarrow 8)
  | ldW  (f : LdNarrow 16)
  | pushmlo (mask : Byte)
  | pushmhi (mask : Byte)
  | popmlo  (mask : Byte)
  | popmhi  (mask : Byte)
  | link  (i : Byte)
  | pushB (i : Byte)
  | pushW (i : Byte)
  | push  (i : Byte)
  | add (f : AddQuad)
  | extUB (d s : Reg)
  | extUW (d s : Reg)
  | extSB (d s : Reg)
  | extSW (d s : Reg)
  | ldes (d : Reg)
  | com  (d : Reg)
  | neg  (d : Reg)
  -- two-operand instructions
  | addUB (d : Reg) (m : BopSource)
  | addSB (d : Reg) (m : BopSource)
  | addUW (d : Reg) (m : BopSource)
  | addSW (d : Reg) (m : BopSource)
  | addB (f : BopDest 8)
  | addW (f : BopDest 16)
  | subUB (d : Reg) (m : BopSource)
  | subSB (d : Reg) (m : BopSource)
  | subUW (d : Reg) (m : BopSource)
  | subSW (d : Reg) (m : BopSource)
  | sub  (f : BopQuad)
  | subB (f : BopDest 8)
  | subW (f : BopDest 16)
  | andUB (d : Reg) (m : BopSource)
  | andSB (d : Reg) (m : BopSource)
  | andUW (d : Reg) (m : BopSource)
  | andSW (d : Reg) (m : BopSource)
  | and  (f : BopQuad)
  | andB (f : BopDest 8)
  | andW (f : BopDest 16)
  | orUB (d : Reg) (m : BopSource)
  | orSB (d : Reg) (m : BopSource)
  | orUW (d : Reg) (m : BopSource)
  | orSW (d : Reg) (m : BopSource)
  | or  (f : BopQuad)
  | orB (f : BopDest 8)
  | orW (f : BopDest 16)
  | xorUB (d : Reg) (m : BopSource)
  | xorSB (d : Reg) (m : BopSource)
  | xorUW (d : Reg) (m : BopSource)
  | xorSW (d : Reg) (m : BopSource)
  | xor  (f : BopQuad)
  | xorB (f : BopDest 8)
  | xorW (f : BopDest 16)
  | cpUB (d : Reg) (m : BopSource)
  | cpSB (d : Reg) (m : BopSource)
  | cpUW (d : Reg) (m : BopSource)
  | cpSW (d : Reg) (m : BopSource)
  | cp  (f : CpQuad)
  | cpB (f : BopDest 8)
  | cpW (f : BopDest 16)
  | tmUB (d : Reg) (m : BopSource)
  | tmSB (d : Reg) (m : BopSource)
  | tmUW (d : Reg) (m : BopSource)
  | tmSW (d : Reg) (m : BopSource)
  | tm  (f : BopQuad)
  | tmB (f : BopDest 8)
  | tmW (f : BopDest 16)
  | tcmUB (d : Reg) (m : BopSource)
  | tcmSB (d : Reg) (m : BopSource)
  | tcmUW (d : Reg) (m : BopSource)
  | tcmSW (d : Reg) (m : BopSource)
  | tcm  (f : BopQuad)
  | tcmB (f : BopDest 8)
  | tcmW (f : BopDest 16)
  -- one-operand instructions on memory
  | clrB (m : UopDest)
  | clrW (m : UopDest)
  | clr  (m : UopDest)
  | cpzB (m : UopDest)
  | cpzW (m : UopDest)
  | cpz  (m : UopDest)
  | incB (m : UopDest)
  | incW (m : UopDest)
  | inc  (m : UopDest)
  | decB (m : UopDest)
  | decW (m : UopDest)
  | dec  (m : UopDest)
  -- divide, multiply, shift
  | udiv (d s : Reg)
  | sdiv (d s : Reg)
  | umul (d s : Reg)
  | smul (d s : Reg)
  | mul  (d s : Reg)
  | sra (d : Reg) (n : ShiftCount)
  | srl (d : Reg) (n : ShiftCount)
  | sll (d : Reg) (n : ShiftCount)
  | rl  (d : Reg) (n : ShiftCount)
  -- program control and CPU control
  | jp    (t : JumpTarget)
  | call  (t : JumpTarget)
  | jpCc  (cc : Cond) (t : CondTarget)
  | jpa   (i : Quad)
  | calla (i : Quad)
  | djnz  (d : Reg) (urel4 : BitVec 4)
  | trap  (vector : Byte)
  | wdt
  | stop
  | halt
  | ei
  | di
  | ret
  | iret
  | nop
  | ill
  /-- A word 0 that holds no instruction (30_encoding.md R115). -/
  | unimplemented (w0 : Word)
  -- what the words of ADD, SUB, CP, CPZ, SLL, SRA, SRL and UDIV mean directly after the Extend prefix (R119)
  | adcUB (d : Reg) (m : BopSource)
  | adcSB (d : Reg) (m : BopSource)
  | adcUW (d : Reg) (m : BopSource)
  | adcSW (d : Reg) (m : BopSource)
  | adc  (f : AddQuad)
  | adcB (f : BopDest 8)
  | adcW (f : BopDest 16)
  | sbcUB (d : Reg) (m : BopSource)
  | sbcSB (d : Reg) (m : BopSource)
  | sbcUW (d : Reg) (m : BopSource)
  | sbcSW (d : Reg) (m : BopSource)
  | sbc  (f : BopQuad)
  | sbcB (f : BopDest 8)
  | sbcW (f : BopDest 16)
  | cpcUB (d : Reg) (m : BopSource)
  | cpcSB (d : Reg) (m : BopSource)
  | cpcUW (d : Reg) (m : BopSource)
  | cpcSW (d : Reg) (m : BopSource)
  | cpc  (f : CpQuad)
  | cpcB (f : BopDest 8)
  | cpcW (f : BopDest 16)
  | cpczB (m : UopDest)
  | cpczW (m : UopDest)
  | cpcz  (m : UopDest)
  | sllx   (d s : Reg)
  | srax   (d s : Reg)
  | srlx   (d s : Reg)
  | udiv64 (d s : Reg)
deriving DecidableEq, Repr

end Sys2Proof
end

