-- ==== Sys2Proof/WellFormed.lean ====
section
/-! DEFINITION. Which terms of `Instr` stand for instructions. Every operand field of the syntax has exactly the width of
its encoding, so the one check is that `unimplemented` holds a word that spec/30_encoding.md R115 lists. -/

namespace Sys2Proof

/-- The hexadecimal ranges of word 0 that hold no instruction, first and last value (30_encoding.md R115). -/
def unimplementedRanges : List (Nat × Nat) :=
  [(0x0006, 0x0006), (0x0008, 0x000F), (0x0010, 0x001F), (0x0040, 0x007F), (0x0080, 0x00FF), (0x0200, 0x02FF),
   (0x0900, 0x093F), (0x4560, 0x457F), (0x4580, 0x45FF), (0x4600, 0x47FF), (0xA800, 0xA9FF), (0xAD80, 0xAD8F),
   (0xB300, 0xB3FF), (0xF232, 0xF23F), (0xF240, 0xF2FF), (0xF300, 0xF3FF), (0xF400, 0xFCFF), (0xFF00, 0xFFF6)]

/-- Whether a word lies in one of the ranges of 30_encoding.md R115. -/
def inUnimplementedRange (w : Word) : Bool :=
  unimplementedRanges.any fun r => decide (r.1 ≤ w.toNat) && decide (w.toNat ≤ r.2)

/-- A term is well formed unless it is `unimplemented` of a word that does hold an instruction. -/
def Instr.wellFormed : Instr → Bool
  | .unimplemented w0 => inUnimplementedRange w0
  | _ => true

end Sys2Proof
end

