-- ==== Sys2Proof/Decode.lean ====
section
/-! DEFINITION. Decoding and encoding: spec/30_encoding.md R100 to R131 and the form tables of
spec/40_arithmetic.md R150, R151 and spec/44_load.md. A decoder reads word 0, 1 and 2 and whether the Extend prefix
stands directly before them; it is total: a word 0 of R115 decodes to `unimplemented`. -/

namespace Sys2Proof

/-! ### Fields of a word -/

/-- w[15:12]. -/
def nib3 (w : Word) : BitVec 4 := w.extractLsb' 12 4
/-- w[11:8]. -/
def nib2 (w : Word) : BitVec 4 := w.extractLsb' 8 4
/-- w[7:4]. -/
def nib1 (w : Word) : BitVec 4 := w.extractLsb' 4 4
/-- w[3:0]. -/
def nib0 (w : Word) : BitVec 4 := w.extractLsb' 0 4
/-- w[7:0]. -/
def lowByte (w : Word) : Byte := w.extractLsb' 0 8
/-- The soff14 field w1[13:0] (30_encoding.md R112). -/
def soff14 (w1 : Word) : BitVec 14 := w1.extractLsb' 0 14
/-- The soff13 field w1[12:0] (30_encoding.md R112). -/
def soff13 (w1 : Word) : BitVec 13 := w1.extractLsb' 0 13
/-- The soff6 field w0[9:4] (30_encoding.md R112). -/
def soff6 (w0 : Word) : BitVec 6 := w0.extractLsb' 4 6
/-- The uimm5 field w0[8:4] (30_encoding.md R110). -/
def uimm5 (w0 : Word) : BitVec 5 := w0.extractLsb' 4 5
/-- A 32-bit immediate or address: {w1, w2} (30_encoding.md R110, R112). -/
def quadOf (w1 w2 : Word) : Quad := w1 ++ w2
/-- A word from its four nibbles, w[15:12] first. -/
def wordOf (a b c d : BitVec 4) : Word := a ++ b ++ c ++ d
/-- A word from its first two nibbles and its low byte. -/
def wordOfByte (a b : BitVec 4) (i : Byte) : Word := a ++ b ++ i
/-- The words of a 32-bit immediate or address, bits 31 to 16 first. -/
def quadWords (q : Quad) : List Word := [q.extractLsb' 16 16, q.extractLsb' 0 16]

/-- The condition code with a given 4-bit value (10_state.md R36). -/
def Cond.ofBits (x : BitVec 4) : Cond :=
  match x.toNat with
  | 0 => .b | 1 => .lt | 2 => .le | 3 => .ule | 4 => .ov | 5 => .mi | 6 => .z | 7 => .c
  | 8 => .nb | 9 => .ge | 10 => .gt | 11 => .ugt | 12 => .nov | 13 => .pl | 14 => .nz | _ => .nc

/-- The 4-bit value of a condition code (10_state.md R36). -/
def Cond.bits : Cond → BitVec 4
  | .b => 0x0 | .lt => 0x1 | .le => 0x2 | .ule => 0x3 | .ov => 0x4 | .mi => 0x5 | .z => 0x6 | .c => 0x7
  | .nb => 0x8 | .ge => 0x9 | .gt => 0xA | .ugt => 0xB | .nov => 0xC | .pl => 0xD | .nz => 0xE | .nc => 0xF

/-! ### Length (30_encoding.md R101) -/

/-- The rows of 30_encoding.md R115 as (match, mask) pairs on word 0. -/
def unimplementedPatterns : List (Nat × Nat) :=
  [(0x0006, 0xFFFF), (0x0008, 0xFFF8), (0x0010, 0xFFF0), (0x0040, 0xFFC0), (0x0080, 0xFF80), (0x0200, 0xFF00),
   (0x0900, 0xFFC0), (0x4560, 0xFFE0), (0x4580, 0xFF80), (0x4600, 0xFE00), (0xA800, 0xFE00), (0xAD80, 0xFFF0),
   (0xB300, 0xFF00), (0xF232, 0xFFFE), (0xF234, 0xFFFC), (0xF238, 0xFFF8), (0xF240, 0xFFC0), (0xF280, 0xFF80),
   (0xF300, 0xFF00), (0xF400, 0xFC00), (0xF800, 0xFC00), (0xFC00, 0xFF00), (0xFF00, 0xFF80), (0xFF80, 0xFFC0),
   (0xFFC0, 0xFFE0), (0xFFE0, 0xFFF0), (0xFFF0, 0xFFFC), (0xFFF4, 0xFFFE), (0xFFF6, 0xFFFF)]

/-- The rows of 30_encoding.md R101 as (match, mask, length in bytes) on word 0. -/
def lengthPatterns : List (Nat × Nat × Nat) :=
  [(0x0380, 0xFF80, 6), (0x09D0, 0xFFF0, 6), (0x09E0, 0xFFE0, 6), (0x4520, 0xFFF0, 6), (0x7080, 0xF880, 6),
   (0xAA80, 0xFF80, 6), (0xAB80, 0xFF80, 6), (0xADB0, 0xFFF0, 6), (0xF230, 0xFFFE, 6),
   (0x0020, 0xFFE0, 4), (0x0300, 0xFF80, 4), (0x0940, 0xFFC0, 4), (0x0980, 0xFFC0, 4), (0x09C0, 0xFFF0, 4),
   (0x4500, 0xFFE0, 4), (0x4800, 0xFC00, 4), (0x7000, 0xF880, 4), (0x7800, 0xF800, 4), (0xAA00, 0xFF80, 4),
   (0xAB00, 0xFF80, 4), (0xAD00, 0xFF80, 4), (0xAD90, 0xFFF0, 4), (0xADA0, 0xFFF0, 4), (0xADC0, 0xFFC0, 4),
   (0xF000, 0xFE00, 4), (0xF220, 0xFFF0, 4)]

/-- Whether word 0 matches a pattern. -/
def matchesPattern (w0 : Word) (m : Nat) (mask : Nat) : Bool := w0.toNat &&& mask == m

/-- Whether word 0 holds no instruction (30_encoding.md R115). -/
def isUnimplemented (w0 : Word) : Bool := unimplementedPatterns.any fun p => matchesPattern w0 p.1 p.2

/-- The length in bytes that word 0 gives its instruction; an unimplemented word has none (30_encoding.md R101). -/
def lengthOfWord (w0 : Word) : Option Nat :=
  if isUnimplemented w0 then none
  else match lengthPatterns.find? (fun p => matchesPattern w0 p.1 p.2.1) with
    | some p => some p.2.2
    | none => some 2

/-! ### Which instruction an operation number names -/

/-- BOP with 32-bit operands (30_encoding.md R104; ext: R119). -/
def bopQuadOf (ext : Bool) (o : BitVec 3) (f : BopQuad) : Instr :=
  match o.toNat with
  | 0 => if ext then .adc (.bop f) else .add (.bop f)
  | 1 => if ext then .sbc f else .sub f
  | 2 => .and f
  | 3 => .or f
  | 4 => .xor f
  | 5 => if ext then .cpc (.bop f) else .cp (.bop f)
  | 6 => .tm f
  | _ => .tcm f

/-- BOP.UB Rd, memory. -/
def bopUBOf (ext : Bool) (o : BitVec 3) (d : Reg) (m : BopSource) : Instr :=
  match o.toNat with
  | 0 => if ext then .adcUB d m else .addUB d m
  | 1 => if ext then .sbcUB d m else .subUB d m
  | 2 => .andUB d m
  | 3 => .orUB d m
  | 4 => .xorUB d m
  | 5 => if ext then .cpcUB d m else .cpUB d m
  | 6 => .tmUB d m
  | _ => .tcmUB d m

/-- BOP.SB Rd, memory. -/
def bopSBOf (ext : Bool) (o : BitVec 3) (d : Reg) (m : BopSource) : Instr :=
  match o.toNat with
  | 0 => if ext then .adcSB d m else .addSB d m
  | 1 => if ext then .sbcSB d m else .subSB d m
  | 2 => .andSB d m
  | 3 => .orSB d m
  | 4 => .xorSB d m
  | 5 => if ext then .cpcSB d m else .cpSB d m
  | 6 => .tmSB d m
  | _ => .tcmSB d m

/-- BOP.UW Rd, memory. -/
def bopUWOf (ext : Bool) (o : BitVec 3) (d : Reg) (m : BopSource) : Instr :=
  match o.toNat with
  | 0 => if ext then .adcUW d m else .addUW d m
  | 1 => if ext then .sbcUW d m else .subUW d m
  | 2 => .andUW d m
  | 3 => .orUW d m
  | 4 => .xorUW d m
  | 5 => if ext then .cpcUW d m else .cpUW d m
  | 6 => .tmUW d m
  | _ => .tcmUW d m

/-- BOP.SW Rd, memory. -/
def bopSWOf (ext : Bool) (o : BitVec 3) (d : Reg) (m : BopSource) : Instr :=
  match o.toNat with
  | 0 => if ext then .adcSW d m else .addSW d m
  | 1 => if ext then .sbcSW d m else .subSW d m
  | 2 => .andSW d m
  | 3 => .orSW d m
  | 4 => .xorSW d m
  | 5 => if ext then .cpcSW d m else .cpSW d m
  | 6 => .tmSW d m
  | _ => .tcmSW d m

/-- BOP.B memory, source. -/
def bopBOf (ext : Bool) (o : BitVec 3) (f : BopDest 8) : Instr :=
  match o.toNat with
  | 0 => if ext then .adcB f else .addB f
  | 1 => if ext then .sbcB f else .subB f
  | 2 => .andB f
  | 3 => .orB f
  | 4 => .xorB f
  | 5 => if ext then .cpcB f else .cpB f
  | 6 => .tmB f
  | _ => .tcmB f

/-- BOP.W memory, source. -/
def bopWOf (ext : Bool) (o : BitVec 3) (f : BopDest 16) : Instr :=
  match o.toNat with
  | 0 => if ext then .adcW f else .addW f
  | 1 => if ext then .sbcW f else .subW f
  | 2 => .andW f
  | 3 => .orW f
  | 4 => .xorW f
  | 5 => if ext then .cpcW f else .cpW f
  | 6 => .tmW f
  | _ => .tcmW f

/-- UOP.B memory (30_encoding.md R105). -/
def uopBOf (ext : Bool) (o : BitVec 2) (m : UopDest) : Instr :=
  match o.toNat with
  | 0 => .clrB m
  | 1 => if ext then .cpczB m else .cpzB m
  | 2 => .incB m
  | _ => .decB m

/-- UOP.W memory (30_encoding.md R105). -/
def uopWOf (ext : Bool) (o : BitVec 2) (m : UopDest) : Instr :=
  match o.toNat with
  | 0 => .clrW m
  | 1 => if ext then .cpczW m else .cpzW m
  | 2 => .incW m
  | _ => .decW m

/-- UOP memory, Quad (30_encoding.md R105). -/
def uopQuadOf (ext : Bool) (o : BitVec 2) (m : UopDest) : Instr :=
  match o.toNat with
  | 0 => .clr m
  | 1 => if ext then .cpcz m else .cpz m
  | 2 => .inc m
  | _ => .dec m

/-- UOP whose size stands in two selector bits: 00B Byte, 01B Word, 1xB Quad (40_arithmetic.md R151). -/
def uopOf (ext : Bool) (sel : BitVec 2) (o : BitVec 2) (m : UopDest) : Instr :=
  match sel.toNat with
  | 0 => uopBOf ext o m
  | 1 => uopWOf ext o m
  | _ => uopQuadOf ext o m

/-- LD.xx Rd, memory whose size and extension stand in the selector bits z b (30_encoding.md R103). -/
def ldExtOf (zb : BitVec 2) (d : Reg) (m : LoadSource) : Instr :=
  match zb.toNat with
  | 0 => .ldUB d m
  | 1 => .ldUW d m
  | 2 => .ldSB d m
  | _ => .ldSW d m

/-! ### Decoding, by the top nibble of word 0 (30_encoding.md R108) -/

/-- 00xxH: control words and PC-based loads (30_encoding.md R123). -/
def decode00 (w0 w1 : Word) : Instr :=
  match (nib1 w0).toNat with
  | 0 =>
    match (nib0 w0).toNat with
    | 0 => .brk
    | 1 => .unlink
    | 2 => .pushf
    | 3 => .popf
    | 4 => .atm
    | 5 => .noflags
    | 7 => .extend
    | _ => .unimplemented w0
  | 2 =>
    if w1.getLsbD 15 then .lea (nib0 w0) (.pcRel (soff14 w1))
    else .ld (.load (nib0 w0) (.pcRel (soff14 w1)))
  | 3 => ldExtOf (w1.extractLsb' 14 2) (nib0 w0) (.pcRel (soff14 w1))
  | _ => .unimplemented w0

/-- 03xxH: LD with a direct address (30_encoding.md R123). -/
def decode03 (w0 w1 w2 : Word) : Instr :=
  let r := nib0 w0
  match (nib1 w0).toNat with
  | 0 => .ldUB r (.addr16 w1)
  | 1 => .ldSB r (.addr16 w1)
  | 2 => .ldUW r (.addr16 w1)
  | 3 => .ldSW r (.addr16 w1)
  | 4 => .ld (.load r (.addr16 w1))
  | 5 => .ldB (.store (.addr16 w1) r)
  | 6 => .ldW (.store (.addr16 w1) r)
  | 7 => .ld (.store (.addr16 w1) r)
  | 8 => .ldUB r (.addr32 (quadOf w1 w2))
  | 9 => .ldSB r (.addr32 (quadOf w1 w2))
  | 10 => .ldUW r (.addr32 (quadOf w1 w2))
  | 11 => .ldSW r (.addr32 (quadOf w1 w2))
  | 12 => .ld (.load r (.addr32 (quadOf w1 w2)))
  | 13 => .ldB (.store (.addr32 (quadOf w1 w2)) r)
  | 14 => .ldW (.store (.addr32 (quadOf w1 w2)) r)
  | _ => .ld (.store (.addr32 (quadOf w1 w2)) r)

/-- 09xxH: stores from an immediate (30_encoding.md R124). -/
def decode09 (w0 w1 w2 : Word) : Instr :=
  let d := nib0 w0
  match (nib1 w0).toNat with
  | 4 => .ldB (.storeImm .preDec d (lowByte w1))
  | 5 => .ldB (.storeImm .postInc d (lowByte w1))
  | 6 => .ldW (.storeImm .ind d w1)
  | 7 => .ld (.storeSimm16 .ind d w1)
  | 8 => .ldW (.storeImm .preDec d w1)
  | 9 => .ld (.storeSimm16 .preDec d w1)
  | 10 => .ldW (.storeImm .postInc d w1)
  | 11 => .ld (.storeSimm16 .postInc d w1)
  | 12 => .ldB (.storeImm .ind d (lowByte w1))
  | 13 => .ld (.storeImm32 .ind d (quadOf w1 w2))
  | 14 => .ld (.storeImm32 .preDec d (quadOf w1 w2))
  | 15 => .ld (.storeImm32 .postInc d (quadOf w1 w2))
  | _ => .unimplemented w0

/-- 0xxxH (30_encoding.md R123, R124). -/
def decode0 (w0 w1 w2 : Word) : Instr :=
  match (nib2 w0).toNat with
  | 0 => decode00 w0 w1
  | 1 => .ldCc (Cond.ofBits (nib1 w0)) (nib0 w0)
  | 2 => .unimplemented w0
  | 3 => decode03 w0 w1 w2
  | 4 => .pushmlo (lowByte w0)
  | 5 => .pushmhi (lowByte w0)
  | 6 => .popmlo (lowByte w0)
  | 7 => .popmhi (lowByte w0)
  | 8 => .link (lowByte w0)
  | 9 => decode09 w0 w1 w2
  | 10 => .pushB (lowByte w0)
  | 11 => .ld (.store (.ind (nib0 w0)) (nib1 w0))
  | 12 => .pushW (lowByte w0)
  | 13 => .push (lowByte w0)
  | 14 => .ldB (.store (.ind (nib0 w0)) (nib1 w0))
  | _ => .ldW (.store (.ind (nib0 w0)) (nib1 w0))

/-- 1xxxH: LD through a register (30_encoding.md R125). -/
def decode1 (w0 : Word) : Instr :=
  let s := nib1 w0
  let d := nib0 w0
  match (nib2 w0).toNat with
  | 0 => .ld (.store (.preDec d) s)
  | 1 => .ld (.store (.postInc d) s)
  | 2 => .ld (.load d (.ind s))
  | 3 => .ld (.load d (.postInc s))
  | 4 => .ldB (.store (.preDec d) s)
  | 5 => .ldB (.store (.postInc d) s)
  | 6 => .ldW (.store (.preDec d) s)
  | 7 => .ldW (.store (.postInc d) s)
  | 8 => .ldUB d (.ind s)
  | 9 => .ldUB d (.postInc s)
  | 10 => .ldUW d (.ind s)
  | 11 => .ldUW d (.postInc s)
  | 12 => .ldSB d (.ind s)
  | 13 => .ldSB d (.postInc s)
  | 14 => .ldSW d (.ind s)
  | _ => .ldSW d (.postInc s)

/-- 45xxH: immediate loads, LDES, COM, NEG (30_encoding.md R126). -/
def decode45 (w0 w1 w2 : Word) : Instr :=
  let d := nib0 w0
  match (nib1 w0).toNat with
  | 0 => .ld (.regSimm17 d (0#1 ++ w1))
  | 1 => .ld (.regSimm17 d (1#1 ++ w1))
  | 2 => .ld (.regImm32 d (quadOf w1 w2))
  | 3 => .ldes d
  | 4 => .com d
  | 5 => .neg d
  | _ => .unimplemented w0

/-- 4xxxH (30_encoding.md R126). -/
def decode4 (w0 w1 w2 : Word) : Instr :=
  let s := nib1 w0
  let d := nib0 w0
  match (nib2 w0).toNat with
  | 0 => .extUB d s
  | 1 => .extUW d s
  | 2 => .extSB d s
  | 3 => .extSW d s
  | 4 => .ld (.regReg d s)
  | 5 => decode45 w0 w1 w2
  | 6 => .unimplemented w0
  | 7 => .unimplemented w0
  | 8 => if w1.getLsbD 15 then .lea d (.off (soff14 w1) s) else .ld (.load d (.off (soff14 w1) s))
  | 9 => ldExtOf (w1.extractLsb' 14 2) d (.off (soff14 w1) s)
  | 10 => .ld (.store (.off (soff14 w1) d) s)
  | 11 => if w1.getLsbD 14 then .ldW (.store (.off (soff14 w1) d) s) else .ldB (.store (.off (soff14 w1) d) s)
  | _ => .lea d (.fpRel (soff6 w0))

/-- 5xxxH: FP-based stores and the Quad load (30_encoding.md R127). -/
def decode5 (w0 : Word) : Instr :=
  match (w0.extractLsb' 10 2).toNat with
  | 0 => .ldB (.store (.fpRel (soff6 w0)) (nib0 w0))
  | 1 => .ldW (.store (.fpRel (soff6 w0)) (nib0 w0))
  | 2 => .ld (.store (.fpRel (soff6 w0)) (nib0 w0))
  | _ => .ld (.load (nib0 w0) (.fpRel (soff6 w0)))

/-- 7xxxH with w0[11] = 0: BOP with a direct address (30_encoding.md R128). -/
def decode7Direct (ext : Bool) (o : BitVec 3) (w0 w1 w2 : Word) : Instr :=
  let r := nib0 w0
  match (nib1 w0).toNat with
  | 0 => bopUBOf ext o r (.addr16 w1)
  | 1 => bopSBOf ext o r (.addr16 w1)
  | 2 => bopUWOf ext o r (.addr16 w1)
  | 3 => bopSWOf ext o r (.addr16 w1)
  | 4 => bopQuadOf ext o (.regAddr16 r w1)
  | 5 => bopBOf ext o (.addr16Reg w1 r)
  | 6 => bopWOf ext o (.addr16Reg w1 r)
  | 7 => bopQuadOf ext o (.addr16Reg w1 r)
  | 8 => bopUBOf ext o r (.addr32 (quadOf w1 w2))
  | 9 => bopSBOf ext o r (.addr32 (quadOf w1 w2))
  | 10 => bopUWOf ext o r (.addr32 (quadOf w1 w2))
  | 11 => bopSWOf ext o r (.addr32 (quadOf w1 w2))
  | 12 => bopQuadOf ext o (.regAddr32 r (quadOf w1 w2))
  | 13 => bopBOf ext o (.addr32Reg (quadOf w1 w2) r)
  | 14 => bopWOf ext o (.addr32Reg (quadOf w1 w2) r)
  | _ => bopQuadOf ext o (.addr32Reg (quadOf w1 w2) r)

/-- 7xxxH with w0[11] = 1: BOP with a pointer and soff13; w1[15:13] selects (30_encoding.md R128). -/
def decode7Indirect (ext : Bool) (o : BitVec 3) (w0 w1 : Word) : Instr :=
  let s := nib1 w0
  let d := nib0 w0
  let off := soff13 w1
  match (w1.extractLsb' 13 3).toNat with
  | 0 => bopUBOf ext o d (.ind off s)
  | 1 => bopSBOf ext o d (.ind off s)
  | 2 => bopUWOf ext o d (.ind off s)
  | 3 => bopSWOf ext o d (.ind off s)
  | 4 => bopQuadOf ext o (.regInd d off s)
  | 5 => bopBOf ext o (.indReg off d s)
  | 6 => bopWOf ext o (.indReg off d s)
  | _ => bopQuadOf ext o (.indReg off d s)

/-- 7xxxH (30_encoding.md R128). -/
def decode7 (ext : Bool) (w0 w1 w2 : Word) : Instr :=
  if w0.getLsbD 11 then decode7Indirect ext (w0.extractLsb' 8 3) w0 w1
  else decode7Direct ext (w0.extractLsb' 8 3) w0 w1 w2

/-- ADxxH (30_encoding.md R129). -/
def decodeAD (ext : Bool) (w0 w1 w2 : Word) : Instr :=
  let d := nib0 w0
  match (nib1 w0).toNat with
  | 8 => .unimplemented w0
  | 9 => bopBOf ext (w1.extractLsb' 8 3) (.indImm d (lowByte w1))
  | 10 => uopOf ext (w0.extractLsb' 2 2) (w0.extractLsb' 0 2) (.addr16 w1)
  | 11 => uopOf ext (w0.extractLsb' 2 2) (w0.extractLsb' 0 2) (.addr32 (quadOf w1 w2))
  | 12 => uopOf ext (w1.extractLsb' 14 2) 0 (.off (soff14 w1) d)
  | 13 => uopOf ext (w1.extractLsb' 14 2) 1 (.off (soff14 w1) d)
  | 14 => uopOf ext (w1.extractLsb' 14 2) 2 (.off (soff14 w1) d)
  | 15 => uopOf ext (w1.extractLsb' 14 2) 3 (.off (soff14 w1) d)
  | _ => bopQuadOf ext (w0.extractLsb' 4 3) (.indSimm16 d w1)

/-- AxxxH (30_encoding.md R129). -/
def decodeA (ext : Bool) (w0 w1 w2 : Word) : Instr :=
  let s := nib1 w0
  let d := nib0 w0
  match (nib2 w0).toNat with
  | 8 => .unimplemented w0
  | 9 => .unimplemented w0
  | 10 =>
    if w0.getLsbD 7 then bopQuadOf ext (w0.extractLsb' 4 3) (.regImm32 d (quadOf w1 w2))
    else bopQuadOf ext (w0.extractLsb' 4 3) (.regUimm16 d w1)
  | 11 =>
    if w0.getLsbD 7 then bopQuadOf ext (w0.extractLsb' 4 3) (.indImm32 d (quadOf w1 w2))
    else bopWOf ext (w0.extractLsb' 4 3) (.indImm d w1)
  | 12 => uopOf ext (w0.extractLsb' 6 2) (w0.extractLsb' 4 2) (.ind d)
  | 13 => decodeAD ext w0 w1 w2
  | 14 => if ext then .udiv64 d s else .udiv d s
  | 15 => .sdiv d s
  | _ => bopQuadOf ext (w0.extractLsb' 8 3) (.regReg d s)

/-- BxxxH (30_encoding.md R130; ext: R119, for the register-count forms only). -/
def decodeB (ext : Bool) (w0 : Word) : Instr :=
  let s := nib1 w0
  let d := nib0 w0
  match (nib2 w0).toNat with
  | 0 => .umul d s
  | 1 => .smul d s
  | 2 => .mul d s
  | 3 => .unimplemented w0
  | 4 => if ext then .srax d s else .sra d (.reg s)
  | 5 => if ext then .srlx d s else .srl d (.reg s)
  | 6 => if ext then .sllx d s else .sll d (.reg s)
  | 7 => .rl d (.reg s)
  | 8 => .sra d (.uimm5 (uimm5 w0))
  | 9 => .sra d (.uimm5 (uimm5 w0))
  | 10 => .srl d (.uimm5 (uimm5 w0))
  | 11 => .srl d (.uimm5 (uimm5 w0))
  | 12 => .sll d (.uimm5 (uimm5 w0))
  | 13 => .sll d (.uimm5 (uimm5 w0))
  | _ => .rl d (.uimm5 (uimm5 w0))

/-- F2xxH (30_encoding.md R131). -/
def decodeF2 (w0 w1 w2 : Word) : Instr :=
  match (nib1 w0).toNat with
  | 0 => .jp (.reg (nib0 w0))
  | 1 => .call (.reg (nib0 w0))
  | 2 => .jpCc (Cond.ofBits (nib0 w0)) (.rel16 w1)
  | 3 =>
    match (nib0 w0).toNat with
    | 0 => .jpa (quadOf w1 w2)
    | 1 => .calla (quadOf w1 w2)
    | _ => .unimplemented w0
  | _ => .unimplemented w0

/-- FFxxH (30_encoding.md R131). -/
def decodeFF (w0 : Word) : Instr :=
  match (lowByte w0).toNat with
  | 0xF7 => .wdt
  | 0xF8 => .stop
  | 0xF9 => .halt
  | 0xFA => .ei
  | 0xFB => .di
  | 0xFC => .ret
  | 0xFD => .iret
  | 0xFE => .nop
  | 0xFF => .ill
  | _ => .unimplemented w0

/-- FxxxH (30_encoding.md R131). -/
def decodeF (w0 w1 w2 : Word) : Instr :=
  match (nib2 w0).toNat with
  | 0 => .jp (.rel24 (lowByte w0 ++ w1))
  | 1 => .call (.rel24 (lowByte w0 ++ w1))
  | 2 => decodeF2 w0 w1 w2
  | 13 => .djnz (nib0 w0) (nib1 w0)
  | 14 => .trap (lowByte w0)
  | 15 => decodeFF w0
  | _ => .unimplemented w0

/-- The instruction in the words w0, w1, w2 (30_encoding.md R101, R108). `ext` says whether the Extend prefix stands
directly before them (R119); before any other instruction it has no effect (45_cpu_control.md R324). After it
{9H,Rd,simm8} is CPC (40_arithmetic.md R157), although R321 lists the word among the forms of SBC too: SUB has no such
form (R154), and no ruling of 90_conflicts.md names the point (DEDUCED, notes/assumptions/33.md). Words beyond the
instruction's own length are not read. -/
def decodeWords (ext : Bool) (w0 w1 w2 : Word) : Instr :=
  match (nib3 w0).toNat with
  | 0 => decode0 w0 w1 w2
  | 1 => decode1 w0
  | 2 => if ext then .adc (.regRegReg (nib2 w0) (nib1 w0) (nib0 w0)) else .add (.regRegReg (nib2 w0) (nib1 w0) (nib0 w0))
  | 3 => .ld (.regSimm8 (nib2 w0) (lowByte w0))
  | 4 => decode4 w0 w1 w2
  | 5 => decode5 w0
  | 6 => ldExtOf (w0.extractLsb' 10 2) (nib0 w0) (.fpRel (soff6 w0))
  | 7 => decode7 ext w0 w1 w2
  | 8 => if ext then .adc (.regSimm8 (nib2 w0) (lowByte w0)) else .add (.regSimm8 (nib2 w0) (lowByte w0))
  | 9 => if ext then .cpc (.regSimm8 (nib2 w0) (lowByte w0)) else .cp (.regSimm8 (nib2 w0) (lowByte w0))
  | 10 => decodeA ext w0 w1 w2
  | 11 => decodeB ext w0
  | 12 => .jp (.rel12 (w0.extractLsb' 0 12))
  | 13 => .call (.rel12 (w0.extractLsb' 0 12))
  | 14 => .jpCc (Cond.ofBits (nib2 w0)) (.rel8 (lowByte w0))
  | _ => decodeF w0 w1 w2

/-! ### Bytes -/

/-- Why a string of bytes is no instruction. -/
inductive DecodeError where
  /-- Fewer bytes than a first word. -/
  | noFirstWord
  /-- Word 0 asks for more bytes than there are. -/
  | truncated (needed : Nat)
deriving DecidableEq, Repr

/-- A word from its bytes, the byte at the lower address first (20_memory.md R69). -/
def wordOfBytes (hi lo : Byte) : Word := hi ++ lo

/-- The bytes of a word, the byte at the lower address first (20_memory.md R69). -/
def bytesOfWord (w : Word) : List Byte := [w.extractLsb' 8 8, w.extractLsb' 0 8]

/-- The instruction at the front of a list of bytes and the bytes after it. -/
def decodeBytes (ext : Bool) : List Byte → Except DecodeError (Instr × List Byte)
  | h0 :: l0 :: rest =>
    let w0 := wordOfBytes h0 l0
    match (lengthOfWord w0).getD 2, rest with
    | 4, h1 :: l1 :: rest' => .ok (decodeWords ext w0 (wordOfBytes h1 l1) 0, rest')
    | 4, _ => .error (.truncated 4)
    | 6, h1 :: l1 :: h2 :: l2 :: rest' => .ok (decodeWords ext w0 (wordOfBytes h1 l1) (wordOfBytes h2 l2), rest')
    | 6, _ => .error (.truncated 6)
    | _, _ => .ok (decodeWords ext w0 0 0, rest)
  | _ => .error .noFirstWord

/-- The six bytes of an opcode-table word as the hardware stores them: bits 15 to 0 of `w` are the first word, bits 31 to
16 the second, bits 47 to 32 the third; bits at and above nbits are 0. -/
def tableBytes (nbits w : Nat) : List Byte :=
  let v := w % 2 ^ nbits
  bytesOfWord (BitVec.ofNat 16 v) ++ bytesOfWord (BitVec.ofNat 16 (v / 2 ^ 16)) ++
    bytesOfWord (BitVec.ofNat 16 (v / 2 ^ 32))

/-- The instruction the decoder reads from an opcode-table word. No Extend prefix stands before it, so a row of the
table that describes words after the prefix decodes to the instruction without it (30_encoding.md R119). -/
def decodeTableWord (nbits w : Nat) : Option Instr :=
  match decodeBytes false (tableBytes nbits w) with
  | .ok (i, _) => some i
  | .error _ => none

/-! ### Encoding -/

/-- The words of a 32-bit BOP form with operation number o (40_arithmetic.md R150, form labels in the comments). -/
def encodeBopQuad (o : BitVec 3) : BopQuad → List Word
  | .regImm32 d i => wordOf 0xA 0xA (1#1 ++ o) d :: quadWords i                                -- B1
  | .regUimm16 d i => [wordOf 0xA 0xA (0#1 ++ o) d, i]                                         -- B2
  | .regReg d s => [wordOf 0xA (0#1 ++ o) s d]                                                 -- B3
  | .regAddr16 d a => [wordOf 0x7 (0#1 ++ o) 0x4 d, a]                                         -- B4
  | .regAddr32 d a => wordOf 0x7 (0#1 ++ o) 0xC d :: quadWords a                               -- B6
  | .regInd d off s => [wordOf 0x7 (1#1 ++ o) s d, 0b100#3 ++ off]                             -- B8
  | .addr16Reg a s => [wordOf 0x7 (0#1 ++ o) 0x7 s, a]                                         -- B10
  | .addr32Reg a s => wordOf 0x7 (0#1 ++ o) 0xF s :: quadWords a                               -- B11
  | .indReg off d s => [wordOf 0x7 (1#1 ++ o) s d, 0b111#3 ++ off]                             -- B12
  | .indImm32 d i => wordOf 0xA 0xB (1#1 ++ o) d :: quadWords i                                -- B13
  | .indSimm16 d i => [wordOf 0xA 0xD (0#1 ++ o) d, i]                                         -- B15

/-- The words of BOP.xx Rd, memory: `bz` are the selector bits b and z (40_arithmetic.md R150, B5, B7, B9). -/
def encodeBopSource (o : BitVec 3) (bz : BitVec 2) (d : Reg) : BopSource → List Word
  | .addr16 a => [wordOf 0x7 (0#1 ++ o) (0b00#2 ++ bz) d, a]
  | .addr32 a => wordOf 0x7 (0#1 ++ o) (0b10#2 ++ bz) d :: quadWords a
  | .ind off s => [wordOf 0x7 (1#1 ++ o) s d, 0#1 ++ bz ++ off]

/-- The words of BOP.B (40_arithmetic.md R150, B10 to B12 and B16; the don't-care bits are 0). -/
def encodeBopB (o : BitVec 3) : BopDest 8 → List Word
  | .addr16Reg a s => [wordOf 0x7 (0#1 ++ o) 0x5 s, a]
  | .addr32Reg a s => wordOf 0x7 (0#1 ++ o) 0xD s :: quadWords a
  | .indReg off d s => [wordOf 0x7 (1#1 ++ o) s d, 0b101#3 ++ off]
  | .indImm d i => [wordOf 0xA 0xD 0x9 d, 0#5 ++ o ++ i]

/-- The words of BOP.W (40_arithmetic.md R150, B10 to B12 and B14). -/
def encodeBopW (o : BitVec 3) : BopDest 16 → List Word
  | .addr16Reg a s => [wordOf 0x7 (0#1 ++ o) 0x6 s, a]
  | .addr32Reg a s => wordOf 0x7 (0#1 ++ o) 0xE s :: quadWords a
  | .indReg off d s => [wordOf 0x7 (1#1 ++ o) s d, 0b110#3 ++ off]
  | .indImm d i => [wordOf 0xA 0xB (0#1 ++ o) d, i]

/-- The words of a UOP form with operation number o and size selector sel (40_arithmetic.md R151). -/
def encodeUop (sel o : BitVec 2) : UopDest → List Word
  | .addr16 a => [wordOf 0xA 0xD 0xA (sel ++ o), a]
  | .addr32 a => wordOf 0xA 0xD 0xB (sel ++ o) :: quadWords a
  | .ind d => [wordOf 0xA 0xC (sel ++ o) d]
  | .off off d => [wordOf 0xA 0xD (0b11#2 ++ o) d, sel ++ off]

/-- The words of ADD and ADC (40_arithmetic.md R152). -/
def encodeAddQuad : AddQuad → List Word
  | .bop f => encodeBopQuad 0 f
  | .regSimm8 d i => [wordOfByte 0x8 d i]
  | .regRegReg d s1 s2 => [wordOf 0x2 d s1 s2]

/-- The words of CP and CPC (40_arithmetic.md R156). -/
def encodeCpQuad : CpQuad → List Word
  | .bop f => encodeBopQuad 5 f
  | .regSimm8 d i => [wordOfByte 0x9 d i]

/-- The words of LD Rd, memory (44_load.md R254). -/
def encodeLoadQuad (d : Reg) : LoadSource → List Word
  | .addr16 a => [wordOf 0x0 0x3 0x4 d, a]
  | .addr32 a => wordOf 0x0 0x3 0xC d :: quadWords a
  | .ind s => [wordOf 0x1 0x2 s d]
  | .postInc s => [wordOf 0x1 0x3 s d]
  | .off off s => [wordOf 0x4 0x8 s d, 0b00#2 ++ off]
  | .pcRel off => [wordOf 0x0 0x0 0x2 d, 0b00#2 ++ off]
  | .fpRel off => [0x5#4 ++ 0b11#2 ++ off ++ d]

/-- The words of LD.xx Rd, memory with the selector bits z (signed) and b (Word) (44_load.md R255). -/
def encodeLoadExt (z b : BitVec 1) (d : Reg) : LoadSource → List Word
  | .addr16 a => [wordOf 0x0 0x3 (0b00#2 ++ b ++ z) d, a]
  | .addr32 a => wordOf 0x0 0x3 (0b10#2 ++ b ++ z) d :: quadWords a
  | .ind s => [wordOf 0x1 (1#1 ++ z ++ b ++ 0#1) s d]
  | .postInc s => [wordOf 0x1 (1#1 ++ z ++ b ++ 1#1) s d]
  | .off off s => [wordOf 0x4 0x9 s d, z ++ b ++ off]
  | .pcRel off => [wordOf 0x0 0x0 0x3 d, z ++ b ++ off]
  | .fpRel off => [0x6#4 ++ z ++ b ++ off ++ d]

/-- The words of LD memory, Rs (44_load.md R256, Quad column). -/
def encodeStoreQuad (s : Reg) : StoreDest → List Word
  | .addr16 a => [wordOf 0x0 0x3 0x7 s, a]
  | .addr32 a => wordOf 0x0 0x3 0xF s :: quadWords a
  | .ind d => [wordOf 0x0 0xB s d]
  | .preDec d => [wordOf 0x1 0x0 s d]
  | .postInc d => [wordOf 0x1 0x1 s d]
  | .off off d => [wordOf 0x4 0xA s d, 0b00#2 ++ off]
  | .fpRel off => [0x5#4 ++ 0b10#2 ++ off ++ s]

/-- The words of LD.W memory, Rs (44_load.md R256, .W column). -/
def encodeStoreW (s : Reg) : StoreDest → List Word
  | .addr16 a => [wordOf 0x0 0x3 0x6 s, a]
  | .addr32 a => wordOf 0x0 0x3 0xE s :: quadWords a
  | .ind d => [wordOf 0x0 0xF s d]
  | .preDec d => [wordOf 0x1 0x6 s d]
  | .postInc d => [wordOf 0x1 0x7 s d]
  | .off off d => [wordOf 0x4 0xB s d, 0b01#2 ++ off]
  | .fpRel off => [0x5#4 ++ 0b01#2 ++ off ++ s]

/-- The words of LD.B memory, Rs (44_load.md R256, .B column). -/
def encodeStoreB (s : Reg) : StoreDest → List Word
  | .addr16 a => [wordOf 0x0 0x3 0x5 s, a]
  | .addr32 a => wordOf 0x0 0x3 0xD s :: quadWords a
  | .ind d => [wordOf 0x0 0xE s d]
  | .preDec d => [wordOf 0x1 0x4 s d]
  | .postInc d => [wordOf 0x1 0x5 s d]
  | .off off d => [wordOf 0x4 0xB s d, 0b00#2 ++ off]
  | .fpRel off => [0x5#4 ++ 0b00#2 ++ off ++ s]

/-- The words of LD without suffix (44_load.md R253, R254, R256, R257). -/
def encodeLdQuad : LdQuad → List Word
  | .regSimm8 d i => [wordOfByte 0x3 d i]
  | .regSimm17 d i => [wordOf 0x4 0x5 (0b000#3 ++ i.extractLsb' 16 1) d, i.extractLsb' 0 16]
  | .regImm32 d i => wordOf 0x4 0x5 0x2 d :: quadWords i
  | .regReg d s => [wordOf 0x4 0x4 s d]
  | .load d m => encodeLoadQuad d m
  | .store m s => encodeStoreQuad s m
  | .storeImm32 .ind d i => wordOf 0x0 0x9 0xD d :: quadWords i
  | .storeImm32 .preDec d i => wordOf 0x0 0x9 0xE d :: quadWords i
  | .storeImm32 .postInc d i => wordOf 0x0 0x9 0xF d :: quadWords i
  | .storeSimm16 .ind d i => [wordOf 0x0 0x9 0x7 d, i]
  | .storeSimm16 .preDec d i => [wordOf 0x0 0x9 0x9 d, i]
  | .storeSimm16 .postInc d i => [wordOf 0x0 0x9 0xB d, i]

/-- The words of LD.B (44_load.md R256, R257; the don't-care bits are 0). -/
def encodeLdB : LdNarrow 8 → List Word
  | .store m s => encodeStoreB s m
  | .storeImm .ind d i => [wordOf 0x0 0x9 0xC d, 0#8 ++ i]
  | .storeImm .preDec d i => [wordOf 0x0 0x9 0x4 d, 0#8 ++ i]
  | .storeImm .postInc d i => [wordOf 0x0 0x9 0x5 d, 0#8 ++ i]

/-- The words of LD.W (44_load.md R256, R257). -/
def encodeLdW : LdNarrow 16 → List Word
  | .store m s => encodeStoreW s m
  | .storeImm .ind d i => [wordOf 0x0 0x9 0x6 d, i]
  | .storeImm .preDec d i => [wordOf 0x0 0x9 0x8 d, i]
  | .storeImm .postInc d i => [wordOf 0x0 0x9 0xA d, i]

/-- The words of LEA (44_load.md R282). -/
def encodeLea (d : Reg) : LeaSource → List Word
  | .pcRel off => [wordOf 0x0 0x0 0x2 d, 0b10#2 ++ off]
  | .off off s => [wordOf 0x4 0x8 s d, 0b10#2 ++ off]
  | .fpRel off => [0x4#4 ++ 0b11#2 ++ off ++ d]

/-- The word of a shift or rotate; oo names it: 0 SRA, 1 SRL, 2 SLL, 3 RL (43_rotate_shift.md R230). -/
def encodeShift (oo : BitVec 2) (d : Reg) : ShiftCount → List Word
  | .uimm5 n => [0b1011#4 ++ 1#1 ++ oo ++ n ++ d]
  | .reg s => [wordOf 0xB (0b01#2 ++ oo) s d]

/-- The words of JP (46_program_control.md R350). -/
def encodeJp : JumpTarget → List Word
  | .reg s => [wordOf 0xF 0x2 0x0 s]
  | .rel12 r => [0xC#4 ++ r]
  | .rel24 r => [wordOfByte 0xF 0x0 (r.extractLsb' 16 8), r.extractLsb' 0 16]

/-- The words of CALL (46_program_control.md R342). -/
def encodeCall : JumpTarget → List Word
  | .reg s => [wordOf 0xF 0x2 0x1 s]
  | .rel12 r => [0xD#4 ++ r]
  | .rel24 r => [wordOfByte 0xF 0x1 (r.extractLsb' 16 8), r.extractLsb' 0 16]

/-- The words of JP cc (46_program_control.md R352, R353). -/
def encodeJpCc (cc : Cond) : CondTarget → List Word
  | .rel8 r => [wordOfByte 0xE cc.bits r]
  | .rel16 r => [wordOf 0xF 0x2 0x2 cc.bits, r]

/-- The words of an instruction, first word first, don't-care bits 0. The words of an extended instruction are those
after its prefix (30_encoding.md R119). -/
def encode : Instr → List Word
  | .brk => [0x0000]
  | .unlink => [0x0001]
  | .pushf => [0x0002]
  | .popf => [0x0003]
  | .atm => [0x0004]
  | .noflags => [0x0005]
  | .extend => [0x0007]
  | .ld f => encodeLdQuad f
  | .lea d m => encodeLea d m
  | .ldUB d m => encodeLoadExt 0 0 d m
  | .ldUW d m => encodeLoadExt 0 1 d m
  | .ldSB d m => encodeLoadExt 1 0 d m
  | .ldSW d m => encodeLoadExt 1 1 d m
  | .ldCc cc d => [wordOf 0x0 0x1 cc.bits d]
  | .ldB f => encodeLdB f
  | .ldW f => encodeLdW f
  | .pushmlo mask => [wordOfByte 0x0 0x4 mask]
  | .pushmhi mask => [wordOfByte 0x0 0x5 mask]
  | .popmlo mask => [wordOfByte 0x0 0x6 mask]
  | .popmhi mask => [wordOfByte 0x0 0x7 mask]
  | .link i => [wordOfByte 0x0 0x8 i]
  | .pushB i => [wordOfByte 0x0 0xA i]
  | .pushW i => [wordOfByte 0x0 0xC i]
  | .push i => [wordOfByte 0x0 0xD i]
  | .add f => encodeAddQuad f
  | .extUB d s => [wordOf 0x4 0x0 s d]
  | .extUW d s => [wordOf 0x4 0x1 s d]
  | .extSB d s => [wordOf 0x4 0x2 s d]
  | .extSW d s => [wordOf 0x4 0x3 s d]
  | .ldes d => [wordOf 0x4 0x5 0x3 d]
  | .com d => [wordOf 0x4 0x5 0x4 d]
  | .neg d => [wordOf 0x4 0x5 0x5 d]
  | .addUB d m => encodeBopSource 0 0b00 d m
  | .addSB d m => encodeBopSource 0 0b01 d m
  | .addUW d m => encodeBopSource 0 0b10 d m
  | .addSW d m => encodeBopSource 0 0b11 d m
  | .addB f => encodeBopB 0 f
  | .addW f => encodeBopW 0 f
  | .subUB d m => encodeBopSource 1 0b00 d m
  | .subSB d m => encodeBopSource 1 0b01 d m
  | .subUW d m => encodeBopSource 1 0b10 d m
  | .subSW d m => encodeBopSource 1 0b11 d m
  | .sub f => encodeBopQuad 1 f
  | .subB f => encodeBopB 1 f
  | .subW f => encodeBopW 1 f
  | .andUB d m => encodeBopSource 2 0b00 d m
  | .andSB d m => encodeBopSource 2 0b01 d m
  | .andUW d m => encodeBopSource 2 0b10 d m
  | .andSW d m => encodeBopSource 2 0b11 d m
  | .and f => encodeBopQuad 2 f
  | .andB f => encodeBopB 2 f
  | .andW f => encodeBopW 2 f
  | .orUB d m => encodeBopSource 3 0b00 d m
  | .orSB d m => encodeBopSource 3 0b01 d m
  | .orUW d m => encodeBopSource 3 0b10 d m
  | .orSW d m => encodeBopSource 3 0b11 d m
  | .or f => encodeBopQuad 3 f
  | .orB f => encodeBopB 3 f
  | .orW f => encodeBopW 3 f
  | .xorUB d m => encodeBopSource 4 0b00 d m
  | .xorSB d m => encodeBopSource 4 0b01 d m
  | .xorUW d m => encodeBopSource 4 0b10 d m
  | .xorSW d m => encodeBopSource 4 0b11 d m
  | .xor f => encodeBopQuad 4 f
  | .xorB f => encodeBopB 4 f
  | .xorW f => encodeBopW 4 f
  | .cpUB d m => encodeBopSource 5 0b00 d m
  | .cpSB d m => encodeBopSource 5 0b01 d m
  | .cpUW d m => encodeBopSource 5 0b10 d m
  | .cpSW d m => encodeBopSource 5 0b11 d m
  | .cp f => encodeCpQuad f
  | .cpB f => encodeBopB 5 f
  | .cpW f => encodeBopW 5 f
  | .tmUB d m => encodeBopSource 6 0b00 d m
  | .tmSB d m => encodeBopSource 6 0b01 d m
  | .tmUW d m => encodeBopSource 6 0b10 d m
  | .tmSW d m => encodeBopSource 6 0b11 d m
  | .tm f => encodeBopQuad 6 f
  | .tmB f => encodeBopB 6 f
  | .tmW f => encodeBopW 6 f
  | .tcmUB d m => encodeBopSource 7 0b00 d m
  | .tcmSB d m => encodeBopSource 7 0b01 d m
  | .tcmUW d m => encodeBopSource 7 0b10 d m
  | .tcmSW d m => encodeBopSource 7 0b11 d m
  | .tcm f => encodeBopQuad 7 f
  | .tcmB f => encodeBopB 7 f
  | .tcmW f => encodeBopW 7 f
  | .clrB m => encodeUop 0b00 0 m
  | .clrW m => encodeUop 0b01 0 m
  | .clr m => encodeUop 0b10 0 m
  | .cpzB m => encodeUop 0b00 1 m
  | .cpzW m => encodeUop 0b01 1 m
  | .cpz m => encodeUop 0b10 1 m
  | .incB m => encodeUop 0b00 2 m
  | .incW m => encodeUop 0b01 2 m
  | .inc m => encodeUop 0b10 2 m
  | .decB m => encodeUop 0b00 3 m
  | .decW m => encodeUop 0b01 3 m
  | .dec m => encodeUop 0b10 3 m
  | .udiv d s => [wordOf 0xA 0xE s d]
  | .sdiv d s => [wordOf 0xA 0xF s d]
  | .umul d s => [wordOf 0xB 0x0 s d]
  | .smul d s => [wordOf 0xB 0x1 s d]
  | .mul d s => [wordOf 0xB 0x2 s d]
  | .sra d n => encodeShift 0 d n
  | .srl d n => encodeShift 1 d n
  | .sll d n => encodeShift 2 d n
  | .rl d n => encodeShift 3 d n
  | .jp t => encodeJp t
  | .call t => encodeCall t
  | .jpCc cc t => encodeJpCc cc t
  | .jpa i => 0xF230 :: quadWords i
  | .calla i => 0xF231 :: quadWords i
  | .djnz d urel4 => [wordOf 0xF 0xD urel4 d]
  | .trap vector => [wordOfByte 0xF 0xE vector]
  | .wdt => [0xFFF7]
  | .stop => [0xFFF8]
  | .halt => [0xFFF9]
  | .ei => [0xFFFA]
  | .di => [0xFFFB]
  | .ret => [0xFFFC]
  | .iret => [0xFFFD]
  | .nop => [0xFFFE]
  | .ill => [0xFFFF]
  | .unimplemented w0 => [w0]
  | .adcUB d m => encodeBopSource 0 0b00 d m
  | .adcSB d m => encodeBopSource 0 0b01 d m
  | .adcUW d m => encodeBopSource 0 0b10 d m
  | .adcSW d m => encodeBopSource 0 0b11 d m
  | .adc f => encodeAddQuad f
  | .adcB f => encodeBopB 0 f
  | .adcW f => encodeBopW 0 f
  | .sbcUB d m => encodeBopSource 1 0b00 d m
  | .sbcSB d m => encodeBopSource 1 0b01 d m
  | .sbcUW d m => encodeBopSource 1 0b10 d m
  | .sbcSW d m => encodeBopSource 1 0b11 d m
  | .sbc f => encodeBopQuad 1 f
  | .sbcB f => encodeBopB 1 f
  | .sbcW f => encodeBopW 1 f
  | .cpcUB d m => encodeBopSource 5 0b00 d m
  | .cpcSB d m => encodeBopSource 5 0b01 d m
  | .cpcUW d m => encodeBopSource 5 0b10 d m
  | .cpcSW d m => encodeBopSource 5 0b11 d m
  | .cpc f => encodeCpQuad f
  | .cpcB f => encodeBopB 5 f
  | .cpcW f => encodeBopW 5 f
  | .cpczB m => encodeUop 0b00 1 m
  | .cpczW m => encodeUop 0b01 1 m
  | .cpcz m => encodeUop 0b10 1 m
  | .sllx d s => [wordOf 0xB 0x6 s d]
  | .srax d s => [wordOf 0xB 0x4 s d]
  | .srlx d s => [wordOf 0xB 0x5 s d]
  | .udiv64 d s => [wordOf 0xA 0xE s d]

/-- The mnemonics that stand for the Extend prefix and another opcode (30_encoding.md R119). -/
def Instr.isExtended : Instr → Bool
  | .adcUB _ _ | .adcSB _ _ | .adcUW _ _ | .adcSW _ _ | .adc _ | .adcB _ | .adcW _
  | .sbcUB _ _ | .sbcSB _ _ | .sbcUW _ _ | .sbcSW _ _ | .sbc _ | .sbcB _ | .sbcW _
  | .cpcUB _ _ | .cpcSB _ _ | .cpcUW _ _ | .cpcSW _ _ | .cpc _ | .cpcB _ | .cpcW _
  | .cpczB _ | .cpczW _ | .cpcz _ | .sllx _ _ | .srax _ _ | .srlx _ _ | .udiv64 _ _ => true
  | _ => false

/-- The three prefix words (30_encoding.md R118). -/
def Instr.isPrefix : Instr → Bool
  | .atm | .noflags | .extend => true
  | _ => false

/-- The words of an instruction with the Extend prefix where it needs one: what an assembler emits. -/
def assemble (i : Instr) : List Word :=
  if i.isExtended then 0x0007 :: encode i else encode i

/-- What the decoder makes of a list of words, words that are missing read as 0. -/
def decodeList (ext : Bool) : List Word → Instr
  | [] => decodeWords ext 0 0 0
  | [w0] => decodeWords ext w0 0 0
  | [w0, w1] => decodeWords ext w0 w1 0
  | w0 :: w1 :: w2 :: _ => decodeWords ext w0 w1 w2

/-- The length of an instruction in bytes, its own words only (00_scope.md R15, `len`). -/
def Instr.len (i : Instr) : Nat := 2 * (encode i).length

end Sys2Proof
end

