-- ==== Sys2Proof/Config.lean ====
section
/-! DEFINITION. What an implementation of the ZNEO CPU fixes and the spec leaves OPEN
(spec/00_scope.md R5, spec/92_eei_decisions.md, table of parameters), and the free values. A `Config` is plain data
held in the machine's state and changed by no step, so that a statement about every state is a statement about every
configuration. -/

namespace Sys2Proof

/-- ADDR_BITS: how many address bits the memory system sees (20_memory.md R61, D1). -/
inductive AddrBits where
  | bits24
  | bits32
deriving DecidableEq, Repr

/-- The kinds of region of `MemMap` (20_memory.md R63, D2). -/
inductive RegionKind where
  | nvm
  | ram
  | io
  | external
  | unavailable
deriving DecidableEq, Repr

/-- One region of `MemMap`: physical addresses base up to, not including, base + size. -/
structure Region where
  base : Nat
  size : Nat
  kind : RegionKind
deriving DecidableEq, Repr

/-- SYSEXCP_ADDR and SYSEXCP_BIT: where a device puts the System Exception register, its five bits (10_state.md R37, D8),
and the bits of the further exception kinds it has, each with its kind (60_exceptions.md R434). -/
structure SysexcpPlace where
  addr   : Quad
  pcovf  : Fin 8
  spovf  : Fin 8
  div0   : Fin 8
  divovf : Fin 8
  ill    : Fin 8
  extra  : List (Nat × Fin 8)
deriving DecidableEq, Repr

/-- The read behaviour of a peripheral register (20_memory.md R67, U10). The kinds are the model's
(DESIGN CHOICE, notes/assumptions/19.md). -/
inductive IoRead where
  /-- The contents of the register. -/
  | contents
  /-- A fixed byte: a write-only register. -/
  | constant (b : Byte)
  /-- The contents, which the read then clears. -/
  | clearing
deriving DecidableEq, Repr

/-- The write behaviour of a peripheral register (20_memory.md R67, U10, 60_exceptions.md R418, R419). The kinds are the
model's (DESIGN CHOICE, notes/assumptions/19.md). -/
inductive IoWrite where
  /-- The byte written becomes the contents. -/
  | stored
  /-- No effect on a register: a read-only register. -/
  | ignored
  /-- Each 1 written sets that bit of the register at the target, as IRQ1SET does to IRQ1 (60_exceptions.md R418). -/
  | setsOnes (target : Nat)
  /-- Each 1 written clears that bit of the register at the target, as IRQ1 does to itself (60_exceptions.md R419). -/
  | clearsOnes (target : Nat)
deriving DecidableEq, Repr

/-- One register of a peripheral, the Interrupt Controller's among them: its physical address, its contents after reset,
and its read and write behaviour (D26). -/
structure IoDevice where
  addr  : Nat
  reset : Byte
  read  : IoRead
  write : IoWrite
deriving DecidableEq, Repr

/-- The environment events that WakeFromHalt and WakeFromStop may admit (45_cpu_control.md R327, R330, D17). -/
inductive WakeEvent where
  /-- A vectored interrupt is pending and IRQE = 1. -/
  | enabledInterrupt
  /-- A vectored interrupt is pending, whatever IRQE is. -/
  | anyInterrupt
  /-- A system exception is pending; in Halt or Stop mode only a device raises one (60_exceptions.md R434). -/
  | exception
  /-- The device's own wake signal. -/
  | external
deriving DecidableEq, Repr

/-- The OPEN parameters of the spec (92_eei_decisions.md). -/
structure Config where
  /-- ADDR_BITS, D1. -/
  addrBits        : AddrBits
  /-- MemMap, D2: the first region that holds an address gives its kind; an address in none is unavailable. -/
  memMap          : List Region
  /-- SYSEXCP_ADDR and SYSEXCP_BIT, D8; none: the bits are cleared by the environment only. -/
  sysexcpPlace    : Option SysexcpPlace
  /-- IoDevices, D26: the peripherals' registers; the first one at an address is the one that is there. -/
  ioDevices       : List IoDevice
  /-- ExtraExceptions, D11, U17: the kinds of system exception the device has beside the five, by number. -/
  extraExceptions : List Nat
  /-- OCD_BREAK_ENABLED, D20. -/
  ocdBreakEnabled : Bool
  /-- WakeFromHalt, D17. -/
  wakeFromHalt    : List WakeEvent
  /-- WakeFromStop, D17. -/
  wakeFromStop    : List WakeEvent
  /-- RESET_VECTOR, D7. -/
  resetVector     : Quad
deriving DecidableEq, Repr

/-- The defaults of 92_eei_decisions.md. MemMap has no default there (D2); the map is the one of the spec's own test
programs (DESIGN CHOICE, notes/assumptions/2.md). -/
def Config.default : Config where
  addrBits := .bits24
  memMap := [⟨0x000000, 0x020000, .nvm⟩, ⟨0xFFB000, 0x003000, .ram⟩]
  sysexcpPlace := none
  ioDevices := []
  extraExceptions := []
  ocdBreakEnabled := false
  wakeFromHalt := []
  wakeFromStop := []
  resetVector := 4

/-- A free value: the 32-bit `any value` of 93_implementation_defined.md U18, one for each step
(notes/assumptions/10.md). It has no body: nothing can be proved of it. -/
opaque Config.freeQuad : (draw : Nat) → Quad

/-- A free value: what a reserved byte of I/O memory reads as (93_implementation_defined.md U6), one for each step and
address (notes/assumptions/11.md). It has no body: nothing can be proved of it. -/
opaque Config.freeByte : (draw : Nat) → (address : Nat) → Byte

end Sys2Proof
end

