-- ==== Sys2Proof/Machine/State.lean ====
section
/-! DEFINITION. The state of the machine: every piece of state spec/10_state.md names (R20 to R47), the hidden state of
R42 to R44, the configuration, and the model's own view of the environment. Also the reasons a step can stop, and the
state after reset. -/

namespace Sys2Proof.Machine

/-- Why the model stops with a fault. Each is safe: the spec gives the machine no further behaviour there, or leaves it
to a device, and the model gives none. -/
inductive Fault where
  /-- A data read at an address with no memory (20_memory.md R68, U1). Raised by every instruction that reads memory,
  and by entries that read a vector. Safe. -/
  | unavailableRead
  /-- A data write at an address with no memory (20_memory.md R68, U1). Raised by every instruction or entry that
  writes memory. Safe. -/
  | unavailableWrite
  /-- An instruction fetch at an address with no memory (20_memory.md R68, U1). Raised by the fetch. Safe. -/
  | unavailableFetch
  /-- An instruction fetch in the I/O range (20_memory.md R74, U2). Raised by the fetch. Safe. -/
  | ioFetch
  /-- BRK with On-Chip Debugger breaks enabled: the debugger ends the run (46_program_control.md R341, D20). Safe. -/
  | debuggerBreak
  /-- Halt mode with no admitted event and no further input of the environment (45_cpu_control.md R327, U22). Safe. -/
  | stuckInHalt
  /-- Stop mode with no admitted event and no further input of the environment (45_cpu_control.md R330, U22). Safe. -/
  | stuckInStop
deriving DecidableEq, Repr

/-- Why the model gives a program no meaning. Each is safe: nothing can be proved of what follows. -/
inductive Refusal where
  /-- An instruction whose meaning is not written yet. Safe. -/
  | notModelled (mnemonic : String)
  /-- An odd value loaded into PC by RET, IRET, TRAP, a vector or reset, or a fetch at an odd PC (10_state.md R27, U3).
  Safe. -/
  | oddPc
  /-- A store into nonvolatile memory (20_memory.md R65, U4). Raised by every instruction or entry that writes memory.
  Safe. -/
  | nvmStore
  /-- An arithmetic or logical result stored at the FLAGS address while the flags are written too (10_state.md R35,
  U12). Raised by ADD, ADC, SUB, SBC, AND, OR, XOR, INC and DEC. Safe. -/
  | flagsDestination
  /-- A fetch of a byte stored since the last taken control transfer (20_memory.md R90, U20). Raised by the fetch.
  Safe. -/
  | staleCode
deriving DecidableEq, Repr

/-- The system exceptions, each with its bit in SYSEXCP: the five of the CPU (60_exceptions.md R422) and the further kinds
of a device, by number (R434). -/
inductive SysExc where
  | pcOverflow
  | stackOverflow
  | divideByZero
  | divideOverflow
  | illegalInstruction
  | extra (kind : Nat)
deriving DecidableEq, Repr

/-- The status bits of the System Exception register (10_state.md R37); bit k of `extra` is that of the device's further
kind k (60_exceptions.md R434). -/
structure Sysexcp where
  pcovf  : Bool
  spovf  : Bool
  div0   : Bool
  divovf : Bool
  ill    : Bool
  extra  : Nat
deriving DecidableEq, Repr

/-- Whether the CPU executes (10_state.md R43). -/
inductive RunState where
  | running
  | halted
  | stopped
deriving DecidableEq, Repr

/-- What the environment can do to the machine between two instructions. -/
inductive EnvInput where
  /-- The Interrupt Controller changes what it presents: the answer of PendingInterrupt() (60_exceptions.md R410). -/
  | irq (vector : Option Quad)
  /-- ClearSysexcp(name), where SYSEXCP has no address (D8). -/
  | clearSysexcp (x : SysExc)
  /-- A device changes the contents of its register (20_memory.md R67, D26). -/
  | device (addr : Nat) (contents : Byte)
  /-- A device raises one of its further system exceptions (60_exceptions.md R434). -/
  | exception (kind : Nat)
  /-- The device's own wake signal (D17). -/
  | wake
  /-- Reset (70_reset_and_hazards.md R460). -/
  | reset
deriving DecidableEq, Repr

/-- What the machine tells the environment. -/
inductive EnvEvent where
  /-- InterruptAcknowledge(v) (60_exceptions.md R410). -/
  | interruptAcknowledge (vector : Quad)
  /-- WDT with the Watchdog Timer disabled: it starts (45_cpu_control.md R331). -/
  | watchdogStart
  /-- WatchdogRefresh(), on each WDT (45_cpu_control.md R331, D21). -/
  | watchdogRefresh
  /-- A read of a peripheral's register (20_memory.md R67, D26). -/
  | deviceRead (addr : Nat)
  /-- A store to a peripheral's register (20_memory.md R67, 60_exceptions.md R410). -/
  | deviceWrite (addr : Nat) (value : Byte)
deriving DecidableEq, Repr

/-- The state of the machine. -/
structure State where
  /-- R0 to R15; R15 is SP, R14 is FP (10_state.md R20 to R22). -/
  regs           : Vector Quad 16
  /-- The Program Counter (10_state.md R25). -/
  pc             : Quad
  /-- The byte FLAGS: C Z S V B F1 CIRQE IRQE from bit 7 to bit 0 (10_state.md R29). -/
  flags          : Byte
  /-- Program Counter Overflow register (10_state.md R38). -/
  pcov           : Quad
  /-- Stack Pointer Overflow register (10_state.md R39). -/
  spov           : Quad
  /-- CPUCTL.DMABW; the other bits of CPUCTL are fixed (10_state.md R40). -/
  dmabw          : BitVec 2
  /-- The bits of SYSEXCP (10_state.md R37). -/
  sysexcp        : Sysexcp
  /-- extend_pending (10_state.md R42). -/
  extendPending  : Bool
  /-- noflags_pending (10_state.md R42). -/
  noflagsPending : Bool
  /-- atm_count, 0 to 3 (10_state.md R42). -/
  atmCount       : Nat
  /-- pending_exception (10_state.md R43, 60_exceptions.md R420). -/
  pendingExc     : Option SysExc
  /-- The further exceptions a device raised between a NOFLAGS or Extend prefix and its instruction, oldest first; they
  wait for a boundary without a prefix (45_cpu_control.md R320, D12, notes/assumptions/36.md). -/
  heldExc        : List Nat
  /-- run_state (10_state.md R43). -/
  runState       : RunState
  /-- wdt_enabled (10_state.md R43). -/
  wdtEnabled     : Bool
  /-- The vector address of the interrupt the controller presents (60_exceptions.md R410). -/
  irq            : Option Quad
  /-- The physical addresses of memory the CPU has stored to since the last taken control transfer, strictly rising
  (10_state.md R44, 20_memory.md R90). -/
  written        : List Nat
  /-- The bytes that differ from what a blank memory reads as, by physical address, strictly rising. -/
  mem            : List Host.Cell
  /-- The contents of the peripherals' registers that differ from their reset contents, by physical address, strictly
  rising (20_memory.md R67, D26). -/
  ioRegs         : List Host.Cell
  /-- The OPEN parameters; no step changes them. -/
  cfg            : Config
  /-- The MODEL's own: what the environment does at each coming step, the next step first. -/
  env            : List (List EnvInput)
  /-- The MODEL's own: what the environment has been told, newest first. -/
  events         : List EnvEvent
  /-- The MODEL's own: the number of the draw of the free values; every step advances it. -/
  freeCtr        : Nat
deriving DecidableEq, Repr

/-- No status bit set: the reset value of the five bits (10_state.md R47, D8). That the bits of a device's further kinds are
0 at reset too is the model's: R47 and D8 give them no value (DESIGN CHOICE, notes/assumptions/37.md). -/
def Sysexcp.clear : Sysexcp := ⟨false, false, false, false, false, 0⟩

/-- The machine right after reset with a blank memory (10_state.md R47, 70_reset_and_hazards.md R460, R461). The RESET
vector of a blank nonvolatile memory is FFFF_FFFFH. R0 to R15 and C, Z, S, V, B have no reset value in the spec: 0 is
the model's (DESIGN CHOICE, notes/assumptions/1.md, 3.md), and so is 0 for the SYSEXCP bits of a device's further kinds
(notes/assumptions/37.md); how a program comes to run: notes/assumptions/5.md. -/
def State.reset : State where
  regs := Vector.replicate 16 0
  pc := 0xFFFFFFFF
  flags := 0
  pcov := 0xFFFFFFFF
  spov := 0
  dmabw := 3
  sysexcp := Sysexcp.clear
  extendPending := false
  noflagsPending := false
  atmCount := 0
  pendingExc := none
  heldExc := []
  runState := .running
  wdtEnabled := false
  irq := none
  written := []
  mem := []
  ioRegs := []
  cfg := Config.default
  env := []
  events := []
  freeCtr := 0

end Sys2Proof.Machine
end

