-- ==== Sys2Proof/Machine/Flags.lean ====
section
/-! DEFINITION. The FLAGS register, its updates, the condition codes, and the arithmetic that computes results and flags
(spec/10_state.md R29 to R36, spec/00_scope.md R16, and the flag rules of the families). -/

namespace Sys2Proof.Machine

/-! ### The byte FLAGS (10_state.md R29) -/

/-- Carry, bit 7. -/
def flagC (f : Byte) : Bool := f.getLsbD 7
/-- Zero, bit 6. -/
def flagZ (f : Byte) : Bool := f.getLsbD 6
/-- Sign, bit 5. -/
def flagS (f : Byte) : Bool := f.getLsbD 5
/-- Overflow, bit 4. -/
def flagV (f : Byte) : Bool := f.getLsbD 4
/-- Blank, bit 3. -/
def flagB (f : Byte) : Bool := f.getLsbD 3
/-- User Flag 1, bit 2. -/
def flagF1 (f : Byte) : Bool := f.getLsbD 2
/-- Chained Interrupt Enable, bit 1. -/
def flagCirqe (f : Byte) : Bool := f.getLsbD 1
/-- Master Interrupt Enable, bit 0. -/
def flagIrqe (f : Byte) : Bool := f.getLsbD 0

/-- The byte from its bits, bit 7 first. -/
def packFlags (c z s v b f1 cirqe irqe : Bool) : Byte :=
  BitVec.ofBool c ++ BitVec.ofBool z ++ BitVec.ofBool s ++ BitVec.ofBool v ++
    BitVec.ofBool b ++ BitVec.ofBool f1 ++ BitVec.ofBool cirqe ++ BitVec.ofBool irqe

/-- The byte with another IRQE. -/
def withIrqe (f : Byte) (irqe : Bool) : Byte :=
  packFlags (flagC f) (flagZ f) (flagS f) (flagV f) (flagB f) (flagF1 f) (flagCirqe f) irqe

/-- The byte with another CIRQE and IRQE. -/
def withEnables (f : Byte) (cirqe irqe : Bool) : Byte :=
  packFlags (flagC f) (flagZ f) (flagS f) (flagV f) (flagB f) (flagF1 f) cirqe irqe

/-- The flags an instruction lists in SetFlags; none: not listed (00_scope.md R15). -/
structure FlagUpdate where
  c : Option Bool := none
  z : Option Bool := none
  s : Option Bool := none
  v : Option Bool := none
  b : Option Bool := none
deriving DecidableEq, Repr

/-- The byte with the listed flags assigned. -/
def applyFlags (u : FlagUpdate) (f : Byte) : Byte :=
  packFlags (u.c.getD (flagC f)) (u.z.getD (flagZ f)) (u.s.getD (flagS f)) (u.v.getD (flagV f)) (u.b.getD (flagB f))
    (flagF1 f) (flagCirqe f) (flagIrqe f)

/-- SetFlags: assigns exactly the listed flags, and nothing under NOFLAGS (10_state.md R34). -/
def setFlags (u : FlagUpdate) (s : State) : State :=
  if s.noflagsPending then s else { s with flags := applyFlags u s.flags }

/-- The condition codes (10_state.md R36, Table 3). -/
def condHolds (cc : Cond) (f : Byte) : Bool :=
  match cc with
  | .b => flagB f
  | .lt => flagS f ^^ flagV f
  | .le => flagZ f || (flagS f ^^ flagV f)
  | .ule => flagC f || flagZ f
  | .ov => flagV f
  | .mi => flagS f
  | .z => flagZ f
  | .c => flagC f
  | .nb => !flagB f
  | .ge => !(flagS f ^^ flagV f)
  | .gt => !(flagZ f || (flagS f ^^ flagV f))
  | .ugt => !(flagC f || flagZ f)
  | .nov => !flagV f
  | .pl => !flagS f
  | .nz => !flagZ f
  | .nc => !flagC f

/-! ### Addition and subtraction (00_scope.md R16) -/

/-- A result and the flags of the addition or subtraction that gave it. -/
structure AluResult (w : Nat) where
  result : BitVec w
  c : Bool
  z : Bool
  s : Bool
  v : Bool
deriving DecidableEq, Repr

/-- Add(W, a, b, c) of 00_scope.md R16. -/
def aluAdd {w : Nat} (a b : BitVec w) (c : Bool) : AluResult w :=
  let wide := a.toNat + b.toNat + c.toNat
  let r := BitVec.ofNat w wide
  { result := r, c := decide (2 ^ w ≤ wide), z := r == 0#w, s := r.msb, v := a.msb == b.msb && r.msb != a.msb }

/-- Sub(W, a, b, c) of 00_scope.md R16: a - b - c, a borrow is C = 1. -/
def aluSub {w : Nat} (a b : BitVec w) (c : Bool) : AluResult w :=
  let wide : Int := (a.toNat : Int) - b.toNat - c.toNat
  let r := BitVec.ofInt w wide
  { result := r, c := decide (wide < 0), z := r == 0#w, s := r.msb, v := a.msb != b.msb && r.msb == b.msb }

/-- The Blank test of two operands (10_state.md R32, D31). -/
def blankOf {w : Nat} (a b : BitVec w) : Bool := a == 0#w || b == 0#w

/-- C, Z, S, V from the operation, B as given (40_arithmetic.md R152, R154). -/
def arithFlags {w : Nat} (r : AluResult w) (blank : Bool) : FlagUpdate :=
  { c := some r.c, z := some r.z, s := some r.s, v := some r.v, b := some blank }

/-- The same with a sticky Z: it only stays 1 (40_arithmetic.md R153, R155, R157, R159). -/
def stickyFlags {w : Nat} (z0 : Bool) (r : AluResult w) (blank : Bool) : FlagUpdate :=
  { c := some r.c, z := some (z0 && r.z), s := some r.s, v := some r.v, b := some blank }

/-- LogicFlags of 41_logical.md R200: C unchanged, V cleared. -/
def logicFlags {w : Nat} (a b r : BitVec w) : FlagUpdate :=
  { z := some (r == 0#w), s := some r.msb, v := some false, b := some (blankOf a b) }

/-- The flags of multiplies and unsigned divides: C unchanged, V and B cleared (40_arithmetic.md R163 to R166). -/
def productFlags (z s : Bool) : FlagUpdate := { z := some z, s := some s, v := some false, b := some false }

/-- ShiftFlags of 43_rotate_shift.md R231. -/
def shiftFlags (r : Quad) (lastOut : Bool) : FlagUpdate :=
  { c := some lastOut, z := some (r == 0#32), s := some r.msb, v := some (lastOut ^^ r.msb), b := some false }

/-- The one flag of loads (44_load.md R250). -/
def blankFlag {w : Nat} (v : BitVec w) : FlagUpdate := { b := some (v == 0#w) }

/-! ### The operations of the two-operand instructions: FLAGS and the operands a, b give a result and a flag update -/

/-- ADD (40_arithmetic.md R152). -/
def opAdd {w : Nat} (_f : Byte) (a b : BitVec w) : BitVec w × FlagUpdate :=
  let r := aluAdd a b false
  (r.result, arithFlags r (blankOf a b))

/-- ADC (40_arithmetic.md R153). -/
def opAdc {w : Nat} (f : Byte) (a b : BitVec w) : BitVec w × FlagUpdate :=
  let r := aluAdd a b (flagC f)
  (r.result, stickyFlags (flagZ f) r (blankOf a b))

/-- SUB and CP (40_arithmetic.md R154, R156). -/
def opSub {w : Nat} (_f : Byte) (a b : BitVec w) : BitVec w × FlagUpdate :=
  let r := aluSub a b false
  (r.result, arithFlags r (blankOf a b))

/-- SBC and CPC (40_arithmetic.md R155, R157). -/
def opSbc {w : Nat} (f : Byte) (a b : BitVec w) : BitVec w × FlagUpdate :=
  let r := aluSub a b (flagC f)
  (r.result, stickyFlags (flagZ f) r (blankOf a b))

/-- AND and TM (41_logical.md R201, 42_bit_manipulation.md R221). -/
def opAnd {w : Nat} (_f : Byte) (a b : BitVec w) : BitVec w × FlagUpdate := (a &&& b, logicFlags a b (a &&& b))

/-- OR (41_logical.md R202). -/
def opOr {w : Nat} (_f : Byte) (a b : BitVec w) : BitVec w × FlagUpdate := (a ||| b, logicFlags a b (a ||| b))

/-- XOR (41_logical.md R203). -/
def opXor {w : Nat} (_f : Byte) (a b : BitVec w) : BitVec w × FlagUpdate := (a ^^^ b, logicFlags a b (a ^^^ b))

/-- TCM (42_bit_manipulation.md R222); B tests the uncomplemented a. -/
def opTcm {w : Nat} (_f : Byte) (a b : BitVec w) : BitVec w × FlagUpdate := (~~~a &&& b, logicFlags a b (~~~a &&& b))

/-! ### The operations of INC, DEC, CPZ and CPCZ on one operand -/

/-- INC (40_arithmetic.md R160). -/
def opInc {w : Nat} (_f : Byte) (a : BitVec w) : BitVec w × FlagUpdate :=
  let r := aluAdd a 1#w false
  (r.result, arithFlags r (a == 0#w))

/-- DEC, and DJNZ's decrement (40_arithmetic.md R161, 46_program_control.md R344). -/
def opDec {w : Nat} (_f : Byte) (a : BitVec w) : BitVec w × FlagUpdate :=
  let r := aluSub a 1#w false
  (r.result, arithFlags r (a == 0#w))

/-- CPZ (40_arithmetic.md R158). -/
def opCpz {w : Nat} (_f : Byte) (a : BitVec w) : BitVec w × FlagUpdate :=
  let r := aluSub a 0#w false
  (r.result, arithFlags r true)

/-- CPCZ (40_arithmetic.md R159). -/
def opCpcz {w : Nat} (f : Byte) (a : BitVec w) : BitVec w × FlagUpdate :=
  let r := aluSub a 0#w (flagC f)
  (r.result, stickyFlags (flagZ f) r true)

/-! ### Shifts and rotate (43_rotate_shift.md R231 to R238) -/

/-- The last bit that leaves at the left in a shift or rotate by n: a[32 - n], and 0 for n = 0 (R231 to R234, D14). -/
def lastOutLeft (a : Quad) (n : Nat) : Bool := if n = 0 then false else a.getLsbD (32 - n)

/-- The last bit that leaves at the right in a shift by n: a[n - 1], and 0 for n = 0 (R235 to R238, D14). -/
def lastOutRight (a : Quad) (n : Nat) : Bool := if n = 0 then false else a.getLsbD (n - 1)

/-- The n bits shifted out at the left, right-aligned (R234). -/
def shiftedOutLeft (a : Quad) (n : Nat) : Quad := if n = 0 then 0 else a >>> (32 - n)

/-- The n bits shifted out at the right, left-aligned (R236, R238). -/
def shiftedOutRight (a : Quad) (n : Nat) : Quad := if n = 0 then 0 else a <<< (32 - n)

/-- The 32-bit rotate left by n (R232). -/
def rotateLeftBy (a : Quad) (n : Nat) : Quad := if n = 0 then a else (a <<< n) ||| (a >>> (32 - n))

end Sys2Proof.Machine
end

