-- ==== Sys2Proof/Machine/Memory.lean ====
section
/-! DEFINITION. Memory as a list of (physical address, byte) in one canonical form: addresses strictly rising, and no
entry equal to what the address reads as when it is not listed. -/

namespace Sys2Proof.Machine

/-- The byte listed at an address, if any. -/
def Memory.find : List Host.Cell → Nat → Option Byte
  | [], _ => none
  | (k, v) :: rest, p => if k = p then some v else Memory.find rest p

/-- The list with the byte at p replaced by b; `blank` is what p reads as when it is not listed. -/
def Memory.update (blank : Byte) : List Host.Cell → Nat → Byte → List Host.Cell
  | [], p, b => if b = blank then [] else [(p, b)]
  | (k, v) :: rest, p, b =>
    if p < k then (if b = blank then (k, v) :: rest else (p, b) :: (k, v) :: rest)
    else if p = k then (if b = blank then rest else (p, b) :: rest)
    else (k, v) :: Memory.update blank rest p b

/-- The canonical form: addresses above `low` and strictly rising, no entry that an unlisted address would read. -/
def Memory.wfFrom (blank : Nat → Byte) : Nat → List Host.Cell → Bool
  | _, [] => true
  | low, (k, v) :: rest => decide (low ≤ k) && decide (v ≠ blank k) && Memory.wfFrom blank (k + 1) rest

/-- The canonical form. -/
def Memory.wf (blank : Nat → Byte) (m : List Host.Cell) : Bool := Memory.wfFrom blank 0 m

/-- A strictly rising list of addresses with p put in. -/
def insertAddress (p : Nat) : List Nat → List Nat
  | [] => [p]
  | k :: rest => if p < k then p :: k :: rest else if p = k then k :: rest else k :: insertAddress p rest

/-- Strictly rising, at or above `low`. -/
def risingFrom : Nat → List Nat → Bool
  | _, [] => true
  | low, k :: rest => decide (low ≤ k) && risingFrom (k + 1) rest

end Sys2Proof.Machine
end

