-- ==== Sys2Proof/Machine/Ops.lean ====
section
/-! DEFINITION. The named operations of the machine: chaining of outcomes, the address space and its control registers
(spec/20_memory.md R60 to R77, spec/10_state.md R37 to R41), registers (R20 to R22), the stack (R85), and taking and
returning from interrupts, system exceptions and traps (spec/60_exceptions.md R410 to R432). -/

namespace Sys2Proof.Machine

/-- What an operation answers: a value, a fault or a refusal. -/
abbrev Res (α : Type) := Host.Outcome α Fault Refusal

/-- Go on with the value, or stop as the first operation stopped. -/
def andThen {α β : Type} (r : Res α) (f : α → Res β) : Res β :=
  match r with
  | .next a => f a
  | .fault e => .fault e
  | .refused e => .refused e

/-! ### The address space -/

/-- phys(addr) = addr mod 2^ADDR_BITS (20_memory.md R61). -/
def phys (c : Config) (a : Quad) : Nat :=
  match c.addrBits with
  | .bits24 => a.toNat % 2 ^ 24
  | .bits32 => a.toNat

/-- The physical address FF_E000H, or FFFF_E000H with 32 address bits, where I/O memory begins (20_memory.md R67). -/
def ioBase (c : Config) : Nat :=
  match c.addrBits with
  | .bits24 => 0xFFE000
  | .bits32 => 0xFFFFE000

/-- The kind that MemMap gives a physical address; in no region: unavailable (20_memory.md R63, R68). -/
def regionKind (c : Config) (p : Nat) : RegionKind :=
  match c.memMap.find? (fun r => decide (r.base ≤ p) && decide (p < r.base + r.size)) with
  | some r => r.kind
  | none => .unavailable

/-- What a physical address names. -/
inductive Location where
  /-- A byte of RAM or external memory. -/
  | ram
  /-- A byte of nonvolatile memory. -/
  | nvm
  /-- Byte k of PCOV, byte 0 the most significant (10_state.md R38). -/
  | pcov (k : Fin 4)
  /-- Byte k of SPOV (10_state.md R39). -/
  | spov (k : Fin 4)
  /-- FLAGS (10_state.md R35). -/
  | flags
  /-- CPUCTL (10_state.md R40). -/
  | cpuctl
  /-- SYSEXCP at its configured place (10_state.md R37). -/
  | sysexcp (place : SysexcpPlace)
  /-- A reserved control register location (10_state.md R41, D25). -/
  | reserved
  /-- A register of a configured peripheral (20_memory.md R67, D26). -/
  | device (d : IoDevice)
  /-- An I/O address with no register (20_memory.md R67). -/
  | unavailableIo
  /-- No memory (20_memory.md R68). -/
  | absent
deriving DecidableEq, Repr

/-- The peripheral register configured at a physical address (D26). -/
def deviceAt (c : Config) (p : Nat) : Option IoDevice := c.ioDevices.find? fun d => d.addr == p

/-- A configured peripheral's register, or no register (20_memory.md R67, D26). -/
def locatePeripheral (c : Config) (p : Nat) : Location :=
  match deviceAt c p with
  | some d => .device d
  | none => .unavailableIo

/-- The I/O addresses other than the CPU control registers: SYSEXCP where it is configured, configured peripherals,
nothing elsewhere (20_memory.md R67, D8, D26). -/
def locateOtherIo (c : Config) (p : Nat) : Location :=
  match c.sysexcpPlace with
  | some place => if phys c place.addr = p then .sysexcp place else locatePeripheral c p
  | none => locatePeripheral c p

/-- The I/O address at an offset from FF_E000H (10_state.md R41, Table 2). -/
def locateIo (c : Config) (p : Nat) (offset : Nat) : Location :=
  match offset with
  | 0x00 => .reserved
  | 0x01 => .reserved
  | 0x02 => .reserved
  | 0x03 => .reserved
  | 0x04 => .pcov 0
  | 0x05 => .pcov 1
  | 0x06 => .pcov 2
  | 0x07 => .pcov 3
  | 0x08 => .reserved
  | 0x09 => .reserved
  | 0x0A => .reserved
  | 0x0B => .reserved
  | 0x0C => .spov 0
  | 0x0D => .spov 1
  | 0x0E => .spov 2
  | 0x0F => .spov 3
  | 0x10 => .flags
  | 0x11 => .reserved
  | 0x12 => .cpuctl
  | _ => locateOtherIo c p

/-- What a physical address names: the top 8 KB are I/O memory, MemMap gives the rest (20_memory.md R63, R67, R68). -/
def locate (c : Config) (p : Nat) : Location :=
  if ioBase c ≤ p then locateIo c p (p - ioBase c)
  else
    match regionKind c p with
    | .nvm => .nvm
    | .ram => .ram
    | .external => .ram
    | .io => locateOtherIo c p
    | .unavailable => .absent

/-- What a byte of memory that is not listed reads as: FFH in nonvolatile memory (10_state.md R47), 00H elsewhere
(DESIGN CHOICE, notes/assumptions/4.md). -/
def blankByte (c : Config) (p : Nat) : Byte :=
  match regionKind c p with
  | .nvm => 0xFF
  | .ram => 0
  | .external => 0
  | .io => 0
  | .unavailable => 0

/-- The byte of memory at a physical address. -/
def byteAt (s : State) (p : Nat) : Byte := (Memory.find s.mem p).getD (blankByte s.cfg p)

/-- The state with the byte of memory at a physical address replaced. -/
def setByteAt (s : State) (p : Nat) (b : Byte) : State :=
  { s with mem := Memory.update (blankByte s.cfg p) s.mem p b }

/-- Byte k of a 32-bit register, byte 0 the most significant (20_memory.md R69). -/
def byteOfQuad (q : Quad) (k : Fin 4) : Byte := q.extractLsb' (8 * (3 - k.val)) 8

/-- A 32-bit register with byte k replaced (10_state.md R38, D24). -/
def setByteOfQuad (q : Quad) (k : Fin 4) (b : Byte) : Quad :=
  match k with
  | 0 => b ++ q.extractLsb' 0 24
  | 1 => q.extractLsb' 24 8 ++ b ++ q.extractLsb' 0 16
  | 2 => q.extractLsb' 16 16 ++ b ++ q.extractLsb' 0 8
  | 3 => q.extractLsb' 8 24 ++ b

/-- One status bit at its place in a byte. -/
def bitAt (x : Bool) (k : Fin 8) : Byte := if x then 1#8 <<< k.val else 0

/-- The bit of a device's further kind k set to v (60_exceptions.md R434). -/
def setExtraBit (x : Nat) (k : Nat) (v : Bool) : Nat := if x.testBit k = v then x else x ^^^ 2 ^ k

/-- SYSEXCP as a byte: the bits at their positions, the others 0 (D8, 60_exceptions.md R434). -/
def readSysexcp (place : SysexcpPlace) (x : Sysexcp) : Byte :=
  place.extra.foldl (fun b e => b ||| bitAt (x.extra.testBit e.1) e.2)
    (bitAt x.pcovf place.pcovf ||| bitAt x.spovf place.spovf ||| bitAt x.div0 place.div0 |||
      bitAt x.divovf place.divovf ||| bitAt x.ill place.ill)

/-- A write of SYSEXCP clears each bit where a 1 is written (10_state.md R37, D8, 60_exceptions.md R434). -/
def writeSysexcp (place : SysexcpPlace) (x : Sysexcp) (b : Byte) : Sysexcp where
  pcovf := x.pcovf && !b.getLsbD place.pcovf
  spovf := x.spovf && !b.getLsbD place.spovf
  div0 := x.div0 && !b.getLsbD place.div0
  divovf := x.divovf && !b.getLsbD place.divovf
  ill := x.ill && !b.getLsbD place.ill
  extra := place.extra.foldl (fun m e => if b.getLsbD e.2 then setExtraBit m e.1 false else m) x.extra

/-! ### Peripherals (20_memory.md R67, D26, notes/assumptions/19.md) -/

/-- What a peripheral's register holds when it is not listed: its reset contents. -/
def resetContents (c : Config) (p : Nat) : Byte :=
  match deviceAt c p with
  | some d => d.reset
  | none => 0

/-- The contents of the peripheral's register at a physical address. -/
def contentsAt (s : State) (p : Nat) : Byte := (Memory.find s.ioRegs p).getD (resetContents s.cfg p)

/-- The contents of a peripheral's register replaced; nothing where none is configured. -/
def setContents (s : State) (p : Nat) (b : Byte) : State :=
  match deviceAt s.cfg p with
  | some _ => { s with ioRegs := Memory.update (resetContents s.cfg p) s.ioRegs p b }
  | none => s

/-- The environment is told. -/
def tell (e : EnvEvent) (s : State) : State := { s with events := e :: s.events }

/-- The byte a peripheral's register answers to a read. -/
def deviceByte (d : IoDevice) (s : State) : Byte :=
  match d.read with
  | .contents => contentsAt s d.addr
  | .constant b => b
  | .clearing => contentsAt s d.addr

/-- What a read of a peripheral's register does beside answering. -/
def afterDeviceRead (d : IoDevice) (s : State) : State :=
  match d.read with
  | .contents => tell (.deviceRead d.addr) s
  | .constant _ => tell (.deviceRead d.addr) s
  | .clearing => tell (.deviceRead d.addr) (setContents s d.addr 0)

/-- A store to a peripheral's register (20_memory.md R67, 60_exceptions.md R410, R418, R419). -/
def deviceStore (d : IoDevice) (b : Byte) (s : State) : State :=
  match d.write with
  | .stored => tell (.deviceWrite d.addr b) (setContents s d.addr b)
  | .ignored => tell (.deviceWrite d.addr b) s
  | .setsOnes target => tell (.deviceWrite d.addr b) (setContents s target (contentsAt s target ||| b))
  | .clearsOnes target => tell (.deviceWrite d.addr b) (setContents s target (contentsAt s target &&& ~~~b))

/-! ### Data accesses -/

/-- The byte at a 32-bit address (20_memory.md R70, 10_state.md R35 to R41). -/
def readByte (s : State) (a : Quad) : Res Byte :=
  let p := phys s.cfg a
  match locate s.cfg p with
  | .ram => .next (byteAt s p)
  | .nvm => .next (byteAt s p)
  | .pcov k => .next (byteOfQuad s.pcov k)
  | .spov k => .next (byteOfQuad s.spov k)
  | .flags => .next s.flags
  | .cpuctl => .next (0b111111#6 ++ s.dmabw)
  | .sysexcp place => .next (readSysexcp place s.sysexcp)
  | .reserved => .next (Config.freeByte s.freeCtr p)
  | .device d => .next (deviceByte d s)
  | .unavailableIo => .next 0xFF
  | .absent => .fault .unavailableRead

/-- A write of the byte at a 32-bit address (20_memory.md R71, 10_state.md R35 to R41). -/
def writeByte (s : State) (a : Quad) (b : Byte) : Res State :=
  let p := phys s.cfg a
  match locate s.cfg p with
  | .ram => .next { setByteAt s p b with written := insertAddress p s.written }
  | .nvm => .refused .nvmStore
  | .pcov k => .next { s with pcov := setByteOfQuad s.pcov k b }
  | .spov k => .next { s with spov := setByteOfQuad s.spov k b }
  | .flags => .next { s with flags := b }
  | .cpuctl => .next { s with dmabw := b.extractLsb' 0 2 }
  | .sysexcp place => .next { s with sysexcp := writeSysexcp place s.sysexcp b }
  | .reserved => .next s
  | .device d => .next (deviceStore d b s)
  | .unavailableIo => .next s
  | .absent => .fault .unavailableWrite

/-- What a data read of the byte at a 32-bit address does beside answering: nothing, but at a peripheral's register. -/
def noteRead (a : Quad) (s : State) : State :=
  match locate s.cfg (phys s.cfg a) with
  | .device d => afterDeviceRead d s
  | _ => s

/-- The value of MemRead(addr, n): big-endian, addresses modulo 2^32 (20_memory.md R70). -/
def readMem (sz : Size) (s : State) (a : Quad) : Res (BitVec sz.bits) :=
  match sz with
  | .byte => readByte s a
  | .word =>
    andThen (readByte s a) fun b0 =>
    andThen (readByte s (a + 1)) fun b1 => .next (b0 ++ b1)
  | .quad =>
    andThen (readByte s a) fun b0 =>
    andThen (readByte s (a + 1)) fun b1 =>
    andThen (readByte s (a + 2)) fun b2 =>
    andThen (readByte s (a + 3)) fun b3 => .next (b0 ++ b1 ++ b2 ++ b3)

/-- What MemRead(addr, n) does beside answering, the bytes read in ascending order (20_memory.md R67, R70). -/
def noteReads (sz : Size) (a : Quad) (s : State) : State :=
  match sz with
  | .byte => noteRead a s
  | .word => noteRead (a + 1) (noteRead a s)
  | .quad => noteRead (a + 3) (noteRead (a + 2) (noteRead (a + 1) (noteRead a s)))

/-- MemRead(addr, n): the datum, and the state after the read (20_memory.md R67, R70). No read changes what another byte
of the same datum reads as. -/
def loadMem (sz : Size) (a : Quad) (s : State) : Res (BitVec sz.bits × State) :=
  andThen (readMem sz s a) fun v => .next (v, noteReads sz a s)

/-- MemWrite(addr, n, v): big-endian, the bytes written in ascending order (20_memory.md R71). -/
def writeMem (sz : Size) (s : State) (a : Quad) (v : BitVec sz.bits) : Res State :=
  match sz, v with
  | .byte, v => writeByte s a v
  | .word, v =>
    andThen (writeByte s a (v.extractLsb' 8 8)) fun s1 => writeByte s1 (a + 1) (v.extractLsb' 0 8)
  | .quad, v =>
    andThen (writeByte s a (v.extractLsb' 24 8)) fun s1 =>
    andThen (writeByte s1 (a + 1) (v.extractLsb' 16 8)) fun s2 =>
    andThen (writeByte s2 (a + 2) (v.extractLsb' 8 8)) fun s3 => writeByte s3 (a + 3) (v.extractLsb' 0 8)

/-! ### System exceptions as requests -/

/-- The SYSEXCP bit of an exception (60_exceptions.md R422, R434). -/
def sysexcpBit (x : Sysexcp) : SysExc → Bool
  | .pcOverflow => x.pcovf
  | .stackOverflow => x.spovf
  | .divideByZero => x.div0
  | .divideOverflow => x.divovf
  | .illegalInstruction => x.ill
  | .extra k => x.extra.testBit k

/-- SYSEXCP with the bit of an exception set to v. -/
def withSysexcpBit (x : Sysexcp) (e : SysExc) (v : Bool) : Sysexcp :=
  match e with
  | .pcOverflow => { x with pcovf := v }
  | .stackOverflow => { x with spovf := v }
  | .divideByZero => { x with div0 := v }
  | .divideOverflow => { x with divovf := v }
  | .illegalInstruction => { x with ill := v }
  | .extra k => { x with extra := setExtraBit x.extra k v }

/-- raise X: nothing while its SYSEXCP bit is 1, otherwise the bit is set and the exception is pending
(60_exceptions.md R420, D29). -/
def raise (e : SysExc) (s : State) : State :=
  if sysexcpBit s.sysexcp e then s
  else { s with sysexcp := withSysexcpBit s.sysexcp e true, pendingExc := some e }

/-! ### Registers -/

/-- The Stack Pointer's number (10_state.md R21). -/
def spReg : Reg := 15
/-- The Frame Pointer's number (10_state.md R22). -/
def fpReg : Reg := 14

/-- R[i] (00_scope.md R15). -/
def readReg (s : State) (r : Reg) : Quad := s.regs[r.toNat]'r.isLt

/-- The register file with R[i] replaced. -/
def setReg (s : State) (r : Reg) (v : Quad) : State := { s with regs := s.regs.set r.toNat v r.isLt }

/-- R[i] <- v; a write of R15 below SPOV raises Stack Overflow (00_scope.md R15, 60_exceptions.md R424). -/
def writeReg (s : State) (r : Reg) (v : Quad) : State :=
  if r = spReg ∧ v.toNat < s.spov.toNat then raise .stackOverflow (setReg s r v) else setReg s r v

/-- SP (00_scope.md R15). -/
def sp (s : State) : Quad := readReg s spReg

/-- A size as a 32-bit amount. -/
def sizeQuad (sz : Size) : Quad := BitVec.ofNat 32 sz.bytes

/-! ### The program counter -/

/-- next_pc (00_scope.md R15, 10_state.md R26). -/
def nextPc (len : Nat) (s : State) : Quad := s.pc + BitVec.ofNat 32 len

/-- pc <- next_pc. -/
def advance (len : Nat) (s : State) : State := { s with pc := nextPc len s }

/-- pc <- target, a taken control transfer: what was stored before it may be fetched after it (20_memory.md R90). -/
def jump (target : Quad) (s : State) : State := { s with pc := target, written := [] }

/-- pc <- a value from the stack or a vector quad, which must be even (10_state.md R27, D4). -/
def jumpLoaded (target : Quad) (s : State) : Res State :=
  if target.getLsbD 0 then .refused .oddPc else .next (jump target s)

/-- pc <- MemRead(vector, 4) (60_exceptions.md R412, R421, 46_program_control.md R355). -/
def jumpVector (vector : Quad) (s : State) : Res State :=
  andThen (loadMem .quad vector s) fun r => jumpLoaded r.1 r.2

/-- Modifier state cleared (60_exceptions.md R421, 45_cpu_control.md R324). -/
def clearModifiers (s : State) : State := { s with extendPending := false, noflagsPending := false, atmCount := 0 }

/-! ### The stack -/

/-- R[d] <- R[d] - n; MemWrite(R[d], n, v): a store with predecrement, and with R15 a push
(20_memory.md R84, R85). -/
def storePreDec (sz : Size) (d : Reg) (v : BitVec sz.bits) (s : State) : Res State :=
  let s1 := writeReg s d (readReg s d - sizeQuad sz)
  writeMem sz s1 (readReg s1 d) v

/-- SP <- SP - n; MemWrite(SP, n, v) (20_memory.md R85). -/
def push (sz : Size) (v : BitVec sz.bits) (s : State) : Res State := storePreDec sz spReg v s

/-- v <- MemRead(SP, 4); SP <- SP + 4 (20_memory.md R85). -/
def popQuad (s : State) : Res (Quad × State) :=
  andThen (loadMem .quad (sp s) s) fun r => .next (r.1, writeReg r.2 spReg (sp s + 4))

/-- Pushes R[r] for each listed register, first listed first, each read before its own push (44_load.md R293). -/
def pushRegs : List Reg → State → Res State
  | [], s => .next s
  | r :: rest, s => andThen (push .quad (readReg s r) s) fun s1 => pushRegs rest s1

/-- Pops a quad into each listed register, first listed first; answers the last value popped (44_load.md R292). -/
def popRegs : List Reg → Option Quad → State → Res (Option Quad × State)
  | [], last, s => .next (last, s)
  | r :: rest, _, s => andThen (popQuad s) fun vs => popRegs rest (some vs.1) (writeReg vs.2 r vs.1)

/-! ### Taking and returning from interrupts, system exceptions and traps -/

/-- The six-byte frame: {00H, FLAGS}, then the return address (60_exceptions.md R413). -/
def pushFrame (ret : Quad) (s : State) : Res State :=
  andThen (push .word (0#8 ++ s.flags) s) fun s1 => push .quad ret s1

/-- CIRQE <- the IRQE of f, IRQE <- 0 (60_exceptions.md R431). -/
def maskInterrupts (f : Byte) (s : State) : State := { s with flags := withEnables s.flags (flagIrqe f) false }

/-- The System Exception vector quad (60_exceptions.md R421). -/
def systemVector : Quad := 8

/-- System exception entry: the frame with the given return address, CIRQE and IRQE, modifier state and the pending
exception cleared, pc from 0000_0008H (60_exceptions.md R421). The exception ceases to be pending before the pushes, so
that a Stack Overflow they raise is pending after the entry (U24, notes/assumptions/22.md). -/
def exceptionEntry (ret : Quad) (s : State) : Res State :=
  andThen (pushFrame ret { s with pendingExc := none }) fun s1 =>
    jumpVector systemVector (clearModifiers (maskInterrupts s.flags s1))

/-- Illegal Instruction at pc: with the ILL bit 0 the bit is set and the entry pushes pc itself (60_exceptions.md R427);
with the bit 1 nothing is pushed and FLAGS keeps its value (R428). -/
def illegalEntry (s : State) : Res State :=
  if s.sysexcp.ill then jumpVector systemVector (clearModifiers s)
  else exceptionEntry s.pc { s with sysexcp := withSysexcpBit s.sysexcp .illegalInstruction true }

/-- InterruptAcknowledge(v): the environment is told (60_exceptions.md R410). -/
def acknowledge (v : Quad) (s : State) : State := tell (.interruptAcknowledge v) s

/-- Interrupt entry for the vector quad at v (60_exceptions.md R412). -/
def interruptEntry (v : Quad) (s : State) : Res State :=
  andThen (pushFrame s.pc s) fun s1 =>
  andThen (jumpVector v (maskInterrupts s.flags s1)) fun s2 => .next (acknowledge v s2)

/-- TRAP's entry: the frame with next_pc; no bit of FLAGS changes; modifier state is cleared (46_program_control.md R355,
45_cpu_control.md R324). -/
def trapEntry (len : Nat) (vector : Byte) (s : State) : Res State :=
  andThen (pushFrame (nextPc len s) s) fun s1 => jumpVector (4 * vector.setWidth 32) (clearModifiers s1)

/-- Normal IRET: PC, then the byte above the 00H pad into FLAGS (46_program_control.md R346, 60_exceptions.md R415). -/
def interruptReturn (s : State) : Res State :=
  andThen (popQuad s) fun vs =>
  andThen (loadMem .byte (sp vs.2 + 1) vs.2) fun f =>
    jumpLoaded vs.1 (writeReg { f.2 with flags := f.1 } spReg (sp vs.2 + 2))

/-- Chained IRET: IRQE <- 0, pc from the pending interrupt's vector quad, the stack untouched
(46_program_control.md R346, 60_exceptions.md R416). -/
def chainedReturn (v : Quad) (s : State) : Res State :=
  andThen (jumpVector v { s with flags := withIrqe s.flags false }) fun s1 => .next (acknowledge v s1)

end Sys2Proof.Machine
end

