-- ==== Sys2Proof/Machine/Operands.lean ====
section
/-! DEFINITION. Operand forms and the skeletons the instructions share: effective addresses (spec/20_memory.md R80 to
R84), the two-operand forms B1 to B16 and their skeleton (spec/40_arithmetic.md R150), the one-operand forms UF1 to
UF12 (R151), loads and stores (spec/44_load.md R250 to R257), and jump targets (spec/30_encoding.md R111). -/

namespace Sys2Proof.Machine

/-- The sign-extension of a field to 32 bits (00_scope.md R15, sext). -/
def sext {w : Nat} (v : BitVec w) : Quad := v.signExtend 32

/-- The zero-extension of a field to 32 bits (00_scope.md R15, zext). -/
def zext {w : Nat} (v : BitVec w) : Quad := v.setWidth 32

/-- The extension a suffix selects (44_load.md R250 a). -/
def extendTo (x : Extension) {w : Nat} (v : BitVec w) : Quad :=
  match x with
  | .unsigned => zext v
  | .signed => sext v

/-- The effective address of addr16 (20_memory.md R62). -/
def addr16Ea (a : Word) : Quad := sext a

/-- The effective address of a pointer with an offset (20_memory.md R81). -/
def indirectEa {w : Nat} (s : State) (r : Reg) (off : BitVec w) : Quad := readReg s r + sext off

/-! ### Two-operand instructions (40_arithmetic.md R150) -/

/-- Where a result goes. -/
inductive Dest where
  | reg (d : Reg)
  | mem (ea : Quad)
deriving DecidableEq, Repr

/-- The operands of a two-operand instruction: a, b and the write-back place (40_arithmetic.md R150). -/
structure Operands (w : Nat) where
  a : BitVec w
  b : BitVec w
  dest : Dest
deriving DecidableEq, Repr

/-- a = R[d], b the value given, the result into R[d]; no memory is read. -/
def regOperands (d : Reg) (b : Quad) (s : State) : Res (Operands 32 × State) :=
  .next ({ a := readReg s d, b := b, dest := .reg d }, s)

/-- a = R[d], b = the Quad at ea, the result into R[d]. -/
def regMemOperands (d : Reg) (ea : Quad) (s : State) : Res (Operands 32 × State) :=
  andThen (loadMem .quad ea s) fun r => .next ({ a := readReg s d, b := r.1, dest := .reg d }, r.2)

/-- a = the datum at ea, b the value given, the result into memory at ea. -/
def memOperands (sz : Size) (ea : Quad) (b : BitVec sz.bits) (s : State) : Res (Operands sz.bits × State) :=
  andThen (loadMem sz ea s) fun r => .next ({ a := r.1, b := b, dest := .mem ea }, r.2)

/-- The operands of the 32-bit forms, and the state after they are read (40_arithmetic.md R150). -/
def bopQuadOperands (f : BopQuad) (s : State) : Res (Operands 32 × State) :=
  match f with
  | .regImm32 d i => regOperands d i s
  | .regUimm16 d i => regOperands d (zext i) s
  | .regReg d r => regOperands d (readReg s r) s
  | .regAddr16 d a => regMemOperands d (addr16Ea a) s
  | .regAddr32 d a => regMemOperands d a s
  | .regInd d off r => regMemOperands d (indirectEa s r off) s
  | .addr16Reg a r => memOperands .quad (addr16Ea a) (readReg s r) s
  | .addr32Reg a r => memOperands .quad a (readReg s r) s
  | .indReg off d r => memOperands .quad (indirectEa s d off) (readReg s r) s
  | .indImm32 d i => memOperands .quad (readReg s d) i s
  | .indSimm16 d i => memOperands .quad (readReg s d) (sext i) s

/-- The operands of ADD and ADC (40_arithmetic.md R150, R152). -/
def addQuadOperands (f : AddQuad) (s : State) : Res (Operands 32 × State) :=
  match f with
  | .bop f => bopQuadOperands f s
  | .regSimm8 d i => regOperands d (sext i) s
  | .regRegReg d s1 s2 => .next ({ a := readReg s s1, b := readReg s s2, dest := .reg d }, s)

/-- The operands of CP and CPC (40_arithmetic.md R150, R156). -/
def cpQuadOperands (f : CpQuad) (s : State) : Res (Operands 32 × State) :=
  match f with
  | .bop f => bopQuadOperands f s
  | .regSimm8 d i => regOperands d (sext i) s

/-- The effective address of B5, B7 and B9 (40_arithmetic.md R150). -/
def bopSourceEa (m : BopSource) (s : State) : Quad :=
  match m with
  | .addr16 a => addr16Ea a
  | .addr32 a => a
  | .ind off r => indirectEa s r off

/-- The operands of B5, B7 and B9: the datum of size sz extended to 32 bits (40_arithmetic.md R150). -/
def bopSourceOperands (sz : Size) (x : Extension) (d : Reg) (m : BopSource) (s : State) :
    Res (Operands 32 × State) :=
  andThen (loadMem sz (bopSourceEa m s) s) fun r =>
    .next ({ a := readReg s d, b := extendTo x r.1, dest := .reg d }, r.2)

/-- The effective address of the .B and .W forms with a memory destination (40_arithmetic.md R150). -/
def bopDestEa {w : Nat} (f : BopDest w) (s : State) : Quad :=
  match f with
  | .addr16Reg a _ => addr16Ea a
  | .addr32Reg a _ => a
  | .indReg off d _ => indirectEa s d off
  | .indImm d _ => readReg s d

/-- The source value of the .B and .W forms with a memory destination: a register truncated, or the immediate. -/
def bopDestSource {w : Nat} (f : BopDest w) (s : State) : BitVec w :=
  match f with
  | .addr16Reg _ r => (readReg s r).setWidth w
  | .addr32Reg _ r => (readReg s r).setWidth w
  | .indReg _ _ r => (readReg s r).setWidth w
  | .indImm _ i => i

/-- The operands of the .B and .W forms with a memory destination (40_arithmetic.md R150). -/
def bopDestOperands (sz : Size) (f : BopDest sz.bits) (s : State) : Res (Operands sz.bits × State) :=
  memOperands sz (bopDestEa f s) (bopDestSource f s) s

/-- The physical address of FLAGS (10_state.md R35). -/
def flagsAddress (c : Config) : Nat := ioBase c + 0x10

/-- The result and the new flags would both be written to FLAGS (10_state.md R35, U12): refused. Under NOFLAGS only the
result is written (notes/assumptions/15.md). -/
def writesFlagsTwice (s : State) (ea : Quad) : Bool :=
  phys s.cfg ea == flagsAddress s.cfg && !s.noflagsPending

/-- A result stored at a memory destination (40_arithmetic.md R150, R151). -/
def storeResult (sz : Size) (ea : Quad) (v : BitVec sz.bits) (s : State) : Res State :=
  if writesFlagsTwice s ea then .refused .flagsDestination else writeMem sz s ea v

/-- The write-back of a two-operand instruction (40_arithmetic.md R150). -/
def writeBack (sz : Size) (d : Dest) (v : BitVec sz.bits) (s : State) : Res State :=
  match d with
  | .reg d => .next (writeReg s d (v.setWidth 32))
  | .mem ea => storeResult sz ea v s

/-- The skeleton of a two-operand instruction that writes a result, from its operands and the state after they are read
(40_arithmetic.md R150). -/
def bopWrite (sz : Size) (op : Byte → BitVec sz.bits → BitVec sz.bits → BitVec sz.bits × FlagUpdate) (len : Nat)
    (operands : Res (Operands sz.bits × State)) : Res State :=
  andThen operands fun (o, s) =>
  andThen (writeBack sz o.dest (op s.flags o.a o.b).1 s) fun s1 =>
    .next (advance len (setFlags (op s.flags o.a o.b).2 s1))

/-- The skeleton of a two-operand instruction that writes flags only: CP, CPC, TM, TCM (40_arithmetic.md R150). -/
def bopTest {w : Nat} (op : Byte → BitVec w → BitVec w → BitVec w × FlagUpdate) (len : Nat)
    (operands : Res (Operands w × State)) : Res State :=
  andThen operands fun (o, s) => .next (advance len (setFlags (op s.flags o.a o.b).2 s))

/-! ### One-operand instructions on memory (40_arithmetic.md R151) -/

/-- The effective address of UF1 to UF12. -/
def uopEa (m : UopDest) (s : State) : Quad :=
  match m with
  | .addr16 a => addr16Ea a
  | .addr32 a => a
  | .ind d => readReg s d
  | .off off d => indirectEa s d off

/-- INC and DEC: one read, one write, flags (40_arithmetic.md R160, R161). -/
def uopWrite (sz : Size) (op : Byte → BitVec sz.bits → BitVec sz.bits × FlagUpdate) (len : Nat) (m : UopDest)
    (s : State) : Res State :=
  andThen (loadMem sz (uopEa m s) s) fun (a, s1) =>
  andThen (storeResult sz (uopEa m s) (op s.flags a).1 s1) fun s2 =>
    .next (advance len (setFlags (op s.flags a).2 s2))

/-- CPZ and CPCZ: one read, flags (40_arithmetic.md R158, R159). -/
def uopTest (sz : Size) (op : Byte → BitVec sz.bits → BitVec sz.bits × FlagUpdate) (len : Nat) (m : UopDest)
    (s : State) : Res State :=
  andThen (loadMem sz (uopEa m s) s) fun (a, s1) => .next (advance len (setFlags (op s.flags a).2 s1))

/-- CLR: one write of zeros, no read, no flag (44_load.md R251). -/
def uopClear (sz : Size) (len : Nat) (m : UopDest) (s : State) : Res State :=
  andThen (writeMem sz s (uopEa m s) 0) fun s1 => .next (advance len s1)

/-! ### Loads and stores (44_load.md R254 to R257) -/

/-- The effective address of a load; `next` is the address after the instruction (44_load.md R254, R255). -/
def loadEa (m : LoadSource) (next : Quad) (s : State) : Quad :=
  match m with
  | .addr16 a => addr16Ea a
  | .addr32 a => a
  | .ind r => readReg s r
  | .postInc r => readReg s r
  | .off off r => indirectEa s r off
  | .pcRel off => next + sext off
  | .fpRel off => indirectEa s fpReg off

/-- The pointer update of a load: postincrement by the size (20_memory.md R84). -/
def loadPointer (sz : Size) (m : LoadSource) (s : State) : State :=
  match m with
  | .postInc r => writeReg s r (readReg s r + sizeQuad sz)
  | .addr16 _ => s
  | .addr32 _ => s
  | .ind _ => s
  | .off _ _ => s
  | .pcRel _ => s
  | .fpRel _ => s

/-- A load: read, pointer update, then the register, then B (44_load.md R254, R255, R250 c). -/
def load (sz : Size) (x : Extension) (d : Reg) (m : LoadSource) (len : Nat) (s : State) : Res State :=
  andThen (loadMem sz (loadEa m (nextPc len s) s) s) fun (v, s1) =>
    .next (advance len (setFlags (blankFlag v) (writeReg (loadPointer sz m s1) d (extendTo x v))))

/-- A store of a value that was read before any pointer update (44_load.md R256, R250 c, 20_memory.md R84). -/
def storeTo (sz : Size) (m : StoreDest) (v : BitVec sz.bits) (s : State) : Res State :=
  match m with
  | .addr16 a => writeMem sz s (addr16Ea a) v
  | .addr32 a => writeMem sz s a v
  | .ind d => writeMem sz s (readReg s d) v
  | .preDec d => storePreDec sz d v s
  | .postInc d =>
    andThen (writeMem sz s (readReg s d) v) fun s1 => .next (writeReg s1 d (readReg s1 d + sizeQuad sz))
  | .off off d => writeMem sz s (indirectEa s d off) v
  | .fpRel off => writeMem sz s (indirectEa s fpReg off) v

/-- The destination of a store-immediate form (44_load.md R257). -/
def storePtrDest (p : StorePtr) (d : Reg) : StoreDest :=
  match p with
  | .ind => .ind d
  | .preDec => .preDec d
  | .postInc => .postInc d

/-- A store instruction: the store, then pc (44_load.md R256, R257). -/
def store (sz : Size) (m : StoreDest) (v : BitVec sz.bits) (len : Nat) (s : State) : Res State :=
  andThen (storeTo sz m v s) fun s1 => .next (advance len s1)

/-- The instruction after the stack operation (44_load.md R291, R296). -/
def pushThenAdvance (sz : Size) (v : BitVec sz.bits) (len : Nat) (s : State) : Res State :=
  andThen (push sz v s) fun s1 => .next (advance len s1)

/-- The effective address of LEA (44_load.md R282). -/
def leaEa (m : LeaSource) (next : Quad) (s : State) : Quad :=
  match m with
  | .pcRel off => next + sext off
  | .off off r => indirectEa s r off
  | .fpRel off => indirectEa s fpReg off

/-- A register write with no flag, then pc (44_load.md R253, R280 to R282). -/
def loadRegister (d : Reg) (v : Quad) (len : Nat) (s : State) : Res State := .next (advance len (writeReg s d v))

/-! ### Register masks (44_load.md R292, R293) -/

/-- The registers a POPM mask selects, in ascending order: bit k selects register base + k. -/
def popMask (base : Reg) (mask : Byte) : List Reg :=
  ([0, 1, 2, 3, 4, 5, 6, 7].filter fun k => mask.getLsbD k).map fun k => base + BitVec.ofNat 4 k

/-- The registers a PUSHM mask selects, in descending order: bit k selects register top - k. -/
def pushMask (top : Reg) (mask : Byte) : List Reg :=
  ([0, 1, 2, 3, 4, 5, 6, 7].filter fun k => mask.getLsbD k).map fun k => top - BitVec.ofNat 4 k

/-- POPM: B from the last value popped, unchanged when nothing is popped (44_load.md R292). -/
def popMultiple (regs : List Reg) (len : Nat) (s : State) : Res State :=
  andThen (popRegs regs none s) fun r =>
    match r.1 with
    | some last => .next (advance len (setFlags (blankFlag last) r.2))
    | none => .next (advance len r.2)

/-- PUSHM (44_load.md R293). -/
def pushMultiple (regs : List Reg) (len : Nat) (s : State) : Res State :=
  andThen (pushRegs regs s) fun s1 => .next (advance len s1)

/-! ### Shift counts, double results, jump targets -/

/-- The count of a shift or rotate: the immediate, or bits 4 to 0 of the register (43_rotate_shift.md R230). -/
def shiftCount (n : ShiftCount) (s : State) : Nat :=
  match n with
  | .uimm5 n => n.toNat
  | .reg r => ((readReg s r).extractLsb' 0 5).toNat

/-- A shift of R[d]: the result, C from the last bit out (43_rotate_shift.md R231). -/
def shiftRegister (d : Reg) (result : Quad) (lastOut : Bool) (len : Nat) (s : State) : Res State :=
  .next (advance len (setFlags (shiftFlags result lastOut) (writeReg s d result)))

/-- R[d] <- vd; R[r] <- vr. With one register for both results the register then holds a free value; the Stack Overflow
tests are those of the two results, not of the free value (U18, D13, 60_exceptions.md R424, notes/assumptions/10.md). -/
def writePair (d r : Reg) (vd vr : Quad) (s : State) : State :=
  let t := writeReg (writeReg s d vd) r vr
  if d = r then setReg t d (Config.freeQuad s.freeCtr) else t

/-- An extended shift: the result into R[d], the bits shifted out into R[r] (43_rotate_shift.md R234, R236, R238). -/
def shiftPair (d r : Reg) (result out : Quad) (lastOut : Bool) (len : Nat) (s : State) : Res State :=
  .next (advance len (setFlags (shiftFlags result lastOut) (writePair d r result out s)))

/-- A multiply or divide with two results and its flags (40_arithmetic.md R164 to R167). -/
def arithPair (d r : Reg) (vd vr : Quad) (u : FlagUpdate) (len : Nat) (s : State) : Res State :=
  .next (advance len (setFlags u (writePair d r vd vr s)))

/-- A divide that raises: registers and flags unchanged, pc goes on (40_arithmetic.md R166, R167, R190). -/
def raiseAndAdvance (e : SysExc) (len : Nat) (s : State) : Res State := .next (advance len (raise e s))

/-- A relative target: twice the signed field from next_pc (30_encoding.md R111). -/
def relTarget {w : Nat} (len : Nat) (r : BitVec w) (s : State) : Quad := nextPc len s + 2 * sext r

/-- An address with bit 0 discarded (46_program_control.md R340). -/
def evenAddress (a : Quad) : Quad := a &&& 0xFFFFFFFE

/-- The target of JP and CALL (46_program_control.md R342, R350). -/
def jumpTargetEa (t : JumpTarget) (len : Nat) (s : State) : Quad :=
  match t with
  | .reg r => evenAddress (readReg s r)
  | .rel12 r => relTarget len r s
  | .rel24 r => relTarget len r s

/-- The target of JP cc (46_program_control.md R352, R353). -/
def condTargetEa (t : CondTarget) (len : Nat) (s : State) : Quad :=
  match t with
  | .rel8 r => relTarget len r s
  | .rel16 r => relTarget len r s

/-- The target of DJNZ: next_pc + {FFFF_FFH, 111B, urel4, 0B} (46_program_control.md R344). -/
def djnzTarget (urel4 : BitVec 4) (len : Nat) (s : State) : Quad :=
  nextPc len s + (0xFFFFFF#24 ++ 0b111#3 ++ urel4 ++ 0#1)

/-- A call: next_pc pushed, then pc <- target, which was computed before the push (46_program_control.md R342). -/
def callTo (target : Quad) (len : Nat) (s : State) : Res State :=
  andThen (push .quad (nextPc len s) s) fun s1 => .next (jump target s1)

end Sys2Proof.Machine
end

