-- ==== Sys2Proof/Machine/Boundary.lean ====
section
/-! DEFINITION. What happens at an instruction boundary: the environment's inputs, reset (spec/70_reset_and_hazards.md
R460), Halt and Stop mode (spec/45_cpu_control.md R327, R330), which event is taken (spec/60_exceptions.md R411), and
the modifiers an instruction uses up (spec/45_cpu_control.md R320, R322). -/

namespace Sys2Proof.Machine

/-- A NOFLAGS or Extend prefix stands before the next instruction (45_cpu_control.md R320). -/
def behindPrefix (s : State) : Bool := s.extendPending || s.noflagsPending

/-- A device raises a further exception, as any other is raised (60_exceptions.md R420, R434); between a prefix and its
instruction it waits, so that no entry comes between the two (45_cpu_control.md R320, D12, notes/assumptions/36.md). -/
def raiseFromDevice (kind : Nat) (s : State) : State :=
  if behindPrefix s then { s with heldExc := s.heldExc ++ [kind] } else raise (.extra kind) s

/-- One input of the environment. ClearSysexcp is there only where SYSEXCP has no address (D8); only a configured device
changes its register, and only a configured kind of exception is raised (60_exceptions.md R434).
Wake and reset act through `wakes` and `resetEntry`. -/
def applyInput (i : EnvInput) (s : State) : State :=
  match i with
  | .irq v => { s with irq := v }
  | .clearSysexcp x =>
    match s.cfg.sysexcpPlace with
    | none => { s with sysexcp := withSysexcpBit s.sysexcp x false }
    | some _ => s
  | .device p b => setContents s p b
  | .exception k => if k ∈ s.cfg.extraExceptions then raiseFromDevice k s else s
  | .wake => s
  | .reset => s

/-- The inputs of one boundary, in their order. -/
def applyInputs : List EnvInput → State → State
  | [], s => s
  | i :: rest, s => applyInputs rest (applyInput i s)

/-- The inputs due at this step. -/
def inputsNow (s : State) : List EnvInput := s.env.headD []

/-- The state at the boundary: the exceptions that waited and then the inputs due are taken and have acted, and the free
values are drawn anew. -/
def atBoundary (s : State) : State :=
  applyInputs (s.heldExc.map .exception ++ inputsNow s)
    { s with env := s.env.tail, freeCtr := s.freeCtr + 1, heldExc := [] }

/-- Reset: every piece of state takes its reset value, the peripherals' registers too, and pc comes from the RESET vector;
memory, the configuration and the environment remain (70_reset_and_hazards.md R460, notes/assumptions/24.md). -/
def resetEntry (s : State) : Res State :=
  andThen (loadMem .quad s.cfg.resetVector s) fun (target, s1) =>
    jumpLoaded target
      { State.reset with
        irq := s.irq, mem := s.mem, cfg := s.cfg, env := s.env, events := s1.events, freeCtr := s.freeCtr }

/-- Whether an admitted event occurs at this boundary (45_cpu_control.md R327, D17). -/
def wakes (admitted : List WakeEvent) (inputs : List EnvInput) (s : State) : Bool :=
  admitted.any fun e =>
    match e with
    | .enabledInterrupt => s.irq.isSome && flagIrqe s.flags
    | .anyInterrupt => s.irq.isSome
    | .exception => s.pendingExc.isSome
    | .external => decide (EnvInput.wake ∈ inputs)

/-- The interrupt accepted at this boundary: none behind a NOFLAGS or Extend prefix, none in an ATM window, none with
IRQE = 0 (60_exceptions.md R411, items 2 to 4). -/
def acceptedInterrupt (s : State) : Option Quad :=
  if behindPrefix s then none
  else if s.atmCount ≠ 0 then none
  else if flagIrqe s.flags then s.irq
  else none

/-- What an executed instruction uses up: a prefix nothing, every other instruction the pending prefixes and one of the
ATM window's three (45_cpu_control.md R320, R322). -/
def retire (i : Instr) (s : State) : State :=
  if i.isPrefix then s
  else { s with extendPending := false, noflagsPending := false, atmCount := s.atmCount - 1 }

end Sys2Proof.Machine
end

