-- ==== Sys2Proof/Machine/Arithmetic.lean ====
section
/-! DEFINITION. The arithmetic instructions (spec/40_arithmetic.md R152 to R167, R190). -/

namespace Sys2Proof.Machine

/-! ### Addition -/

/-- ADD, 32-bit operands (40_arithmetic.md R152). -/
def execAdd (f : AddQuad) (s : State) : Res State :=
  bopWrite .quad opAdd (Instr.add f).len (addQuadOperands f s)

/-- ADD.UB (40_arithmetic.md R152). -/
def execAddUB (d : Reg) (m : BopSource) (s : State) : Res State :=
  bopWrite .quad opAdd (Instr.addUB d m).len (bopSourceOperands .byte .unsigned d m s)

/-- ADD.SB (40_arithmetic.md R152). -/
def execAddSB (d : Reg) (m : BopSource) (s : State) : Res State :=
  bopWrite .quad opAdd (Instr.addSB d m).len (bopSourceOperands .byte .signed d m s)

/-- ADD.UW (40_arithmetic.md R152). -/
def execAddUW (d : Reg) (m : BopSource) (s : State) : Res State :=
  bopWrite .quad opAdd (Instr.addUW d m).len (bopSourceOperands .word .unsigned d m s)

/-- ADD.SW (40_arithmetic.md R152). -/
def execAddSW (d : Reg) (m : BopSource) (s : State) : Res State :=
  bopWrite .quad opAdd (Instr.addSW d m).len (bopSourceOperands .word .signed d m s)

/-- ADD.B (40_arithmetic.md R152). -/
def execAddB (f : BopDest 8) (s : State) : Res State :=
  bopWrite .byte opAdd (Instr.addB f).len (bopDestOperands .byte f s)

/-- ADD.W (40_arithmetic.md R152). -/
def execAddW (f : BopDest 16) (s : State) : Res State :=
  bopWrite .word opAdd (Instr.addW f).len (bopDestOperands .word f s)

/-- ADC, 32-bit operands (40_arithmetic.md R153). -/
def execAdc (f : AddQuad) (s : State) : Res State :=
  bopWrite .quad opAdc (Instr.adc f).len (addQuadOperands f s)

/-- ADC.UB (40_arithmetic.md R153). -/
def execAdcUB (d : Reg) (m : BopSource) (s : State) : Res State :=
  bopWrite .quad opAdc (Instr.adcUB d m).len (bopSourceOperands .byte .unsigned d m s)

/-- ADC.SB (40_arithmetic.md R153). -/
def execAdcSB (d : Reg) (m : BopSource) (s : State) : Res State :=
  bopWrite .quad opAdc (Instr.adcSB d m).len (bopSourceOperands .byte .signed d m s)

/-- ADC.UW (40_arithmetic.md R153). -/
def execAdcUW (d : Reg) (m : BopSource) (s : State) : Res State :=
  bopWrite .quad opAdc (Instr.adcUW d m).len (bopSourceOperands .word .unsigned d m s)

/-- ADC.SW (40_arithmetic.md R153). -/
def execAdcSW (d : Reg) (m : BopSource) (s : State) : Res State :=
  bopWrite .quad opAdc (Instr.adcSW d m).len (bopSourceOperands .word .signed d m s)

/-- ADC.B (40_arithmetic.md R153). -/
def execAdcB (f : BopDest 8) (s : State) : Res State :=
  bopWrite .byte opAdc (Instr.adcB f).len (bopDestOperands .byte f s)

/-- ADC.W (40_arithmetic.md R153). -/
def execAdcW (f : BopDest 16) (s : State) : Res State :=
  bopWrite .word opAdc (Instr.adcW f).len (bopDestOperands .word f s)

/-- INC.B (40_arithmetic.md R160). -/
def execIncB (m : UopDest) (s : State) : Res State :=
  uopWrite .byte opInc (Instr.incB m).len m s

/-- INC.W (40_arithmetic.md R160). -/
def execIncW (m : UopDest) (s : State) : Res State :=
  uopWrite .word opInc (Instr.incW m).len m s

/-- INC, 32-bit operand (40_arithmetic.md R160). -/
def execInc (m : UopDest) (s : State) : Res State :=
  uopWrite .quad opInc (Instr.inc m).len m s

/-! ### Subtraction and comparison -/

/-- SUB, 32-bit operands (40_arithmetic.md R154). -/
def execSub (f : BopQuad) (s : State) : Res State :=
  bopWrite .quad opSub (Instr.sub f).len (bopQuadOperands f s)

/-- SUB.UB (40_arithmetic.md R154). -/
def execSubUB (d : Reg) (m : BopSource) (s : State) : Res State :=
  bopWrite .quad opSub (Instr.subUB d m).len (bopSourceOperands .byte .unsigned d m s)

/-- SUB.SB (40_arithmetic.md R154). -/
def execSubSB (d : Reg) (m : BopSource) (s : State) : Res State :=
  bopWrite .quad opSub (Instr.subSB d m).len (bopSourceOperands .byte .signed d m s)

/-- SUB.UW (40_arithmetic.md R154). -/
def execSubUW (d : Reg) (m : BopSource) (s : State) : Res State :=
  bopWrite .quad opSub (Instr.subUW d m).len (bopSourceOperands .word .unsigned d m s)

/-- SUB.SW (40_arithmetic.md R154). -/
def execSubSW (d : Reg) (m : BopSource) (s : State) : Res State :=
  bopWrite .quad opSub (Instr.subSW d m).len (bopSourceOperands .word .signed d m s)

/-- SUB.B (40_arithmetic.md R154). -/
def execSubB (f : BopDest 8) (s : State) : Res State :=
  bopWrite .byte opSub (Instr.subB f).len (bopDestOperands .byte f s)

/-- SUB.W (40_arithmetic.md R154). -/
def execSubW (f : BopDest 16) (s : State) : Res State :=
  bopWrite .word opSub (Instr.subW f).len (bopDestOperands .word f s)

/-- SBC, 32-bit operands (40_arithmetic.md R155). -/
def execSbc (f : BopQuad) (s : State) : Res State :=
  bopWrite .quad opSbc (Instr.sbc f).len (bopQuadOperands f s)

/-- SBC.UB (40_arithmetic.md R155). -/
def execSbcUB (d : Reg) (m : BopSource) (s : State) : Res State :=
  bopWrite .quad opSbc (Instr.sbcUB d m).len (bopSourceOperands .byte .unsigned d m s)

/-- SBC.SB (40_arithmetic.md R155). -/
def execSbcSB (d : Reg) (m : BopSource) (s : State) : Res State :=
  bopWrite .quad opSbc (Instr.sbcSB d m).len (bopSourceOperands .byte .signed d m s)

/-- SBC.UW (40_arithmetic.md R155). -/
def execSbcUW (d : Reg) (m : BopSource) (s : State) : Res State :=
  bopWrite .quad opSbc (Instr.sbcUW d m).len (bopSourceOperands .word .unsigned d m s)

/-- SBC.SW (40_arithmetic.md R155). -/
def execSbcSW (d : Reg) (m : BopSource) (s : State) : Res State :=
  bopWrite .quad opSbc (Instr.sbcSW d m).len (bopSourceOperands .word .signed d m s)

/-- SBC.B (40_arithmetic.md R155). -/
def execSbcB (f : BopDest 8) (s : State) : Res State :=
  bopWrite .byte opSbc (Instr.sbcB f).len (bopDestOperands .byte f s)

/-- SBC.W (40_arithmetic.md R155). -/
def execSbcW (f : BopDest 16) (s : State) : Res State :=
  bopWrite .word opSbc (Instr.sbcW f).len (bopDestOperands .word f s)

/-- CP, 32-bit operands (40_arithmetic.md R156). -/
def execCp (f : CpQuad) (s : State) : Res State :=
  bopTest opSub (Instr.cp f).len (cpQuadOperands f s)

/-- CP.UB (40_arithmetic.md R156). -/
def execCpUB (d : Reg) (m : BopSource) (s : State) : Res State :=
  bopTest opSub (Instr.cpUB d m).len (bopSourceOperands .byte .unsigned d m s)

/-- CP.SB (40_arithmetic.md R156). -/
def execCpSB (d : Reg) (m : BopSource) (s : State) : Res State :=
  bopTest opSub (Instr.cpSB d m).len (bopSourceOperands .byte .signed d m s)

/-- CP.UW (40_arithmetic.md R156). -/
def execCpUW (d : Reg) (m : BopSource) (s : State) : Res State :=
  bopTest opSub (Instr.cpUW d m).len (bopSourceOperands .word .unsigned d m s)

/-- CP.SW (40_arithmetic.md R156). -/
def execCpSW (d : Reg) (m : BopSource) (s : State) : Res State :=
  bopTest opSub (Instr.cpSW d m).len (bopSourceOperands .word .signed d m s)

/-- CP.B (40_arithmetic.md R156). -/
def execCpB (f : BopDest 8) (s : State) : Res State :=
  bopTest opSub (Instr.cpB f).len (bopDestOperands .byte f s)

/-- CP.W (40_arithmetic.md R156). -/
def execCpW (f : BopDest 16) (s : State) : Res State :=
  bopTest opSub (Instr.cpW f).len (bopDestOperands .word f s)

/-- CPC, 32-bit operands (40_arithmetic.md R157). -/
def execCpc (f : CpQuad) (s : State) : Res State :=
  bopTest opSbc (Instr.cpc f).len (cpQuadOperands f s)

/-- CPC.UB (40_arithmetic.md R157). -/
def execCpcUB (d : Reg) (m : BopSource) (s : State) : Res State :=
  bopTest opSbc (Instr.cpcUB d m).len (bopSourceOperands .byte .unsigned d m s)

/-- CPC.SB (40_arithmetic.md R157). -/
def execCpcSB (d : Reg) (m : BopSource) (s : State) : Res State :=
  bopTest opSbc (Instr.cpcSB d m).len (bopSourceOperands .byte .signed d m s)

/-- CPC.UW (40_arithmetic.md R157). -/
def execCpcUW (d : Reg) (m : BopSource) (s : State) : Res State :=
  bopTest opSbc (Instr.cpcUW d m).len (bopSourceOperands .word .unsigned d m s)

/-- CPC.SW (40_arithmetic.md R157). -/
def execCpcSW (d : Reg) (m : BopSource) (s : State) : Res State :=
  bopTest opSbc (Instr.cpcSW d m).len (bopSourceOperands .word .signed d m s)

/-- CPC.B (40_arithmetic.md R157). -/
def execCpcB (f : BopDest 8) (s : State) : Res State :=
  bopTest opSbc (Instr.cpcB f).len (bopDestOperands .byte f s)

/-- CPC.W (40_arithmetic.md R157). -/
def execCpcW (f : BopDest 16) (s : State) : Res State :=
  bopTest opSbc (Instr.cpcW f).len (bopDestOperands .word f s)

/-- CPZ.B (40_arithmetic.md R158). -/
def execCpzB (m : UopDest) (s : State) : Res State :=
  uopTest .byte opCpz (Instr.cpzB m).len m s

/-- CPZ.W (40_arithmetic.md R158). -/
def execCpzW (m : UopDest) (s : State) : Res State :=
  uopTest .word opCpz (Instr.cpzW m).len m s

/-- CPZ, 32-bit operand (40_arithmetic.md R158). -/
def execCpz (m : UopDest) (s : State) : Res State :=
  uopTest .quad opCpz (Instr.cpz m).len m s

/-- CPCZ.B (40_arithmetic.md R159). -/
def execCpczB (m : UopDest) (s : State) : Res State :=
  uopTest .byte opCpcz (Instr.cpczB m).len m s

/-- CPCZ.W (40_arithmetic.md R159). -/
def execCpczW (m : UopDest) (s : State) : Res State :=
  uopTest .word opCpcz (Instr.cpczW m).len m s

/-- CPCZ, 32-bit operand (40_arithmetic.md R159). -/
def execCpcz (m : UopDest) (s : State) : Res State :=
  uopTest .quad opCpcz (Instr.cpcz m).len m s

/-- DEC.B (40_arithmetic.md R161). -/
def execDecB (m : UopDest) (s : State) : Res State :=
  uopWrite .byte opDec (Instr.decB m).len m s

/-- DEC.W (40_arithmetic.md R161). -/
def execDecW (m : UopDest) (s : State) : Res State :=
  uopWrite .word opDec (Instr.decW m).len m s

/-- DEC, 32-bit operand (40_arithmetic.md R161). -/
def execDec (m : UopDest) (s : State) : Res State :=
  uopWrite .quad opDec (Instr.dec m).len m s

/-- NEG (40_arithmetic.md R162). -/
def execNeg (d : Reg) (s : State) : Res State :=
  let a := readReg s d
  let r := aluSub 0#32 a false
  .next (advance (Instr.neg d).len (setFlags (arithFlags r (a == 0#32)) (writeReg s d r.result)))

/-! ### Multiplication -/

/-- MUL (40_arithmetic.md R163). -/
def execMul (d r : Reg) (s : State) : Res State :=
  let p := readReg s d * readReg s r
  .next (advance (Instr.mul d r).len (setFlags (productFlags (p == 0#32) p.msb) (writeReg s d p)))

/-- UMUL (40_arithmetic.md R164). -/
def execUmul (d r : Reg) (s : State) : Res State :=
  let p := BitVec.ofNat 64 ((readReg s d).toNat * (readReg s r).toNat)
  arithPair d r (p.extractLsb' 0 32) (p.extractLsb' 32 32) (productFlags (p == 0#64) p.msb) (Instr.umul d r).len s

/-- SMUL (40_arithmetic.md R165). -/
def execSmul (d r : Reg) (s : State) : Res State :=
  let p := BitVec.ofInt 64 ((readReg s d).toInt * (readReg s r).toInt)
  arithPair d r (p.extractLsb' 0 32) (p.extractLsb' 32 32) (productFlags (p == 0#64) p.msb) (Instr.smul d r).len s

/-! ### Division -/

/-- UDIV (40_arithmetic.md R166). -/
def execUdiv (d r : Reg) (s : State) : Res State :=
  let n := (readReg s d).toNat
  let v := (readReg s r).toNat
  if v = 0 then raiseAndAdvance .divideByZero (Instr.udiv d r).len s
  else
    let q := BitVec.ofNat 32 (n / v)
    arithPair d r q (BitVec.ofNat 32 (n % v)) (productFlags (q == 0#32) q.msb) (Instr.udiv d r).len s

/-- SDIV; Case 3 is 8000_0000H by FFFF_FFFFH (40_arithmetic.md R167). -/
def execSdiv (d r : Reg) (s : State) : Res State :=
  let n := (readReg s d).toInt
  let v := (readReg s r).toInt
  if v = 0 then raiseAndAdvance .divideByZero (Instr.sdiv d r).len s
  else if readReg s d = 0x80000000 ∧ readReg s r = 0xFFFFFFFF then
    arithPair d r 0x80000000 0 { z := some false, s := some true, v := some true, b := some false }
      (Instr.sdiv d r).len s
  else
    let q := Int.tdiv n v
    arithPair d r (BitVec.ofInt 32 q) (BitVec.ofInt 32 (n - q * v))
      (productFlags (decide (q = 0)) (decide (q < 0))) (Instr.sdiv d r).len s

/-- UDIV64: the pair is R[d], R[(d + 1) mod 16]; the source register is not changed unless it is one of the pair
(40_arithmetic.md R190). -/
def execUdiv64 (d r : Reg) (s : State) : Res State :=
  let n := (readReg s d).toNat * 2 ^ 32 + (readReg s (d + 1)).toNat
  let v := (readReg s r).toNat
  if v = 0 then raiseAndAdvance .divideByZero (Instr.udiv64 d r).len s
  else if 2 ^ 32 ≤ n / v then raiseAndAdvance .divideOverflow (Instr.udiv64 d r).len s
  else
    let q := BitVec.ofNat 32 (n / v)
    arithPair d (d + 1) q (BitVec.ofNat 32 (n % v)) (productFlags (q == 0#32) q.msb) (Instr.udiv64 d r).len s

end Sys2Proof.Machine
end

