-- ==== Sys2Proof/Machine/BitManipulation.lean ====
section
/-! DEFINITION. The bit-test instructions (spec/42_bit_manipulation.md R220 to R222). -/

namespace Sys2Proof.Machine

/-- TM, 32-bit operands (42_bit_manipulation.md R221). -/
def execTm (f : BopQuad) (s : State) : Res State :=
  bopTest opAnd (Instr.tm f).len (bopQuadOperands f s)

/-- TM.UB (42_bit_manipulation.md R221). -/
def execTmUB (d : Reg) (m : BopSource) (s : State) : Res State :=
  bopTest opAnd (Instr.tmUB d m).len (bopSourceOperands .byte .unsigned d m s)

/-- TM.SB (42_bit_manipulation.md R221). -/
def execTmSB (d : Reg) (m : BopSource) (s : State) : Res State :=
  bopTest opAnd (Instr.tmSB d m).len (bopSourceOperands .byte .signed d m s)

/-- TM.UW (42_bit_manipulation.md R221). -/
def execTmUW (d : Reg) (m : BopSource) (s : State) : Res State :=
  bopTest opAnd (Instr.tmUW d m).len (bopSourceOperands .word .unsigned d m s)

/-- TM.SW (42_bit_manipulation.md R221). -/
def execTmSW (d : Reg) (m : BopSource) (s : State) : Res State :=
  bopTest opAnd (Instr.tmSW d m).len (bopSourceOperands .word .signed d m s)

/-- TM.B (42_bit_manipulation.md R221). -/
def execTmB (f : BopDest 8) (s : State) : Res State :=
  bopTest opAnd (Instr.tmB f).len (bopDestOperands .byte f s)

/-- TM.W (42_bit_manipulation.md R221). -/
def execTmW (f : BopDest 16) (s : State) : Res State :=
  bopTest opAnd (Instr.tmW f).len (bopDestOperands .word f s)

/-- TCM, 32-bit operands (42_bit_manipulation.md R222). -/
def execTcm (f : BopQuad) (s : State) : Res State :=
  bopTest opTcm (Instr.tcm f).len (bopQuadOperands f s)

/-- TCM.UB (42_bit_manipulation.md R222). -/
def execTcmUB (d : Reg) (m : BopSource) (s : State) : Res State :=
  bopTest opTcm (Instr.tcmUB d m).len (bopSourceOperands .byte .unsigned d m s)

/-- TCM.SB (42_bit_manipulation.md R222). -/
def execTcmSB (d : Reg) (m : BopSource) (s : State) : Res State :=
  bopTest opTcm (Instr.tcmSB d m).len (bopSourceOperands .byte .signed d m s)

/-- TCM.UW (42_bit_manipulation.md R222). -/
def execTcmUW (d : Reg) (m : BopSource) (s : State) : Res State :=
  bopTest opTcm (Instr.tcmUW d m).len (bopSourceOperands .word .unsigned d m s)

/-- TCM.SW (42_bit_manipulation.md R222). -/
def execTcmSW (d : Reg) (m : BopSource) (s : State) : Res State :=
  bopTest opTcm (Instr.tcmSW d m).len (bopSourceOperands .word .signed d m s)

/-- TCM.B (42_bit_manipulation.md R222). -/
def execTcmB (f : BopDest 8) (s : State) : Res State :=
  bopTest opTcm (Instr.tcmB f).len (bopDestOperands .byte f s)

/-- TCM.W (42_bit_manipulation.md R222). -/
def execTcmW (f : BopDest 16) (s : State) : Res State :=
  bopTest opTcm (Instr.tcmW f).len (bopDestOperands .word f s)

end Sys2Proof.Machine
end

