-- ==== Sys2Proof/Machine/CpuControl.lean ====
section
/-! DEFINITION. The CPU control instructions and the prefixes (spec/45_cpu_control.md R320 to R331). What happens after
every instruction (the modifiers it uses up) is in Machine/Boundary.lean. -/

namespace Sys2Proof.Machine

/-- The Extend prefix (45_cpu_control.md R321). -/
def execExtend (s : State) : Res State := .next (advance Instr.extend.len { s with extendPending := true })

/-- NOFLAGS (45_cpu_control.md R323). -/
def execNoflags (s : State) : Res State := .next (advance Instr.noflags.len { s with noflagsPending := true })

/-- ATM (45_cpu_control.md R322). -/
def execAtm (s : State) : Res State := .next (advance Instr.atm.len { s with atmCount := 3 })

/-- DI: a data write of IRQE (45_cpu_control.md R325). -/
def execDi (s : State) : Res State := .next (advance Instr.di.len { s with flags := withIrqe s.flags false })

/-- EI: a data write of IRQE (45_cpu_control.md R326). -/
def execEi (s : State) : Res State := .next (advance Instr.ei.len { s with flags := withIrqe s.flags true })

/-- HALT (45_cpu_control.md R327). -/
def execHalt (s : State) : Res State := .next { advance Instr.halt.len s with runState := .halted }

/-- STOP (45_cpu_control.md R330). -/
def execStop (s : State) : Res State := .next { advance Instr.stop.len s with runState := .stopped }

/-- NOP (45_cpu_control.md R328). -/
def execNop (s : State) : Res State := .next (advance Instr.nop.len s)

/-- WDT: the first one starts the Watchdog Timer (45_cpu_control.md R331), and each one refreshes it (D21,
notes/assumptions/25.md). -/
def execWdt (s : State) : Res State :=
  .next (advance Instr.wdt.len (tell .watchdogRefresh
    (if s.wdtEnabled then s else tell .watchdogStart { s with wdtEnabled := true })))

end Sys2Proof.Machine
end

