-- ==== Sys2Proof/Machine/Load.lean ====
section
/-! DEFINITION. The load instructions (spec/44_load.md R250 to R257, R280 to R284, R290 to R293, R296, R297). POP Rd is
LD Rd,(R15++) and PUSH Rs is LD (--R15),Rs (R290, R291). -/

namespace Sys2Proof.Machine

/-! ### CLR and EXT -/

/-- CLR.B (44_load.md R251). -/
def execClrB (m : UopDest) (s : State) : Res State :=
  uopClear .byte (Instr.clrB m).len m s

/-- CLR.W (44_load.md R251). -/
def execClrW (m : UopDest) (s : State) : Res State :=
  uopClear .word (Instr.clrW m).len m s

/-- CLR, 32-bit operand (44_load.md R251). -/
def execClr (m : UopDest) (s : State) : Res State :=
  uopClear .quad (Instr.clr m).len m s

/-- EXT: C and V unchanged (44_load.md R252). -/
def extendRegister {w : Nat} (x : Extension) (v : BitVec w) (d : Reg) (len : Nat) (s : State) : Res State :=
  let r := extendTo x v
  .next (advance len (setFlags { z := some (r == 0#32), s := some r.msb, b := some false } (writeReg s d r)))

/-- EXT.UB (44_load.md R252). -/
def execExtUB (d r : Reg) (s : State) : Res State :=
  extendRegister .unsigned ((readReg s r).extractLsb' 0 8) d (Instr.extUB d r).len s

/-- EXT.UW (44_load.md R252). -/
def execExtUW (d r : Reg) (s : State) : Res State :=
  extendRegister .unsigned ((readReg s r).extractLsb' 0 16) d (Instr.extUW d r).len s

/-- EXT.SB (44_load.md R252). -/
def execExtSB (d r : Reg) (s : State) : Res State :=
  extendRegister .signed ((readReg s r).extractLsb' 0 8) d (Instr.extSB d r).len s

/-- EXT.SW (44_load.md R252). -/
def execExtSW (d r : Reg) (s : State) : Res State :=
  extendRegister .signed ((readReg s r).extractLsb' 0 16) d (Instr.extSW d r).len s

/-! ### LD -/

/-- LD without suffix (44_load.md R253, R254, R256, R257). -/
def execLd (f : LdQuad) (s : State) : Res State :=
  match f with
  | .regSimm8 d i => loadRegister d (sext i) (Instr.ld (.regSimm8 d i)).len s
  | .regSimm17 d i => loadRegister d (sext i) (Instr.ld (.regSimm17 d i)).len s
  | .regImm32 d i => loadRegister d i (Instr.ld (.regImm32 d i)).len s
  | .regReg d r => loadRegister d (readReg s r) (Instr.ld (.regReg d r)).len s
  | .load d m => load .quad .unsigned d m (Instr.ld (.load d m)).len s
  | .store m r => store .quad m (readReg s r) (Instr.ld (.store m r)).len s
  | .storeImm32 p d i => store .quad (storePtrDest p d) i (Instr.ld (.storeImm32 p d i)).len s
  | .storeSimm16 p d i => store .quad (storePtrDest p d) (sext i) (Instr.ld (.storeSimm16 p d i)).len s

/-- LD.B: a register's low byte, or the immediate, into memory (44_load.md R256, R257). -/
def execLdB (f : LdNarrow 8) (s : State) : Res State :=
  match f with
  | .store m r => store .byte m ((readReg s r).setWidth 8) (Instr.ldB (.store m r)).len s
  | .storeImm p d i => store .byte (storePtrDest p d) i (Instr.ldB (.storeImm p d i)).len s

/-- LD.W: a register's low word, or the immediate, into memory (44_load.md R256, R257). -/
def execLdW (f : LdNarrow 16) (s : State) : Res State :=
  match f with
  | .store m r => store .word m ((readReg s r).setWidth 16) (Instr.ldW (.store m r)).len s
  | .storeImm p d i => store .word (storePtrDest p d) i (Instr.ldW (.storeImm p d i)).len s

/-- LD.UB (44_load.md R255). -/
def execLdUB (d : Reg) (m : LoadSource) (s : State) : Res State := load .byte .unsigned d m (Instr.ldUB d m).len s

/-- LD.UW (44_load.md R255). -/
def execLdUW (d : Reg) (m : LoadSource) (s : State) : Res State := load .word .unsigned d m (Instr.ldUW d m).len s

/-- LD.SB (44_load.md R255). -/
def execLdSB (d : Reg) (m : LoadSource) (s : State) : Res State := load .byte .signed d m (Instr.ldSB d m).len s

/-- LD.SW (44_load.md R255). -/
def execLdSW (d : Reg) (m : LoadSource) (s : State) : Res State := load .word .signed d m (Instr.ldSW d m).len s

/-! ### LD cc, LDES, LEA -/

/-- LD cc (44_load.md R280). -/
def execLdCc (cc : Cond) (d : Reg) (s : State) : Res State :=
  loadRegister d (if condHolds cc s.flags then 1 else 0) (Instr.ldCc cc d).len s

/-- LDES (44_load.md R281). -/
def execLdes (d : Reg) (s : State) : Res State :=
  loadRegister d (if flagS s.flags then 0xFFFFFFFF else 0) (Instr.ldes d).len s

/-- LEA (44_load.md R282). -/
def execLea (d : Reg) (m : LeaSource) (s : State) : Res State :=
  loadRegister d (leaEa m (nextPc (Instr.lea d m).len s) s) (Instr.lea d m).len s

/-! ### Frame instructions -/

/-- LINK (44_load.md R283). -/
def execLink (i : Byte) (s : State) : Res State :=
  andThen (push .quad (readReg s fpReg) s) fun s1 =>
    let s2 := writeReg s1 fpReg (sp s1)
    .next (advance (Instr.link i).len (writeReg s2 spReg (sp s2 - zext i)))

/-- UNLINK (44_load.md R284). -/
def execUnlink (s : State) : Res State :=
  let s1 := writeReg s spReg (readReg s fpReg)
  andThen (loadMem .quad (sp s1) s1) fun (v, s2) =>
    let s3 := writeReg s2 fpReg v
    .next (advance Instr.unlink.len (writeReg s3 spReg (sp s3 + 4)))

/-! ### Stack instructions -/

/-- PUSH.B #imm8, the one-word form (44_load.md R291). -/
def execPushB (i : Byte) (s : State) : Res State := pushThenAdvance .byte i (Instr.pushB i).len s

/-- PUSH.W #simm8 (44_load.md R291). -/
def execPushW (i : Byte) (s : State) : Res State := pushThenAdvance .word (i.signExtend 16) (Instr.pushW i).len s

/-- PUSH #simm8 (44_load.md R291). -/
def execPush (i : Byte) (s : State) : Res State := pushThenAdvance .quad (sext i) (Instr.push i).len s

/-- PUSHMLO (44_load.md R293). -/
def execPushmlo (mask : Byte) (s : State) : Res State := pushMultiple (pushMask 7 mask) (Instr.pushmlo mask).len s

/-- PUSHMHI (44_load.md R293). -/
def execPushmhi (mask : Byte) (s : State) : Res State := pushMultiple (pushMask 15 mask) (Instr.pushmhi mask).len s

/-- POPMLO (44_load.md R292). -/
def execPopmlo (mask : Byte) (s : State) : Res State := popMultiple (popMask 0 mask) (Instr.popmlo mask).len s

/-- POPMHI (44_load.md R292). -/
def execPopmhi (mask : Byte) (s : State) : Res State := popMultiple (popMask 8 mask) (Instr.popmhi mask).len s

/-- PUSHF (44_load.md R296). -/
def execPushf (s : State) : Res State := pushThenAdvance .word (0#8 ++ s.flags) Instr.pushf.len s

/-- POPF: FLAGS as data, whatever NOFLAGS says (44_load.md R297). -/
def execPopf (s : State) : Res State :=
  andThen (loadMem .byte (sp s + 1) s) fun (f, s1) =>
    .next (advance Instr.popf.len (writeReg { s1 with flags := f } spReg (sp s + 2)))

end Sys2Proof.Machine
end

