-- ==== Sys2Proof/Machine/Logical.lean ====
section
/-! DEFINITION. The logical instructions (spec/41_logical.md R200 to R204). -/

namespace Sys2Proof.Machine

/-- AND, 32-bit operands (41_logical.md R201). -/
def execAnd (f : BopQuad) (s : State) : Res State :=
  bopWrite .quad opAnd (Instr.and f).len (bopQuadOperands f s)

/-- AND.UB (41_logical.md R201). -/
def execAndUB (d : Reg) (m : BopSource) (s : State) : Res State :=
  bopWrite .quad opAnd (Instr.andUB d m).len (bopSourceOperands .byte .unsigned d m s)

/-- AND.SB (41_logical.md R201). -/
def execAndSB (d : Reg) (m : BopSource) (s : State) : Res State :=
  bopWrite .quad opAnd (Instr.andSB d m).len (bopSourceOperands .byte .signed d m s)

/-- AND.UW (41_logical.md R201). -/
def execAndUW (d : Reg) (m : BopSource) (s : State) : Res State :=
  bopWrite .quad opAnd (Instr.andUW d m).len (bopSourceOperands .word .unsigned d m s)

/-- AND.SW (41_logical.md R201). -/
def execAndSW (d : Reg) (m : BopSource) (s : State) : Res State :=
  bopWrite .quad opAnd (Instr.andSW d m).len (bopSourceOperands .word .signed d m s)

/-- AND.B (41_logical.md R201). -/
def execAndB (f : BopDest 8) (s : State) : Res State :=
  bopWrite .byte opAnd (Instr.andB f).len (bopDestOperands .byte f s)

/-- AND.W (41_logical.md R201). -/
def execAndW (f : BopDest 16) (s : State) : Res State :=
  bopWrite .word opAnd (Instr.andW f).len (bopDestOperands .word f s)

/-- OR, 32-bit operands (41_logical.md R202). -/
def execOr (f : BopQuad) (s : State) : Res State :=
  bopWrite .quad opOr (Instr.or f).len (bopQuadOperands f s)

/-- OR.UB (41_logical.md R202). -/
def execOrUB (d : Reg) (m : BopSource) (s : State) : Res State :=
  bopWrite .quad opOr (Instr.orUB d m).len (bopSourceOperands .byte .unsigned d m s)

/-- OR.SB (41_logical.md R202). -/
def execOrSB (d : Reg) (m : BopSource) (s : State) : Res State :=
  bopWrite .quad opOr (Instr.orSB d m).len (bopSourceOperands .byte .signed d m s)

/-- OR.UW (41_logical.md R202). -/
def execOrUW (d : Reg) (m : BopSource) (s : State) : Res State :=
  bopWrite .quad opOr (Instr.orUW d m).len (bopSourceOperands .word .unsigned d m s)

/-- OR.SW (41_logical.md R202). -/
def execOrSW (d : Reg) (m : BopSource) (s : State) : Res State :=
  bopWrite .quad opOr (Instr.orSW d m).len (bopSourceOperands .word .signed d m s)

/-- OR.B (41_logical.md R202). -/
def execOrB (f : BopDest 8) (s : State) : Res State :=
  bopWrite .byte opOr (Instr.orB f).len (bopDestOperands .byte f s)

/-- OR.W (41_logical.md R202). -/
def execOrW (f : BopDest 16) (s : State) : Res State :=
  bopWrite .word opOr (Instr.orW f).len (bopDestOperands .word f s)

/-- XOR, 32-bit operands (41_logical.md R203). -/
def execXor (f : BopQuad) (s : State) : Res State :=
  bopWrite .quad opXor (Instr.xor f).len (bopQuadOperands f s)

/-- XOR.UB (41_logical.md R203). -/
def execXorUB (d : Reg) (m : BopSource) (s : State) : Res State :=
  bopWrite .quad opXor (Instr.xorUB d m).len (bopSourceOperands .byte .unsigned d m s)

/-- XOR.SB (41_logical.md R203). -/
def execXorSB (d : Reg) (m : BopSource) (s : State) : Res State :=
  bopWrite .quad opXor (Instr.xorSB d m).len (bopSourceOperands .byte .signed d m s)

/-- XOR.UW (41_logical.md R203). -/
def execXorUW (d : Reg) (m : BopSource) (s : State) : Res State :=
  bopWrite .quad opXor (Instr.xorUW d m).len (bopSourceOperands .word .unsigned d m s)

/-- XOR.SW (41_logical.md R203). -/
def execXorSW (d : Reg) (m : BopSource) (s : State) : Res State :=
  bopWrite .quad opXor (Instr.xorSW d m).len (bopSourceOperands .word .signed d m s)

/-- XOR.B (41_logical.md R203). -/
def execXorB (f : BopDest 8) (s : State) : Res State :=
  bopWrite .byte opXor (Instr.xorB f).len (bopDestOperands .byte f s)

/-- XOR.W (41_logical.md R203). -/
def execXorW (f : BopDest 16) (s : State) : Res State :=
  bopWrite .word opXor (Instr.xorW f).len (bopDestOperands .word f s)

/-- COM: C is cleared (41_logical.md R204). -/
def execCom (d : Reg) (s : State) : Res State :=
  let a := readReg s d
  let r := ~~~a
  .next (advance (Instr.com d).len
    (setFlags { c := some false, z := some (r == 0#32), s := some r.msb, v := some false, b := some (a == 0#32) }
      (writeReg s d r)))

end Sys2Proof.Machine
end

