-- ==== Sys2Proof/Machine/ProgramControl.lean ====
section
/-! DEFINITION. The program control instructions (spec/46_program_control.md R340 to R355). -/

namespace Sys2Proof.Machine

/-- BRK: an Illegal Instruction exception unless On-Chip Debugger breaks are enabled (46_program_control.md R341). -/
def execBrk (s : State) : Res State := if s.cfg.ocdBreakEnabled then .fault .debuggerBreak else illegalEntry s

/-- CALL (46_program_control.md R342). -/
def execCall (t : JumpTarget) (s : State) : Res State :=
  callTo (jumpTargetEa t (Instr.call t).len s) (Instr.call t).len s

/-- CALLA (46_program_control.md R343). -/
def execCalla (i : Quad) (s : State) : Res State := callTo (evenAddress i) (Instr.calla i).len s

/-- DJNZ: the decision is on the result (46_program_control.md R344). -/
def execDjnz (d : Reg) (urel4 : BitVec 4) (s : State) : Res State :=
  let r := opDec s.flags (readReg s d)
  let s1 := setFlags r.2 (writeReg s d r.1)
  if r.1 = 0#32 then .next (advance (Instr.djnz d urel4).len s1)
  else .next (jump (djnzTarget urel4 (Instr.djnz d urel4).len s) s1)

/-- ILL (46_program_control.md R345). -/
def execIll (s : State) : Res State := illegalEntry s

/-- A word 0 that holds no instruction (30_encoding.md R116, 60_exceptions.md R427). -/
def execUnimplemented (_w0 : Word) (s : State) : Res State := illegalEntry s

/-- IRET: chained when CIRQE = 1 and an interrupt is pending, outside an ATM window (46_program_control.md R346,
60_exceptions.md R416, D12). -/
def execIret (s : State) : Res State :=
  match s.irq with
  | some v => if flagCirqe s.flags && s.atmCount == 0 then chainedReturn v s else interruptReturn s
  | none => interruptReturn s

/-- JP (46_program_control.md R350). -/
def execJp (t : JumpTarget) (s : State) : Res State := .next (jump (jumpTargetEa t (Instr.jp t).len s) s)

/-- JPA (46_program_control.md R351). -/
def execJpa (i : Quad) (s : State) : Res State := .next (jump (evenAddress i) s)

/-- JP cc (46_program_control.md R352, R353). -/
def execJpCc (cc : Cond) (t : CondTarget) (s : State) : Res State :=
  if condHolds cc s.flags then .next (jump (condTargetEa t (Instr.jpCc cc t).len s) s)
  else .next (advance (Instr.jpCc cc t).len s)

/-- RET (46_program_control.md R354). -/
def execRet (s : State) : Res State := andThen (popQuad s) fun vs => jumpLoaded vs.1 vs.2

/-- TRAP (46_program_control.md R355). -/
def execTrap (vector : Byte) (s : State) : Res State := trapEntry (Instr.trap vector).len vector s

end Sys2Proof.Machine
end

