-- ==== Sys2Proof/Machine/RotateShift.lean ====
section
/-! DEFINITION. The rotate and shift instructions (spec/43_rotate_shift.md R230 to R238). -/

namespace Sys2Proof.Machine

/-- RL (43_rotate_shift.md R232). -/
def execRl (d : Reg) (n : ShiftCount) (s : State) : Res State :=
  let a := readReg s d
  let k := shiftCount n s
  shiftRegister d (rotateLeftBy a k) (lastOutLeft a k) (Instr.rl d n).len s

/-- SLL (43_rotate_shift.md R233). -/
def execSll (d : Reg) (n : ShiftCount) (s : State) : Res State :=
  let a := readReg s d
  let k := shiftCount n s
  shiftRegister d (a <<< k) (lastOutLeft a k) (Instr.sll d n).len s

/-- SRA (43_rotate_shift.md R235). -/
def execSra (d : Reg) (n : ShiftCount) (s : State) : Res State :=
  let a := readReg s d
  let k := shiftCount n s
  shiftRegister d (a.sshiftRight k) (lastOutRight a k) (Instr.sra d n).len s

/-- SRL (43_rotate_shift.md R237). -/
def execSrl (d : Reg) (n : ShiftCount) (s : State) : Res State :=
  let a := readReg s d
  let k := shiftCount n s
  shiftRegister d (a >>> k) (lastOutRight a k) (Instr.srl d n).len s

/-- SLLX (43_rotate_shift.md R234). -/
def execSllx (d r : Reg) (s : State) : Res State :=
  let a := readReg s d
  let k := shiftCount (.reg r) s
  shiftPair d r (a <<< k) (shiftedOutLeft a k) (lastOutLeft a k) (Instr.sllx d r).len s

/-- SRAX (43_rotate_shift.md R236). -/
def execSrax (d r : Reg) (s : State) : Res State :=
  let a := readReg s d
  let k := shiftCount (.reg r) s
  shiftPair d r (a.sshiftRight k) (shiftedOutRight a k) (lastOutRight a k) (Instr.srax d r).len s

/-- SRLX (43_rotate_shift.md R238). -/
def execSrlx (d r : Reg) (s : State) : Res State :=
  let a := readReg s d
  let k := shiftCount (.reg r) s
  shiftPair d r (a >>> k) (shiftedOutRight a k) (lastOutRight a k) (Instr.srlx d r).len s

end Sys2Proof.Machine
end

