-- ==== Sys2Proof/Machine/Dispatch.lean ====
section
/-! DEFINITION. The meaning of every instruction, one arm for each constructor of Instr. -/

namespace Sys2Proof.Machine

/-- What an instruction does at a state whose pc is the address of its word 0. -/
def exec (i : Instr) (s : State) : Host.Outcome State Fault Refusal :=
  match i with
  | .brk => Sys2Proof.Machine.execBrk s
  | .unlink => Sys2Proof.Machine.execUnlink s
  | .pushf => Sys2Proof.Machine.execPushf s
  | .popf => Sys2Proof.Machine.execPopf s
  | .atm => Sys2Proof.Machine.execAtm s
  | .noflags => Sys2Proof.Machine.execNoflags s
  | .extend => Sys2Proof.Machine.execExtend s
  | .ld f => Sys2Proof.Machine.execLd f s
  | .lea d m => Sys2Proof.Machine.execLea d m s
  | .ldUB d m => Sys2Proof.Machine.execLdUB d m s
  | .ldUW d m => Sys2Proof.Machine.execLdUW d m s
  | .ldSB d m => Sys2Proof.Machine.execLdSB d m s
  | .ldSW d m => Sys2Proof.Machine.execLdSW d m s
  | .ldCc cc d => Sys2Proof.Machine.execLdCc cc d s
  | .ldB f => Sys2Proof.Machine.execLdB f s
  | .ldW f => Sys2Proof.Machine.execLdW f s
  | .pushmlo mask => Sys2Proof.Machine.execPushmlo mask s
  | .pushmhi mask => Sys2Proof.Machine.execPushmhi mask s
  | .popmlo mask => Sys2Proof.Machine.execPopmlo mask s
  | .popmhi mask => Sys2Proof.Machine.execPopmhi mask s
  | .link imm => Sys2Proof.Machine.execLink imm s
  | .pushB imm => Sys2Proof.Machine.execPushB imm s
  | .pushW imm => Sys2Proof.Machine.execPushW imm s
  | .push imm => Sys2Proof.Machine.execPush imm s
  | .add f => Sys2Proof.Machine.execAdd f s
  | .extUB d r => Sys2Proof.Machine.execExtUB d r s
  | .extUW d r => Sys2Proof.Machine.execExtUW d r s
  | .extSB d r => Sys2Proof.Machine.execExtSB d r s
  | .extSW d r => Sys2Proof.Machine.execExtSW d r s
  | .ldes d => Sys2Proof.Machine.execLdes d s
  | .com d => Sys2Proof.Machine.execCom d s
  | .neg d => Sys2Proof.Machine.execNeg d s
  | .addUB d m => Sys2Proof.Machine.execAddUB d m s
  | .addSB d m => Sys2Proof.Machine.execAddSB d m s
  | .addUW d m => Sys2Proof.Machine.execAddUW d m s
  | .addSW d m => Sys2Proof.Machine.execAddSW d m s
  | .addB f => Sys2Proof.Machine.execAddB f s
  | .addW f => Sys2Proof.Machine.execAddW f s
  | .subUB d m => Sys2Proof.Machine.execSubUB d m s
  | .subSB d m => Sys2Proof.Machine.execSubSB d m s
  | .subUW d m => Sys2Proof.Machine.execSubUW d m s
  | .subSW d m => Sys2Proof.Machine.execSubSW d m s
  | .sub f => Sys2Proof.Machine.execSub f s
  | .subB f => Sys2Proof.Machine.execSubB f s
  | .subW f => Sys2Proof.Machine.execSubW f s
  | .andUB d m => Sys2Proof.Machine.execAndUB d m s
  | .andSB d m => Sys2Proof.Machine.execAndSB d m s
  | .andUW d m => Sys2Proof.Machine.execAndUW d m s
  | .andSW d m => Sys2Proof.Machine.execAndSW d m s
  | .and f => Sys2Proof.Machine.execAnd f s
  | .andB f => Sys2Proof.Machine.execAndB f s
  | .andW f => Sys2Proof.Machine.execAndW f s
  | .orUB d m => Sys2Proof.Machine.execOrUB d m s
  | .orSB d m => Sys2Proof.Machine.execOrSB d m s
  | .orUW d m => Sys2Proof.Machine.execOrUW d m s
  | .orSW d m => Sys2Proof.Machine.execOrSW d m s
  | .or f => Sys2Proof.Machine.execOr f s
  | .orB f => Sys2Proof.Machine.execOrB f s
  | .orW f => Sys2Proof.Machine.execOrW f s
  | .xorUB d m => Sys2Proof.Machine.execXorUB d m s
  | .xorSB d m => Sys2Proof.Machine.execXorSB d m s
  | .xorUW d m => Sys2Proof.Machine.execXorUW d m s
  | .xorSW d m => Sys2Proof.Machine.execXorSW d m s
  | .xor f => Sys2Proof.Machine.execXor f s
  | .xorB f => Sys2Proof.Machine.execXorB f s
  | .xorW f => Sys2Proof.Machine.execXorW f s
  | .cpUB d m => Sys2Proof.Machine.execCpUB d m s
  | .cpSB d m => Sys2Proof.Machine.execCpSB d m s
  | .cpUW d m => Sys2Proof.Machine.execCpUW d m s
  | .cpSW d m => Sys2Proof.Machine.execCpSW d m s
  | .cp f => Sys2Proof.Machine.execCp f s
  | .cpB f => Sys2Proof.Machine.execCpB f s
  | .cpW f => Sys2Proof.Machine.execCpW f s
  | .tmUB d m => Sys2Proof.Machine.execTmUB d m s
  | .tmSB d m => Sys2Proof.Machine.execTmSB d m s
  | .tmUW d m => Sys2Proof.Machine.execTmUW d m s
  | .tmSW d m => Sys2Proof.Machine.execTmSW d m s
  | .tm f => Sys2Proof.Machine.execTm f s
  | .tmB f => Sys2Proof.Machine.execTmB f s
  | .tmW f => Sys2Proof.Machine.execTmW f s
  | .tcmUB d m => Sys2Proof.Machine.execTcmUB d m s
  | .tcmSB d m => Sys2Proof.Machine.execTcmSB d m s
  | .tcmUW d m => Sys2Proof.Machine.execTcmUW d m s
  | .tcmSW d m => Sys2Proof.Machine.execTcmSW d m s
  | .tcm f => Sys2Proof.Machine.execTcm f s
  | .tcmB f => Sys2Proof.Machine.execTcmB f s
  | .tcmW f => Sys2Proof.Machine.execTcmW f s
  | .clrB m => Sys2Proof.Machine.execClrB m s
  | .clrW m => Sys2Proof.Machine.execClrW m s
  | .clr m => Sys2Proof.Machine.execClr m s
  | .cpzB m => Sys2Proof.Machine.execCpzB m s
  | .cpzW m => Sys2Proof.Machine.execCpzW m s
  | .cpz m => Sys2Proof.Machine.execCpz m s
  | .incB m => Sys2Proof.Machine.execIncB m s
  | .incW m => Sys2Proof.Machine.execIncW m s
  | .inc m => Sys2Proof.Machine.execInc m s
  | .decB m => Sys2Proof.Machine.execDecB m s
  | .decW m => Sys2Proof.Machine.execDecW m s
  | .dec m => Sys2Proof.Machine.execDec m s
  | .udiv d r => Sys2Proof.Machine.execUdiv d r s
  | .sdiv d r => Sys2Proof.Machine.execSdiv d r s
  | .umul d r => Sys2Proof.Machine.execUmul d r s
  | .smul d r => Sys2Proof.Machine.execSmul d r s
  | .mul d r => Sys2Proof.Machine.execMul d r s
  | .sra d n => Sys2Proof.Machine.execSra d n s
  | .srl d n => Sys2Proof.Machine.execSrl d n s
  | .sll d n => Sys2Proof.Machine.execSll d n s
  | .rl d n => Sys2Proof.Machine.execRl d n s
  | .jp t => Sys2Proof.Machine.execJp t s
  | .call t => Sys2Proof.Machine.execCall t s
  | .jpCc cc t => Sys2Proof.Machine.execJpCc cc t s
  | .jpa imm => Sys2Proof.Machine.execJpa imm s
  | .calla imm => Sys2Proof.Machine.execCalla imm s
  | .djnz d urel4 => Sys2Proof.Machine.execDjnz d urel4 s
  | .trap vector => Sys2Proof.Machine.execTrap vector s
  | .wdt => Sys2Proof.Machine.execWdt s
  | .stop => Sys2Proof.Machine.execStop s
  | .halt => Sys2Proof.Machine.execHalt s
  | .ei => Sys2Proof.Machine.execEi s
  | .di => Sys2Proof.Machine.execDi s
  | .ret => Sys2Proof.Machine.execRet s
  | .iret => Sys2Proof.Machine.execIret s
  | .nop => Sys2Proof.Machine.execNop s
  | .ill => Sys2Proof.Machine.execIll s
  | .unimplemented w0 => Sys2Proof.Machine.execUnimplemented w0 s
  | .adcUB d m => Sys2Proof.Machine.execAdcUB d m s
  | .adcSB d m => Sys2Proof.Machine.execAdcSB d m s
  | .adcUW d m => Sys2Proof.Machine.execAdcUW d m s
  | .adcSW d m => Sys2Proof.Machine.execAdcSW d m s
  | .adc f => Sys2Proof.Machine.execAdc f s
  | .adcB f => Sys2Proof.Machine.execAdcB f s
  | .adcW f => Sys2Proof.Machine.execAdcW f s
  | .sbcUB d m => Sys2Proof.Machine.execSbcUB d m s
  | .sbcSB d m => Sys2Proof.Machine.execSbcSB d m s
  | .sbcUW d m => Sys2Proof.Machine.execSbcUW d m s
  | .sbcSW d m => Sys2Proof.Machine.execSbcSW d m s
  | .sbc f => Sys2Proof.Machine.execSbc f s
  | .sbcB f => Sys2Proof.Machine.execSbcB f s
  | .sbcW f => Sys2Proof.Machine.execSbcW f s
  | .cpcUB d m => Sys2Proof.Machine.execCpcUB d m s
  | .cpcSB d m => Sys2Proof.Machine.execCpcSB d m s
  | .cpcUW d m => Sys2Proof.Machine.execCpcUW d m s
  | .cpcSW d m => Sys2Proof.Machine.execCpcSW d m s
  | .cpc f => Sys2Proof.Machine.execCpc f s
  | .cpcB f => Sys2Proof.Machine.execCpcB f s
  | .cpcW f => Sys2Proof.Machine.execCpcW f s
  | .cpczB m => Sys2Proof.Machine.execCpczB m s
  | .cpczW m => Sys2Proof.Machine.execCpczW m s
  | .cpcz m => Sys2Proof.Machine.execCpcz m s
  | .sllx d r => Sys2Proof.Machine.execSllx d r s
  | .srax d r => Sys2Proof.Machine.execSrax d r s
  | .srlx d r => Sys2Proof.Machine.execSrlx d r s
  | .udiv64 d r => Sys2Proof.Machine.execUdiv64 d r s

end Sys2Proof.Machine
end

