-- ==== Sys2Proof/Machine/Fetch.lean ====
section
/-! DEFINITION. Fetching an instruction (spec/20_memory.md R73, R74, R90, spec/30_encoding.md R101) and the Program
Counter Overflow test (spec/60_exceptions.md R423). -/

namespace Sys2Proof.Machine

/-- One byte of the instruction stream: from memory only (20_memory.md R68, R74), and not one stored since the last
taken control transfer (R90). -/
def fetchByte (s : State) (a : Quad) : Res Byte :=
  let p := phys s.cfg a
  match locate s.cfg p with
  | .ram => if p ∈ s.written then .refused .staleCode else .next (byteAt s p)
  | .nvm => if p ∈ s.written then .refused .staleCode else .next (byteAt s p)
  | .absent => .fault .unavailableFetch
  | _ => .fault .ioFetch

/-- Fetch16(addr) (20_memory.md R73). -/
def fetchWord (s : State) (a : Quad) : Res Word :=
  andThen (fetchByte s a) fun hi => andThen (fetchByte s (a + 1)) fun lo => .next (wordOfBytes hi lo)

/-- Word 0 of the instruction at pc, which must be even (10_state.md R27, 20_memory.md R73). -/
def fetchFirst (s : State) : Res Word :=
  if s.pc.getLsbD 0 then .refused .oddPc else fetchWord s s.pc

/-- The length used to step over an instruction that is not executed: 2 for an unimplemented word
(60_exceptions.md R423). -/
def lengthOrTwo (w0 : Word) : Nat := (lengthOfWord w0).getD 2

/-- The further words that word 0 asks for, and the instruction they make (30_encoding.md R101). -/
def fetchRest (w0 : Word) (s : State) : Res Instr :=
  match lengthOrTwo w0 with
  | 4 => andThen (fetchWord s (s.pc + 2)) fun w1 => .next (decodeWords s.extendPending w0 w1 0)
  | 6 =>
    andThen (fetchWord s (s.pc + 2)) fun w1 =>
    andThen (fetchWord s (s.pc + 4)) fun w2 => .next (decodeWords s.extendPending w0 w1 w2)
  | _ => .next (decodeWords s.extendPending w0 0 0)

/-- The instruction at pc. -/
def fetchInstr (s : State) : Res Instr := andThen (fetchFirst s) fun w0 => fetchRest w0 s

/-- The PC is greater than PCOV, unsigned, and PCOVF is 0 (60_exceptions.md R423, D28). -/
def pcOverflows (s : State) : Bool := decide (s.pcov.toNat < s.pc.toNat) && !s.sysexcp.pcovf

/-- Program Counter Overflow: the instruction is stepped over and not executed; the entry is the next step
(60_exceptions.md R423). -/
def overflowAtFetch (w0 : Word) (s : State) : State := raise .pcOverflow (advance (lengthOrTwo w0) s)

end Sys2Proof.Machine
end

