-- ==== Sys2Proof/Machine/Step.lean ====
section
/-! DEFINITION. One step of the machine (spec/00_scope.md R19, spec/60_exceptions.md R411). -/

namespace Sys2Proof.Machine

/-- Fetch, the Program Counter Overflow test, decode, execute (60_exceptions.md R411, item 5). -/
def executeNext (s : State) : Res State :=
  andThen (fetchFirst s) fun w0 =>
    if pcOverflows s then .next (overflowAtFetch w0 s)
    else andThen (fetchRest w0 s) fun i => andThen (exec i s) fun t => .next (retire i t)

/-- One step of a running CPU: a pending system exception, an accepted interrupt, or an instruction
(60_exceptions.md R411). Behind a prefix only the Program Counter Overflow of the prefixed word comes to be pending (R423);
a device's exception waits there (`raiseFromDevice`, notes/assumptions/36.md). -/
def runStep (s : State) : Res State :=
  match s.pendingExc with
  | some _ => exceptionEntry s.pc s
  | none =>
    match acceptedInterrupt s with
    | some v => interruptEntry v s
    | none => executeNext s

/-- One step in Halt or Stop mode: an admitted event ends the mode and the boundary rule applies; with inputs still to
come the CPU waits, otherwise no step is possible (45_cpu_control.md R327, R330, U22, notes/assumptions/9.md). -/
def waitStep (admitted : List WakeEvent) (stuck : Fault) (inputs : List EnvInput) (s : State) : Res State :=
  if wakes admitted inputs s then runStep { s with runState := .running }
  else if s.env = [] then .fault stuck
  else .next s

/-- One step: the environment's inputs, then reset if it is among them, then what the run state allows. -/
def step (s : State) : Host.Outcome State Fault Refusal :=
  let inputs := inputsNow s
  let s1 := atBoundary s
  if EnvInput.reset ∈ inputs then resetEntry s1
  else
    match s1.runState with
    | .running => runStep s1
    | .halted => waitStep s1.cfg.wakeFromHalt .stuckInHalt inputs s1
    | .stopped => waitStep s1.cfg.wakeFromStop .stuckInStop inputs s1

/-- Bytes of the memory image placed from outside, one after another. -/
def placeBytes : List Byte → Quad → State → State
  | [], _, s => s
  | b :: rest, a, s => placeBytes rest (a + 1) (setByteAt s (phys s.cfg a) b)

/-- Whether six bytes at an even address are memory that can be fetched. -/
def canHoldInstr (c : Config) (a : Quad) : Bool :=
  !a.getLsbD 0 && [0, 1, 2, 3, 4, 5].all fun k =>
    match locate c (phys c (a + BitVec.ofNat 32 k)) with
    | .ram => true
    | .nvm => true
    | _ => false

/-- Where a table word is placed: at pc where it can be fetched, otherwise at 0000_1000H. -/
def fetchPlace (s : State) : Quad := if canHoldInstr s.cfg s.pc then s.pc else 0x1000

/-- The configuration under which `fetchPlace` can be fetched: unchanged, or with nonvolatile memory at 0000_1000H. -/
def fetchConfig (s : State) : Config :=
  if canHoldInstr s.cfg (fetchPlace s) then s.cfg else { s.cfg with memMap := ⟨0x1000, 6, .nvm⟩ :: s.cfg.memMap }

/-- The state whose next step fetches and runs the table word: its six bytes stand at pc, the CPU runs, no event is taken
first, no prefix is pending, no exception waits, no stored byte blocks the fetch, and PCOV does not stop it. It stands for the load of a
program from outside the machine (notes/assumptions/5.md). -/
def State.withFetchWord (s : State) (nbits w : Nat) : State :=
  placeBytes (tableBytes nbits w) (fetchPlace s)
    { s with
      pc := fetchPlace s
      pcov := if s.pcov.toNat < (fetchPlace s).toNat then 0xFFFFFFFF else s.pcov
      extendPending := false
      pendingExc := none
      heldExc := []
      runState := .running
      irq := none
      written := []
      cfg := fetchConfig s
      env := [] }

end Sys2Proof.Machine
end

