-- ==== Sys2Proof/Safety.lean ====
section
/-! DEFINITION. The words the claims are stated in: the invariant of every run, when an access can be made, what a step
leaves unchanged, and the results of the arithmetic families as plain integer arithmetic, written from the flag
definitions of spec/10_state.md R31, R32 and independent of Machine/Flags.lean. -/

namespace Sys2Proof.Machine

/-- What every step keeps: memory and the peripherals' registers in canonical form, the stored addresses in canonical form,
and an ATM window of at most three instructions. -/
structure Inv (s : State) : Prop where
  memory  : Memory.wf (blankByte s.cfg) s.mem = true
  ioRegs  : Memory.wf (resetContents s.cfg) s.ioRegs = true
  written : risingFrom 0 s.written = true
  window  : s.atmCount ≤ 3

/-- A step that goes on. -/
def StepsSafely (s : State) : Prop := ∃ t, step s = .next t

/-! ### When an access can be made -/

/-- The 32-bit address k bytes on. -/
def offsetBy (a : Quad) (k : Nat) : Quad := a + BitVec.ofNat 32 k

/-- A byte that can be read: any but an absent one (20_memory.md R67, R68). -/
def readableByte (s : State) (a : Quad) : Bool :=
  match locate s.cfg (phys s.cfg a) with
  | .absent => false
  | _ => true

/-- A byte that can be written: neither absent nor nonvolatile memory (R65, R67, R68). -/
def writableByte (s : State) (a : Quad) : Bool :=
  match locate s.cfg (phys s.cfg a) with
  | .absent => false
  | .nvm => false
  | _ => true

/-- A byte of RAM or external memory. -/
def ramByte (s : State) (a : Quad) : Bool :=
  match locate s.cfg (phys s.cfg a) with
  | .ram => true
  | _ => false

/-- A byte of memory: RAM, external or nonvolatile. -/
def memoryByte (s : State) (a : Quad) : Bool :=
  match locate s.cfg (phys s.cfg a) with
  | .ram => true
  | .nvm => true
  | _ => false

/-- The n bytes from a can be read. -/
abbrev Readable (n : Nat) (s : State) (a : Quad) : Prop := ∀ k < n, readableByte s (offsetBy a k) = true

/-- The n bytes from a can be written. -/
abbrev Writable (n : Nat) (s : State) (a : Quad) : Prop := ∀ k < n, writableByte s (offsetBy a k) = true

/-- The n bytes from a are RAM or external memory. -/
abbrev InRam (n : Nat) (s : State) (a : Quad) : Prop := ∀ k < n, ramByte s (offsetBy a k) = true

/-- The n bytes from a are memory. -/
abbrev InMemory (n : Nat) (s : State) (a : Quad) : Prop := ∀ k < n, memoryByte s (offsetBy a k) = true

/-- No byte of the n from a is one of the m from b. -/
abbrev Apart (s : State) (n : Nat) (a : Quad) (m : Nat) (b : Quad) : Prop :=
  ∀ j < n, ∀ k < m, phys s.cfg (offsetBy a j) ≠ phys s.cfg (offsetBy b k)

/-! ### What is unchanged -/

/-- Every byte of memory reads as before. -/
def SameMemory (s t : State) : Prop := t.mem = s.mem ∧ t.written = s.written ∧ ∀ p, byteAt t p = byteAt s p

/-- Every byte of memory outside the n bytes from a reads as before. -/
def SameOutside (s t : State) (n : Nat) (a : Quad) : Prop :=
  ∀ p, (∀ k < n, p ≠ phys s.cfg (offsetBy a k)) → byteAt t p = byteAt s p

/-- Every register not listed is as before. -/
def SameRegs (s t : State) (changed : List Reg) : Prop := ∀ r, r ∉ changed → readReg t r = readReg s r

/-- PCOV, SPOV and CPUCTL are as before. -/
def SameControl (s t : State) : Prop := t.pcov = s.pcov ∧ t.spov = s.spov ∧ t.dmabw = s.dmabw

/-- The prefixes' state is as before. -/
def SameModifiers (s t : State) : Prop :=
  t.extendPending = s.extendPending ∧ t.noflagsPending = s.noflagsPending ∧ t.atmCount = s.atmCount

/-- The run state, the watchdog, the peripherals, the configuration and the model's view of the environment are as
before. -/
def SameEnvironment (s t : State) : Prop :=
  t.runState = s.runState ∧ t.wdtEnabled = s.wdtEnabled ∧ t.irq = s.irq ∧ t.cfg = s.cfg ∧ t.env = s.env ∧
    t.events = s.events ∧ t.freeCtr = s.freeCtr ∧ t.ioRegs = s.ioRegs ∧ t.heldExc = s.heldExc

/-- The same but for the peripherals: their registers, and what the environment is told. -/
def SameButPeripherals (s t : State) : Prop :=
  t.runState = s.runState ∧ t.wdtEnabled = s.wdtEnabled ∧ t.irq = s.irq ∧ t.cfg = s.cfg ∧ t.env = s.env ∧
    t.freeCtr = s.freeCtr ∧ t.heldExc = s.heldExc

/-- No system exception was raised. -/
def NoException (s t : State) : Prop := t.sysexcp = s.sysexcp ∧ t.pendingExc = s.pendingExc

/-- The exception e was raised: its bit is set and it is pending; with the bit already set nothing happens
(60_exceptions.md R420). -/
def Raised (e : SysExc) (s t : State) : Prop :=
  if sysexcpBit s.sysexcp e then NoException s t
  else t.pendingExc = some e ∧ sysexcpBit t.sysexcp e = true ∧
    ∀ x, x ≠ e → sysexcpBit t.sysexcp x = sysexcpBit s.sysexcp x

/-- The Stack Overflow rule: raised if R15 was written below SPOV, no exception otherwise (60_exceptions.md R424). -/
def StackChecked (s t : State) (below : Prop) : Prop :=
  (below → Raised .stackOverflow s t) ∧ (¬ below → NoException s t)

/-- The condition of that rule for one write R[d] <- v. -/
def BelowLimit (s : State) (d : Reg) (v : Quad) : Prop := d = 15 ∧ v.toNat < s.spov.toNat

/-- The flags after SetFlags of the listed flags: unlisted flags, F1, CIRQE and IRQE are as before, and under NOFLAGS all
of them (10_state.md R34). -/
def FlagsSet (noflags : Bool) (before after : Byte) (u : FlagUpdate) : Prop :=
  flagC after = (if noflags then flagC before else u.c.getD (flagC before)) ∧
  flagZ after = (if noflags then flagZ before else u.z.getD (flagZ before)) ∧
  flagS after = (if noflags then flagS before else u.s.getD (flagS before)) ∧
  flagV after = (if noflags then flagV before else u.v.getD (flagV before)) ∧
  flagB after = (if noflags then flagB before else u.b.getD (flagB before)) ∧
  flagF1 after = flagF1 before ∧ flagCirqe after = flagCirqe before ∧ flagIrqe after = flagIrqe before

/-- Everything but the registers, FLAGS, pc, SYSEXCP and the pending exception is as before. -/
def SameRest (s t : State) : Prop := SameMemory s t ∧ SameControl s t ∧ SameModifiers s t ∧ SameEnvironment s t

/-- An instruction of `len` bytes wrote v into R[d] and set the listed flags, and changed nothing else. -/
def WroteRegister (s t : State) (d : Reg) (v : Quad) (u : FlagUpdate) (len : Nat) : Prop :=
  readReg t d = v ∧ SameRegs s t [d] ∧ StackChecked s t (BelowLimit s d v) ∧
    FlagsSet s.noflagsPending s.flags t.flags u ∧ t.pc = offsetBy s.pc len ∧ SameRest s t

/-- An instruction of `len` bytes set the listed flags and changed nothing else. -/
def SetFlagsOnly (s t : State) (u : FlagUpdate) (len : Nat) : Prop :=
  SameRegs s t [] ∧ NoException s t ∧ FlagsSet s.noflagsPending s.flags t.flags u ∧ t.pc = offsetBy s.pc len ∧
    SameRest s t

/-- An instruction of `len` bytes stored v at ea, as MemWrite does (to a peripheral's register it has that register's
effect), set the listed flags after the store, and changed nothing else. -/
def Stored (sz : Size) (s t : State) (ea : Quad) (v : BitVec sz.bits) (u : FlagUpdate) (len : Nat) : Prop :=
  ∃ m, writeMem sz s ea v = .next m ∧ t.mem = m.mem ∧ t.written = m.written ∧ SameOutside s t sz.bytes ea ∧
    SameControl m t ∧ NoException m t ∧ FlagsSet s.noflagsPending m.flags t.flags u ∧ SameRegs s t [] ∧
    t.pc = offsetBy s.pc len ∧ SameModifiers s t ∧ SameEnvironment m t ∧ SameButPeripherals s t

/-- An instruction of `len` bytes wrote vd into R[d] and vr into R[r], set the listed flags, and changed nothing else. With
one register for both, nothing is said of its value, and the Stack Overflow rule is that of vd and vr (D13, U18). -/
def WrotePair (s t : State) (d r : Reg) (vd vr : Quad) (u : FlagUpdate) (len : Nat) : Prop :=
  (d ≠ r → readReg t d = vd ∧ readReg t r = vr) ∧ SameRegs s t [d, r] ∧
    StackChecked s t (BelowLimit s d vd ∨ BelowLimit s r vr) ∧
    FlagsSet s.noflagsPending s.flags t.flags u ∧ t.pc = offsetBy s.pc len ∧ SameRest s t

/-- A value of n bytes was pushed in RAM (20_memory.md R85). -/
def Pushed (sz : Size) (s t : State) (v : BitVec sz.bits) : Prop :=
  readMem sz t (sp s - sizeQuad sz) = .next v ∧ sp t = sp s - sizeQuad sz ∧ SameRegs s t [15] ∧
    SameOutside s t sz.bytes (sp s - sizeQuad sz) ∧
    StackChecked s t ((sp s - sizeQuad sz).toNat < s.spov.toNat) ∧
    t.flags = s.flags ∧ SameControl s t ∧ SameModifiers s t ∧ SameEnvironment s t

/-- The six-byte frame of 60_exceptions.md R413 with the return address `ret` was pushed in RAM and control transferred
to `target`; of FLAGS, the modifiers and the events this says nothing. -/
def Entered (s t : State) (ret target : Quad) : Prop :=
  readMem .quad t (sp s - 6) = .next ret ∧ readByte t (sp s - 2) = .next 0 ∧
    readByte t (sp s - 1) = .next s.flags ∧ sp t = sp s - 6 ∧ SameRegs s t [15] ∧ SameOutside s t 6 (sp s - 6) ∧
    StackChecked s t ((sp s - 2).toNat < s.spov.toNat ∨ (sp s - 6).toNat < s.spov.toNat) ∧
    t.pc = target ∧ t.written = [] ∧ SameControl s t ∧ SameButPeripherals s t ∧ t.ioRegs = s.ioRegs

/-- The stack and the vector quad at `vec` are such that an entry reaches the jump to `target`: the frame is in RAM, the
vector is in memory apart from it, and holds `target`. With an even one the entry completes, an odd one is refused
(10_state.md R27, the spec's own choice D4, notes/assumptions/13.md). -/
structure EntryReady (s : State) (vec target : Quad) : Prop where
  memory : Memory.wf (blankByte s.cfg) s.mem = true
  frame  : InRam 6 s (sp s - 6)
  vector : InMemory 4 s vec
  apart  : Apart s 6 (sp s - 6) 4 vec
  holds  : readMem .quad s vec = .next target

/-- Interrupts are masked: CIRQE takes the old IRQE, IRQE is 0, the other flags are as before
(60_exceptions.md R431). -/
def Masked (before after : Byte) : Prop :=
  flagC after = flagC before ∧ flagZ after = flagZ before ∧ flagS after = flagS before ∧ flagV after = flagV before ∧
    flagB after = flagB before ∧ flagF1 after = flagF1 before ∧ flagCirqe after = flagIrqe before ∧
    flagIrqe after = false

/-- No modifier state is left (60_exceptions.md R421). -/
def NoModifiers (t : State) : Prop := t.extendPending = false ∧ t.noflagsPending = false ∧ t.atmCount = 0

/-- No event is taken at this boundary: no exception is pending, and no interrupt is presented, or it is disabled, or an
ATM window or a prefix holds it off (60_exceptions.md R411). -/
def NoEvent (s : State) : Prop :=
  s.pendingExc = none ∧
    (s.irq = none ∨ flagIrqe s.flags = false ∨ s.atmCount ≠ 0 ∨ s.extendPending = true ∨ s.noflagsPending = true)

/-! ### Peripherals (20_memory.md R67, 60_exceptions.md R410, R418, R419; the kinds of behaviour are the model's,
notes/assumptions/19.md) -/

/-- An I/O address that is neither a CPU control register nor SYSEXCP: one of the top 8 KB, or of a region that MemMap
calls I/O. -/
structure OtherIo (s : State) (a : Quad) : Prop where
  io         : ioBase s.cfg + 0x13 ≤ phys s.cfg a ∨
    (phys s.cfg a < ioBase s.cfg ∧ regionKind s.cfg (phys s.cfg a) = .io)
  notSysexcp : ∀ place, s.cfg.sysexcpPlace = some place → phys s.cfg place.addr ≠ phys s.cfg a

/-- d is the peripheral register at a. -/
structure PeripheralAt (s : State) (a : Quad) (d : IoDevice) : Prop extends OtherIo s a where
  configured : s.cfg.ioDevices.find? (fun e => e.addr == phys s.cfg a) = some d

/-- The register of a peripheral at p, if there is one, holds b, and no other changed. -/
def ContentsSet (s t : State) (p : Nat) (b : Byte) : Prop :=
  (s.cfg.ioDevices.any (fun e => e.addr == p) = true → contentsAt t p = b) ∧
    (∀ q, q ≠ p → contentsAt t q = contentsAt s q) ∧
    (s.cfg.ioDevices.any (fun e => e.addr == p) = false → t.ioRegs = s.ioRegs)

/-- What a byte read from d answers and does: the environment is told, and only the register's own contents can
change. -/
def PeripheralRead (d : IoDevice) (s t : State) (b : Byte) : Prop :=
  t = { s with ioRegs := t.ioRegs, events := .deviceRead d.addr :: s.events } ∧
  match d.read with
  | .contents => b = contentsAt s d.addr ∧ t.ioRegs = s.ioRegs
  | .constant c => b = c ∧ t.ioRegs = s.ioRegs
  | .clearing => b = contentsAt s d.addr ∧ ContentsSet s t d.addr 0

/-- What a byte store of b to d does: the environment is told, and one register at most takes contents. -/
def PeripheralWritten (d : IoDevice) (s t : State) (b : Byte) : Prop :=
  t = { s with ioRegs := t.ioRegs, events := .deviceWrite d.addr b :: s.events } ∧
  match d.write with
  | .stored => ContentsSet s t d.addr b
  | .ignored => t.ioRegs = s.ioRegs
  | .setsOnes p => ContentsSet s t p (contentsAt s p ||| b)
  | .clearsOnes p => ContentsSet s t p (contentsAt s p &&& ~~~b)

/-- No byte of the n from a is a peripheral's. -/
abbrev NoPeripheral (n : Nat) (s : State) (a : Quad) : Prop :=
  ∀ k < n, ∀ d, locate s.cfg (phys s.cfg (offsetBy a k)) ≠ .device d

/-! ### The Extend prefix and the ignored bits (30_encoding.md R107, R119) -/

/-- The extended instruction of a base instruction, with the same operands (30_encoding.md R119). -/
def extendedOf : Instr → Option Instr
  | .add f => some (.adc f)
  | .addUB d m => some (.adcUB d m)
  | .addSB d m => some (.adcSB d m)
  | .addUW d m => some (.adcUW d m)
  | .addSW d m => some (.adcSW d m)
  | .addB f => some (.adcB f)
  | .addW f => some (.adcW f)
  | .sub f => some (.sbc f)
  | .subUB d m => some (.sbcUB d m)
  | .subSB d m => some (.sbcSB d m)
  | .subUW d m => some (.sbcUW d m)
  | .subSW d m => some (.sbcSW d m)
  | .subB f => some (.sbcB f)
  | .subW f => some (.sbcW f)
  | .cp f => some (.cpc f)
  | .cpUB d m => some (.cpcUB d m)
  | .cpSB d m => some (.cpcSB d m)
  | .cpUW d m => some (.cpcUW d m)
  | .cpSW d m => some (.cpcSW d m)
  | .cpB f => some (.cpcB f)
  | .cpW f => some (.cpcW f)
  | .cpz m => some (.cpcz m)
  | .cpzB m => some (.cpczB m)
  | .cpzW m => some (.cpczW m)
  | .sll d (.reg r) => some (.sllx d r)
  | .sra d (.reg r) => some (.srax d r)
  | .srl d (.reg r) => some (.srlx d r)
  | .udiv d r => some (.udiv64 d r)
  | _ => none

/-- The bits of word 0 that the CPU ignores: w0[6] in 1010 1100 1xoo dddd, w0[2] in 1010 1101 101a 1xoo
(30_encoding.md R107). -/
def ignored0 (w0 : Word) : Word :=
  if w0 &&& 0xFF80 = 0xAC80 then 0x0040
  else if w0 &&& 0xFFE8 = 0xADA8 then 0x0004
  else 0

/-- The bits of word 1 that the CPU ignores: w1[14] after 002d and 48sd, w1[15:14] after 4Asd, w1[15] after 4Bsd, w1[14]
after ADCd to ADFd when w1[15] = 1, w1[15:8] after 094d, 095d and 09Cd, w1[15:11] after AD9d (30_encoding.md R107). -/
def ignored1 (w0 w1 : Word) : Word :=
  if w0 &&& 0xFFF0 = 0x0020 ∨ w0 &&& 0xFF00 = 0x4800 then 0x4000
  else if w0 &&& 0xFF00 = 0x4A00 then 0xC000
  else if w0 &&& 0xFF00 = 0x4B00 then 0x8000
  else if w0 &&& 0xFFC0 = 0xADC0 then (if w1.getLsbD 15 then 0x4000 else 0)
  else if w0 &&& 0xFFE0 = 0x0940 ∨ w0 &&& 0xFFF0 = 0x09C0 then 0xFF00
  else if w0 &&& 0xFFF0 = 0xAD90 then 0xF800
  else 0

/-! ### Lengths of the operand forms (30_encoding.md R101) -/

/-- The length of an instruction with this memory source. -/
def sourceLen : BopSource → Nat
  | .addr16 _ => 4
  | .addr32 _ => 6
  | .ind _ _ => 4

/-- The length of an instruction with this memory destination. -/
def destLen {w : Nat} : BopDest w → Nat
  | .addr16Reg _ _ => 4
  | .addr32Reg _ _ => 6
  | .indReg _ _ _ => 4
  | .indImm _ _ => 4

/-- The memory address a 32-bit two-operand form writes to, if it does (40_arithmetic.md R150, B10 to B13, B15). -/
def quadDestEa (f : BopQuad) (s : State) : Option Quad :=
  match f with
  | .addr16Reg a _ => some (a.signExtend 32)
  | .addr32Reg a _ => some a
  | .indReg off d _ => some (readReg s d + off.signExtend 32)
  | .indImm32 d _ => some (readReg s d)
  | .indSimm16 d _ => some (readReg s d)
  | _ => none

/-- The length of CLR, CPZ, INC and DEC with this operand. -/
def uopLen : UopDest → Nat
  | .addr16 _ => 4
  | .addr32 _ => 6
  | .ind _ => 2
  | .off _ _ => 4

/-- The length of a load. -/
def loadLen : LoadSource → Nat
  | .addr16 _ => 4
  | .addr32 _ => 6
  | .ind _ => 2
  | .postInc _ => 2
  | .off _ _ => 4
  | .pcRel _ => 4
  | .fpRel _ => 2

/-- The length of a store from a register. -/
def storeLen : StoreDest → Nat
  | .addr16 _ => 4
  | .addr32 _ => 6
  | .ind _ => 2
  | .preDec _ => 2
  | .postInc _ => 2
  | .off _ _ => 4
  | .fpRel _ => 2

/-! ### Loads and stores -/

/-- The address a store stores to: the pointer less the size for a predecrement (20_memory.md R80 to R84). -/
def storeEa (sz : Size) (m : StoreDest) (s : State) : Quad :=
  match m with
  | .addr16 a => a.signExtend 32
  | .addr32 a => a
  | .ind d => readReg s d
  | .preDec d => readReg s d - sizeQuad sz
  | .postInc d => readReg s d
  | .off off d => readReg s d + off.signExtend 32
  | .fpRel off => readReg s 14 + off.signExtend 32

/-- What a load of `len` bytes does: the datum at its address, read before a postincrement of the pointer, extended, goes
into R[d] last; B tells whether it is 0 (44_load.md R254, R255). A read of a peripheral's register has its effect
(`noteReads`) before the rest. -/
def LoadOutcome (sz : Size) (x : BitVec sz.bits → Quad) (d : Reg) (m : LoadSource) (s : State) (out : Res State) : Prop :=
  ∃ v t, readMem sz s (loadEa m (offsetBy s.pc (loadLen m)) s) = .next v ∧ out = .next t ∧
    WroteRegister (loadPointer sz m (noteReads sz (loadEa m (offsetBy s.pc (loadLen m)) s) s)) t d (x v)
      { b := some (decide (v = 0#sz.bits)) } (loadLen m)

/-- What a store of `len` bytes does: the pointer of a predecrement is moved, v is stored at the address, the pointer of
a postincrement is moved, and no flag changes but by a store to FLAGS itself (44_load.md R256, R257). -/
def StoreOutcome (sz : Size) (m : StoreDest) (v : BitVec sz.bits) (len : Nat) (s : State) (out : Res State) : Prop :=
  match m with
  | .preDec d =>
    ∃ t, out = .next t ∧
      Stored sz (writeReg s d (readReg s d - sizeQuad sz)) t (readReg s d - sizeQuad sz) v {} len
  | .postInc d =>
    ∃ t, out = .next (writeReg t d (readReg s d + sizeQuad sz)) ∧ Stored sz s t (readReg s d) v {} len
  | _ => ∃ t, out = .next t ∧ Stored sz s t (storeEa sz m s) v {} len

/-! ### The flags of the one-operand instructions, as their rules word them -/

/-- INC: C only from all ones, V only from the greatest positive value (40_arithmetic.md R160). -/
def incFlags {w : Nat} (a : BitVec w) : FlagUpdate where
  c := some (decide (a = BitVec.allOnes w))
  z := some (decide (a + 1#w = 0#w))
  s := some (a + 1#w).msb
  v := some (decide (a = BitVec.intMax w))
  b := some (decide (a = 0#w))

/-- DEC and DJNZ: C only from 0, V only from the least negative value (40_arithmetic.md R161). -/
def decFlags {w : Nat} (a : BitVec w) : FlagUpdate where
  c := some (decide (a = 0#w))
  z := some (decide (a - 1#w = 0#w))
  s := some (a - 1#w).msb
  v := some (decide (a = BitVec.intMin w))
  b := some (decide (a = 0#w))

/-- CPZ: no borrow and no overflow occur, B is set (40_arithmetic.md R158). -/
def cpzFlags {w : Nat} (a : BitVec w) : FlagUpdate where
  c := some false
  z := some (decide (a = 0#w))
  s := some a.msb
  v := some false
  b := some true

/-- CPCZ with C = c0 and Z = z0 before it (40_arithmetic.md R159). -/
def cpczFlags {w : Nat} (c0 z0 : Bool) (a : BitVec w) : FlagUpdate where
  c := some (decide (a = 0#w) && c0)
  z := some (z0 && decide (a - (BitVec.ofBool c0).setWidth w = 0#w))
  s := some (a - (BitVec.ofBool c0).setWidth w).msb
  v := some (decide (a = BitVec.intMin w) && c0)
  b := some true

/-- The operand at ea is not the byte FLAGS, or NOFLAGS keeps the flags from being written too (10_state.md R35, U12; that
NOFLAGS lifts the refusal, and that a wider operand which reaches FLAGS from a lower address is not refused, is the
model's choice, notes/assumptions/15.md and 16.md). -/
abbrev NotFlagsTwice (s : State) (ea : Quad) : Prop :=
  phys s.cfg ea = ioBase s.cfg + 0x10 → s.noflagsPending = true

/-- When INC and DEC of n bytes at ea complete. -/
abbrev UpdateReady (n : Nat) (s : State) (ea : Quad) : Prop :=
  Readable n s ea ∧ Writable n s ea ∧ NotFlagsTwice s ea

/-- What INC or DEC does: one read, one write of f, the flags u. -/
def UpdateOutcome (sz : Size) (f : BitVec sz.bits → BitVec sz.bits) (u : BitVec sz.bits → FlagUpdate) (m : UopDest)
    (s : State) (out : Res State) : Prop :=
  ∃ a t, readMem sz s (uopEa m s) = .next a ∧ out = .next t ∧
    Stored sz (noteReads sz (uopEa m s) s) t (uopEa m s) (f a) (u a) (uopLen m)

/-- What CPZ or CPCZ does: one read, the flags u. -/
def TestOutcome (sz : Size) (u : BitVec sz.bits → FlagUpdate) (m : UopDest) (s : State) (out : Res State) : Prop :=
  ∃ a t, readMem sz s (uopEa m s) = .next a ∧ out = .next t ∧
    SetFlagsOnly (noteReads sz (uopEa m s) s) t (u a) (uopLen m)

/-- The flags of a shift or rotate with this result and last bit out (43_rotate_shift.md R231). -/
def shifted (r : Quad) (lastOut : Bool) : FlagUpdate where
  c := some lastOut
  z := some (decide (r = 0#32))
  s := some r.msb
  v := some (lastOut != r.msb)
  b := some false

/-- The count of a shift: the immediate, or bits 4 to 0 of R[s] (43_rotate_shift.md R230). -/
def countOf (n : ShiftCount) (s : State) : Nat :=
  match n with
  | .uimm5 n => n.toNat
  | .reg r => (readReg s r).toNat % 32

/-- The flags of multiplies and unsigned divides: C unchanged, V and B 0. -/
def wideFlags (z s : Bool) : FlagUpdate where
  z := some z
  s := some s
  v := some false
  b := some false

/-! ### The two-operand operations as integer arithmetic -/

/-- The operations of the two-operand instructions. -/
inductive BinOp where
  | add | adc | sub | sbc | and | or | xor | cp | cpc | tm | tcm
deriving DecidableEq, Repr

/-- All but CP, CPC, TM and TCM write a result (40_arithmetic.md R150). -/
def BinOp.writes : BinOp → Bool
  | .cp | .cpc | .tm | .tcm => false
  | _ => true

/-- The carry or borrow in: FLAGS.C for ADC, SBC and CPC, otherwise 0. -/
def BinOp.carryIn (o : BinOp) (f : Byte) : Nat :=
  match o with
  | .adc | .sbc | .cpc => if flagC f then 1 else 0
  | _ => 0

/-- The result, from the operands and the carry or borrow in. -/
def BinOp.result (o : BinOp) {w : Nat} (c : Nat) (a b : BitVec w) : BitVec w :=
  match o with
  | .add | .adc => a + b + BitVec.ofNat w c
  | .sub | .sbc | .cp | .cpc => a - b - BitVec.ofNat w c
  | .and | .tm => a &&& b
  | .or => a ||| b
  | .xor => a ^^^ b
  | .tcm => ~~~a &&& b

/-- A signed value does not fit W bits. -/
def outOfRange (w : Nat) (x : Int) : Bool := decide (x < -(2 ^ (w - 1) : Int) ∨ (2 ^ (w - 1) : Int) ≤ x)

/-- C: a carry out of, or a borrow into, the most significant bit; not written by the logical operations
(10_state.md R31). -/
def BinOp.carry (o : BinOp) {w : Nat} (c : Nat) (a b : BitVec w) : Option Bool :=
  match o with
  | .add | .adc => some (decide (2 ^ w ≤ a.toNat + b.toNat + c))
  | .sub | .sbc | .cp | .cpc => some (decide (a.toNat < b.toNat + c))
  | _ => none

/-- V: the signed result does not fit; 0 after a logical operation (10_state.md R31). -/
def BinOp.overflow (o : BinOp) {w : Nat} (c : Nat) (a b : BitVec w) : Bool :=
  match o with
  | .add | .adc => outOfRange w (a.toInt + b.toInt + c)
  | .sub | .sbc | .cp | .cpc => outOfRange w (a.toInt - b.toInt - c)
  | _ => false

/-- Z: the result is 0; for ADC, SBC and CPC only if Z was 1 before (40_arithmetic.md R153). -/
def BinOp.zero (o : BinOp) {w : Nat} (f : Byte) (r : BitVec w) : Bool :=
  match o with
  | .adc | .sbc | .cpc => flagZ f && decide (r = 0#w)
  | _ => decide (r = 0#w)

/-- The flags a two-operand instruction sets. -/
def BinOp.flags (o : BinOp) {w : Nat} (f : Byte) (a b : BitVec w) : FlagUpdate where
  c := o.carry (o.carryIn f) a b
  z := some (o.zero f (o.result (o.carryIn f) a b))
  s := some (o.result (o.carryIn f) a b).msb
  v := some (o.overflow (o.carryIn f) a b)
  b := some (decide (a = 0#w ∨ b = 0#w))

/-- The 32-bit instruction of an operation with a form of R150. -/
def BinOp.quad (o : BinOp) (f : BopQuad) : Instr :=
  match o with
  | .add => .add (.bop f)
  | .adc => .adc (.bop f)
  | .sub => .sub f
  | .sbc => .sbc f
  | .and => .and f
  | .or => .or f
  | .xor => .xor f
  | .cp => .cp (.bop f)
  | .cpc => .cpc (.bop f)
  | .tm => .tm f
  | .tcm => .tcm f

/-- The .UB instruction of an operation. -/
def BinOp.ub (o : BinOp) (d : Reg) (m : BopSource) : Instr :=
  match o with
  | .add => .addUB d m
  | .adc => .adcUB d m
  | .sub => .subUB d m
  | .sbc => .sbcUB d m
  | .and => .andUB d m
  | .or => .orUB d m
  | .xor => .xorUB d m
  | .cp => .cpUB d m
  | .cpc => .cpcUB d m
  | .tm => .tmUB d m
  | .tcm => .tcmUB d m

/-- The .SB instruction of an operation. -/
def BinOp.sb (o : BinOp) (d : Reg) (m : BopSource) : Instr :=
  match o with
  | .add => .addSB d m
  | .adc => .adcSB d m
  | .sub => .subSB d m
  | .sbc => .sbcSB d m
  | .and => .andSB d m
  | .or => .orSB d m
  | .xor => .xorSB d m
  | .cp => .cpSB d m
  | .cpc => .cpcSB d m
  | .tm => .tmSB d m
  | .tcm => .tcmSB d m

/-- The .UW instruction of an operation. -/
def BinOp.uw (o : BinOp) (d : Reg) (m : BopSource) : Instr :=
  match o with
  | .add => .addUW d m
  | .adc => .adcUW d m
  | .sub => .subUW d m
  | .sbc => .sbcUW d m
  | .and => .andUW d m
  | .or => .orUW d m
  | .xor => .xorUW d m
  | .cp => .cpUW d m
  | .cpc => .cpcUW d m
  | .tm => .tmUW d m
  | .tcm => .tcmUW d m

/-- The .SW instruction of an operation. -/
def BinOp.sw (o : BinOp) (d : Reg) (m : BopSource) : Instr :=
  match o with
  | .add => .addSW d m
  | .adc => .adcSW d m
  | .sub => .subSW d m
  | .sbc => .sbcSW d m
  | .and => .andSW d m
  | .or => .orSW d m
  | .xor => .xorSW d m
  | .cp => .cpSW d m
  | .cpc => .cpcSW d m
  | .tm => .tmSW d m
  | .tcm => .tcmSW d m

/-- The .B instruction of an operation. -/
def BinOp.byte (o : BinOp) (f : BopDest 8) : Instr :=
  match o with
  | .add => .addB f
  | .adc => .adcB f
  | .sub => .subB f
  | .sbc => .sbcB f
  | .and => .andB f
  | .or => .orB f
  | .xor => .xorB f
  | .cp => .cpB f
  | .cpc => .cpcB f
  | .tm => .tmB f
  | .tcm => .tcmB f

/-- The .W instruction of an operation. -/
def BinOp.word (o : BinOp) (f : BopDest 16) : Instr :=
  match o with
  | .add => .addW f
  | .adc => .adcW f
  | .sub => .subW f
  | .sbc => .sbcW f
  | .and => .andW f
  | .or => .orW f
  | .xor => .xorW f
  | .cp => .cpW f
  | .cpc => .cpcW f
  | .tm => .tmW f
  | .tcm => .tcmW f

/-- What a two-operand instruction with a register destination does: R[d] (for a writing operation) and the flags, from
the operands a and b. -/
def RegisterOutcome (o : BinOp) (s : State) (d : Reg) (a b : Quad) (len : Nat) (out : Res State) : Prop :=
  ∃ t, out = .next t ∧
    if o.writes then WroteRegister s t d (o.result (o.carryIn s.flags) a b) (o.flags s.flags a b) len
    else SetFlagsOnly s t (o.flags s.flags a b) len

/-- What a two-operand instruction with a memory destination does: one read at ea (`noteReads`), one write there for a writing
operation, and the flags. -/
def MemoryOutcome (o : BinOp) (sz : Size) (s : State) (ea : Quad) (b : BitVec sz.bits) (len : Nat)
    (out : Res State) : Prop :=
  ∃ a t, readMem sz s ea = .next a ∧ out = .next t ∧
    if o.writes then
      Stored sz (noteReads sz ea s) t ea (o.result (o.carryIn s.flags) a b) (o.flags s.flags a b) len
    else SetFlagsOnly (noteReads sz ea s) t (o.flags s.flags a b) len

/-- When a two-operand instruction with a memory destination completes: the operand can be read, and for a writing
operation written, and it is not the byte FLAGS (unless NOFLAGS applies). -/
abbrev MemoryReady (o : BinOp) (n : Nat) (s : State) (ea : Quad) : Prop :=
  Readable n s ea ∧ (o.writes = true → Writable n s ea ∧ NotFlagsTwice s ea)

end Sys2Proof.Machine
end

