-- ==== Sys2Proof/Certificates/Slice0/Obligations.lean ====
section
/-! DEFINITION. The statements for the provers, from the numbered rules of spec/. An address `offsetBy a k` is a + k
modulo 2^32. In the statements about one instruction, `exec` is the instruction itself: its prefix has been executed
before it, and what the boundary after it does is `StepRunsTheDecodedInstruction` and `ModifiersAreUsedUp`. -/

open Sys2Proof Sys2Proof.Machine

/-! ### Encoding -/

/-- 30_encoding.md R101, R107, R108, R119, R123 to R131: the bytes of a well-formed instruction, followed by any others,
decode to it and leave the others. Bits the CPU ignores are 0 in the encoder's words; words that differ in the ignored
bits of R107 only (the masks are `ignored0` and `ignored1` of Safety.lean) decode to the same instruction, and JPA and
CALLA execute identically whatever bit 0 of their last word is. -/
def Obligations.EncodedBytesDecodeBack : Prop :=
  (∀ (i : Instr) (rest : List Byte), i.wellFormed = true →
    decodeBytes i.isExtended ((encode i).flatMap bytesOfWord ++ rest) = .ok (i, rest)) ∧
  (∀ (ext : Bool) (w0 w1 w2 x0 x1 : Word),
    decodeWords ext (w0 ^^^ (x0 &&& ignored0 w0)) (w1 ^^^ (x1 &&& ignored1 w0 w1)) w2 = decodeWords ext w0 w1 w2) ∧
  (∀ (ext : Bool) (w0 w1 w2 x2 : Word) (s : State), w0 = 0xF230 ∨ w0 = 0xF231 →
    exec (decodeWords ext w0 w1 (w2 ^^^ (x2 &&& 1))) s = exec (decodeWords ext w0 w1 w2) s)

/-- 30_encoding.md R101, R119: word 0 alone gives the length, with or without the Extend prefix; an unimplemented word
counts 2 bytes; and every decoded term is well formed. -/
def Obligations.WordZeroGivesTheLength : Prop :=
  ∀ (ext : Bool) (w0 w1 w2 : Word),
    (decodeWords ext w0 w1 w2).len = (lengthOfWord w0).getD 2 ∧ (decodeWords ext w0 w1 w2).wellFormed = true

/-- 30_encoding.md R115, R116: a word 0 is unimplemented exactly when it is in the listed ranges, whatever follows it. -/
def Obligations.UnimplementedWordsAreTheListed : Prop :=
  ∀ (ext : Bool) (w0 w1 w2 : Word),
    (decodeWords ext w0 w1 w2 = .unimplemented w0 ↔ inUnimplementedRange w0 = true) ∧
      (lengthOfWord w0 = none ↔ inUnimplementedRange w0 = true)

/-- Words written out by the spec's own examples: ADD R3,R11 = A0B3 (40_arithmetic.md R152), ADC = the same after the
prefix (R153), ADD.SB R12,(R10) = 78AC 2000, INC.W 8(R3) = ADE3 4008 (R160), LD.SW R6,(R13++) = 1FD6 (44_load.md R255),
SRA R7,#4 = B847 (43_rotate_shift.md R235), DJNZ R6 = FDD6 (46_program_control.md R344), CALLA 00352920H =
F231 0035 2920 (R343), LD GE,R13 = 019D (44_load.md R280), LEA R11,15H(FP) = 4D5B (R282). -/
def Obligations.DecodesTheWrittenOutWords : Prop :=
  decodeWords false 0xA0B3 0 0 = .add (.bop (.regReg 3 11)) ∧
  decodeWords true 0xA0B3 0 0 = .adc (.bop (.regReg 3 11)) ∧
  decodeWords false 0x78AC 0x2000 0 = .addSB 12 (.ind 0 10) ∧
  decodeWords false 0xADE3 0x4008 0 = .incW (.off 8 3) ∧
  decodeWords false 0x1FD6 0 0 = .ldSW 6 (.postInc 13) ∧
  decodeWords false 0xB847 0 0 = .sra 7 (.uimm5 4) ∧
  decodeWords false 0xFDD6 0 0 = .djnz 6 13 ∧
  decodeWords false 0xF231 0x0035 0x2920 = .calla 0x00352920 ∧
  decodeWords false 0x019D 0 0 = .ldCc .ge 13 ∧
  decodeWords false 0x4D5B 0 0 = .lea 11 (.fpRel 0x15)

/-- 30_encoding.md R119, 45_cpu_control.md R321, R324: the prefix gives the extended mnemonics and nothing else: without
it none is decoded; with it every form of ADD, SUB, CP, CPZ and UDIV, of every size, and the register-count SLL, SRA and
SRL give ADC, SBC, CPC, CPCZ, UDIV64, SLLX, SRAX and SRLX with the same operands and words (`extendedOf` of Safety.lean
lists them), and any other word gives what it gives without it. The last part is the spec's own choice D12
(notes/assumptions/18.md); that {9H,Rd,simm8} is CPC, not the SBC that R321 also lists, is the model's choice
(notes/assumptions/33.md). -/
def Obligations.ExtendPrefixSelectsTheExtendedMnemonics : Prop :=
  ∀ w0 w1 w2 : Word,
    (decodeWords false w0 w1 w2).isExtended = false ∧
    (∀ j, extendedOf (decodeWords false w0 w1 w2) = some j → decodeWords true w0 w1 w2 = j ∧ j.isExtended = true) ∧
    (extendedOf (decodeWords false w0 w1 w2) = none → decodeWords true w0 w1 w2 = decodeWords false w0 w1 w2) ∧
    encode (decodeWords true w0 w1 w2) = encode (decodeWords false w0 w1 w2) ∧
    ((decodeWords true w0 w1 w2).isExtended = false → decodeWords true w0 w1 w2 = decodeWords false w0 w1 w2)

/-- 10_state.md R36, Table 3: the sixteen codes, and code cc + 8 is the negation of code cc. -/
def Obligations.ConditionCodesAreTable3 : Prop :=
  ∀ f : Byte,
    condHolds (Cond.ofBits 0x0) f = flagB f ∧
    condHolds (Cond.ofBits 0x1) f = (flagS f != flagV f) ∧
    condHolds (Cond.ofBits 0x2) f = (flagZ f || (flagS f != flagV f)) ∧
    condHolds (Cond.ofBits 0x3) f = (flagC f || flagZ f) ∧
    condHolds (Cond.ofBits 0x4) f = flagV f ∧
    condHolds (Cond.ofBits 0x5) f = flagS f ∧
    condHolds (Cond.ofBits 0x6) f = flagZ f ∧
    condHolds (Cond.ofBits 0x7) f = flagC f ∧
    ∀ x : BitVec 4, condHolds (Cond.ofBits (x + 8)) f = !condHolds (Cond.ofBits x) f

/-! ### Addresses and memory -/

/-- 20_memory.md R62, R80 to R84, 40_arithmetic.md R150, R151, 44_load.md R254 to R257, R282: the effective address of
every operand form that names memory, sources, destinations and LEA; a 16-bit address below 8000H is in the lowest 32 KB,
any other in the highest. And the definitions the statements below use: the address and the operands of the 32-bit
two-operand forms, the source of the narrow ones, where a store goes, the pointer that a load moves, and the pointer forms
of the stores of an immediate. -/
def Obligations.EffectiveAddresses : Prop :=
  (∀ a : Word, addr16Ea a = if a.toNat < 0x8000 then 0#16 ++ a else 0xFFFF#16 ++ a) ∧
  ∀ s : State,
    (∀ a, bopSourceEa (.addr16 a) s = addr16Ea a) ∧ (∀ a, bopSourceEa (.addr32 a) s = a) ∧
    (∀ off r, bopSourceEa (.ind off r) s = readReg s r + off.signExtend 32) ∧
    (∀ w a r, bopDestEa (w := w) (.addr16Reg a r) s = addr16Ea a) ∧
    (∀ w a r, bopDestEa (w := w) (.addr32Reg a r) s = a) ∧
    (∀ w off d r, bopDestEa (w := w) (.indReg off d r) s = readReg s d + off.signExtend 32) ∧
    (∀ w d i, bopDestEa (w := w) (.indImm d i) s = readReg s d) ∧
    (∀ w a r, bopDestSource (w := w) (.addr16Reg a r) s = (readReg s r).setWidth w) ∧
    (∀ w a r, bopDestSource (w := w) (.addr32Reg a r) s = (readReg s r).setWidth w) ∧
    (∀ w off d r, bopDestSource (w := w) (.indReg off d r) s = (readReg s r).setWidth w) ∧
    (∀ w d i, bopDestSource (w := w) (.indImm d i) s = i) ∧
    (∀ d a, bopQuadOperands (.regAddr16 d a) s = regMemOperands d (addr16Ea a) s) ∧
    (∀ d a, bopQuadOperands (.regAddr32 d a) s = regMemOperands d a s) ∧
    (∀ d off r, bopQuadOperands (.regInd d off r) s = regMemOperands d (readReg s r + off.signExtend 32) s) ∧
    (∀ a r, bopQuadOperands (.addr16Reg a r) s = memOperands .quad (addr16Ea a) (readReg s r) s) ∧
    (∀ a r, bopQuadOperands (.addr32Reg a r) s = memOperands .quad a (readReg s r) s) ∧
    (∀ off d r, bopQuadOperands (.indReg off d r) s =
      memOperands .quad (readReg s d + off.signExtend 32) (readReg s r) s) ∧
    (∀ d i, bopQuadOperands (.indImm32 d i) s = memOperands .quad (readReg s d) i s) ∧
    (∀ d i, bopQuadOperands (.indSimm16 d i) s = memOperands .quad (readReg s d) (i.signExtend 32) s) ∧
    (∀ a, uopEa (.addr16 a) s = addr16Ea a) ∧ (∀ a, uopEa (.addr32 a) s = a) ∧
    (∀ d, uopEa (.ind d) s = readReg s d) ∧ (∀ off d, uopEa (.off off d) s = readReg s d + off.signExtend 32) ∧
    (∀ a next, loadEa (.addr16 a) next s = addr16Ea a) ∧ (∀ a next, loadEa (.addr32 a) next s = a) ∧
    (∀ r next, loadEa (.ind r) next s = readReg s r) ∧ (∀ r next, loadEa (.postInc r) next s = readReg s r) ∧
    (∀ off r next, loadEa (.off off r) next s = readReg s r + off.signExtend 32) ∧
    (∀ off next, loadEa (.pcRel off) next s = next + off.signExtend 32) ∧
    (∀ off next, loadEa (.fpRel off) next s = readReg s 14 + off.signExtend 32) ∧
    (∀ sz m, loadPointer sz m s =
      match m with
      | .postInc r => writeReg s r (readReg s r + BitVec.ofNat 32 sz.bytes)
      | _ => s) ∧
    (∀ off next, leaEa (.pcRel off) next s = next + off.signExtend 32) ∧
    (∀ off r next, leaEa (.off off r) next s = readReg s r + off.signExtend 32) ∧
    (∀ off next, leaEa (.fpRel off) next s = readReg s 14 + off.signExtend 32) ∧
    (∀ (sz : Size) (v : BitVec sz.bits),
      (∀ a, storeTo sz (.addr16 a) v s = writeMem sz s (addr16Ea a) v) ∧
      (∀ a, storeTo sz (.addr32 a) v s = writeMem sz s a v) ∧
      (∀ d, storeTo sz (.ind d) v s = writeMem sz s (readReg s d) v) ∧
      (∀ off d, storeTo sz (.off off d) v s = writeMem sz s (readReg s d + off.signExtend 32) v) ∧
      (∀ off, storeTo sz (.fpRel off) v s = writeMem sz s (readReg s 14 + off.signExtend 32) v) ∧
      (∀ d, storeTo sz (.preDec d) v s =
        writeMem sz (writeReg s d (readReg s d - BitVec.ofNat 32 sz.bytes))
          (readReg s d - BitVec.ofNat 32 sz.bytes) v) ∧
      (∀ d t, writeMem sz s (readReg s d) v = .next t →
        storeTo sz (.postInc d) v s = .next (writeReg t d (readReg s d + BitVec.ofNat 32 sz.bytes)))) ∧
    (∀ d, storePtrDest .ind d = .ind d) ∧ (∀ d, storePtrDest .preDec d = .preDec d) ∧
    (∀ d, storePtrDest .postInc d = .postInc d)

/-- 20_memory.md R66, R67, R69 to R71: wherever it lies (memory, control registers, peripherals), a Word or Quad is read as
the big-endian concatenation of its bytes, and stored byte by byte at ascending addresses, the most significant byte first;
a byte of RAM, external or nonvolatile memory reads as what is stored there. A datum stored in RAM reads back, the control registers, FLAGS and SYSEXCP keep their
values, and a narrower read inside a stored Quad sees exactly those bytes, the most significant first. -/
def Obligations.StoredDataReadsBack : Prop :=
  (∀ (s : State) (a : Quad),
    readMem .byte s a = readByte s a ∧
    (∀ v : Word, readMem .word s a = .next v ↔
      ∃ b0 b1, readByte s a = .next b0 ∧ readByte s (a + 1) = .next b1 ∧ v = b0 ++ b1) ∧
    (∀ v : Quad, readMem .quad s a = .next v ↔
      ∃ b0 b1 b2 b3, readByte s a = .next b0 ∧ readByte s (a + 1) = .next b1 ∧ readByte s (a + 2) = .next b2 ∧
        readByte s (a + 3) = .next b3 ∧ v = b0 ++ b1 ++ b2 ++ b3) ∧
    (memoryByte s a = true → readByte s a = .next (byteAt s (phys s.cfg a)))) ∧
  (∀ (s t : State) (a : Quad),
    (∀ v : Byte, writeMem .byte s a v = writeByte s a v) ∧
    (∀ v : Word, writeMem .word s a v = .next t ↔
      ∃ s1, writeByte s a (v.extractLsb' 8 8) = .next s1 ∧ writeByte s1 (a + 1) (v.extractLsb' 0 8) = .next t) ∧
    (∀ v : Quad, writeMem .quad s a v = .next t ↔
      ∃ s1 s2 s3, writeByte s a (v.extractLsb' 24 8) = .next s1 ∧
        writeByte s1 (a + 1) (v.extractLsb' 16 8) = .next s2 ∧ writeByte s2 (a + 2) (v.extractLsb' 8 8) = .next s3 ∧
        writeByte s3 (a + 3) (v.extractLsb' 0 8) = .next t)) ∧
  (∀ (sz : Size) (s : State) (a : Quad) (v : BitVec sz.bits),
    Memory.wf (blankByte s.cfg) s.mem = true → InRam sz.bytes s a →
      ∃ t, writeMem sz s a v = .next t ∧ readMem sz t a = .next v ∧
        SameControl s t ∧ t.flags = s.flags ∧ t.sysexcp = s.sysexcp) ∧
  ∀ (s t : State) (a : Quad) (v : Quad),
    Memory.wf (blankByte s.cfg) s.mem = true → InRam 4 s a → writeMem .quad s a v = .next t →
      readMem .byte t a = .next (v.extractLsb' 24 8) ∧ readMem .byte t (a + 1) = .next (v.extractLsb' 16 8) ∧
      readMem .byte t (a + 2) = .next (v.extractLsb' 8 8) ∧ readMem .byte t (a + 3) = .next (v.extractLsb' 0 8) ∧
      readMem .word t a = .next (v.extractLsb' 16 16) ∧ readMem .word t (a + 1) = .next (v.extractLsb' 8 16) ∧
      readMem .word t (a + 2) = .next (v.extractLsb' 0 16)

/-- 20_memory.md R70, R71, R90: a store, wherever it goes, changes no byte of memory outside the bytes it stores to, and no
register, no modifier, and nothing of the environment but the peripherals it stores to, each store of which is told; it
records the bytes it stores in RAM or external memory, records no other, and forgets none (the record is the model's form
of the spec's own choice D16, notes/assumptions/17.md); a load (`noteReads` is what it does beside answering) changes
nothing but the peripherals it reads. -/
def Obligations.StoresLeaveTheRestAlone : Prop :=
  (∀ (sz : Size) (s t : State) (a : Quad) (v : BitVec sz.bits), writeMem sz s a v = .next t →
    SameOutside s t sz.bytes a ∧ SameRegs s t [] ∧ t.pc = s.pc ∧ t.pendingExc = s.pendingExc ∧ SameModifiers s t ∧
      SameButPeripherals s t ∧ (NoPeripheral sz.bytes s a → t.events = s.events ∧ t.ioRegs = s.ioRegs) ∧
      (∃ told, t.events = told ++ s.events ∧ told.length ≤ sz.bytes ∧
        ∀ e ∈ told, ∃ k < sz.bytes, ∃ d b, locate s.cfg (phys s.cfg (offsetBy a k)) = .device d ∧
          e = .deviceWrite d.addr b) ∧
      (∀ p ∈ t.written, p ∈ s.written ∨ ∃ k < sz.bytes, p = phys s.cfg (offsetBy a k)) ∧
      (∀ p ∈ s.written, p ∈ t.written) ∧
      (∀ k < sz.bytes, ramByte s (offsetBy a k) = true → phys s.cfg (offsetBy a k) ∈ t.written)) ∧
  (∀ (sz : Size) (s : State) (a : Quad),
    noteReads sz a s = { s with ioRegs := (noteReads sz a s).ioRegs, events := (noteReads sz a s).events } ∧
    (NoPeripheral sz.bytes s a → noteReads sz a s = s))

/-- 20_memory.md R61: with 24 address bits, addresses that differ in bits 31 to 24 only name the same bytes, for loads,
stores and fetches. -/
def Obligations.HighAddressBitsAreIgnored : Prop :=
  ∀ (sz : Size) (s : State) (a b : Quad) (v : BitVec sz.bits), s.cfg.addrBits = .bits24 →
    a.extractLsb' 0 24 = b.extractLsb' 0 24 →
      readMem sz s a = readMem sz s b ∧ noteReads sz a s = noteReads sz b s ∧ writeMem sz s a v = writeMem sz s b v ∧
        fetchWord s a = fetchWord s b

/-- 10_state.md R35, R38 to R41, 20_memory.md R67, R70, R71, 60_exceptions.md R410, R418, R419: PCOV, SPOV, FLAGS and
CPUCTL at their addresses, whole and by their bytes; reserved bytes read as some value and ignore writes; I/O addresses
with no register read as FFH and ignore writes; a read or store of a configured peripheral's register has the effect its
behaviour says, and the environment is told. That CPUCTL bits 7 to 2 read 1 and ignore writes is the spec's own choice
D22, that narrower stores replace exactly the bytes addressed D24, the reserved bytes D25; the kinds of behaviour a
peripheral can have are the model's choice (notes/assumptions/19.md). -/
def Obligations.ControlRegistersInMemory : Prop :=
  ∀ s : State,
    readMem .quad s 0xFFFFE004 = .next s.pcov ∧ readMem .quad s 0xFFFFE00C = .next s.spov ∧
    readMem .byte s 0xFFFFE010 = .next s.flags ∧ readMem .byte s 0xFFFFE012 = .next (0b111111#6 ++ s.dmabw) ∧
    (∀ v : Quad, writeMem .quad s 0xFFFFE004 v = .next { s with pcov := v }) ∧
    (∀ v : Quad, writeMem .quad s 0xFFFFE00C v = .next { s with spov := v }) ∧
    (∀ v : Word, writeMem .word s 0xFFFFE004 v = .next { s with pcov := v ++ s.pcov.extractLsb' 0 16 }) ∧
    (∀ v : Word, writeMem .word s 0xFFFFE00E v = .next { s with spov := s.spov.extractLsb' 16 16 ++ v }) ∧
    (∀ b : Byte, writeMem .byte s 0xFFFFE007 b = .next { s with pcov := s.pcov.extractLsb' 8 24 ++ b }) ∧
    (∀ b : Byte, writeMem .byte s 0xFFFFE010 b = .next { s with flags := b }) ∧
    (∀ b : Byte, writeMem .byte s 0xFFFFE012 b = .next { s with dmabw := b.extractLsb' 0 2 }) ∧
    (∀ k ∈ [0x0, 0x1, 0x2, 0x3, 0x8, 0x9, 0xA, 0xB, 0x11], ∀ b : Byte,
      (∃ v, readByte s (offsetBy 0xFFFFE000 k) = .next v) ∧
        writeByte s (offsetBy 0xFFFFE000 k) b = .next s) ∧
    (∀ a b, (∀ d ∈ s.cfg.ioDevices, d.addr ≠ phys s.cfg a) → OtherIo s a →
      readByte s a = .next 0xFF ∧ noteRead a s = s ∧ writeByte s a b = .next s) ∧
    (∀ a d, PeripheralAt s a d → s.ioRegs = [] → contentsAt s d.addr = d.reset) ∧
    (∀ a d, PeripheralAt s a d → Memory.wf (resetContents s.cfg) s.ioRegs = true →
      (∃ b, readByte s a = .next b ∧ PeripheralRead d s (noteRead a s) b) ∧
      ∀ b, ∃ t, writeByte s a b = .next t ∧ PeripheralWritten d s t b) ∧
    (∀ a, noteReads .byte a s = noteRead a s ∧ noteReads .word a s = noteRead (a + 1) (noteRead a s) ∧
      noteReads .quad a s = noteRead (a + 3) (noteRead (a + 2) (noteRead (a + 1) (noteRead a s))))

/-- 20_memory.md R65, R67, R68: a store into nonvolatile memory is refused, an access where there is no memory faults, for
the whole of a datum when its first byte is there; every other byte, a peripheral's too, can be read and stored to. -/
def Obligations.AccessesWithoutMeaningStop : Prop :=
  ∀ (sz : Size) (s : State) (a : Quad) (v : BitVec sz.bits),
    (phys s.cfg a < ioBase s.cfg → regionKind s.cfg (phys s.cfg a) = .nvm →
      writeMem sz s a v = .refused .nvmStore) ∧
    (phys s.cfg a < ioBase s.cfg → regionKind s.cfg (phys s.cfg a) = .unavailable →
      readMem sz s a = .fault .unavailableRead ∧ writeMem sz s a v = .fault .unavailableWrite) ∧
    (Readable sz.bytes s a → ∃ x, readMem sz s a = .next x) ∧
    (Writable sz.bytes s a → ∃ t, writeMem sz s a v = .next t) ∧
    (ioBase s.cfg ≤ phys s.cfg a → ioBase s.cfg ≤ phys s.cfg (offsetBy a (sz.bytes - 1)) →
      Readable sz.bytes s a ∧ Writable sz.bytes s a)

/-- 10_state.md R37, 60_exceptions.md R434, with the OPEN place of D8 (notes/assumptions/6.md): where SYSEXCP has an
address and its five bits and those of the device's further kinds different positions, a byte read shows each bit at its
position and 0 elsewhere, and a byte write clears exactly the bits where it has a 1. -/
def Obligations.SysexcpIsWriteOneToClear : Prop :=
  ∀ (s : State) (place : SysexcpPlace) (b : Byte), s.cfg.sysexcpPlace = some place →
    ioBase s.cfg + 0x13 ≤ phys s.cfg place.addr →
    ([place.pcovf, place.spovf, place.div0, place.divovf, place.ill] ++ place.extra.map Prod.snd).Nodup →
    (place.extra.map Prod.fst).Nodup →
      (∃ r : Byte, readByte s place.addr = .next r ∧ r.getLsbD place.pcovf = s.sysexcp.pcovf ∧
        r.getLsbD place.spovf = s.sysexcp.spovf ∧ r.getLsbD place.div0 = s.sysexcp.div0 ∧
        r.getLsbD place.divovf = s.sysexcp.divovf ∧ r.getLsbD place.ill = s.sysexcp.ill ∧
        (∀ e ∈ place.extra, r.getLsbD e.2 = sysexcpBit s.sysexcp (.extra e.1)) ∧
        ∀ k : Fin 8,
          k ∉ [place.pcovf, place.spovf, place.div0, place.divovf, place.ill] ++ place.extra.map Prod.snd →
            r.getLsbD k = false) ∧
      ∃ x : Sysexcp, writeByte s place.addr b = .next { s with sysexcp := x } ∧
        x.pcovf = (if b.getLsbD place.pcovf then false else s.sysexcp.pcovf) ∧
        x.spovf = (if b.getLsbD place.spovf then false else s.sysexcp.spovf) ∧
        x.div0 = (if b.getLsbD place.div0 then false else s.sysexcp.div0) ∧
        x.divovf = (if b.getLsbD place.divovf then false else s.sysexcp.divovf) ∧
        x.ill = (if b.getLsbD place.ill then false else s.sysexcp.ill) ∧
        (∀ e ∈ place.extra, sysexcpBit x (.extra e.1) =
          if b.getLsbD e.2 then false else sysexcpBit s.sysexcp (.extra e.1)) ∧
        ∀ k, k ∉ place.extra.map Prod.fst → sysexcpBit x (.extra k) = sysexcpBit s.sysexcp (.extra k)

/-! ### Invariants -/

/-- The invariant holds after reset. -/
def Obligations.ResetMeetsTheInvariant : Prop := Inv State.reset

/-- From every state that meets the invariant, a step that goes on leads to one that meets it: memory, the peripherals'
registers and the record of stored addresses keep their canonical forms, and an ATM window has at most three instructions
(45_cpu_control.md R322). -/
def Obligations.StepKeepsTheInvariant : Prop := ∀ s t : State, Inv s → step s = .next t → Inv t

/-- 10_state.md R27: PC[0] stays 0: no instruction, entry, return or reset makes PC odd. -/
def Obligations.StepKeepsPcEven : Prop :=
  ∀ s t : State, s.pc.getLsbD 0 = false → step s = .next t → t.pc.getLsbD 0 = false

/-- 20_memory.md R65 and the roles of the model's fields: no step changes a byte of nonvolatile memory or the
configuration; a step takes one list of inputs, draws the free values anew, and forgets nothing the environment was
told. -/
def Obligations.StepKeepsNonvolatileMemory : Prop :=
  ∀ s t : State, step s = .next t →
    (∀ p, p < ioBase s.cfg → regionKind s.cfg p = .nvm → byteAt t p = byteAt s p) ∧
    t.cfg = s.cfg ∧ t.env = s.env.tail ∧ t.freeCtr = s.freeCtr + 1 ∧ ∃ new, t.events = new ++ s.events

/-- 10_state.md R41, R47: the reset values the spec gives; IRQE, SYSEXCP, the modifiers and the Watchdog Timer are its own
choices D6, D8, D12, D21, the place of the RESET vector D7; that no exception is pending, and that the SYSEXCP bits of a
device's further kinds are 0, are the model's choices (notes/assumptions/24.md, 37.md). R0 to R15 and C, Z, S, V, B are not stated here: the spec gives them no value. -/
def Obligations.ResetValues : Prop :=
  State.reset.pcov = 0xFFFFFFFF ∧ State.reset.spov = 0 ∧
  readByte State.reset 0xFFFFE012 = .next 0xFF ∧
  flagF1 State.reset.flags = false ∧ flagCirqe State.reset.flags = false ∧ flagIrqe State.reset.flags = false ∧
  State.reset.sysexcp = Sysexcp.clear ∧ NoModifiers State.reset ∧ State.reset.runState = .running ∧
  State.reset.wdtEnabled = false ∧ State.reset.pendingExc = none ∧
  readMem .quad State.reset 4 = .next State.reset.pc

/-- 45_cpu_control.md R327, R330, R331: no instruction but HALT and STOP leaves the running mode, none but WDT enables the
Watchdog Timer, none disables it, and none changes the configuration, the coming inputs or the device's exceptions that wait. That no instruction changes what
the Interrupt Controller presents, an IRET that chains and acknowledges among them, is the model's choice: it stays
presented until an input changes it (notes/assumptions/7.md). -/
def Obligations.OnlyHaltStopAndWdtChangeTheMode : Prop :=
  ∀ (i : Instr) (s t : State), exec i s = .next t →
    (i ≠ .halt → i ≠ .stop → t.runState = s.runState) ∧ (i = .halt → t.runState = .halted) ∧
    (i = .stop → t.runState = .stopped) ∧ t.wdtEnabled = (s.wdtEnabled || decide (i = .wdt)) ∧
    t.irq = s.irq ∧ t.heldExc = s.heldExc ∧ t.cfg = s.cfg ∧ t.env = s.env

/-- 45_cpu_control.md R320, R322, R324: a prefix sets its own piece of modifier state and keeps the others; any other
instruction uses up both pending prefixes and counts as one of the three of an ATM window; TRAP and the illegal
instructions clear all. -/
def Obligations.ModifiersAreUsedUp : Prop :=
  ∀ (i : Instr) (s t : State), exec i s = .next t →
    if i = .extend then SameModifiers { s with extendPending := true } (retire i t)
    else if i = .noflags then SameModifiers { s with noflagsPending := true } (retire i t)
    else if i = .atm then SameModifiers { s with atmCount := 3 } (retire i t)
    else (retire i t).extendPending = false ∧ (retire i t).noflagsPending = false ∧
      ((retire i t).atmCount = s.atmCount - 1 ∨
        ((retire i t).atmCount = 0 ∧ (i = .ill ∨ i = .brk ∨ (∃ w, i = .unimplemented w) ∨ ∃ v, i = .trap v)))

/-! ### Steps -/

/-- 00_scope.md R19, 60_exceptions.md R411 item 5: when no event is taken, the program counter is even and not above the
limit of R423, and the bytes at it are memory not stored to since the last control transfer and decode to i, the step is
`exec i` on the state at the boundary, and then the modifiers are used up. The fault or refusal of `exec i` is that of the
step. -/
def Obligations.StepRunsTheDecodedInstruction : Prop :=
  ∀ (s : State) (bs : List Byte) (i : Instr), EnvInput.reset ∉ inputsNow s → (atBoundary s).runState = .running →
    NoEvent (atBoundary s) → (atBoundary s).pc.getLsbD 0 = false →
    ((atBoundary s).pc.toNat ≤ (atBoundary s).pcov.toNat ∨ (atBoundary s).sysexcp.pcovf = true) →
    decodeBytes (atBoundary s).extendPending bs = .ok (i, []) →
    (∀ (k : Nat) (hk : k < bs.length), memoryByte (atBoundary s) (offsetBy (atBoundary s).pc k) = true ∧
      phys (atBoundary s).cfg (offsetBy (atBoundary s).pc k) ∉ (atBoundary s).written ∧
      byteAt (atBoundary s) (phys (atBoundary s).cfg (offsetBy (atBoundary s).pc k)) = bs[k]) →
      step s = match exec i (atBoundary s) with
        | .next t => .next (retire i t)
        | .fault e => .fault e
        | .refused e => .refused e

/-- 10_state.md R27, 20_memory.md R68, R73, R74, R90: a fetch at an odd PC is refused, one in the I/O range or where there
is no memory faults, one of a byte stored since the last control transfer is refused. -/
def Obligations.FetchesWithoutMeaningStop : Prop :=
  ∀ s : State,
    (s.pc.getLsbD 0 = true → fetchInstr s = .refused .oddPc) ∧
    (s.pc.getLsbD 0 = false → ioBase s.cfg ≤ phys s.cfg s.pc → fetchInstr s = .fault .ioFetch) ∧
    (s.pc.getLsbD 0 = false → phys s.cfg s.pc < ioBase s.cfg → regionKind s.cfg (phys s.cfg s.pc) = .unavailable →
      fetchInstr s = .fault .unavailableFetch) ∧
    (s.pc.getLsbD 0 = false → memoryByte s s.pc = true → phys s.cfg s.pc ∈ s.written →
      fetchInstr s = .refused .staleCode)

/-- 60_exceptions.md R423: with PC above PCOV and PCOVF 0 the fetched instruction is stepped over by its length (2 for an
unimplemented word), not executed, and the exception is pending. That it is not executed is the spec's own choice
D11. -/
def Obligations.PcOverflowStepsOverTheInstruction : Prop :=
  ∀ (s : State) (w0 : Word), EnvInput.reset ∉ inputsNow s → (atBoundary s).runState = .running →
    NoEvent (atBoundary s) → (atBoundary s).pc.getLsbD 0 = false →
    fetchWord (atBoundary s) (atBoundary s).pc = .next w0 →
    (atBoundary s).pcov.toNat < (atBoundary s).pc.toNat → (atBoundary s).sysexcp.pcovf = false →
      step s = .next { atBoundary s with
        pc := offsetBy (atBoundary s).pc ((lengthOfWord w0).getD 2)
        sysexcp := { (atBoundary s).sysexcp with pcovf := true }
        pendingExc := some .pcOverflow }

/-- 60_exceptions.md R411 item 1, R413, R421, R431: a pending exception is entered before anything else: the six-byte frame
with PC and FLAGS, CIRQE and IRQE, no modifiers, PC from 0000_0008H, and no exception pending but a Stack Overflow of the
pushes themselves. Clearing IRQE is the spec's own choice D10; that such a Stack Overflow stays pending is
notes/assumptions/22.md.
An odd address in the vector is refused: the spec's own choice D4 (10_state.md R27,
notes/assumptions/13.md). -/
def Obligations.PendingExceptionIsEntered : Prop :=
  ∀ (s : State) (x : SysExc) (target : Quad), EnvInput.reset ∉ inputsNow s → (atBoundary s).runState = .running →
    (atBoundary s).pendingExc = some x → EntryReady (atBoundary s) 8 target →
      if target.getLsbD 0 then step s = .refused .oddPc
      else ∃ t, step s = .next t ∧ Entered { atBoundary s with pendingExc := none } t (atBoundary s).pc target ∧
        Masked (atBoundary s).flags t.flags ∧ NoModifiers t ∧ t.events = (atBoundary s).events

/-- 60_exceptions.md R411 item 4, R412, R413, R431: with no exception pending, no prefix and no ATM window, and IRQE 1, the
presented interrupt is entered and acknowledged. That clearing IRQE is part of it is R412; the model's choices are that the
interrupt stays presented until an input changes it (notes/assumptions/7.md) and that the entry empties the record of
stored addresses (notes/assumptions/17.md).
An odd address in the vector is refused: the spec's own choice D4 (10_state.md R27,
notes/assumptions/13.md). -/
def Obligations.EnabledInterruptIsEntered : Prop :=
  ∀ (s : State) (v target : Quad), EnvInput.reset ∉ inputsNow s → (atBoundary s).runState = .running →
    (atBoundary s).pendingExc = none → NoModifiers (atBoundary s) → flagIrqe (atBoundary s).flags = true →
    (atBoundary s).irq = some v → EntryReady (atBoundary s) v target →
      if target.getLsbD 0 then step s = .refused .oddPc
      else ∃ t, step s = .next t ∧ Entered (atBoundary s) t (atBoundary s).pc target ∧
        Masked (atBoundary s).flags t.flags ∧ NoModifiers t ∧
        t.events = .interruptAcknowledge v :: (atBoundary s).events

/-- 60_exceptions.md R427, R428, 46_program_control.md R341, R345, 30_encoding.md R116: ILL, an unimplemented word, and BRK
with debugger breaks disabled enter through 0000_0008H with the address of the illegal word itself and set the ILL bit;
with that bit already 1 nothing is pushed, no stack is needed, and FLAGS is unchanged (the spec's own reading D30); with
breaks enabled BRK stops. That the entry clears IRQE is the spec's own choice D10; that a taken transfer empties the record
of stored addresses is the model's (notes/assumptions/17.md).
An odd address in the vector is refused: the spec's own choice D4 (10_state.md R27,
notes/assumptions/13.md). -/
def Obligations.IllegalInstructionsAreEntered : Prop :=
  (∀ s : State, s.cfg.ocdBreakEnabled = true → exec .brk s = .fault .debuggerBreak) ∧
  ∀ (s : State) (target : Quad) (i : Instr),
    (i = .ill ∨ (∃ w, i = .unimplemented w) ∨ (i = .brk ∧ s.cfg.ocdBreakEnabled = false)) →
      (s.sysexcp.ill = false → EntryReady s 8 target →
        if target.getLsbD 0 then exec i s = .refused .oddPc
        else ∃ t, exec i s = .next t ∧
          Entered { s with sysexcp := { s.sysexcp with ill := true }, pendingExc := none } t s.pc target ∧
          Masked s.flags t.flags ∧ NoModifiers t ∧ t.events = s.events) ∧
      (s.sysexcp.ill = true → InMemory 4 s 8 → readMem .quad s 8 = .next target →
        if target.getLsbD 0 then exec i s = .refused .oddPc
        else exec i s = .next { s with
          pc := target, written := [], extendPending := false, noflagsPending := false, atmCount := 0 })

/-- 46_program_control.md R355, 60_exceptions.md R413, R431, R432: TRAP pushes the frame with the address after it and
goes where the quad at 4 times its vector points; that no flag changes is the spec's own choice D10, that the modifiers
are cleared its choice D12 (R324); that the record of stored addresses is emptied is the model's
(notes/assumptions/17.md).
An odd address in the vector is refused: the spec's own choice D4 (10_state.md R27,
notes/assumptions/13.md). -/
def Obligations.TrapIsEntered : Prop :=
  ∀ (s : State) (vector : Byte) (target : Quad), EntryReady s (4 * vector.setWidth 32) target →
    if target.getLsbD 0 then exec (.trap vector) s = .refused .oddPc
    else ∃ t, exec (.trap vector) s = .next t ∧ Entered s t (s.pc + 2) target ∧ t.flags = s.flags ∧ NoModifiers t ∧
      t.events = s.events

/-- 46_program_control.md R346, R354, 60_exceptions.md R415: RET pops PC; IRET, when it does not chain, pops PC and FLAGS,
all eight bits; an odd PC is refused (10_state.md R27, the spec's own choice D4). Inside an ATM window IRET does not chain
(D12); that the record of stored addresses is emptied is the model's choice (notes/assumptions/17.md). -/
def Obligations.ReturnsPopTheStack : Prop :=
  ∀ (s : State) (target : Quad) (f : Byte), readMem .quad s (sp s) = .next target →
    (InMemory 4 s (sp s) →
      if target.getLsbD 0 then exec .ret s = .refused .oddPc
      else ∃ t, exec .ret s = .next t ∧ t.pc = target ∧ sp t = sp s + 4 ∧ SameRegs s t [15] ∧
        StackChecked s t ((sp s + 4).toNat < s.spov.toNat) ∧ t.flags = s.flags ∧ t.mem = s.mem ∧
        (∀ p, byteAt t p = byteAt s p) ∧ t.written = [] ∧ SameControl s t ∧ SameModifiers s t ∧ SameEnvironment s t) ∧
    (InMemory 6 s (sp s) → readMem .byte s (sp s + 5) = .next f →
      (flagCirqe s.flags = false ∨ s.irq = none ∨ s.atmCount ≠ 0) →
      if target.getLsbD 0 then exec .iret s = .refused .oddPc
      else ∃ t, exec .iret s = .next t ∧ t.pc = target ∧ t.flags = f ∧ sp t = sp s + 6 ∧ SameRegs s t [15] ∧
        StackChecked s t ((sp s + 4).toNat < s.spov.toNat ∨ (sp s + 6).toNat < s.spov.toNat) ∧ t.mem = s.mem ∧
        (∀ p, byteAt t p = byteAt s p) ∧ t.written = [] ∧ SameControl s t ∧ SameModifiers s t ∧ SameEnvironment s t)

/-- 46_program_control.md R346, 60_exceptions.md R416: with CIRQE 1 and an interrupt pending, IRET clears IRQE, goes to the
interrupt's routine and acknowledges it; the stack and the other flags are untouched. The model's choices: the interrupt
stays presented until an input changes it (notes/assumptions/7.md), and the record of stored addresses is emptied
(notes/assumptions/17.md).
An odd address in the vector is refused: the spec's own choice D4 (10_state.md R27,
notes/assumptions/13.md). -/
def Obligations.ReturnChainsToAPendingInterrupt : Prop :=
  ∀ (s : State) (v target : Quad), flagCirqe s.flags = true → s.irq = some v → s.atmCount = 0 →
    InMemory 4 s v → readMem .quad s v = .next target →
      if target.getLsbD 0 then exec .iret s = .refused .oddPc
      else exec .iret s = .next { s with
        flags := s.flags &&& 0xFE, pc := target, written := [], events := .interruptAcknowledge v :: s.events }

/-- 45_cpu_control.md R327, R330 with D17: in Halt or Stop mode, an event the environment parameter admits ends the mode
and the boundary rule of R411 applies; without one the CPU waits while inputs are to come, and no step is possible when
none is. The kinds of event are those of `WakeEvent`: an interrupt presented with IRQE = 1, or whatever IRQE is, a pending
exception, the device's own signal. The waiting and the kinds are the model's choice (notes/assumptions/9.md). -/
def Obligations.HaltAndStopModeWait : Prop :=
  (∀ (admitted : List WakeEvent) (inputs : List EnvInput) (s : State), wakes admitted inputs s = true ↔
    (.enabledInterrupt ∈ admitted ∧ s.irq ≠ none ∧ flagIrqe s.flags = true) ∨
    (.anyInterrupt ∈ admitted ∧ s.irq ≠ none) ∨ (.exception ∈ admitted ∧ s.pendingExc ≠ none) ∨
    (.external ∈ admitted ∧ EnvInput.wake ∈ inputs)) ∧
  ∀ s : State, EnvInput.reset ∉ inputsNow s →
    ((atBoundary s).runState = .halted →
      step s =
        if wakes s.cfg.wakeFromHalt (inputsNow s) (atBoundary s) = true then
          runStep { atBoundary s with runState := .running }
        else if s.env.tail = [] then .fault .stuckInHalt else .next (atBoundary s)) ∧
    ((atBoundary s).runState = .stopped →
      step s =
        if wakes s.cfg.wakeFromStop (inputsNow s) (atBoundary s) = true then
          runStep { atBoundary s with runState := .running }
        else if s.env.tail = [] then .fault .stuckInStop else .next (atBoundary s))

/-- 70_reset_and_hazards.md R460, 10_state.md R47: a reset input takes effect at the boundary whatever the CPU does, gives
the reset values the spec states (PCOV, SPOV, CPUCTL, F1, CIRQE), and loads PC from the RESET vector. IRQE 0, SYSEXCP 0, no
modifiers and the Watchdog Timer off are the spec's own choices D6, D8 (for the five bits), D12, D21; 0 for the SYSEXCP
bits of a device's further kinds (notes/assumptions/37.md), no exception pending or waiting, that
memory and the environment remain and that the peripherals' registers take their reset contents are the model's
(notes/assumptions/24.md, 34.md).
An odd address in the vector is refused: the spec's own choice D4 (10_state.md R27,
notes/assumptions/13.md). -/
def Obligations.ResetIsTakenAtTheBoundary : Prop :=
  ∀ (s : State) (target : Quad), EnvInput.reset ∈ inputsNow s →
    InMemory 4 (atBoundary s) s.cfg.resetVector →
    readMem .quad (atBoundary s) s.cfg.resetVector = .next target →
      if target.getLsbD 0 then step s = .refused .oddPc
      else ∃ t, step s = .next t ∧ t.pc = target ∧ t.pcov = 0xFFFFFFFF ∧ t.spov = 0 ∧ t.dmabw = 3 ∧
        t.sysexcp = Sysexcp.clear ∧ flagF1 t.flags = false ∧ flagCirqe t.flags = false ∧ flagIrqe t.flags = false ∧
        NoModifiers t ∧ t.pendingExc = none ∧ t.heldExc = [] ∧ t.runState = .running ∧ t.wdtEnabled = false ∧
        t.written = [] ∧ t.mem = s.mem ∧ t.ioRegs = [] ∧ t.cfg = s.cfg ∧ t.env = s.env.tail ∧ t.irq = (atBoundary s).irq ∧
        t.events = (atBoundary s).events

/-- 60_exceptions.md R420, R424: a write of any register writes that register only, and a write of R15 below SPOV raises
Stack Overflow, once. -/
def Obligations.RegisterWritesCheckTheStackLimit : Prop :=
  ∀ (s : State) (d : Reg) (v : Quad),
    readReg (writeReg s d v) d = v ∧ SameRegs s (writeReg s d v) [d] ∧
    StackChecked s (writeReg s d v) (BelowLimit s d v) ∧ (writeReg s d v).flags = s.flags ∧
    (writeReg s d v).pc = s.pc ∧ SameRest s (writeReg s d v)

/-! ### Two-operand instructions -/

/-- 40_arithmetic.md R150, R152 to R157, 41_logical.md R201 to R203, 42_bit_manipulation.md R221, R222: ADD, ADC, SUB, SBC,
AND, OR, XOR, CP, CPC, TM and TCM with register or immediate operands, the short forms of ADD, ADC, CP and CPC, and the
three-register form of ADD and ADC (its B tests the two addends, the spec's own choice D33). -/
def Obligations.TwoOperandRegisterForms : Prop :=
  ∀ (s : State) (d : Reg),
    (∀ (o : BinOp) (r : Reg), RegisterOutcome o s d (readReg s d) (readReg s r) 2 (exec (o.quad (.regReg d r)) s)) ∧
    (∀ (o : BinOp) (i : Quad), RegisterOutcome o s d (readReg s d) i 6 (exec (o.quad (.regImm32 d i)) s)) ∧
    (∀ (o : BinOp) (i : Word),
      RegisterOutcome o s d (readReg s d) (i.setWidth 32) 4 (exec (o.quad (.regUimm16 d i)) s)) ∧
    (∀ i : Byte, RegisterOutcome .add s d (readReg s d) (i.signExtend 32) 2 (exec (.add (.regSimm8 d i)) s)) ∧
    (∀ i : Byte, RegisterOutcome .adc s d (readReg s d) (i.signExtend 32) 2 (exec (.adc (.regSimm8 d i)) s)) ∧
    (∀ i : Byte, RegisterOutcome .cp s d (readReg s d) (i.signExtend 32) 2 (exec (.cp (.regSimm8 d i)) s)) ∧
    (∀ i : Byte, RegisterOutcome .cpc s d (readReg s d) (i.signExtend 32) 2 (exec (.cpc (.regSimm8 d i)) s)) ∧
    (∀ r1 r2 : Reg,
      RegisterOutcome .add s d (readReg s r1) (readReg s r2) 2 (exec (.add (.regRegReg d r1 r2)) s)) ∧
    (∀ r1 r2 : Reg, RegisterOutcome .adc s d (readReg s r1) (readReg s r2) 2 (exec (.adc (.regRegReg d r1 r2)) s))

/-- 40_arithmetic.md R150, forms B4, B6, B8: a Quad of memory as source. The rest is relative to the state after the read
(`noteReads`), which differs from the state before at a peripheral's register only. -/
def Obligations.TwoOperandQuadSourceForms : Prop :=
  ∀ (o : BinOp) (s : State) (d : Reg),
    (∀ a : Word, Readable 4 s (addr16Ea a) → ∃ b, readMem .quad s (addr16Ea a) = .next b ∧
      RegisterOutcome o (noteReads .quad (addr16Ea a) s) d (readReg s d) b 4 (exec (o.quad (.regAddr16 d a)) s)) ∧
    (∀ a : Quad, Readable 4 s a → ∃ b, readMem .quad s a = .next b ∧
      RegisterOutcome o (noteReads .quad a s) d (readReg s d) b 6 (exec (o.quad (.regAddr32 d a)) s)) ∧
    (∀ (off : BitVec 13) (r : Reg), Readable 4 s (readReg s r + off.signExtend 32) →
      ∃ b, readMem .quad s (readReg s r + off.signExtend 32) = .next b ∧
        RegisterOutcome o (noteReads .quad (readReg s r + off.signExtend 32) s) d (readReg s d) b 4
          (exec (o.quad (.regInd d off r)) s))

/-- 40_arithmetic.md R150, forms B5, B7, B9: a Byte or Word of memory, zero- or sign-extended, as source; relative to the
state after the read. -/
def Obligations.TwoOperandExtendingSourceForms : Prop :=
  ∀ (o : BinOp) (s : State) (d : Reg) (m : BopSource),
    (Readable 1 s (bopSourceEa m s) → ∃ v : Byte, readMem .byte s (bopSourceEa m s) = .next v ∧
      RegisterOutcome o (noteReads .byte (bopSourceEa m s) s) d (readReg s d) (v.setWidth 32) (sourceLen m)
        (exec (o.ub d m) s) ∧
      RegisterOutcome o (noteReads .byte (bopSourceEa m s) s) d (readReg s d) (v.signExtend 32) (sourceLen m)
        (exec (o.sb d m) s)) ∧
    (Readable 2 s (bopSourceEa m s) → ∃ v : Word, readMem .word s (bopSourceEa m s) = .next v ∧
      RegisterOutcome o (noteReads .word (bopSourceEa m s) s) d (readReg s d) (v.setWidth 32) (sourceLen m)
        (exec (o.uw d m) s) ∧
      RegisterOutcome o (noteReads .word (bopSourceEa m s) s) d (readReg s d) (v.signExtend 32) (sourceLen m)
        (exec (o.sw d m) s))

/-- 40_arithmetic.md R150, forms B10 to B13 and B15: a Quad of memory as destination, not at FLAGS itself unless NOFLAGS
applies. That NOFLAGS lets a result be stored at FLAGS (notes/assumptions/15.md), and that a Quad which reaches FLAGS from a
lower address is stored first and the flags are set after it (notes/assumptions/16.md), are the model's choices. -/
def Obligations.TwoOperandQuadDestinationForms : Prop :=
  ∀ (o : BinOp) (s : State),
    (∀ (a : Word) (r : Reg), MemoryReady o 4 s (addr16Ea a) →
      MemoryOutcome o .quad s (addr16Ea a) (readReg s r) 4 (exec (o.quad (.addr16Reg a r)) s)) ∧
    (∀ (a : Quad) (r : Reg), MemoryReady o 4 s a →
      MemoryOutcome o .quad s a (readReg s r) 6 (exec (o.quad (.addr32Reg a r)) s)) ∧
    (∀ (off : BitVec 13) (d r : Reg), MemoryReady o 4 s (readReg s d + off.signExtend 32) →
      MemoryOutcome o .quad s (readReg s d + off.signExtend 32) (readReg s r) 4
        (exec (o.quad (.indReg off d r)) s)) ∧
    (∀ (d : Reg) (i : Quad), MemoryReady o 4 s (readReg s d) →
      MemoryOutcome o .quad s (readReg s d) i 6 (exec (o.quad (.indImm32 d i)) s)) ∧
    (∀ (d : Reg) (i : Word), MemoryReady o 4 s (readReg s d) →
      MemoryOutcome o .quad s (readReg s d) (i.signExtend 32) 4 (exec (o.quad (.indSimm16 d i)) s))

/-- 40_arithmetic.md R150, forms B10 to B12, B14 and B16: a Byte or Word of memory as destination, with the register
source truncated or the immediate (`bopDestSource`, written out in `EffectiveAddresses`); the flags are those of 8 or 16
bits; B tests the truncated source (the spec's own choice D31). That NOFLAGS lets a result be stored at FLAGS
(notes/assumptions/15.md), and that a Word at E00FH is stored first and the flags are set after it
(notes/assumptions/16.md), are the model's choices. -/
def Obligations.TwoOperandNarrowDestinationForms : Prop :=
  ∀ (o : BinOp) (s : State),
    (∀ f : BopDest 8, MemoryReady o 1 s (bopDestEa f s) →
      MemoryOutcome o .byte s (bopDestEa f s) (bopDestSource f s) (destLen f) (exec (o.byte f) s)) ∧
    (∀ f : BopDest 16, MemoryReady o 2 s (bopDestEa f s) →
      MemoryOutcome o .word s (bopDestEa f s) (bopDestSource f s) (destLen f) (exec (o.word f) s))

/-- 10_state.md R35, 40_arithmetic.md R150, R151, U12: a result stored at the FLAGS address while the flags are written too
is refused, for every operation that writes a result. Under NOFLAGS it is not (notes/assumptions/15.md). -/
def Obligations.FlagsDestinationIsRefused : Prop :=
  ∀ (o : BinOp) (s : State), o.writes = true → s.noflagsPending = false →
    (∀ f : BopDest 8, phys s.cfg (bopDestEa f s) = ioBase s.cfg + 0x10 →
      exec (o.byte f) s = .refused .flagsDestination) ∧
    (∀ f : BopDest 16, phys s.cfg (bopDestEa f s) = ioBase s.cfg + 0x10 →
      exec (o.word f) s = .refused .flagsDestination) ∧
    (∀ m : UopDest, phys s.cfg (uopEa m s) = ioBase s.cfg + 0x10 →
      exec (.incB m) s = .refused .flagsDestination ∧ exec (.decB m) s = .refused .flagsDestination ∧
      exec (.incW m) s = .refused .flagsDestination ∧ exec (.decW m) s = .refused .flagsDestination) ∧
    (∀ m : UopDest, phys s.cfg (uopEa m s) = ioBase s.cfg + 0x10 → Readable 4 s (uopEa m s) →
      exec (.inc m) s = .refused .flagsDestination ∧ exec (.dec m) s = .refused .flagsDestination) ∧
    (∀ (f : BopQuad) (ea : Quad), quadDestEa f s = some ea → phys s.cfg ea = ioBase s.cfg + 0x10 →
      Readable 4 s ea → exec (o.quad f) s = .refused .flagsDestination)

/-! ### One-operand instructions -/

/-- 40_arithmetic.md R151, R158 to R161: INC, DEC, CPZ and CPCZ of a Byte, Word or Quad of memory, in every form. That
NOFLAGS lets INC and DEC store at FLAGS (notes/assumptions/15.md), and that a wider datum which reaches FLAGS from a lower
address is stored first and the flags are set after it (notes/assumptions/16.md), are the model's choices. -/
def Obligations.UnaryMemoryInstructions : Prop :=
  ∀ (s : State) (m : UopDest),
    (UpdateReady 1 s (uopEa m s) → UpdateOutcome .byte (· + 1#8) incFlags m s (exec (.incB m) s) ∧
      UpdateOutcome .byte (· - 1#8) decFlags m s (exec (.decB m) s)) ∧
    (UpdateReady 2 s (uopEa m s) → UpdateOutcome .word (· + 1#16) incFlags m s (exec (.incW m) s) ∧
      UpdateOutcome .word (· - 1#16) decFlags m s (exec (.decW m) s)) ∧
    (UpdateReady 4 s (uopEa m s) → UpdateOutcome .quad (· + 1#32) incFlags m s (exec (.inc m) s) ∧
      UpdateOutcome .quad (· - 1#32) decFlags m s (exec (.dec m) s)) ∧
    (Readable 1 s (uopEa m s) → TestOutcome .byte cpzFlags m s (exec (.cpzB m) s) ∧
      TestOutcome .byte (cpczFlags (flagC s.flags) (flagZ s.flags)) m s (exec (.cpczB m) s)) ∧
    (Readable 2 s (uopEa m s) → TestOutcome .word cpzFlags m s (exec (.cpzW m) s) ∧
      TestOutcome .word (cpczFlags (flagC s.flags) (flagZ s.flags)) m s (exec (.cpczW m) s)) ∧
    (Readable 4 s (uopEa m s) → TestOutcome .quad cpzFlags m s (exec (.cpz m) s) ∧
      TestOutcome .quad (cpczFlags (flagC s.flags) (flagZ s.flags)) m s (exec (.cpcz m) s))

/-- 44_load.md R251: CLR stores zeros, needs no readable operand, and changes no flag but by a store to FLAGS itself. -/
def Obligations.ClrStoresZero : Prop :=
  ∀ (s : State) (m : UopDest),
    (Writable 1 s (uopEa m s) → ∃ t, exec (.clrB m) s = .next t ∧ Stored .byte s t (uopEa m s) 0 {} (uopLen m)) ∧
    (Writable 2 s (uopEa m s) → ∃ t, exec (.clrW m) s = .next t ∧ Stored .word s t (uopEa m s) 0 {} (uopLen m)) ∧
    (Writable 4 s (uopEa m s) → ∃ t, exec (.clr m) s = .next t ∧ Stored .quad s t (uopEa m s) 0 {} (uopLen m))

/-- 40_arithmetic.md R162, R163, 41_logical.md R204: NEG, MUL and COM: their words, their result, their flags. NEG sets C
for every operand but 0 and V for 8000_0000H only; MUL gives the low 32 bits of the product and leaves C; COM clears C. -/
def Obligations.NegMulAndCom : Prop :=
  ∀ (s : State) (d r : Reg),
    encode (.neg d) = [0x455#12 ++ d] ∧ encode (.mul d r) = [0xB2#8 ++ r ++ d] ∧ encode (.com d) = [0x454#12 ++ d] ∧
    (∀ (ext : Bool) (w1 w2 : Word), decodeWords ext (0x455#12 ++ d) w1 w2 = .neg d ∧
      decodeWords ext (0xB2#8 ++ r ++ d) w1 w2 = .mul d r ∧ decodeWords ext (0x454#12 ++ d) w1 w2 = .com d) ∧
    (∃ t, exec (.neg d) s = .next t ∧ WroteRegister s t d (0 - readReg s d)
      { c := some (decide (readReg s d ≠ 0)), z := some (decide (0 - readReg s d = 0)),
        s := some (0 - readReg s d).msb, v := some (decide (readReg s d = 0x80000000)),
        b := some (decide (readReg s d = 0)) } 2) ∧
    (∃ t, exec (.mul d r) s = .next t ∧
      WroteRegister s t d (BitVec.ofNat 32 ((readReg s d).toNat * (readReg s r).toNat))
        (wideFlags (decide (BitVec.ofNat 32 ((readReg s d).toNat * (readReg s r).toNat) = 0))
          (BitVec.ofNat 32 ((readReg s d).toNat * (readReg s r).toNat)).msb) 2) ∧
    (∃ t, exec (.com d) s = .next t ∧ WroteRegister s t d (~~~ readReg s d)
      { c := some false, z := some (decide (~~~ readReg s d = 0)), s := some (~~~ readReg s d).msb,
        v := some false, b := some (decide (readReg s d = 0)) } 2)

/-! ### Multiply and divide -/

/-- 40_arithmetic.md R164, R165: UMUL and SMUL: the 64-bit product, low half in Rd and high half in Rs; with one register
for both, nothing is said of that register's value; the flags and the Stack Overflow test are as computed from the two halves,
and nothing else differs (the spec's own choice D13, U18). -/
def Obligations.WideMultiplies : Prop :=
  ∀ (s : State) (d r : Reg),
    (∃ t, exec (.umul d r) s = .next t ∧ ∃ p : BitVec 64,
      p.toNat = (readReg s d).toNat * (readReg s r).toNat ∧
      WrotePair s t d r (p.extractLsb' 0 32) (p.extractLsb' 32 32) (wideFlags (decide (p = 0)) p.msb) 2) ∧
    (∃ t, exec (.smul d r) s = .next t ∧ ∃ p : BitVec 64,
      p.toInt = (readReg s d).toInt * (readReg s r).toInt ∧
      WrotePair s t d r (p.extractLsb' 0 32) (p.extractLsb' 32 32) (wideFlags (decide (p = 0)) p.msb) 2)

/-- 40_arithmetic.md R166, R190: UDIV and UDIV64 with a divisor that is not 0 and a quotient that fits: dividend = quotient
times divisor plus remainder, remainder below the divisor. UDIV64 divides the pair Rd, R(d + 1) and leaves the source
register unless it is one of the pair (D13). With one register for both results of UDIV, nothing is said of that register's
value; the flags and the Stack Overflow test are as computed (the spec's own choice D13, U18). -/
def Obligations.UnsignedDivides : Prop :=
  ∀ (s : State) (d r : Reg), readReg s r ≠ 0 →
    (∃ t, exec (.udiv d r) s = .next t ∧ ∃ q m : Quad,
      (readReg s d).toNat = q.toNat * (readReg s r).toNat + m.toNat ∧ m.toNat < (readReg s r).toNat ∧
      WrotePair s t d r q m (wideFlags (decide (q = 0)) q.msb) 2) ∧
    ((readReg s d).toNat < (readReg s r).toNat → ∃ t, exec (.udiv64 d r) s = .next t ∧ ∃ q m : Quad,
      (readReg s d).toNat * 2 ^ 32 + (readReg s (d + 1)).toNat = q.toNat * (readReg s r).toNat + m.toNat ∧
      m.toNat < (readReg s r).toNat ∧ WrotePair s t d (d + 1) q m (wideFlags (decide (q = 0)) q.msb) 2)

/-- 40_arithmetic.md R167: SDIV truncates toward zero: the remainder has the dividend's sign; 8000_0000H by FFFF_FFFFH gives
8000_0000H and remainder 0 with S and V set. With one register for both results nothing is said of that register's value;
the flags and the Stack Overflow test are as computed (the spec's own choice D13, U18). -/
def Obligations.SignedDivide : Prop :=
  ∀ (s : State) (d r : Reg), readReg s r ≠ 0 →
    ∃ t, exec (.sdiv d r) s = .next t ∧
      if readReg s d = 0x80000000 ∧ readReg s r = 0xFFFFFFFF then
        WrotePair s t d r 0x80000000 0 { z := some false, s := some true, v := some true, b := some false } 2
      else ∃ q m : Quad, (readReg s d).toInt = q.toInt * (readReg s r).toInt + m.toInt ∧
        m.toInt.natAbs < (readReg s r).toInt.natAbs ∧ (m.toInt = 0 ∨ (m.toInt < 0 ↔ (readReg s d).toInt < 0)) ∧
        WrotePair s t d r q m (wideFlags (decide (q = 0)) q.msb) 2

/-- 40_arithmetic.md R166, R167, R190, 60_exceptions.md R425, R426: a divisor of 0 raises Divide-by-Zero, a quotient of
UDIV64 of 2^32 or more Divide Overflow; registers and flags are unchanged and pc goes on; with the SYSEXCP bit already 1
nothing is raised (D29). -/
def Obligations.DividesThatRaise : Prop :=
  ∀ (s : State) (d r : Reg),
    (readReg s r = 0 → ∀ i : Instr, (i = .udiv d r ∨ i = .sdiv d r ∨ i = .udiv64 d r) →
      ∃ t, exec i s = .next t ∧ Raised .divideByZero s t ∧ SameRegs s t [] ∧ t.flags = s.flags ∧ t.pc = s.pc + 2 ∧
        SameRest s t) ∧
    (readReg s r ≠ 0 → (readReg s r).toNat ≤ (readReg s d).toNat →
      ∃ t, exec (.udiv64 d r) s = .next t ∧ Raised .divideOverflow s t ∧ SameRegs s t [] ∧ t.flags = s.flags ∧
        t.pc = s.pc + 2 ∧ SameRest s t)

/-! ### Shifts -/

/-- 43_rotate_shift.md R230 to R233, R235, R237: RL, SLL, SRA and SRL by an immediate or a register's low five bits. C is
the last bit out; for a count of 0 it is 0 (the spec's own choice D14). -/
def Obligations.ShiftsAndRotate : Prop :=
  ∀ (s : State) (d : Reg) (n : ShiftCount),
    (∃ t, exec (.rl d n) s = .next t ∧ WroteRegister s t d ((readReg s d).rotateLeft (countOf n s))
      (shifted ((readReg s d).rotateLeft (countOf n s))
        (decide (countOf n s ≠ 0) && ((readReg s d).rotateLeft (countOf n s)).getLsbD 0)) 2) ∧
    (∃ t, exec (.sll d n) s = .next t ∧ WroteRegister s t d (readReg s d <<< countOf n s)
      (shifted (readReg s d <<< countOf n s)
        (decide (countOf n s ≠ 0) && (readReg s d).getLsbD (32 - countOf n s))) 2) ∧
    (∃ t, exec (.sra d n) s = .next t ∧ WroteRegister s t d ((readReg s d).sshiftRight (countOf n s))
      (shifted ((readReg s d).sshiftRight (countOf n s))
        (decide (countOf n s ≠ 0) && (readReg s d).getLsbD (countOf n s - 1))) 2) ∧
    (∃ t, exec (.srl d n) s = .next t ∧ WroteRegister s t d (readReg s d >>> countOf n s)
      (shifted (readReg s d >>> countOf n s)
        (decide (countOf n s ≠ 0) && (readReg s d).getLsbD (countOf n s - 1))) 2)

/-- 43_rotate_shift.md R234, R236, R238: SLLX, SRAX and SRLX: Rd and Rs hold the two halves of a 64-bit shift: of 0 and Rd to
the left, of Rd and 0 to the right. With one register for both, nothing is said of its value; the flags, and the Stack
Overflow test of each half, are as computed (the spec's own choice D13, U18). For a count of 0, C is 0 and Rs is cleared: the spec's own choice D14. -/
def Obligations.ExtendedShifts : Prop :=
  ∀ (s : State) (d r : Reg) (n : Nat), n = (readReg s r).toNat % 32 →
    (∃ t, exec (.sllx d r) s = .next t ∧ ∃ vd vr : Quad, vr ++ vd = (0#32 ++ readReg s d) <<< n ∧
      WrotePair s t d r vd vr (shifted vd (vr.getLsbD 0)) 2) ∧
    (∃ t, exec (.srax d r) s = .next t ∧ ∃ vd vr : Quad, vd ++ vr = (readReg s d ++ 0#32).sshiftRight n ∧
      WrotePair s t d r vd vr (shifted vd vr.msb) 2) ∧
    (∃ t, exec (.srlx d r) s = .next t ∧ ∃ vd vr : Quad, vd ++ vr = (readReg s d ++ 0#32) >>> n ∧
      WrotePair s t d r vd vr (shifted vd vr.msb) 2)

/-! ### Loads and stores -/

/-- 44_load.md R253, R282: LD of an immediate or register and LEA: no flag changes and no memory is accessed. -/
def Obligations.RegisterLoads : Prop :=
  ∀ (s : State) (d : Reg),
    (∀ i : Byte, ∃ t, exec (.ld (.regSimm8 d i)) s = .next t ∧ WroteRegister s t d (i.signExtend 32) {} 2) ∧
    (∀ i : BitVec 17, ∃ t, exec (.ld (.regSimm17 d i)) s = .next t ∧ WroteRegister s t d (i.signExtend 32) {} 4) ∧
    (∀ i : Quad, ∃ t, exec (.ld (.regImm32 d i)) s = .next t ∧ WroteRegister s t d i {} 6) ∧
    (∀ r : Reg, ∃ t, exec (.ld (.regReg d r)) s = .next t ∧ WroteRegister s t d (readReg s r) {} 2) ∧
    (∀ off : BitVec 14, ∃ t, exec (.lea d (.pcRel off)) s = .next t ∧
      WroteRegister s t d (s.pc + 4 + off.signExtend 32) {} 4) ∧
    (∀ (off : BitVec 14) (r : Reg), ∃ t, exec (.lea d (.off off r)) s = .next t ∧
      WroteRegister s t d (readReg s r + off.signExtend 32) {} 4) ∧
    (∀ off : BitVec 6, ∃ t, exec (.lea d (.fpRel off)) s = .next t ∧
      WroteRegister s t d (readReg s 14 + off.signExtend 32) {} 2)

/-- 44_load.md R252, R280, R281: EXT, LD cc and LDES: their words, their result, their flags. -/
def Obligations.ExtLdccAndLdes : Prop :=
  ∀ (s : State) (d r : Reg),
    (∀ cc : Cond, encode (.ldCc cc d) = [0x01#8 ++ cc.bits ++ d] ∧ Cond.ofBits cc.bits = cc ∧
      ∃ t, exec (.ldCc cc d) s = .next t ∧ WroteRegister s t d (if condHolds cc s.flags then 1 else 0) {} 2) ∧
    encode (.ldes d) = [0x453#12 ++ d] ∧
    (∃ t, exec (.ldes d) s = .next t ∧
      WroteRegister s t d (if flagS s.flags then 0xFFFFFFFF else 0) {} 2) ∧
    encode (.extUB d r) = [0x40#8 ++ r ++ d] ∧ encode (.extUW d r) = [0x41#8 ++ r ++ d] ∧
    encode (.extSB d r) = [0x42#8 ++ r ++ d] ∧ encode (.extSW d r) = [0x43#8 ++ r ++ d] ∧
    ∀ (i : Instr) (v : Quad),
      (i = .extUB d r ∧ v = ((readReg s r).setWidth 8).setWidth 32) ∨
      (i = .extUW d r ∧ v = ((readReg s r).setWidth 16).setWidth 32) ∨
      (i = .extSB d r ∧ v = ((readReg s r).setWidth 8).signExtend 32) ∨
      (i = .extSW d r ∧ v = ((readReg s r).setWidth 16).signExtend 32) →
        ∃ t, exec i s = .next t ∧
          WroteRegister s t d v { z := some (decide (v = 0)), s := some v.msb, b := some false } 2

/-- 44_load.md R254, R255, R290, 20_memory.md R84: the loads from memory, in every form: the pointer of a postincrement is
written first and the loaded value last (the spec's own choice D32). -/
def Obligations.LoadsFromMemory : Prop :=
  ∀ (s : State) (d : Reg) (m : LoadSource),
    (Readable 4 s (loadEa m (offsetBy s.pc (loadLen m)) s) →
      LoadOutcome .quad (fun v => v) d m s (exec (.ld (.load d m)) s)) ∧
    (Readable 1 s (loadEa m (offsetBy s.pc (loadLen m)) s) →
      LoadOutcome .byte (·.setWidth 32) d m s (exec (.ldUB d m) s) ∧
      LoadOutcome .byte (·.signExtend 32) d m s (exec (.ldSB d m) s)) ∧
    (Readable 2 s (loadEa m (offsetBy s.pc (loadLen m)) s) →
      LoadOutcome .word (·.setWidth 32) d m s (exec (.ldUW d m) s) ∧
      LoadOutcome .word (·.signExtend 32) d m s (exec (.ldSW d m) s))

/-- 44_load.md R256, R257, R291, 20_memory.md R84: the stores to memory, from a register (truncated, and read before the
pointer moves) and from an immediate, in every form. -/
def Obligations.StoresToMemory : Prop :=
  ∀ s : State,
    (∀ (m : StoreDest) (r : Reg),
      (Writable 4 s (storeEa .quad m s) →
        StoreOutcome .quad m (readReg s r) (storeLen m) s (exec (.ld (.store m r)) s)) ∧
      (Writable 2 s (storeEa .word m s) →
        StoreOutcome .word m ((readReg s r).setWidth 16) (storeLen m) s (exec (.ldW (.store m r)) s)) ∧
      (Writable 1 s (storeEa .byte m s) →
        StoreOutcome .byte m ((readReg s r).setWidth 8) (storeLen m) s (exec (.ldB (.store m r)) s))) ∧
    (∀ (p : StorePtr) (d : Reg),
      (Writable 4 s (storeEa .quad (storePtrDest p d) s) →
        (∀ i : Quad, StoreOutcome .quad (storePtrDest p d) i 6 s (exec (.ld (.storeImm32 p d i)) s)) ∧
        (∀ i : Word,
          StoreOutcome .quad (storePtrDest p d) (i.signExtend 32) 4 s (exec (.ld (.storeSimm16 p d i)) s))) ∧
      (Writable 2 s (storeEa .word (storePtrDest p d) s) →
        ∀ i : Word, StoreOutcome .word (storePtrDest p d) i 4 s (exec (.ldW (.storeImm p d i)) s)) ∧
      (Writable 1 s (storeEa .byte (storePtrDest p d) s) →
        ∀ i : Byte, StoreOutcome .byte (storePtrDest p d) i 4 s (exec (.ldB (.storeImm p d i)) s)))

/-! ### The stack -/

/-- 44_load.md R291, R296, R297: the one-word immediate pushes, PUSHF and POPF. POPF takes all eight bits, whatever
NOFLAGS says (10_state.md R34). -/
def Obligations.PushAndFlagTransfers : Prop :=
  ∀ s : State, Memory.wf (blankByte s.cfg) s.mem = true →
    (InRam 1 s (sp s - 1) → ∀ i : Byte,
      ∃ t, exec (.pushB i) s = .next t ∧ Pushed .byte s t i ∧ t.pc = s.pc + 2) ∧
    (InRam 2 s (sp s - 2) → ∀ i : Byte,
      ∃ t, exec (.pushW i) s = .next t ∧ Pushed .word s t (i.signExtend 16) ∧ t.pc = s.pc + 2) ∧
    (InRam 4 s (sp s - 4) → ∀ i : Byte,
      ∃ t, exec (.push i) s = .next t ∧ Pushed .quad s t (i.signExtend 32) ∧ t.pc = s.pc + 2) ∧
    (InRam 2 s (sp s - 2) → ∃ t, exec .pushf s = .next t ∧ Pushed .word s t (0#8 ++ s.flags) ∧ t.pc = s.pc + 2) ∧
    (Readable 1 s (sp s + 1) → ∃ f t, readByte s (sp s + 1) = .next f ∧ exec .popf s = .next t ∧ t.flags = f ∧
      sp t = sp s + 2 ∧ SameRegs s t [15] ∧ StackChecked s t ((sp s + 2).toNat < s.spov.toNat) ∧ t.pc = s.pc + 2 ∧
      SameRest (noteReads .byte (sp s + 1) s) t)

/-- 44_load.md R293: PUSHMLO and PUSHMHI: bit k of the mask is register 7 - k or 15 - k; the lowest bit is pushed first, so
it lies highest; each register is stored as it was before the instruction, R15 too, which is first. -/
def Obligations.PushMultipleRegisters : Prop :=
  (∀ (top : Reg) (mask : Byte), pushMask top mask =
    (if mask.getLsbD 0 then [top] else []) ++ (if mask.getLsbD 1 then [top - 1] else []) ++
    (if mask.getLsbD 2 then [top - 2] else []) ++ (if mask.getLsbD 3 then [top - 3] else []) ++
    (if mask.getLsbD 4 then [top - 4] else []) ++ (if mask.getLsbD 5 then [top - 5] else []) ++
    (if mask.getLsbD 6 then [top - 6] else []) ++ (if mask.getLsbD 7 then [top - 7] else [])) ∧
  ∀ (s : State) (mask : Byte) (i : Instr) (top : Reg),
    (i = .pushmlo mask ∧ top = 7) ∨ (i = .pushmhi mask ∧ top = 15) →
    Memory.wf (blankByte s.cfg) s.mem = true →
    InRam (4 * (pushMask top mask).length) s (sp s - BitVec.ofNat 32 (4 * (pushMask top mask).length)) →
      ∃ t, exec i s = .next t ∧
        (∀ (k : Nat) (hk : k < (pushMask top mask).length),
          readMem .quad t (sp s - BitVec.ofNat 32 (4 * (k + 1))) = .next (readReg s (pushMask top mask)[k])) ∧
        sp t = sp s - BitVec.ofNat 32 (4 * (pushMask top mask).length) ∧ SameRegs s t [15] ∧
        SameOutside s t (4 * (pushMask top mask).length)
          (sp s - BitVec.ofNat 32 (4 * (pushMask top mask).length)) ∧
        StackChecked s t (∃ k < (pushMask top mask).length,
          (sp s - BitVec.ofNat 32 (4 * (k + 1))).toNat < s.spov.toNat) ∧
        t.flags = s.flags ∧ t.pc = s.pc + 2 ∧ SameControl s t ∧ SameModifiers s t ∧ SameEnvironment s t

/-- 44_load.md R292: POPMLO and POPMHI: bit k of the mask is register k or 8 + k, popped in rising order; B tells whether
the last value is 0 and is unchanged for an empty mask (DEDUCED by the spec); R15, popped last, keeps the popped
value (D32). -/
def Obligations.PopMultipleRegisters : Prop :=
  (∀ (base : Reg) (mask : Byte), popMask base mask =
    (if mask.getLsbD 0 then [base] else []) ++ (if mask.getLsbD 1 then [base + 1] else []) ++
    (if mask.getLsbD 2 then [base + 2] else []) ++ (if mask.getLsbD 3 then [base + 3] else []) ++
    (if mask.getLsbD 4 then [base + 4] else []) ++ (if mask.getLsbD 5 then [base + 5] else []) ++
    (if mask.getLsbD 6 then [base + 6] else []) ++ (if mask.getLsbD 7 then [base + 7] else [])) ∧
  ∀ (s : State) (mask : Byte) (i : Instr) (base : Reg) (v : Nat → Quad),
    (i = .popmlo mask ∧ base = 0) ∨ (i = .popmhi mask ∧ base = 8) →
    InMemory (4 * (popMask base mask).length) s (sp s) →
    (∀ k < (popMask base mask).length, readMem .quad s (sp s + BitVec.ofNat 32 (4 * k)) = .next (v k)) →
      ∃ t, exec i s = .next t ∧
        (∀ (k : Nat) (hk : k < (popMask base mask).length), readReg t (popMask base mask)[k] = v k) ∧
        (15 ∉ popMask base mask → sp t = sp s + BitVec.ofNat 32 (4 * (popMask base mask).length)) ∧
        SameRegs s t (15 :: popMask base mask) ∧
        StackChecked s t ((∃ k < (popMask base mask).length,
          (sp s + BitVec.ofNat 32 (4 * (k + 1))).toNat < s.spov.toNat) ∨
          (15 ∈ popMask base mask ∧ (sp t).toNat < s.spov.toNat)) ∧
        FlagsSet s.noflagsPending s.flags t.flags
          { b := if popMask base mask = [] then none
            else some (decide (v ((popMask base mask).length - 1) = 0)) } ∧
        t.pc = s.pc + 2 ∧ SameRest s t

/-- 44_load.md R283, R284: LINK and UNLINK; each changes SP twice, and one Stack Overflow at most results. -/
def Obligations.LinkAndUnlink : Prop :=
  ∀ s : State, Memory.wf (blankByte s.cfg) s.mem = true →
    (InRam 4 s (sp s - 4) → ∀ i : Byte,
      ∃ t, exec (.link i) s = .next t ∧ readMem .quad t (sp s - 4) = .next (readReg s 14) ∧
        readReg t 14 = sp s - 4 ∧ sp t = sp s - 4 - i.setWidth 32 ∧ SameRegs s t [14, 15] ∧
        SameOutside s t 4 (sp s - 4) ∧
        StackChecked s t ((sp s - 4).toNat < s.spov.toNat ∨ (sp s - 4 - i.setWidth 32).toNat < s.spov.toNat) ∧
        t.flags = s.flags ∧ t.pc = s.pc + 2 ∧ SameControl s t ∧ SameModifiers s t ∧ SameEnvironment s t) ∧
    (InMemory 4 s (readReg s 14) →
      ∃ v t, readMem .quad s (readReg s 14) = .next v ∧ exec .unlink s = .next t ∧ readReg t 14 = v ∧
        sp t = readReg s 14 + 4 ∧ SameRegs s t [14, 15] ∧
        StackChecked s t ((readReg s 14).toNat < s.spov.toNat ∨ (readReg s 14 + 4).toNat < s.spov.toNat) ∧
        t.flags = s.flags ∧ t.pc = s.pc + 2 ∧ SameRest s t)

/-! ### Program control -/

/-- 46_program_control.md R350 to R353: JP, JPA and JP cc: their words, their targets, and that nothing else changes but the
record of stored addresses. That a taken transfer empties it is the spec's own choice D16 (20_memory.md R90), in the form of
the model's record (notes/assumptions/17.md). Relative offsets count words; an odd
register or immediate loses its lowest bit. -/
def Obligations.Jumps : Prop :=
  ∀ s : State,
    (∀ r : Reg, encode (.jp (.reg r)) = [0xF20#12 ++ r] ∧
      exec (.jp (.reg r)) s = .next { s with pc := readReg s r &&& 0xFFFFFFFE, written := [] }) ∧
    (∀ r : BitVec 12, encode (.jp (.rel12 r)) = [0xC#4 ++ r] ∧
      exec (.jp (.rel12 r)) s = .next { s with pc := s.pc + 2 + 2 * r.signExtend 32, written := [] }) ∧
    (∀ r : BitVec 24, encode (.jp (.rel24 r)) = [0xF0#8 ++ r.extractLsb' 16 8, r.extractLsb' 0 16] ∧
      exec (.jp (.rel24 r)) s = .next { s with pc := s.pc + 4 + 2 * r.signExtend 32, written := [] }) ∧
    (∀ i : Quad, encode (.jpa i) = [0xF230, i.extractLsb' 16 16, i.extractLsb' 0 16] ∧
      exec (.jpa i) s = .next { s with pc := i &&& 0xFFFFFFFE, written := [] }) ∧
    (∀ (cc : Cond) (r : Byte), encode (.jpCc cc (.rel8 r)) = [0xE#4 ++ cc.bits ++ r] ∧
      exec (.jpCc cc (.rel8 r)) s =
        if condHolds cc s.flags then .next { s with pc := s.pc + 2 + 2 * r.signExtend 32, written := [] }
        else .next { s with pc := s.pc + 2 }) ∧
    (∀ (cc : Cond) (r : Word), encode (.jpCc cc (.rel16 r)) = [0xF22#12 ++ cc.bits, r] ∧
      exec (.jpCc cc (.rel16 r)) s =
        if condHolds cc s.flags then .next { s with pc := s.pc + 4 + 2 * r.signExtend 32, written := [] }
        else .next { s with pc := s.pc + 4 })

/-- 46_program_control.md R344: DJNZ: its word; it decrements Rd, sets the flags of that, and jumps back by 1 to 16 words
unless the result is 0, whatever NOFLAGS says. That the taken jump empties the record of stored addresses follows the spec's
own choice D16 (20_memory.md R90); that DJNZ is such a transfer is the model's (notes/assumptions/17.md). -/
def Obligations.DecrementAndJump : Prop :=
  ∀ (s : State) (d : Reg) (u : BitVec 4),
    encode (.djnz d u) = [0xFD#8 ++ u ++ d] ∧
    ∃ t, exec (.djnz d u) s = .next t ∧ readReg t d = readReg s d - 1 ∧ SameRegs s t [d] ∧
      StackChecked s t (BelowLimit s d (readReg s d - 1)) ∧
      FlagsSet s.noflagsPending s.flags t.flags (decFlags (readReg s d)) ∧
      (if readReg s d = 1 then t.pc = s.pc + 2 ∧ t.written = s.written
        else t.pc = s.pc + 2 - 32 + BitVec.ofNat 32 (2 * u.toNat) ∧ t.written = []) ∧
      t.mem = s.mem ∧ (∀ p, byteAt t p = byteAt s p) ∧ SameControl s t ∧ SameModifiers s t ∧ SameEnvironment s t

/-- 46_program_control.md R342, R343: CALL and CALLA push the address after them and go to the target, computed before the
push. That they empty the record of stored addresses is the spec's own choice D16 (20_memory.md R90), in the form of the
model's record (notes/assumptions/17.md). -/
def Obligations.Calls : Prop :=
  ∀ s : State, Memory.wf (blankByte s.cfg) s.mem = true → InRam 4 s (sp s - 4) →
    (∀ r : Reg, ∃ t, exec (.call (.reg r)) s = .next t ∧ Pushed .quad s t (s.pc + 2) ∧
      t.pc = readReg s r &&& 0xFFFFFFFE ∧ t.written = []) ∧
    (∀ r : BitVec 12, ∃ t, exec (.call (.rel12 r)) s = .next t ∧ Pushed .quad s t (s.pc + 2) ∧
      t.pc = s.pc + 2 + 2 * r.signExtend 32 ∧ t.written = []) ∧
    (∀ r : BitVec 24, ∃ t, exec (.call (.rel24 r)) s = .next t ∧ Pushed .quad s t (s.pc + 4) ∧
      t.pc = s.pc + 4 + 2 * r.signExtend 32 ∧ t.written = []) ∧
    (∀ i : Quad, ∃ t, exec (.calla i) s = .next t ∧ Pushed .quad s t (s.pc + 6) ∧ t.pc = i &&& 0xFFFFFFFE ∧
      t.written = [])

/-! ### CPU control -/

/-- 45_cpu_control.md R321 to R323, R325 to R328, R330, R331: the prefixes, DI, EI, HALT, STOP, NOP and WDT change what
their rules name and pc. The first WDT starts the Watchdog Timer, and each refreshes it: the spec's own choice D21, read
with R331's text as notes/assumptions/25.md says. -/
def Obligations.CpuControlInstructions : Prop :=
  ∀ s : State,
    exec .extend s = .next { s with pc := s.pc + 2, extendPending := true } ∧
    exec .noflags s = .next { s with pc := s.pc + 2, noflagsPending := true } ∧
    exec .atm s = .next { s with pc := s.pc + 2, atmCount := 3 } ∧
    exec .di s = .next { s with pc := s.pc + 2, flags := s.flags &&& 0xFE } ∧
    exec .ei s = .next { s with pc := s.pc + 2, flags := s.flags ||| 0x01 } ∧
    exec .halt s = .next { s with pc := s.pc + 2, runState := .halted } ∧
    exec .stop s = .next { s with pc := s.pc + 2, runState := .stopped } ∧
    exec .nop s = .next { s with pc := s.pc + 2 } ∧
    exec .wdt s = .next { s with
      pc := s.pc + 2, wdtEnabled := true,
      events := .watchdogRefresh :: ((if s.wdtEnabled then [] else [.watchdogStart]) ++ s.events) }

/-! ### The environment -/

/-- 60_exceptions.md R410, R420, R434, 20_memory.md R67, 10_state.md R37 with D8, 45_cpu_control.md R320: at a boundary the
device's exceptions that waited and then the inputs due act in their order, after the step's inputs are taken and the free
values drawn anew, and nothing else changes: an irq input sets what the Interrupt Controller presents; ClearSysexcp clears
the named bit and no other, where SYSEXCP has no address (notes/assumptions/32.md); a device gives its register contents, if
it is configured; a device raises a kind of exception, if it has it, as any other is raised (notes/assumptions/35.md), but
between a NOFLAGS or Extend prefix and its instruction it waits, so that no input makes an exception pending there: R320,
the spec's own choice D12, and the waiting is the model's (notes/assumptions/36.md). The wake signal and reset change nothing
themselves. That the environment acts through such inputs is the model's choice (notes/assumptions/7.md). -/
def Obligations.EnvironmentInputsActAtTheBoundary : Prop :=
  ∀ s : State,
    inputsNow s = s.env.headD [] ∧
    atBoundary s = (s.heldExc.map EnvInput.exception ++ inputsNow s).foldl (fun t i => applyInput i t)
      { s with env := s.env.tail, freeCtr := s.freeCtr + 1, heldExc := [] } ∧
    (s.extendPending = true ∨ s.noflagsPending = true → (atBoundary s).pendingExc = s.pendingExc) ∧
    (∀ v, applyInput (.irq v) s = { s with irq := v }) ∧
    (∀ x, s.cfg.sysexcpPlace = none → ∃ y, applyInput (.clearSysexcp x) s = { s with sysexcp := y } ∧
      sysexcpBit y x = false ∧ ∀ z, z ≠ x → sysexcpBit y z = sysexcpBit s.sysexcp z) ∧
    (∀ x place, s.cfg.sysexcpPlace = some place → applyInput (.clearSysexcp x) s = s) ∧
    (∀ p b, Memory.wf (resetContents s.cfg) s.ioRegs = true →
      ∃ r, applyInput (.device p b) s = { s with ioRegs := r } ∧ ContentsSet s { s with ioRegs := r } p b) ∧
    (∀ k, k ∈ s.cfg.extraExceptions → s.extendPending = false ∧ s.noflagsPending = false →
      ∃ y z, applyInput (.exception k) s = { s with sysexcp := y, pendingExc := z } ∧
        Raised (.extra k) s { s with sysexcp := y, pendingExc := z }) ∧
    (∀ k, k ∈ s.cfg.extraExceptions → s.extendPending = true ∨ s.noflagsPending = true →
      applyInput (.exception k) s = { s with heldExc := s.heldExc ++ [k] }) ∧
    (∀ k, k ∉ s.cfg.extraExceptions → applyInput (.exception k) s = s) ∧
    applyInput .wake s = s ∧ applyInput .reset s = s
end

