-- ==== Sys2Proof/Laws/State.lean ====
section
/-! SUPPORT. The field lemmas of the state's updates: one for each field and update, true by rfl where the update is a
record update, so that no later proof unfolds one. -/

namespace Sys2Proof.Machine

/-! ### setReg -/

@[simp] theorem setReg_regs (s : State) (r : Reg) (v : Quad) : (setReg s r v).regs = s.regs.set r.toNat v r.isLt := rfl
@[simp] theorem setReg_pc (s : State) (r : Reg) (v : Quad) : (setReg s r v).pc = s.pc := rfl
@[simp] theorem setReg_flags (s : State) (r : Reg) (v : Quad) : (setReg s r v).flags = s.flags := rfl
@[simp] theorem setReg_pcov (s : State) (r : Reg) (v : Quad) : (setReg s r v).pcov = s.pcov := rfl
@[simp] theorem setReg_spov (s : State) (r : Reg) (v : Quad) : (setReg s r v).spov = s.spov := rfl
@[simp] theorem setReg_dmabw (s : State) (r : Reg) (v : Quad) : (setReg s r v).dmabw = s.dmabw := rfl
@[simp] theorem setReg_sysexcp (s : State) (r : Reg) (v : Quad) : (setReg s r v).sysexcp = s.sysexcp := rfl
@[simp] theorem setReg_extendPending (s : State) (r : Reg) (v : Quad) : (setReg s r v).extendPending = s.extendPending := rfl
@[simp] theorem setReg_noflagsPending (s : State) (r : Reg) (v : Quad) : (setReg s r v).noflagsPending = s.noflagsPending := rfl
@[simp] theorem setReg_atmCount (s : State) (r : Reg) (v : Quad) : (setReg s r v).atmCount = s.atmCount := rfl
@[simp] theorem setReg_pendingExc (s : State) (r : Reg) (v : Quad) : (setReg s r v).pendingExc = s.pendingExc := rfl
@[simp] theorem setReg_runState (s : State) (r : Reg) (v : Quad) : (setReg s r v).runState = s.runState := rfl
@[simp] theorem setReg_wdtEnabled (s : State) (r : Reg) (v : Quad) : (setReg s r v).wdtEnabled = s.wdtEnabled := rfl
@[simp] theorem setReg_irq (s : State) (r : Reg) (v : Quad) : (setReg s r v).irq = s.irq := rfl
@[simp] theorem setReg_heldExc (s : State) (r : Reg) (v : Quad) : (setReg s r v).heldExc = s.heldExc := rfl
@[simp] theorem setReg_written (s : State) (r : Reg) (v : Quad) : (setReg s r v).written = s.written := rfl
@[simp] theorem setReg_mem (s : State) (r : Reg) (v : Quad) : (setReg s r v).mem = s.mem := rfl
@[simp] theorem setReg_cfg (s : State) (r : Reg) (v : Quad) : (setReg s r v).cfg = s.cfg := rfl
@[simp] theorem setReg_env (s : State) (r : Reg) (v : Quad) : (setReg s r v).env = s.env := rfl
@[simp] theorem setReg_events (s : State) (r : Reg) (v : Quad) : (setReg s r v).events = s.events := rfl
@[simp] theorem setReg_freeCtr (s : State) (r : Reg) (v : Quad) : (setReg s r v).freeCtr = s.freeCtr := rfl
@[simp] theorem setReg_ioRegs (s : State) (r : Reg) (v : Quad) : (setReg s r v).ioRegs = s.ioRegs := rfl

/-! ### setByteAt -/

@[simp] theorem setByteAt_regs (s : State) (p : Nat) (b : Byte) : (setByteAt s p b).regs = s.regs := rfl
@[simp] theorem setByteAt_pc (s : State) (p : Nat) (b : Byte) : (setByteAt s p b).pc = s.pc := rfl
@[simp] theorem setByteAt_flags (s : State) (p : Nat) (b : Byte) : (setByteAt s p b).flags = s.flags := rfl
@[simp] theorem setByteAt_pcov (s : State) (p : Nat) (b : Byte) : (setByteAt s p b).pcov = s.pcov := rfl
@[simp] theorem setByteAt_spov (s : State) (p : Nat) (b : Byte) : (setByteAt s p b).spov = s.spov := rfl
@[simp] theorem setByteAt_dmabw (s : State) (p : Nat) (b : Byte) : (setByteAt s p b).dmabw = s.dmabw := rfl
@[simp] theorem setByteAt_sysexcp (s : State) (p : Nat) (b : Byte) : (setByteAt s p b).sysexcp = s.sysexcp := rfl
@[simp] theorem setByteAt_extendPending (s : State) (p : Nat) (b : Byte) : (setByteAt s p b).extendPending = s.extendPending := rfl
@[simp] theorem setByteAt_noflagsPending (s : State) (p : Nat) (b : Byte) : (setByteAt s p b).noflagsPending = s.noflagsPending := rfl
@[simp] theorem setByteAt_atmCount (s : State) (p : Nat) (b : Byte) : (setByteAt s p b).atmCount = s.atmCount := rfl
@[simp] theorem setByteAt_pendingExc (s : State) (p : Nat) (b : Byte) : (setByteAt s p b).pendingExc = s.pendingExc := rfl
@[simp] theorem setByteAt_runState (s : State) (p : Nat) (b : Byte) : (setByteAt s p b).runState = s.runState := rfl
@[simp] theorem setByteAt_wdtEnabled (s : State) (p : Nat) (b : Byte) : (setByteAt s p b).wdtEnabled = s.wdtEnabled := rfl
@[simp] theorem setByteAt_irq (s : State) (p : Nat) (b : Byte) : (setByteAt s p b).irq = s.irq := rfl
@[simp] theorem setByteAt_heldExc (s : State) (p : Nat) (b : Byte) : (setByteAt s p b).heldExc = s.heldExc := rfl
@[simp] theorem setByteAt_written (s : State) (p : Nat) (b : Byte) : (setByteAt s p b).written = s.written := rfl
@[simp] theorem setByteAt_mem (s : State) (p : Nat) (b : Byte) : (setByteAt s p b).mem = Memory.update (blankByte s.cfg p) s.mem p b := rfl
@[simp] theorem setByteAt_cfg (s : State) (p : Nat) (b : Byte) : (setByteAt s p b).cfg = s.cfg := rfl
@[simp] theorem setByteAt_env (s : State) (p : Nat) (b : Byte) : (setByteAt s p b).env = s.env := rfl
@[simp] theorem setByteAt_events (s : State) (p : Nat) (b : Byte) : (setByteAt s p b).events = s.events := rfl
@[simp] theorem setByteAt_freeCtr (s : State) (p : Nat) (b : Byte) : (setByteAt s p b).freeCtr = s.freeCtr := rfl
@[simp] theorem setByteAt_ioRegs (s : State) (p : Nat) (b : Byte) : (setByteAt s p b).ioRegs = s.ioRegs := rfl

/-! ### advance -/

@[simp] theorem advance_regs (s : State) (len : Nat) : (advance len s).regs = s.regs := rfl
@[simp] theorem advance_pc (s : State) (len : Nat) : (advance len s).pc = nextPc len s := rfl
@[simp] theorem advance_flags (s : State) (len : Nat) : (advance len s).flags = s.flags := rfl
@[simp] theorem advance_pcov (s : State) (len : Nat) : (advance len s).pcov = s.pcov := rfl
@[simp] theorem advance_spov (s : State) (len : Nat) : (advance len s).spov = s.spov := rfl
@[simp] theorem advance_dmabw (s : State) (len : Nat) : (advance len s).dmabw = s.dmabw := rfl
@[simp] theorem advance_sysexcp (s : State) (len : Nat) : (advance len s).sysexcp = s.sysexcp := rfl
@[simp] theorem advance_extendPending (s : State) (len : Nat) : (advance len s).extendPending = s.extendPending := rfl
@[simp] theorem advance_noflagsPending (s : State) (len : Nat) : (advance len s).noflagsPending = s.noflagsPending := rfl
@[simp] theorem advance_atmCount (s : State) (len : Nat) : (advance len s).atmCount = s.atmCount := rfl
@[simp] theorem advance_pendingExc (s : State) (len : Nat) : (advance len s).pendingExc = s.pendingExc := rfl
@[simp] theorem advance_runState (s : State) (len : Nat) : (advance len s).runState = s.runState := rfl
@[simp] theorem advance_wdtEnabled (s : State) (len : Nat) : (advance len s).wdtEnabled = s.wdtEnabled := rfl
@[simp] theorem advance_irq (s : State) (len : Nat) : (advance len s).irq = s.irq := rfl
@[simp] theorem advance_heldExc (s : State) (len : Nat) : (advance len s).heldExc = s.heldExc := rfl
@[simp] theorem advance_written (s : State) (len : Nat) : (advance len s).written = s.written := rfl
@[simp] theorem advance_mem (s : State) (len : Nat) : (advance len s).mem = s.mem := rfl
@[simp] theorem advance_cfg (s : State) (len : Nat) : (advance len s).cfg = s.cfg := rfl
@[simp] theorem advance_env (s : State) (len : Nat) : (advance len s).env = s.env := rfl
@[simp] theorem advance_events (s : State) (len : Nat) : (advance len s).events = s.events := rfl
@[simp] theorem advance_freeCtr (s : State) (len : Nat) : (advance len s).freeCtr = s.freeCtr := rfl
@[simp] theorem advance_ioRegs (s : State) (len : Nat) : (advance len s).ioRegs = s.ioRegs := rfl

/-! ### jump -/

@[simp] theorem jump_regs (s : State) (target : Quad) : (jump target s).regs = s.regs := rfl
@[simp] theorem jump_pc (s : State) (target : Quad) : (jump target s).pc = target := rfl
@[simp] theorem jump_flags (s : State) (target : Quad) : (jump target s).flags = s.flags := rfl
@[simp] theorem jump_pcov (s : State) (target : Quad) : (jump target s).pcov = s.pcov := rfl
@[simp] theorem jump_spov (s : State) (target : Quad) : (jump target s).spov = s.spov := rfl
@[simp] theorem jump_dmabw (s : State) (target : Quad) : (jump target s).dmabw = s.dmabw := rfl
@[simp] theorem jump_sysexcp (s : State) (target : Quad) : (jump target s).sysexcp = s.sysexcp := rfl
@[simp] theorem jump_extendPending (s : State) (target : Quad) : (jump target s).extendPending = s.extendPending := rfl
@[simp] theorem jump_noflagsPending (s : State) (target : Quad) : (jump target s).noflagsPending = s.noflagsPending := rfl
@[simp] theorem jump_atmCount (s : State) (target : Quad) : (jump target s).atmCount = s.atmCount := rfl
@[simp] theorem jump_pendingExc (s : State) (target : Quad) : (jump target s).pendingExc = s.pendingExc := rfl
@[simp] theorem jump_runState (s : State) (target : Quad) : (jump target s).runState = s.runState := rfl
@[simp] theorem jump_wdtEnabled (s : State) (target : Quad) : (jump target s).wdtEnabled = s.wdtEnabled := rfl
@[simp] theorem jump_irq (s : State) (target : Quad) : (jump target s).irq = s.irq := rfl
@[simp] theorem jump_heldExc (s : State) (target : Quad) : (jump target s).heldExc = s.heldExc := rfl
@[simp] theorem jump_written (s : State) (target : Quad) : (jump target s).written = [] := rfl
@[simp] theorem jump_mem (s : State) (target : Quad) : (jump target s).mem = s.mem := rfl
@[simp] theorem jump_cfg (s : State) (target : Quad) : (jump target s).cfg = s.cfg := rfl
@[simp] theorem jump_env (s : State) (target : Quad) : (jump target s).env = s.env := rfl
@[simp] theorem jump_events (s : State) (target : Quad) : (jump target s).events = s.events := rfl
@[simp] theorem jump_freeCtr (s : State) (target : Quad) : (jump target s).freeCtr = s.freeCtr := rfl
@[simp] theorem jump_ioRegs (s : State) (target : Quad) : (jump target s).ioRegs = s.ioRegs := rfl

/-! ### clearModifiers -/

@[simp] theorem clearModifiers_regs (s : State) : (clearModifiers s).regs = s.regs := rfl
@[simp] theorem clearModifiers_pc (s : State) : (clearModifiers s).pc = s.pc := rfl
@[simp] theorem clearModifiers_flags (s : State) : (clearModifiers s).flags = s.flags := rfl
@[simp] theorem clearModifiers_pcov (s : State) : (clearModifiers s).pcov = s.pcov := rfl
@[simp] theorem clearModifiers_spov (s : State) : (clearModifiers s).spov = s.spov := rfl
@[simp] theorem clearModifiers_dmabw (s : State) : (clearModifiers s).dmabw = s.dmabw := rfl
@[simp] theorem clearModifiers_sysexcp (s : State) : (clearModifiers s).sysexcp = s.sysexcp := rfl
@[simp] theorem clearModifiers_extendPending (s : State) : (clearModifiers s).extendPending = false := rfl
@[simp] theorem clearModifiers_noflagsPending (s : State) : (clearModifiers s).noflagsPending = false := rfl
@[simp] theorem clearModifiers_atmCount (s : State) : (clearModifiers s).atmCount = 0 := rfl
@[simp] theorem clearModifiers_pendingExc (s : State) : (clearModifiers s).pendingExc = s.pendingExc := rfl
@[simp] theorem clearModifiers_runState (s : State) : (clearModifiers s).runState = s.runState := rfl
@[simp] theorem clearModifiers_wdtEnabled (s : State) : (clearModifiers s).wdtEnabled = s.wdtEnabled := rfl
@[simp] theorem clearModifiers_irq (s : State) : (clearModifiers s).irq = s.irq := rfl
@[simp] theorem clearModifiers_heldExc (s : State) : (clearModifiers s).heldExc = s.heldExc := rfl
@[simp] theorem clearModifiers_written (s : State) : (clearModifiers s).written = s.written := rfl
@[simp] theorem clearModifiers_mem (s : State) : (clearModifiers s).mem = s.mem := rfl
@[simp] theorem clearModifiers_cfg (s : State) : (clearModifiers s).cfg = s.cfg := rfl
@[simp] theorem clearModifiers_env (s : State) : (clearModifiers s).env = s.env := rfl
@[simp] theorem clearModifiers_events (s : State) : (clearModifiers s).events = s.events := rfl
@[simp] theorem clearModifiers_freeCtr (s : State) : (clearModifiers s).freeCtr = s.freeCtr := rfl
@[simp] theorem clearModifiers_ioRegs (s : State) : (clearModifiers s).ioRegs = s.ioRegs := rfl

/-! ### maskInterrupts -/

@[simp] theorem maskInterrupts_regs (s : State) (f : Byte) : (maskInterrupts f s).regs = s.regs := rfl
@[simp] theorem maskInterrupts_pc (s : State) (f : Byte) : (maskInterrupts f s).pc = s.pc := rfl
@[simp] theorem maskInterrupts_flags (s : State) (f : Byte) : (maskInterrupts f s).flags = withEnables s.flags (flagIrqe f) false := rfl
@[simp] theorem maskInterrupts_pcov (s : State) (f : Byte) : (maskInterrupts f s).pcov = s.pcov := rfl
@[simp] theorem maskInterrupts_spov (s : State) (f : Byte) : (maskInterrupts f s).spov = s.spov := rfl
@[simp] theorem maskInterrupts_dmabw (s : State) (f : Byte) : (maskInterrupts f s).dmabw = s.dmabw := rfl
@[simp] theorem maskInterrupts_sysexcp (s : State) (f : Byte) : (maskInterrupts f s).sysexcp = s.sysexcp := rfl
@[simp] theorem maskInterrupts_extendPending (s : State) (f : Byte) : (maskInterrupts f s).extendPending = s.extendPending := rfl
@[simp] theorem maskInterrupts_noflagsPending (s : State) (f : Byte) : (maskInterrupts f s).noflagsPending = s.noflagsPending := rfl
@[simp] theorem maskInterrupts_atmCount (s : State) (f : Byte) : (maskInterrupts f s).atmCount = s.atmCount := rfl
@[simp] theorem maskInterrupts_pendingExc (s : State) (f : Byte) : (maskInterrupts f s).pendingExc = s.pendingExc := rfl
@[simp] theorem maskInterrupts_runState (s : State) (f : Byte) : (maskInterrupts f s).runState = s.runState := rfl
@[simp] theorem maskInterrupts_wdtEnabled (s : State) (f : Byte) : (maskInterrupts f s).wdtEnabled = s.wdtEnabled := rfl
@[simp] theorem maskInterrupts_irq (s : State) (f : Byte) : (maskInterrupts f s).irq = s.irq := rfl
@[simp] theorem maskInterrupts_heldExc (s : State) (f : Byte) : (maskInterrupts f s).heldExc = s.heldExc := rfl
@[simp] theorem maskInterrupts_written (s : State) (f : Byte) : (maskInterrupts f s).written = s.written := rfl
@[simp] theorem maskInterrupts_mem (s : State) (f : Byte) : (maskInterrupts f s).mem = s.mem := rfl
@[simp] theorem maskInterrupts_cfg (s : State) (f : Byte) : (maskInterrupts f s).cfg = s.cfg := rfl
@[simp] theorem maskInterrupts_env (s : State) (f : Byte) : (maskInterrupts f s).env = s.env := rfl
@[simp] theorem maskInterrupts_events (s : State) (f : Byte) : (maskInterrupts f s).events = s.events := rfl
@[simp] theorem maskInterrupts_freeCtr (s : State) (f : Byte) : (maskInterrupts f s).freeCtr = s.freeCtr := rfl
@[simp] theorem maskInterrupts_ioRegs (s : State) (f : Byte) : (maskInterrupts f s).ioRegs = s.ioRegs := rfl

/-! ### acknowledge -/

@[simp] theorem acknowledge_regs (s : State) (v : Quad) : (acknowledge v s).regs = s.regs := rfl
@[simp] theorem acknowledge_pc (s : State) (v : Quad) : (acknowledge v s).pc = s.pc := rfl
@[simp] theorem acknowledge_flags (s : State) (v : Quad) : (acknowledge v s).flags = s.flags := rfl
@[simp] theorem acknowledge_pcov (s : State) (v : Quad) : (acknowledge v s).pcov = s.pcov := rfl
@[simp] theorem acknowledge_spov (s : State) (v : Quad) : (acknowledge v s).spov = s.spov := rfl
@[simp] theorem acknowledge_dmabw (s : State) (v : Quad) : (acknowledge v s).dmabw = s.dmabw := rfl
@[simp] theorem acknowledge_sysexcp (s : State) (v : Quad) : (acknowledge v s).sysexcp = s.sysexcp := rfl
@[simp] theorem acknowledge_extendPending (s : State) (v : Quad) : (acknowledge v s).extendPending = s.extendPending := rfl
@[simp] theorem acknowledge_noflagsPending (s : State) (v : Quad) : (acknowledge v s).noflagsPending = s.noflagsPending := rfl
@[simp] theorem acknowledge_atmCount (s : State) (v : Quad) : (acknowledge v s).atmCount = s.atmCount := rfl
@[simp] theorem acknowledge_pendingExc (s : State) (v : Quad) : (acknowledge v s).pendingExc = s.pendingExc := rfl
@[simp] theorem acknowledge_runState (s : State) (v : Quad) : (acknowledge v s).runState = s.runState := rfl
@[simp] theorem acknowledge_wdtEnabled (s : State) (v : Quad) : (acknowledge v s).wdtEnabled = s.wdtEnabled := rfl
@[simp] theorem acknowledge_irq (s : State) (v : Quad) : (acknowledge v s).irq = s.irq := rfl
@[simp] theorem acknowledge_heldExc (s : State) (v : Quad) : (acknowledge v s).heldExc = s.heldExc := rfl
@[simp] theorem acknowledge_written (s : State) (v : Quad) : (acknowledge v s).written = s.written := rfl
@[simp] theorem acknowledge_mem (s : State) (v : Quad) : (acknowledge v s).mem = s.mem := rfl
@[simp] theorem acknowledge_cfg (s : State) (v : Quad) : (acknowledge v s).cfg = s.cfg := rfl
@[simp] theorem acknowledge_env (s : State) (v : Quad) : (acknowledge v s).env = s.env := rfl
@[simp] theorem acknowledge_events (s : State) (v : Quad) : (acknowledge v s).events = .interruptAcknowledge v :: s.events := rfl
@[simp] theorem acknowledge_freeCtr (s : State) (v : Quad) : (acknowledge v s).freeCtr = s.freeCtr := rfl
@[simp] theorem acknowledge_ioRegs (s : State) (v : Quad) : (acknowledge v s).ioRegs = s.ioRegs := rfl

/-! ### tell -/

@[simp] theorem tell_regs (s : State) (e : EnvEvent) : (tell e s).regs = s.regs := rfl
@[simp] theorem tell_pc (s : State) (e : EnvEvent) : (tell e s).pc = s.pc := rfl
@[simp] theorem tell_flags (s : State) (e : EnvEvent) : (tell e s).flags = s.flags := rfl
@[simp] theorem tell_pcov (s : State) (e : EnvEvent) : (tell e s).pcov = s.pcov := rfl
@[simp] theorem tell_spov (s : State) (e : EnvEvent) : (tell e s).spov = s.spov := rfl
@[simp] theorem tell_dmabw (s : State) (e : EnvEvent) : (tell e s).dmabw = s.dmabw := rfl
@[simp] theorem tell_sysexcp (s : State) (e : EnvEvent) : (tell e s).sysexcp = s.sysexcp := rfl
@[simp] theorem tell_extendPending (s : State) (e : EnvEvent) : (tell e s).extendPending = s.extendPending := rfl
@[simp] theorem tell_noflagsPending (s : State) (e : EnvEvent) : (tell e s).noflagsPending = s.noflagsPending := rfl
@[simp] theorem tell_atmCount (s : State) (e : EnvEvent) : (tell e s).atmCount = s.atmCount := rfl
@[simp] theorem tell_pendingExc (s : State) (e : EnvEvent) : (tell e s).pendingExc = s.pendingExc := rfl
@[simp] theorem tell_runState (s : State) (e : EnvEvent) : (tell e s).runState = s.runState := rfl
@[simp] theorem tell_wdtEnabled (s : State) (e : EnvEvent) : (tell e s).wdtEnabled = s.wdtEnabled := rfl
@[simp] theorem tell_irq (s : State) (e : EnvEvent) : (tell e s).irq = s.irq := rfl
@[simp] theorem tell_heldExc (s : State) (e : EnvEvent) : (tell e s).heldExc = s.heldExc := rfl
@[simp] theorem tell_written (s : State) (e : EnvEvent) : (tell e s).written = s.written := rfl
@[simp] theorem tell_mem (s : State) (e : EnvEvent) : (tell e s).mem = s.mem := rfl
@[simp] theorem tell_cfg (s : State) (e : EnvEvent) : (tell e s).cfg = s.cfg := rfl
@[simp] theorem tell_env (s : State) (e : EnvEvent) : (tell e s).env = s.env := rfl
@[simp] theorem tell_freeCtr (s : State) (e : EnvEvent) : (tell e s).freeCtr = s.freeCtr := rfl
@[simp] theorem tell_ioRegs (s : State) (e : EnvEvent) : (tell e s).ioRegs = s.ioRegs := rfl
@[simp] theorem tell_events (s : State) (e : EnvEvent) : (tell e s).events = e :: s.events := rfl

/-! ### Peripherals -/

/-- t differs from s in the peripherals' registers and in what the environment was told only. -/
def PeripheralsOnly (s t : State) : Prop := t = { s with ioRegs := t.ioRegs, events := t.events }

theorem PeripheralsOnly.refl (s : State) : PeripheralsOnly s s := rfl

theorem PeripheralsOnly.trans {s t u : State} (h : PeripheralsOnly s t) (h' : PeripheralsOnly t u) :
    PeripheralsOnly s u := by
  unfold PeripheralsOnly at *
  rw [h'.trans (by rw [h] : _ = { s with ioRegs := u.ioRegs, events := u.events })]

theorem setContents_only (s : State) (p : Nat) (b : Byte) : PeripheralsOnly s (setContents s p b) := by
  unfold setContents
  split <;> rfl

@[simp] theorem setContents_events (s : State) (p : Nat) (b : Byte) : (setContents s p b).events = s.events := by
  unfold setContents
  split <;> rfl

theorem tell_only (e : EnvEvent) (s : State) : PeripheralsOnly s (tell e s) := rfl

theorem afterDeviceRead_only (d : IoDevice) (s : State) : PeripheralsOnly s (afterDeviceRead d s) := by
  unfold afterDeviceRead
  split
  · exact tell_only _ s
  · exact tell_only _ s
  · exact (setContents_only s _ _).trans (tell_only _ _)

theorem deviceStore_only (d : IoDevice) (b : Byte) (s : State) : PeripheralsOnly s (deviceStore d b s) := by
  unfold deviceStore
  split
  · exact (setContents_only s _ _).trans (tell_only _ _)
  · exact tell_only _ s
  · exact (setContents_only s _ _).trans (tell_only _ _)
  · exact (setContents_only s _ _).trans (tell_only _ _)

theorem deviceStore_events (d : IoDevice) (b : Byte) (s : State) :
    (deviceStore d b s).events = .deviceWrite d.addr b :: s.events := by
  unfold deviceStore
  split <;> simp

theorem afterDeviceRead_events (d : IoDevice) (s : State) :
    (afterDeviceRead d s).events = .deviceRead d.addr :: s.events := by
  unfold afterDeviceRead
  split <;> simp

theorem noteRead_only (a : Quad) (s : State) : PeripheralsOnly s (noteRead a s) := by
  unfold noteRead
  split
  · exact afterDeviceRead_only _ s
  · exact .refl s

/-- A read changes nothing but the peripherals. -/
theorem noteReads_only (sz : Size) (a : Quad) (s : State) : PeripheralsOnly s (noteReads sz a s) := by
  cases sz with
  | byte => exact noteRead_only a s
  | word => exact (noteRead_only a s).trans (noteRead_only _ _)
  | quad =>
    exact (((noteRead_only a s).trans (noteRead_only _ _)).trans (noteRead_only _ _)).trans (noteRead_only _ _)

/-! ### setContents -/

@[simp] theorem setContents_regs (s : State) (p : Nat) (b : Byte) : (setContents s p b).regs = s.regs := by
  rw [setContents_only s p b]
@[simp] theorem setContents_pc (s : State) (p : Nat) (b : Byte) : (setContents s p b).pc = s.pc := by
  rw [setContents_only s p b]
@[simp] theorem setContents_flags (s : State) (p : Nat) (b : Byte) : (setContents s p b).flags = s.flags := by
  rw [setContents_only s p b]
@[simp] theorem setContents_pcov (s : State) (p : Nat) (b : Byte) : (setContents s p b).pcov = s.pcov := by
  rw [setContents_only s p b]
@[simp] theorem setContents_spov (s : State) (p : Nat) (b : Byte) : (setContents s p b).spov = s.spov := by
  rw [setContents_only s p b]
@[simp] theorem setContents_dmabw (s : State) (p : Nat) (b : Byte) : (setContents s p b).dmabw = s.dmabw := by
  rw [setContents_only s p b]
@[simp] theorem setContents_sysexcp (s : State) (p : Nat) (b : Byte) : (setContents s p b).sysexcp = s.sysexcp := by
  rw [setContents_only s p b]
@[simp] theorem setContents_extendPending (s : State) (p : Nat) (b : Byte) : (setContents s p b).extendPending = s.extendPending := by
  rw [setContents_only s p b]
@[simp] theorem setContents_noflagsPending (s : State) (p : Nat) (b : Byte) : (setContents s p b).noflagsPending = s.noflagsPending := by
  rw [setContents_only s p b]
@[simp] theorem setContents_atmCount (s : State) (p : Nat) (b : Byte) : (setContents s p b).atmCount = s.atmCount := by
  rw [setContents_only s p b]
@[simp] theorem setContents_pendingExc (s : State) (p : Nat) (b : Byte) : (setContents s p b).pendingExc = s.pendingExc := by
  rw [setContents_only s p b]
@[simp] theorem setContents_runState (s : State) (p : Nat) (b : Byte) : (setContents s p b).runState = s.runState := by
  rw [setContents_only s p b]
@[simp] theorem setContents_wdtEnabled (s : State) (p : Nat) (b : Byte) : (setContents s p b).wdtEnabled = s.wdtEnabled := by
  rw [setContents_only s p b]
@[simp] theorem setContents_irq (s : State) (p : Nat) (b : Byte) : (setContents s p b).irq = s.irq := by
  rw [setContents_only s p b]
@[simp] theorem setContents_heldExc (s : State) (p : Nat) (b : Byte) : (setContents s p b).heldExc = s.heldExc := by
  rw [setContents_only s p b]
@[simp] theorem setContents_written (s : State) (p : Nat) (b : Byte) : (setContents s p b).written = s.written := by
  rw [setContents_only s p b]
@[simp] theorem setContents_mem (s : State) (p : Nat) (b : Byte) : (setContents s p b).mem = s.mem := by
  rw [setContents_only s p b]
@[simp] theorem setContents_cfg (s : State) (p : Nat) (b : Byte) : (setContents s p b).cfg = s.cfg := by
  rw [setContents_only s p b]
@[simp] theorem setContents_env (s : State) (p : Nat) (b : Byte) : (setContents s p b).env = s.env := by
  rw [setContents_only s p b]
@[simp] theorem setContents_freeCtr (s : State) (p : Nat) (b : Byte) : (setContents s p b).freeCtr = s.freeCtr := by
  rw [setContents_only s p b]

/-! ### noteReads -/

@[simp] theorem noteReads_regs (s : State) (sz : Size) (a : Quad) : (noteReads sz a s).regs = s.regs := by
  rw [noteReads_only sz a s]
@[simp] theorem noteReads_pc (s : State) (sz : Size) (a : Quad) : (noteReads sz a s).pc = s.pc := by
  rw [noteReads_only sz a s]
@[simp] theorem noteReads_flags (s : State) (sz : Size) (a : Quad) : (noteReads sz a s).flags = s.flags := by
  rw [noteReads_only sz a s]
@[simp] theorem noteReads_pcov (s : State) (sz : Size) (a : Quad) : (noteReads sz a s).pcov = s.pcov := by
  rw [noteReads_only sz a s]
@[simp] theorem noteReads_spov (s : State) (sz : Size) (a : Quad) : (noteReads sz a s).spov = s.spov := by
  rw [noteReads_only sz a s]
@[simp] theorem noteReads_dmabw (s : State) (sz : Size) (a : Quad) : (noteReads sz a s).dmabw = s.dmabw := by
  rw [noteReads_only sz a s]
@[simp] theorem noteReads_sysexcp (s : State) (sz : Size) (a : Quad) : (noteReads sz a s).sysexcp = s.sysexcp := by
  rw [noteReads_only sz a s]
@[simp] theorem noteReads_extendPending (s : State) (sz : Size) (a : Quad) : (noteReads sz a s).extendPending = s.extendPending := by
  rw [noteReads_only sz a s]
@[simp] theorem noteReads_noflagsPending (s : State) (sz : Size) (a : Quad) : (noteReads sz a s).noflagsPending = s.noflagsPending := by
  rw [noteReads_only sz a s]
@[simp] theorem noteReads_atmCount (s : State) (sz : Size) (a : Quad) : (noteReads sz a s).atmCount = s.atmCount := by
  rw [noteReads_only sz a s]
@[simp] theorem noteReads_pendingExc (s : State) (sz : Size) (a : Quad) : (noteReads sz a s).pendingExc = s.pendingExc := by
  rw [noteReads_only sz a s]
@[simp] theorem noteReads_runState (s : State) (sz : Size) (a : Quad) : (noteReads sz a s).runState = s.runState := by
  rw [noteReads_only sz a s]
@[simp] theorem noteReads_wdtEnabled (s : State) (sz : Size) (a : Quad) : (noteReads sz a s).wdtEnabled = s.wdtEnabled := by
  rw [noteReads_only sz a s]
@[simp] theorem noteReads_irq (s : State) (sz : Size) (a : Quad) : (noteReads sz a s).irq = s.irq := by
  rw [noteReads_only sz a s]
@[simp] theorem noteReads_heldExc (s : State) (sz : Size) (a : Quad) : (noteReads sz a s).heldExc = s.heldExc := by
  rw [noteReads_only sz a s]
@[simp] theorem noteReads_written (s : State) (sz : Size) (a : Quad) : (noteReads sz a s).written = s.written := by
  rw [noteReads_only sz a s]
@[simp] theorem noteReads_mem (s : State) (sz : Size) (a : Quad) : (noteReads sz a s).mem = s.mem := by
  rw [noteReads_only sz a s]
@[simp] theorem noteReads_cfg (s : State) (sz : Size) (a : Quad) : (noteReads sz a s).cfg = s.cfg := by
  rw [noteReads_only sz a s]
@[simp] theorem noteReads_env (s : State) (sz : Size) (a : Quad) : (noteReads sz a s).env = s.env := by
  rw [noteReads_only sz a s]
@[simp] theorem noteReads_freeCtr (s : State) (sz : Size) (a : Quad) : (noteReads sz a s).freeCtr = s.freeCtr := by
  rw [noteReads_only sz a s]

@[simp] theorem readReg_noteReads (s : State) (sz : Size) (a : Quad) (r : Reg) :
    readReg (noteReads sz a s) r = readReg s r := by
  unfold readReg
  simp

@[simp] theorem sp_noteReads (s : State) (sz : Size) (a : Quad) : sp (noteReads sz a s) = sp s :=
  readReg_noteReads s sz a spReg

/-! ### setFlags -/

@[simp] theorem setFlags_regs (s : State) (u : FlagUpdate) : (setFlags u s).regs = s.regs := by
  unfold setFlags; split <;> rfl
@[simp] theorem setFlags_pc (s : State) (u : FlagUpdate) : (setFlags u s).pc = s.pc := by
  unfold setFlags; split <;> rfl
@[simp] theorem setFlags_pcov (s : State) (u : FlagUpdate) : (setFlags u s).pcov = s.pcov := by
  unfold setFlags; split <;> rfl
@[simp] theorem setFlags_spov (s : State) (u : FlagUpdate) : (setFlags u s).spov = s.spov := by
  unfold setFlags; split <;> rfl
@[simp] theorem setFlags_dmabw (s : State) (u : FlagUpdate) : (setFlags u s).dmabw = s.dmabw := by
  unfold setFlags; split <;> rfl
@[simp] theorem setFlags_sysexcp (s : State) (u : FlagUpdate) : (setFlags u s).sysexcp = s.sysexcp := by
  unfold setFlags; split <;> rfl
@[simp] theorem setFlags_extendPending (s : State) (u : FlagUpdate) : (setFlags u s).extendPending = s.extendPending := by
  unfold setFlags; split <;> rfl
@[simp] theorem setFlags_noflagsPending (s : State) (u : FlagUpdate) : (setFlags u s).noflagsPending = s.noflagsPending := by
  unfold setFlags; split <;> rfl
@[simp] theorem setFlags_atmCount (s : State) (u : FlagUpdate) : (setFlags u s).atmCount = s.atmCount := by
  unfold setFlags; split <;> rfl
@[simp] theorem setFlags_pendingExc (s : State) (u : FlagUpdate) : (setFlags u s).pendingExc = s.pendingExc := by
  unfold setFlags; split <;> rfl
@[simp] theorem setFlags_runState (s : State) (u : FlagUpdate) : (setFlags u s).runState = s.runState := by
  unfold setFlags; split <;> rfl
@[simp] theorem setFlags_wdtEnabled (s : State) (u : FlagUpdate) : (setFlags u s).wdtEnabled = s.wdtEnabled := by
  unfold setFlags; split <;> rfl
@[simp] theorem setFlags_irq (s : State) (u : FlagUpdate) : (setFlags u s).irq = s.irq := by
  unfold setFlags; split <;> rfl
@[simp] theorem setFlags_heldExc (s : State) (u : FlagUpdate) : (setFlags u s).heldExc = s.heldExc := by
  unfold setFlags; split <;> rfl
@[simp] theorem setFlags_written (s : State) (u : FlagUpdate) : (setFlags u s).written = s.written := by
  unfold setFlags; split <;> rfl
@[simp] theorem setFlags_mem (s : State) (u : FlagUpdate) : (setFlags u s).mem = s.mem := by
  unfold setFlags; split <;> rfl
@[simp] theorem setFlags_cfg (s : State) (u : FlagUpdate) : (setFlags u s).cfg = s.cfg := by
  unfold setFlags; split <;> rfl
@[simp] theorem setFlags_env (s : State) (u : FlagUpdate) : (setFlags u s).env = s.env := by
  unfold setFlags; split <;> rfl
@[simp] theorem setFlags_events (s : State) (u : FlagUpdate) : (setFlags u s).events = s.events := by
  unfold setFlags; split <;> rfl
@[simp] theorem setFlags_freeCtr (s : State) (u : FlagUpdate) : (setFlags u s).freeCtr = s.freeCtr := by
  unfold setFlags; split <;> rfl
@[simp] theorem setFlags_ioRegs (s : State) (u : FlagUpdate) : (setFlags u s).ioRegs = s.ioRegs := by
  unfold setFlags; split <;> rfl

/-! ### raise -/

@[simp] theorem raise_regs (s : State) (e : SysExc) : (raise e s).regs = s.regs := by
  unfold raise; split <;> rfl
@[simp] theorem raise_pc (s : State) (e : SysExc) : (raise e s).pc = s.pc := by
  unfold raise; split <;> rfl
@[simp] theorem raise_flags (s : State) (e : SysExc) : (raise e s).flags = s.flags := by
  unfold raise; split <;> rfl
@[simp] theorem raise_pcov (s : State) (e : SysExc) : (raise e s).pcov = s.pcov := by
  unfold raise; split <;> rfl
@[simp] theorem raise_spov (s : State) (e : SysExc) : (raise e s).spov = s.spov := by
  unfold raise; split <;> rfl
@[simp] theorem raise_dmabw (s : State) (e : SysExc) : (raise e s).dmabw = s.dmabw := by
  unfold raise; split <;> rfl
@[simp] theorem raise_extendPending (s : State) (e : SysExc) : (raise e s).extendPending = s.extendPending := by
  unfold raise; split <;> rfl
@[simp] theorem raise_noflagsPending (s : State) (e : SysExc) : (raise e s).noflagsPending = s.noflagsPending := by
  unfold raise; split <;> rfl
@[simp] theorem raise_atmCount (s : State) (e : SysExc) : (raise e s).atmCount = s.atmCount := by
  unfold raise; split <;> rfl
@[simp] theorem raise_runState (s : State) (e : SysExc) : (raise e s).runState = s.runState := by
  unfold raise; split <;> rfl
@[simp] theorem raise_wdtEnabled (s : State) (e : SysExc) : (raise e s).wdtEnabled = s.wdtEnabled := by
  unfold raise; split <;> rfl
@[simp] theorem raise_irq (s : State) (e : SysExc) : (raise e s).irq = s.irq := by
  unfold raise; split <;> rfl
@[simp] theorem raise_heldExc (s : State) (e : SysExc) : (raise e s).heldExc = s.heldExc := by
  unfold raise; split <;> rfl
@[simp] theorem raise_written (s : State) (e : SysExc) : (raise e s).written = s.written := by
  unfold raise; split <;> rfl
@[simp] theorem raise_mem (s : State) (e : SysExc) : (raise e s).mem = s.mem := by
  unfold raise; split <;> rfl
@[simp] theorem raise_cfg (s : State) (e : SysExc) : (raise e s).cfg = s.cfg := by
  unfold raise; split <;> rfl
@[simp] theorem raise_env (s : State) (e : SysExc) : (raise e s).env = s.env := by
  unfold raise; split <;> rfl
@[simp] theorem raise_events (s : State) (e : SysExc) : (raise e s).events = s.events := by
  unfold raise; split <;> rfl
@[simp] theorem raise_freeCtr (s : State) (e : SysExc) : (raise e s).freeCtr = s.freeCtr := by
  unfold raise; split <;> rfl
@[simp] theorem raise_ioRegs (s : State) (e : SysExc) : (raise e s).ioRegs = s.ioRegs := by
  unfold raise; split <;> rfl

/-! ### writeReg -/

@[simp] theorem writeReg_pc (s : State) (r : Reg) (v : Quad) : (writeReg s r v).pc = s.pc := by
  unfold writeReg; split <;> simp
@[simp] theorem writeReg_flags (s : State) (r : Reg) (v : Quad) : (writeReg s r v).flags = s.flags := by
  unfold writeReg; split <;> simp
@[simp] theorem writeReg_pcov (s : State) (r : Reg) (v : Quad) : (writeReg s r v).pcov = s.pcov := by
  unfold writeReg; split <;> simp
@[simp] theorem writeReg_spov (s : State) (r : Reg) (v : Quad) : (writeReg s r v).spov = s.spov := by
  unfold writeReg; split <;> simp
@[simp] theorem writeReg_dmabw (s : State) (r : Reg) (v : Quad) : (writeReg s r v).dmabw = s.dmabw := by
  unfold writeReg; split <;> simp
@[simp] theorem writeReg_extendPending (s : State) (r : Reg) (v : Quad) : (writeReg s r v).extendPending = s.extendPending := by
  unfold writeReg; split <;> simp
@[simp] theorem writeReg_noflagsPending (s : State) (r : Reg) (v : Quad) : (writeReg s r v).noflagsPending = s.noflagsPending := by
  unfold writeReg; split <;> simp
@[simp] theorem writeReg_atmCount (s : State) (r : Reg) (v : Quad) : (writeReg s r v).atmCount = s.atmCount := by
  unfold writeReg; split <;> simp
@[simp] theorem writeReg_runState (s : State) (r : Reg) (v : Quad) : (writeReg s r v).runState = s.runState := by
  unfold writeReg; split <;> simp
@[simp] theorem writeReg_wdtEnabled (s : State) (r : Reg) (v : Quad) : (writeReg s r v).wdtEnabled = s.wdtEnabled := by
  unfold writeReg; split <;> simp
@[simp] theorem writeReg_irq (s : State) (r : Reg) (v : Quad) : (writeReg s r v).irq = s.irq := by
  unfold writeReg; split <;> simp
@[simp] theorem writeReg_heldExc (s : State) (r : Reg) (v : Quad) : (writeReg s r v).heldExc = s.heldExc := by
  unfold writeReg; split <;> simp
@[simp] theorem writeReg_written (s : State) (r : Reg) (v : Quad) : (writeReg s r v).written = s.written := by
  unfold writeReg; split <;> simp
@[simp] theorem writeReg_mem (s : State) (r : Reg) (v : Quad) : (writeReg s r v).mem = s.mem := by
  unfold writeReg; split <;> simp
@[simp] theorem writeReg_cfg (s : State) (r : Reg) (v : Quad) : (writeReg s r v).cfg = s.cfg := by
  unfold writeReg; split <;> simp
@[simp] theorem writeReg_env (s : State) (r : Reg) (v : Quad) : (writeReg s r v).env = s.env := by
  unfold writeReg; split <;> simp
@[simp] theorem writeReg_events (s : State) (r : Reg) (v : Quad) : (writeReg s r v).events = s.events := by
  unfold writeReg; split <;> simp
@[simp] theorem writeReg_freeCtr (s : State) (r : Reg) (v : Quad) : (writeReg s r v).freeCtr = s.freeCtr := by
  unfold writeReg; split <;> simp
@[simp] theorem writeReg_ioRegs (s : State) (r : Reg) (v : Quad) : (writeReg s r v).ioRegs = s.ioRegs := by
  unfold writeReg; split <;> simp

/-! ### retire -/

@[simp] theorem retire_regs (s : State) (i : Instr) : (retire i s).regs = s.regs := by
  unfold retire; split <;> rfl
@[simp] theorem retire_pc (s : State) (i : Instr) : (retire i s).pc = s.pc := by
  unfold retire; split <;> rfl
@[simp] theorem retire_flags (s : State) (i : Instr) : (retire i s).flags = s.flags := by
  unfold retire; split <;> rfl
@[simp] theorem retire_pcov (s : State) (i : Instr) : (retire i s).pcov = s.pcov := by
  unfold retire; split <;> rfl
@[simp] theorem retire_spov (s : State) (i : Instr) : (retire i s).spov = s.spov := by
  unfold retire; split <;> rfl
@[simp] theorem retire_dmabw (s : State) (i : Instr) : (retire i s).dmabw = s.dmabw := by
  unfold retire; split <;> rfl
@[simp] theorem retire_sysexcp (s : State) (i : Instr) : (retire i s).sysexcp = s.sysexcp := by
  unfold retire; split <;> rfl
@[simp] theorem retire_pendingExc (s : State) (i : Instr) : (retire i s).pendingExc = s.pendingExc := by
  unfold retire; split <;> rfl
@[simp] theorem retire_runState (s : State) (i : Instr) : (retire i s).runState = s.runState := by
  unfold retire; split <;> rfl
@[simp] theorem retire_wdtEnabled (s : State) (i : Instr) : (retire i s).wdtEnabled = s.wdtEnabled := by
  unfold retire; split <;> rfl
@[simp] theorem retire_irq (s : State) (i : Instr) : (retire i s).irq = s.irq := by
  unfold retire; split <;> rfl
@[simp] theorem retire_heldExc (s : State) (i : Instr) : (retire i s).heldExc = s.heldExc := by
  unfold retire; split <;> rfl
@[simp] theorem retire_written (s : State) (i : Instr) : (retire i s).written = s.written := by
  unfold retire; split <;> rfl
@[simp] theorem retire_mem (s : State) (i : Instr) : (retire i s).mem = s.mem := by
  unfold retire; split <;> rfl
@[simp] theorem retire_cfg (s : State) (i : Instr) : (retire i s).cfg = s.cfg := by
  unfold retire; split <;> rfl
@[simp] theorem retire_env (s : State) (i : Instr) : (retire i s).env = s.env := by
  unfold retire; split <;> rfl
@[simp] theorem retire_events (s : State) (i : Instr) : (retire i s).events = s.events := by
  unfold retire; split <;> rfl
@[simp] theorem retire_freeCtr (s : State) (i : Instr) : (retire i s).freeCtr = s.freeCtr := by
  unfold retire; split <;> rfl
@[simp] theorem retire_ioRegs (s : State) (i : Instr) : (retire i s).ioRegs = s.ioRegs := by
  unfold retire; split <;> rfl

/-! ### Registers -/

@[simp] theorem writeReg_regs (s : State) (r : Reg) (v : Quad) : (writeReg s r v).regs = (setReg s r v).regs := by
  unfold writeReg
  split <;> simp

/-- A register read depends on the register file alone. -/
theorem readReg_congr {s t : State} (h : t.regs = s.regs) (r : Reg) : readReg t r = readReg s r := by
  unfold readReg
  simp [h]

@[simp] theorem readReg_setReg (s : State) (d r : Reg) (v : Quad) :
    readReg (setReg s d v) r = if r = d then v else readReg s r := by
  unfold readReg
  simp only [setReg_regs, Vector.getElem_set]
  by_cases h : r = d
  · simp [h]
  · have h' : d.toNat ≠ r.toNat := fun e => h (BitVec.eq_of_toNat_eq e.symm)
    simp [h, h']

@[simp] theorem readReg_writeReg (s : State) (d r : Reg) (v : Quad) :
    readReg (writeReg s d v) r = if r = d then v else readReg s r := by
  rw [readReg_congr (writeReg_regs s d v), readReg_setReg]

@[simp] theorem readReg_advance (s : State) (len : Nat) (r : Reg) : readReg (advance len s) r = readReg s r := rfl

@[simp] theorem readReg_jump (s : State) (target : Quad) (r : Reg) : readReg (jump target s) r = readReg s r := rfl

@[simp] theorem readReg_setFlags (s : State) (u : FlagUpdate) (r : Reg) : readReg (setFlags u s) r = readReg s r :=
  readReg_congr (setFlags_regs s u) r

@[simp] theorem readReg_raise (s : State) (e : SysExc) (r : Reg) : readReg (raise e s) r = readReg s r :=
  readReg_congr (raise_regs s e) r

@[simp] theorem readReg_setByteAt (s : State) (p : Nat) (b : Byte) (r : Reg) :
    readReg (setByteAt s p b) r = readReg s r := rfl

/-! ### SYSEXCP -/

@[simp] theorem testBit_setExtraBit (x k j : Nat) (v : Bool) :
    (setExtraBit x k v).testBit j = if j = k then v else x.testBit j := by
  unfold setExtraBit
  by_cases hj : j = k
  · subst hj
    by_cases h : x.testBit j = v
    · simp [h]
    · rw [if_neg h, Nat.testBit_xor, Nat.testBit_two_pow_self]
      cases v <;> simp_all
  · have hk : (2 ^ k).testBit j = false := Nat.testBit_two_pow_of_ne (Ne.symm hj)
    rw [if_neg hj]
    split <;> simp [Nat.testBit_xor, hk]

@[simp] theorem sysexcpBit_with (x : Sysexcp) (e e' : SysExc) (v : Bool) :
    sysexcpBit (withSysexcpBit x e v) e' = if e' = e then v else sysexcpBit x e' := by
  cases e with
  | extra k => cases e' <;> first | rfl | simp [withSysexcpBit, sysexcpBit]
  | _ => cases e' <;> rfl

/-- Everything `raise` can do (60_exceptions.md R420). -/
theorem raise_cases (e : SysExc) (s : State) :
    (sysexcpBit s.sysexcp e = true ∧ raise e s = s) ∨
    (sysexcpBit s.sysexcp e = false ∧
      raise e s = { s with sysexcp := withSysexcpBit s.sysexcp e true, pendingExc := some e }) := by
  unfold raise
  cases h : sysexcpBit s.sysexcp e
  · exact .inr ⟨rfl, by simp⟩
  · exact .inl ⟨rfl, by simp⟩

/-- Everything `writeReg` can do (60_exceptions.md R424). -/
theorem writeReg_cases (s : State) (d : Reg) (v : Quad) :
    (d = 15 ∧ v.toNat < s.spov.toNat ∧ writeReg s d v = raise .stackOverflow (setReg s d v)) ∨
    (¬ (d = 15 ∧ v.toNat < s.spov.toNat) ∧ writeReg s d v = setReg s d v) := by
  unfold writeReg spReg
  by_cases h : d = 15 ∧ v.toNat < s.spov.toNat
  · exact .inl ⟨h.1, h.2, by rw [if_pos h]⟩
  · exact .inr ⟨h, by rw [if_neg h]⟩

/-! ### andThen -/

@[simp] theorem andThen_next {α β : Type} (a : α) (f : α → Res β) : andThen (.next a) f = f a := rfl

@[simp] theorem andThen_fault {α β : Type} (e : Fault) (f : α → Res β) :
    andThen (.fault e : Res α) f = .fault e := rfl

@[simp] theorem andThen_refused {α β : Type} (e : Refusal) (f : α → Res β) :
    andThen (.refused e : Res α) f = .refused e := rfl

/-- A chain goes on exactly when its first operation does and the rest does. -/
theorem andThen_eq_next {α β : Type} {r : Res α} {f : α → Res β} {b : β} :
    andThen r f = .next b ↔ ∃ a, r = .next a ∧ f a = .next b := by
  cases r <;> simp [andThen]

end Sys2Proof.Machine
end

