-- ==== Sys2Proof/Laws/Flags.lean ====
section
/-! SUPPORT. The laws of FLAGS and of the arithmetic: the bits of the byte, what SetFlags leaves alone, and the results and
flags of additions and subtractions as integer arithmetic. -/

namespace Sys2Proof.Machine

/-! ### The bits of the byte -/

@[simp] theorem flagC_packFlags (c z s v b f1 ci ir : Bool) : flagC (packFlags c z s v b f1 ci ir) = c := by
  revert c z s v b f1 ci ir; decide
@[simp] theorem flagZ_packFlags (c z s v b f1 ci ir : Bool) : flagZ (packFlags c z s v b f1 ci ir) = z := by
  revert c z s v b f1 ci ir; decide
@[simp] theorem flagS_packFlags (c z s v b f1 ci ir : Bool) : flagS (packFlags c z s v b f1 ci ir) = s := by
  revert c z s v b f1 ci ir; decide
@[simp] theorem flagV_packFlags (c z s v b f1 ci ir : Bool) : flagV (packFlags c z s v b f1 ci ir) = v := by
  revert c z s v b f1 ci ir; decide
@[simp] theorem flagB_packFlags (c z s v b f1 ci ir : Bool) : flagB (packFlags c z s v b f1 ci ir) = b := by
  revert c z s v b f1 ci ir; decide
@[simp] theorem flagF1_packFlags (c z s v b f1 ci ir : Bool) : flagF1 (packFlags c z s v b f1 ci ir) = f1 := by
  revert c z s v b f1 ci ir; decide
@[simp] theorem flagCirqe_packFlags (c z s v b f1 ci ir : Bool) : flagCirqe (packFlags c z s v b f1 ci ir) = ci := by
  revert c z s v b f1 ci ir; decide
@[simp] theorem flagIrqe_packFlags (c z s v b f1 ci ir : Bool) : flagIrqe (packFlags c z s v b f1 ci ir) = ir := by
  revert c z s v b f1 ci ir; decide

/-- The byte is its bits. -/
theorem packFlags_bits (f : Byte) :
    packFlags (flagC f) (flagZ f) (flagS f) (flagV f) (flagB f) (flagF1 f) (flagCirqe f) (flagIrqe f) = f := by
  revert f; decide

theorem withIrqe_false (f : Byte) : withIrqe f false = f &&& 0xFE := by revert f; decide
theorem withIrqe_true (f : Byte) : withIrqe f true = f ||| 0x01 := by revert f; decide

/-- What SetFlags does (10_state.md R34). -/
theorem setFlags_flagsSet (u : FlagUpdate) (s : State) :
    FlagsSet s.noflagsPending s.flags (setFlags u s).flags u := by
  unfold setFlags FlagsSet
  cases s.noflagsPending <;> simp [applyFlags]

/-- SetFlags of nothing. -/
theorem setFlags_none (s : State) : setFlags {} s = s := by
  unfold setFlags
  split
  · rfl
  · simp [applyFlags, packFlags_bits]

theorem withEnables_masked (f : Byte) : Masked f (withEnables f (flagIrqe f) false) := by
  simp [Masked, withEnables]

/-! ### Addition and subtraction -/

theorem aluAdd_result {w : Nat} (a b : BitVec w) (c : Bool) :
    (aluAdd a b c).result = a + b + BitVec.ofNat w c.toNat := by
  apply BitVec.eq_of_toNat_eq
  simp [aluAdd, BitVec.toNat_add]

theorem aluSub_result {w : Nat} (a b : BitVec w) (c : Bool) :
    (aluSub a b c).result = a - b - BitVec.ofNat w c.toNat := by
  have h : BitVec.ofInt w ((a.toNat : Int) - b.toNat - c.toNat) =
      BitVec.ofInt w a.toNat - BitVec.ofInt w b.toNat - BitVec.ofInt w c.toNat := by
    simp only [Int.sub_eq_add_neg, BitVec.ofInt_add, BitVec.ofInt_neg, BitVec.sub_eq_add_neg]
  simpa [aluSub] using h

/-- The sign bit and the signed value of a bit vector, with M = 2^(w - 1). -/
theorem toInt_split {w : Nat} (hw : 0 < w) (a : BitVec w) :
    (a.msb = true ∧ 2 ^ (w - 1) ≤ a.toNat ∧ a.toNat < 2 * 2 ^ (w - 1) ∧ a.toInt = (a.toNat : Int) - 2 * (2 ^ (w - 1) : Nat)) ∨
    (a.msb = false ∧ a.toNat < 2 ^ (w - 1) ∧ a.toInt = (a.toNat : Int)) := by
  have hp : 2 ^ w = 2 * 2 ^ (w - 1) := by
    obtain ⟨k, rfl⟩ : ∃ k, w = k + 1 := ⟨w - 1, by omega⟩
    rw [Nat.pow_succ, Nat.add_sub_cancel]; omega
  have ha := a.isLt
  have hm := BitVec.msb_eq_decide a
  have hi := BitVec.toInt_eq_msb_cond a
  by_cases h : 2 ^ (w - 1) ≤ a.toNat
  · left
    have : a.msb = true := by rw [hm]; simp [h]
    refine ⟨this, h, by omega, ?_⟩
    rw [hi, this, if_pos rfl]
    push_cast [hp]
    rfl
  · right
    have : a.msb = false := by rw [hm]; simp [h]
    refine ⟨this, by omega, ?_⟩
    rw [hi, this]
    simp

/-- V of an addition: the signed sum does not fit (10_state.md R31). -/
theorem aluAdd_v {w : Nat} (hw : 0 < w) (a b : BitVec w) (c : Bool) :
    (aluAdd a b c).v = outOfRange w (a.toInt + b.toInt + c.toNat) := by
  have hp : 2 ^ w = 2 * 2 ^ (w - 1) := by
    obtain ⟨k, rfl⟩ : ∃ k, w = k + 1 := ⟨w - 1, by omega⟩
    rw [Nat.pow_succ, Nat.add_sub_cancel]; omega
  have hr : (aluAdd a b c).result.toNat = (a.toNat + b.toNat + c.toNat) % (2 * 2 ^ (w - 1)) := by
    simp [aluAdd, hp]
  have hv : (aluAdd a b c).v = (a.msb == b.msb && (aluAdd a b c).result.msb != a.msb) := rfl
  have hc : c.toNat ≤ 1 := Bool.toNat_le c
  have hcast : ((2 ^ (w - 1) : Nat) : Int) = (2 : Int) ^ (w - 1) := by push_cast; rfl
  rw [hv]
  unfold outOfRange
  rw [← hcast]
  generalize (aluAdd a b c).result = r at *
  have h1 := toInt_split hw a
  have h2 := toInt_split hw b
  have h3 := toInt_split hw r
  generalize 2 ^ (w - 1) = M at *
  have hmod : (a.toNat + b.toNat + c.toNat < 2 * M ∧ r.toNat = a.toNat + b.toNat + c.toNat) ∨
      (2 * M ≤ a.toNat + b.toNat + c.toNat ∧ r.toNat = a.toNat + b.toNat + c.toNat - 2 * M) := by
    by_cases h : a.toNat + b.toNat + c.toNat < 2 * M
    · exact .inl ⟨h, by rw [hr, Nat.mod_eq_of_lt h]⟩
    · refine .inr ⟨by omega, ?_⟩
      rw [hr, Nat.mod_eq_sub_mod (by omega), Nat.mod_eq_of_lt (by omega)]
  rcases h1 with ⟨m1, h1⟩ | ⟨m1, h1⟩ <;> rcases h2 with ⟨m2, h2⟩ | ⟨m2, h2⟩ <;>
    rcases h3 with ⟨m3, h3⟩ | ⟨m3, h3⟩ <;> simp only [m1, m2, m3] <;>
    (symm; simp; omega)

/-- V of a subtraction: the signed difference does not fit (10_state.md R31). -/
theorem aluSub_v {w : Nat} (hw : 0 < w) (a b : BitVec w) (c : Bool) :
    (aluSub a b c).v = outOfRange w (a.toInt - b.toInt - c.toNat) := by
  have hp : 2 ^ w = 2 * 2 ^ (w - 1) := by
    obtain ⟨k, rfl⟩ : ∃ k, w = k + 1 := ⟨w - 1, by omega⟩
    rw [Nat.pow_succ, Nat.add_sub_cancel]; omega
  have hr : ((aluSub a b c).result.toNat : Int) =
      ((a.toNat : Int) - b.toNat - c.toNat) % (2 * 2 ^ (w - 1) : Nat) := by
    simp only [aluSub, BitVec.toNat_ofInt, ← hp]
    exact Int.toNat_of_nonneg (Int.emod_nonneg _ (by have := Nat.two_pow_pos w; omega))
  have hv : (aluSub a b c).v = (a.msb != b.msb && (aluSub a b c).result.msb == b.msb) := rfl
  have hc : c.toNat ≤ 1 := Bool.toNat_le c
  have hcast : ((2 ^ (w - 1) : Nat) : Int) = (2 : Int) ^ (w - 1) := by push_cast; rfl
  rw [hv]
  unfold outOfRange
  rw [← hcast]
  generalize (aluSub a b c).result = r at *
  have h1 := toInt_split hw a
  have h2 := toInt_split hw b
  have h3 := toInt_split hw r
  generalize 2 ^ (w - 1) = M at *
  have hmod : ((0 : Int) ≤ (a.toNat : Int) - b.toNat - c.toNat ∧ (r.toNat : Int) = (a.toNat : Int) - b.toNat - c.toNat) ∨
      ((a.toNat : Int) - b.toNat - c.toNat < 0 ∧
        (r.toNat : Int) = (a.toNat : Int) - b.toNat - c.toNat + 2 * (M : Int)) := by
    by_cases h : (0 : Int) ≤ (a.toNat : Int) - b.toNat - c.toNat
    · refine .inl ⟨h, ?_⟩
      rw [hr, Int.emod_eq_of_lt h (by push_cast; omega)]
    · refine .inr ⟨by omega, ?_⟩
      rw [hr, ← Int.add_emod_right, Int.emod_eq_of_lt (by push_cast; omega) (by push_cast; omega)]
      push_cast; ring
  rcases h1 with ⟨m1, h1⟩ | ⟨m1, h1⟩ <;> rcases h2 with ⟨m2, h2⟩ | ⟨m2, h2⟩ <;>
    rcases h3 with ⟨m3, h3⟩ | ⟨m3, h3⟩ <;> simp only [m1, m2, m3] <;>
    (symm; simp; omega)

/-- C of a subtraction is the borrow. -/
theorem aluSub_c {w : Nat} (a b : BitVec w) (c : Bool) :
    (aluSub a b c).c = decide (a.toNat < b.toNat + c.toNat) := by
  simp only [aluSub]
  congr 1
  apply propext
  omega

end Sys2Proof.Machine
end

