-- ==== Sys2Proof/Laws/Memory.lean ====
section
/-! SUPPORT. The laws of memory: the list operations keep the canonical form, a byte written reads back, every other
byte is left alone; and for each access of a byte or a datum, everything it can do. -/

namespace Sys2Proof.Machine

/-! ### The list of bytes -/

theorem Memory.find_update_other (blank : Byte) (m : List Host.Cell) {p q : Nat} (b : Byte) (h : q ≠ p) :
    Memory.find (Memory.update blank m p b) q = Memory.find m q := by
  have h' : p ≠ q := Ne.symm h
  induction m with
  | nil => unfold Memory.update; split <;> simp [Memory.find, h']
  | cons c rest ih =>
    obtain ⟨k, v⟩ := c
    unfold Memory.update
    split
    · split <;> simp [Memory.find, h']
    · split
      · next hk => subst hk; split <;> simp [Memory.find, h']
      · simp [Memory.find, ih]

theorem Memory.wfFrom_mono {blank : Nat → Byte} {m : List Host.Cell} {low low' : Nat} (hle : low' ≤ low)
    (h : Memory.wfFrom blank low m = true) : Memory.wfFrom blank low' m = true := by
  cases m with
  | nil => rfl
  | cons c rest =>
    obtain ⟨k, v⟩ := c
    simp only [Memory.wfFrom, Bool.and_eq_true, decide_eq_true_eq] at *
    exact ⟨⟨by omega, h.1.2⟩, h.2⟩

theorem Memory.find_below {blank : Nat → Byte} {m : List Host.Cell} {low p : Nat} (hp : p < low)
    (h : Memory.wfFrom blank low m = true) : Memory.find m p = none := by
  induction m generalizing low with
  | nil => rfl
  | cons c rest ih =>
    obtain ⟨k, v⟩ := c
    simp only [Memory.wfFrom, Bool.and_eq_true, decide_eq_true_eq] at h
    have hk : k ≠ p := by omega
    simp only [Memory.find, if_neg hk]
    exact ih (by omega) h.2

/-- A byte written reads back. -/
theorem Memory.find_update_same {blank : Nat → Byte} {m : List Host.Cell} {low p : Nat} (b : Byte)
    (h : Memory.wfFrom blank low m = true) :
    (Memory.find (Memory.update (blank p) m p b) p).getD (blank p) = b := by
  induction m generalizing low with
  | nil =>
    unfold Memory.update
    split
    · next hb => simp [Memory.find, hb]
    · simp [Memory.find]
  | cons c rest ih =>
    obtain ⟨k, v⟩ := c
    simp only [Memory.wfFrom, Bool.and_eq_true, decide_eq_true_eq] at h
    unfold Memory.update
    split
    · next hlt =>
      split
      · next hb =>
        have hk : k ≠ p := by omega
        simp only [Memory.find, if_neg hk, Memory.find_below (by omega : p < k + 1) h.2, hb, Option.getD_none]
      · simp [Memory.find]
    · split
      · next hk =>
        subst hk
        split
        · next hb => simp only [Memory.find_below (by omega : p < p + 1) h.2, hb, Option.getD_none]
        · simp [Memory.find]
      · next hk =>
        have hk' : k ≠ p := Ne.symm hk
        simp only [Memory.find, if_neg hk']
        exact ih h.2

/-- An update keeps the canonical form. -/
theorem Memory.update_wfFrom {blank : Nat → Byte} {m : List Host.Cell} {low p : Nat} (b : Byte) (hp : low ≤ p)
    (h : Memory.wfFrom blank low m = true) :
    Memory.wfFrom blank low (Memory.update (blank p) m p b) = true := by
  induction m generalizing low with
  | nil =>
    unfold Memory.update
    split
    · rfl
    · next hb => simp [Memory.wfFrom, hp, hb]
  | cons c rest ih =>
    obtain ⟨k, v⟩ := c
    have h0 := h
    simp only [Memory.wfFrom, Bool.and_eq_true, decide_eq_true_eq] at h
    unfold Memory.update
    split
    · next hlt =>
      split
      · exact h0
      · next hb =>
        simp only [Memory.wfFrom, Bool.and_eq_true, decide_eq_true_eq]
        exact ⟨⟨hp, hb⟩, ⟨by omega, h.1.2⟩, h.2⟩
    · split
      · next hk =>
        subst hk
        split
        · exact Memory.wfFrom_mono (by omega) h.2
        · next hb =>
          simp only [Memory.wfFrom, Bool.and_eq_true, decide_eq_true_eq]
          exact ⟨⟨hp, hb⟩, h.2⟩
      · simp only [Memory.wfFrom, Bool.and_eq_true, decide_eq_true_eq]
        exact ⟨h.1, ih (by omega) h.2⟩

theorem Memory.update_wf {blank : Nat → Byte} {m : List Host.Cell} (p : Nat) (b : Byte)
    (h : Memory.wf blank m = true) : Memory.wf blank (Memory.update (blank p) m p b) = true :=
  Memory.update_wfFrom b (Nat.zero_le p) h

/-- Reset memory has the canonical form, and so have the peripherals' registers. -/
theorem Memory.wf_reset : Memory.wf (blankByte State.reset.cfg) State.reset.mem = true := rfl

theorem Memory.wf_reset_ioRegs : Memory.wf (resetContents State.reset.cfg) State.reset.ioRegs = true := rfl

theorem risingFrom_mono {l : List Nat} {low low' : Nat} (hle : low' ≤ low) (h : risingFrom low l = true) :
    risingFrom low' l = true := by
  cases l with
  | nil => rfl
  | cons k rest =>
    simp only [risingFrom, Bool.and_eq_true, decide_eq_true_eq] at *
    exact ⟨by omega, h.2⟩

theorem insertAddress_risingFrom {l : List Nat} {low p : Nat} (hp : low ≤ p) (h : risingFrom low l = true) :
    risingFrom low (insertAddress p l) = true := by
  induction l generalizing low with
  | nil => simp [insertAddress, risingFrom, hp]
  | cons k rest ih =>
    have h0 := h
    simp only [risingFrom, Bool.and_eq_true, decide_eq_true_eq] at h
    unfold insertAddress
    split
    · simp only [risingFrom, Bool.and_eq_true, decide_eq_true_eq]
      exact ⟨hp, by omega, h.2⟩
    · split
      · exact h0
      · simp only [risingFrom, Bool.and_eq_true, decide_eq_true_eq]
        exact ⟨h.1, ih (by omega) h.2⟩

theorem mem_insertAddress {l : List Nat} {p q : Nat} : q ∈ insertAddress p l ↔ q = p ∨ q ∈ l := by
  induction l with
  | nil => simp [insertAddress]
  | cons k rest ih =>
    unfold insertAddress
    split
    · simp
    · split
      · next h => subst h; simp
      · simp only [List.mem_cons, ih]; tauto

/-! ### One byte -/

theorem byteAt_setByteAt_other (s : State) {p q : Nat} (b : Byte) (h : q ≠ p) :
    byteAt (setByteAt s p b) q = byteAt s q := by
  simp [byteAt, Memory.find_update_other _ _ _ h]

theorem byteAt_setByteAt_same (s : State) (p : Nat) (b : Byte)
    (h : Memory.wf (blankByte s.cfg) s.mem = true) : byteAt (setByteAt s p b) p = b := by
  simp only [byteAt, setByteAt_mem, setByteAt_cfg]
  exact Memory.find_update_same b h

/-! ### Peripherals -/

/-- Contents given to a configured register are there. -/
theorem contentsAt_setContents_same {s : State} {p : Nat} {d : IoDevice} (b : Byte) (hd : deviceAt s.cfg p = some d)
    (h : Memory.wf (resetContents s.cfg) s.ioRegs = true) : contentsAt (setContents s p b) p = b := by
  simp only [setContents, hd, contentsAt]
  exact Memory.find_update_same b h

/-- Every other register keeps its contents. -/
theorem contentsAt_setContents_other (s : State) {p q : Nat} (b : Byte) (h : q ≠ p) :
    contentsAt (setContents s p b) q = contentsAt s q := by
  unfold setContents
  split
  · simp only [contentsAt, Memory.find_update_other _ _ _ h]
  · rfl

theorem setContents_wf {s : State} (p : Nat) (b : Byte) (h : Memory.wf (resetContents s.cfg) s.ioRegs = true) :
    Memory.wf (resetContents (setContents s p b).cfg) (setContents s p b).ioRegs = true := by
  unfold setContents
  split
  · exact Memory.update_wf p b h
  · exact h

theorem deviceStore_wf (d : IoDevice) (b : Byte) {s : State} (h : Memory.wf (resetContents s.cfg) s.ioRegs = true) :
    Memory.wf (resetContents (deviceStore d b s).cfg) (deviceStore d b s).ioRegs = true := by
  unfold deviceStore
  split
  · exact setContents_wf _ _ h
  · exact h
  · exact setContents_wf _ _ h
  · exact setContents_wf _ _ h

theorem noteRead_wf (a : Quad) {s : State} (h : Memory.wf (resetContents s.cfg) s.ioRegs = true) :
    Memory.wf (resetContents (noteRead a s).cfg) (noteRead a s).ioRegs = true := by
  unfold noteRead
  split
  · unfold afterDeviceRead
    split
    · exact h
    · exact h
    · exact setContents_wf _ _ h
  · exact h

theorem noteRead_events (a : Quad) (s : State) : ∃ new, (noteRead a s).events = new ++ s.events := by
  unfold noteRead
  split
  · exact ⟨[_], afterDeviceRead_events _ s⟩
  · exact ⟨[], rfl⟩

theorem noteRead_cfg (a : Quad) (s : State) : (noteRead a s).cfg = s.cfg := by rw [noteRead_only]

/-- A read away from the peripherals does nothing but answer. -/
theorem noteRead_memory {s : State} {a : Quad} (h : memoryByte s a = true) : noteRead a s = s := by
  unfold memoryByte at h
  unfold noteRead
  cases hl : locate s.cfg (phys s.cfg a) <;> simp_all

/-! ### What a store leaves alone -/

/-- What a store leaves alone whatever it stores to: the fields no address names; of the events it forgets none. -/
structure StoreFrame (s t : State) : Prop where
  regs           : t.regs = s.regs
  pc             : t.pc = s.pc
  extendPending  : t.extendPending = s.extendPending
  noflagsPending : t.noflagsPending = s.noflagsPending
  atmCount       : t.atmCount = s.atmCount
  pendingExc     : t.pendingExc = s.pendingExc
  runState       : t.runState = s.runState
  wdtEnabled     : t.wdtEnabled = s.wdtEnabled
  irq            : t.irq = s.irq
  heldExc        : t.heldExc = s.heldExc
  cfg            : t.cfg = s.cfg
  env            : t.env = s.env
  events         : ∃ new, t.events = new ++ s.events
  freeCtr        : t.freeCtr = s.freeCtr

theorem StoreFrame.refl (s : State) : StoreFrame s s :=
  ⟨rfl, rfl, rfl, rfl, rfl, rfl, rfl, rfl, rfl, rfl, rfl, rfl, ⟨[], rfl⟩, rfl⟩

/-- A store to a peripheral changes the peripherals only. -/
theorem StoreFrame.of_only {s t : State} (h : PeripheralsOnly s t) (he : ∃ new, t.events = new ++ s.events) :
    StoreFrame s t := by
  constructor <;> first | exact he | rw [h]

theorem StoreFrame.trans {s t u : State} (h : StoreFrame s t) (h' : StoreFrame t u) : StoreFrame s u := by
  constructor
  · rw [h'.regs, h.regs]
  · rw [h'.pc, h.pc]
  · rw [h'.extendPending, h.extendPending]
  · rw [h'.noflagsPending, h.noflagsPending]
  · rw [h'.atmCount, h.atmCount]
  · rw [h'.pendingExc, h.pendingExc]
  · rw [h'.runState, h.runState]
  · rw [h'.wdtEnabled, h.wdtEnabled]
  · rw [h'.irq, h.irq]
  · rw [h'.heldExc, h.heldExc]
  · rw [h'.cfg, h.cfg]
  · rw [h'.env, h.env]
  · obtain ⟨a, ha⟩ := h.events
    obtain ⟨b, hb⟩ := h'.events
    exact ⟨b ++ a, by rw [hb, ha, List.append_assoc]⟩
  · rw [h'.freeCtr, h.freeCtr]

/-- Everything a byte store can do when it goes on (20_memory.md R71). -/
theorem writeByte_cases {s t : State} {a : Quad} {b : Byte} (h : writeByte s a b = .next t) :
    (locate s.cfg (phys s.cfg a) = .ram ∧
      t = { setByteAt s (phys s.cfg a) b with written := insertAddress (phys s.cfg a) s.written }) ∨
    (∃ k, locate s.cfg (phys s.cfg a) = .pcov k ∧ t = { s with pcov := setByteOfQuad s.pcov k b }) ∨
    (∃ k, locate s.cfg (phys s.cfg a) = .spov k ∧ t = { s with spov := setByteOfQuad s.spov k b }) ∨
    (locate s.cfg (phys s.cfg a) = .flags ∧ t = { s with flags := b }) ∨
    (locate s.cfg (phys s.cfg a) = .cpuctl ∧ t = { s with dmabw := b.extractLsb' 0 2 }) ∨
    (∃ place, locate s.cfg (phys s.cfg a) = .sysexcp place ∧
      t = { s with sysexcp := writeSysexcp place s.sysexcp b }) ∨
    (∃ d, locate s.cfg (phys s.cfg a) = .device d ∧ t = deviceStore d b s) ∨
    ((locate s.cfg (phys s.cfg a) = .reserved ∨ locate s.cfg (phys s.cfg a) = .unavailableIo) ∧ t = s) := by
  unfold writeByte at h
  cases hl : locate s.cfg (phys s.cfg a) <;> simp only [hl] at h <;> first | (cases h; simp) | cases h

theorem writeByte_frame {s t : State} {a : Quad} {b : Byte} (h : writeByte s a b = .next t) : StoreFrame s t := by
  rcases writeByte_cases h with h | ⟨_, h⟩ | ⟨_, h⟩ | h | h | ⟨_, h⟩ | ⟨d, h⟩ | h
  case inr.inr.inr.inr.inr.inr.inl =>
    rw [h.2]; exact .of_only (deviceStore_only d b s) ⟨[_], deviceStore_events d b s⟩
  all_goals rw [h.2]; constructor <;> first | rfl | exact ⟨[], rfl⟩

/-- A byte store changes no byte of memory but the one it stores to. -/
theorem writeByte_byteAt {s t : State} {a : Quad} {b : Byte} (h : writeByte s a b = .next t) {p : Nat}
    (hp : p ≠ phys s.cfg a) : byteAt t p = byteAt s p := by
  rcases writeByte_cases h with h | ⟨_, h⟩ | ⟨_, h⟩ | h | h | ⟨_, h⟩ | ⟨d, h⟩ | h
  case inl => rw [h.2]; exact byteAt_setByteAt_other s b hp
  case inr.inr.inr.inr.inr.inr.inl => rw [h.2, deviceStore_only d b s]; rfl
  all_goals rw [h.2]; try rfl

theorem writeByte_memory_wf {s t : State} {a : Quad} {b : Byte} (h : writeByte s a b = .next t)
    (hw : Memory.wf (blankByte s.cfg) s.mem = true) : Memory.wf (blankByte t.cfg) t.mem = true := by
  rcases writeByte_cases h with h | ⟨_, h⟩ | ⟨_, h⟩ | h | h | ⟨_, h⟩ | ⟨d, h⟩ | h
  case inl => rw [h.2]; exact Memory.update_wf _ _ hw
  case inr.inr.inr.inr.inr.inr.inl => rw [h.2, deviceStore_only d b s]; exact hw
  all_goals rw [h.2]; exact hw

theorem writeByte_ioRegs_wf {s t : State} {a : Quad} {b : Byte} (h : writeByte s a b = .next t)
    (hw : Memory.wf (resetContents s.cfg) s.ioRegs = true) : Memory.wf (resetContents t.cfg) t.ioRegs = true := by
  rcases writeByte_cases h with h | ⟨_, h⟩ | ⟨_, h⟩ | h | h | ⟨_, h⟩ | ⟨d, h⟩ | h
  case inr.inr.inr.inr.inr.inr.inl => rw [h.2]; exact deviceStore_wf d b hw
  all_goals rw [h.2]; exact hw

theorem writeByte_written {s t : State} {a : Quad} {b : Byte} (h : writeByte s a b = .next t)
    (hw : risingFrom 0 s.written = true) : risingFrom 0 t.written = true := by
  rcases writeByte_cases h with h | ⟨_, h⟩ | ⟨_, h⟩ | h | h | ⟨_, h⟩ | ⟨d, h⟩ | h
  case inl => rw [h.2]; exact insertAddress_risingFrom (Nat.zero_le _) hw
  case inr.inr.inr.inr.inr.inr.inl => rw [h.2, deviceStore_only d b s]; exact hw
  all_goals rw [h.2]; exact hw

/-- When a byte store completes. -/
theorem writeByte_next {s : State} {a : Quad} (b : Byte) (h : writableByte s a = true) :
    ∃ t, writeByte s a b = .next t := by
  unfold writableByte at h
  unfold writeByte
  cases hl : locate s.cfg (phys s.cfg a) <;> simp_all

/-- A byte store to RAM. -/
theorem writeByte_ram {s : State} {a : Quad} (b : Byte) (h : ramByte s a = true) :
    writeByte s a b =
      .next { setByteAt s (phys s.cfg a) b with written := insertAddress (phys s.cfg a) s.written } := by
  unfold ramByte at h
  unfold writeByte
  cases hl : locate s.cfg (phys s.cfg a) <;> simp_all

/-- When a byte load completes. -/
theorem readByte_next {s : State} {a : Quad} (h : readableByte s a = true) : ∃ b, readByte s a = .next b := by
  unfold readableByte at h
  unfold readByte
  cases hl : locate s.cfg (phys s.cfg a) <;> simp_all

/-- A byte load from memory. -/
theorem readByte_memory {s : State} {a : Quad} (h : memoryByte s a = true) :
    readByte s a = .next (byteAt s (phys s.cfg a)) := by
  unfold memoryByte at h
  unfold readByte
  cases hl : locate s.cfg (phys s.cfg a) <;> simp_all

theorem ramByte_memory {s : State} {a : Quad} (h : ramByte s a = true) : memoryByte s a = true := by
  unfold ramByte at h
  unfold memoryByte
  cases hl : locate s.cfg (phys s.cfg a) <;> simp_all

theorem ramByte_writable {s : State} {a : Quad} (h : ramByte s a = true) : writableByte s a = true := by
  unfold ramByte at h
  unfold writableByte
  cases hl : locate s.cfg (phys s.cfg a) <;> simp_all

theorem memoryByte_readable {s : State} {a : Quad} (h : memoryByte s a = true) : readableByte s a = true := by
  unfold memoryByte at h
  unfold readableByte
  cases hl : locate s.cfg (phys s.cfg a) <;> simp_all

/-- Whether an access can be made depends on the configuration only. -/
theorem readableByte_congr {s t : State} (h : t.cfg = s.cfg) (a : Quad) : readableByte t a = readableByte s a := by
  unfold readableByte; rw [h]

theorem writableByte_congr {s t : State} (h : t.cfg = s.cfg) (a : Quad) : writableByte t a = writableByte s a := by
  unfold writableByte; rw [h]

theorem ramByte_congr {s t : State} (h : t.cfg = s.cfg) (a : Quad) : ramByte t a = ramByte s a := by
  unfold ramByte; rw [h]

theorem memoryByte_congr {s t : State} (h : t.cfg = s.cfg) (a : Quad) : memoryByte t a = memoryByte s a := by
  unfold memoryByte; rw [h]

/-! ### A datum -/

theorem offsetBy_zero (a : Quad) : offsetBy a 0 = a := by simp [offsetBy]
theorem offsetBy_one (a : Quad) : offsetBy a 1 = a + 1 := rfl
theorem offsetBy_two (a : Quad) : offsetBy a 2 = a + 2 := rfl
theorem offsetBy_three (a : Quad) : offsetBy a 3 = a + 3 := rfl

theorem offsetBy_offsetBy (a : Quad) (j k : Nat) : offsetBy (offsetBy a j) k = offsetBy a (j + k) := by
  simp [offsetBy, BitVec.add_assoc, BitVec.ofNat_add]

/-- The bytes of a datum are written one after another (20_memory.md R71): what holds of s and is kept by a byte store
inside the datum holds after the store. -/
theorem writeMem_induct {sz : Size} {s t : State} {a : Quad} {v : BitVec sz.bits} (P : State → Prop)
    (h : writeMem sz s a v = .next t) (h0 : P s)
    (hstep : ∀ k < sz.bytes, ∀ (b : Byte) (m m' : State), StoreFrame s m → P m →
      writeByte m (offsetBy a k) b = .next m' → P m') : P t := by
  cases sz with
  | byte => exact hstep 0 (by decide) v s t (.refl s) h0 (by rw [offsetBy_zero]; exact h)
  | word =>
    simp only [writeMem, andThen_eq_next] at h
    obtain ⟨m1, h1, h2⟩ := h
    have p1 := hstep 0 (by decide) _ s m1 (.refl s) h0 (by rw [offsetBy_zero]; exact h1)
    exact hstep 1 (by decide) _ m1 t (writeByte_frame h1) p1 h2
  | quad =>
    simp only [writeMem, andThen_eq_next] at h
    obtain ⟨m1, h1, m2, h2, m3, h3, h4⟩ := h
    have f1 := writeByte_frame h1
    have f2 := f1.trans (writeByte_frame h2)
    have f3 := f2.trans (writeByte_frame h3)
    have p1 := hstep 0 (by decide) _ s m1 (.refl s) h0 (by rw [offsetBy_zero]; exact h1)
    have p2 := hstep 1 (by decide) _ m1 m2 f1 p1 h2
    have p3 := hstep 2 (by decide) _ m2 m3 f2 p2 h3
    exact hstep 3 (by decide) _ m3 t f3 p3 h4

theorem writeMem_frame {sz : Size} {s t : State} {a : Quad} {v : BitVec sz.bits} (h : writeMem sz s a v = .next t) :
    StoreFrame s t :=
  writeMem_induct (StoreFrame s) h (.refl s) fun _ _ _ _ _ _ hm hw => hm.trans (writeByte_frame hw)

/-- A store changes no byte of memory but those it stores to. -/
theorem writeMem_byteAt {sz : Size} {s t : State} {a : Quad} {v : BitVec sz.bits} (h : writeMem sz s a v = .next t) :
    SameOutside s t sz.bytes a := by
  intro p hp
  refine writeMem_induct (fun m => byteAt m p = byteAt s p) h rfl fun k hk b m m' hf hm hw => ?_
  rw [writeByte_byteAt hw (by rw [hf.cfg]; exact hp k hk), hm]

theorem writeMem_memory_wf {sz : Size} {s t : State} {a : Quad} {v : BitVec sz.bits} (h : writeMem sz s a v = .next t)
    (hw : Memory.wf (blankByte s.cfg) s.mem = true) : Memory.wf (blankByte t.cfg) t.mem = true :=
  writeMem_induct (fun m => Memory.wf (blankByte m.cfg) m.mem = true) h hw
    fun _ _ _ _ _ _ hm hb => writeByte_memory_wf hb hm

theorem writeMem_written {sz : Size} {s t : State} {a : Quad} {v : BitVec sz.bits} (h : writeMem sz s a v = .next t)
    (hw : risingFrom 0 s.written = true) : risingFrom 0 t.written = true :=
  writeMem_induct (fun m => risingFrom 0 m.written = true) h hw fun _ _ _ _ _ _ hm hb => writeByte_written hb hm

/-- When a store completes. -/
theorem writeMem_next {sz : Size} {s : State} {a : Quad} (v : BitVec sz.bits) (h : Writable sz.bytes s a) :
    ∃ t, writeMem sz s a v = .next t := by
  have hb : ∀ (m : State), StoreFrame s m → ∀ k < sz.bytes, ∀ b, ∃ t, writeByte m (offsetBy a k) b = .next t :=
    fun m hm k hk b => writeByte_next b (by rw [writableByte_congr hm.cfg]; exact h k hk)
  cases sz with
  | byte => exact offsetBy_zero a ▸ hb s (.refl s) 0 (by decide) v
  | word =>
    obtain ⟨m1, h1⟩ := hb s (.refl s) 0 (by decide) (BitVec.extractLsb' 8 8 v)
    rw [offsetBy_zero] at h1
    obtain ⟨m2, h2⟩ := hb m1 (writeByte_frame h1) 1 (by decide) (BitVec.extractLsb' 0 8 v)
    exact ⟨m2, by simp only [writeMem, h1, andThen_next]; exact h2⟩
  | quad =>
    obtain ⟨m1, h1⟩ := hb s (.refl s) 0 (by decide) (BitVec.extractLsb' 24 8 v)
    rw [offsetBy_zero] at h1
    have f1 := writeByte_frame h1
    obtain ⟨m2, h2⟩ := hb m1 f1 1 (by decide) (BitVec.extractLsb' 16 8 v)
    rw [offsetBy_one] at h2
    have f2 := f1.trans (writeByte_frame h2)
    obtain ⟨m3, h3⟩ := hb m2 f2 2 (by decide) (BitVec.extractLsb' 8 8 v)
    rw [offsetBy_two] at h3
    have f3 := f2.trans (writeByte_frame h3)
    obtain ⟨m4, h4⟩ := hb m3 f3 3 (by decide) (BitVec.extractLsb' 0 8 v)
    exact ⟨m4, by simp only [writeMem, h1, h2, h3, andThen_next]; exact h4⟩

/-- When a load completes. -/
theorem readMem_next {sz : Size} {s : State} {a : Quad} (h : Readable sz.bytes s a) :
    ∃ v, readMem sz s a = .next v := by
  have hb : ∀ k < sz.bytes, ∃ b, readByte s (offsetBy a k) = .next b := fun k hk => readByte_next (h k hk)
  cases sz with
  | byte => exact offsetBy_zero a ▸ hb 0 (by decide)
  | word =>
    obtain ⟨b0, h0⟩ := hb 0 (by decide)
    obtain ⟨b1, h1⟩ := hb 1 (by decide)
    rw [offsetBy_zero] at h0
    rw [offsetBy_one] at h1
    exact ⟨b0 ++ b1, by simp only [readMem, h0, h1, andThen_next]⟩
  | quad =>
    obtain ⟨b0, h0⟩ := hb 0 (by decide)
    obtain ⟨b1, h1⟩ := hb 1 (by decide)
    obtain ⟨b2, h2⟩ := hb 2 (by decide)
    obtain ⟨b3, h3⟩ := hb 3 (by decide)
    rw [offsetBy_zero] at h0
    rw [offsetBy_one] at h1
    rw [offsetBy_two] at h2
    rw [offsetBy_three] at h3
    exact ⟨b0 ++ b1 ++ b2 ++ b3, by simp only [readMem, h0, h1, h2, h3, andThen_next]⟩

/-- A load that completes: the datum, and the state after the read. -/
theorem loadMem_next {sz : Size} {s : State} {a : Quad} {v : BitVec sz.bits} (h : readMem sz s a = .next v) :
    loadMem sz a s = .next (v, noteReads sz a s) := by
  rw [loadMem, h, andThen_next]

/-- Everything a load can do when it goes on. -/
theorem loadMem_cases {sz : Size} {s : State} {a : Quad} {r : BitVec sz.bits × State} (h : loadMem sz a s = .next r) :
    readMem sz s a = .next r.1 ∧ r.2 = noteReads sz a s := by
  obtain ⟨v, hv, h⟩ := andThen_eq_next.1 h
  cases h
  exact ⟨hv, rfl⟩

/-- A load from memory does nothing but answer. -/
theorem noteReads_memory {sz : Size} {s : State} {a : Quad} (h : InMemory sz.bytes s a) : noteReads sz a s = s := by
  have hb : ∀ k < sz.bytes, noteRead (offsetBy a k) s = s := fun k hk => noteRead_memory (h k hk)
  cases sz with
  | byte =>
    have h0 := hb 0 (by decide)
    rw [offsetBy_zero] at h0
    exact h0
  | word =>
    have h0 := hb 0 (by decide)
    have h1 := hb 1 (by decide)
    rw [offsetBy_zero] at h0
    rw [offsetBy_one] at h1
    simp only [noteReads, h0, h1]
  | quad =>
    have h0 := hb 0 (by decide)
    have h1 := hb 1 (by decide)
    have h2 := hb 2 (by decide)
    have h3 := hb 3 (by decide)
    rw [offsetBy_zero] at h0
    rw [offsetBy_one] at h1
    rw [offsetBy_two] at h2
    rw [offsetBy_three] at h3
    simp only [noteReads, h0, h1, h2, h3]

theorem loadMem_memory {sz : Size} {s : State} {a : Quad} {v : BitVec sz.bits} (h : InMemory sz.bytes s a)
    (hv : readMem sz s a = .next v) : loadMem sz a s = .next (v, s) := by
  rw [loadMem_next hv, noteReads_memory h]

/-! ### Data in memory -/

/-- Nearby addresses name different bytes. -/
theorem phys_offset_inj {c : Config} {a : Quad} {j k : Nat} (hj : j < 2 ^ 24) (hk : k < 2 ^ 24)
    (h : phys c (offsetBy a j) = phys c (offsetBy a k)) : j = k := by
  unfold phys offsetBy at h
  have ha := a.isLt
  cases hc : c.addrBits <;> simp only [hc, BitVec.toNat_add, BitVec.toNat_ofNat] at h <;> omega

/-- The datum that the bytes of memory from an address make (20_memory.md R69). -/
def dataAt (sz : Size) (s : State) (a : Quad) : BitVec sz.bits :=
  let b := fun k => byteAt s (phys s.cfg (offsetBy a k))
  match sz with
  | .byte => b 0
  | .word => b 0 ++ b 1
  | .quad => b 0 ++ b 1 ++ b 2 ++ b 3

/-- A load from memory. -/
theorem readMem_memory {sz : Size} {s : State} {a : Quad} (h : InMemory sz.bytes s a) :
    readMem sz s a = .next (dataAt sz s a) := by
  have hb : ∀ k < sz.bytes, readByte s (offsetBy a k) = .next (byteAt s (phys s.cfg (offsetBy a k))) :=
    fun k hk => readByte_memory (h k hk)
  cases sz with
  | byte =>
    have h0 := hb 0 (by decide)
    rw [offsetBy_zero] at h0
    simp only [readMem, dataAt, offsetBy_zero, h0]
  | word =>
    have h0 := hb 0 (by decide)
    have h1 := hb 1 (by decide)
    rw [offsetBy_zero] at h0
    rw [offsetBy_one] at h1
    simp only [readMem, dataAt, offsetBy_zero, offsetBy_one, h0, h1, andThen_next]
  | quad =>
    have h0 := hb 0 (by decide)
    have h1 := hb 1 (by decide)
    have h2 := hb 2 (by decide)
    have h3 := hb 3 (by decide)
    rw [offsetBy_zero] at h0
    rw [offsetBy_one] at h1
    rw [offsetBy_two] at h2
    rw [offsetBy_three] at h3
    simp only [readMem, dataAt, offsetBy_zero, offsetBy_one, offsetBy_two, offsetBy_three, h0, h1, h2, h3, andThen_next]

/-- The datum depends on the bytes only. -/
theorem dataAt_congr {sz : Size} {s t : State} {a : Quad} (hc : t.cfg = s.cfg)
    (h : ∀ k < sz.bytes, byteAt t (phys s.cfg (offsetBy a k)) = byteAt s (phys s.cfg (offsetBy a k))) :
    dataAt sz t a = dataAt sz s a := by
  unfold dataAt
  rw [hc]
  cases sz with
  | byte => exact h 0 (by decide)
  | word => simp only [h 0 (by decide), h 1 (by decide)]
  | quad => simp only [h 0 (by decide), h 1 (by decide), h 2 (by decide), h 3 (by decide)]

theorem InRam.memory {n : Nat} {s : State} {a : Quad} (h : InRam n s a) : InMemory n s a :=
  fun k hk => ramByte_memory (h k hk)

theorem InRam.writable {n : Nat} {s : State} {a : Quad} (h : InRam n s a) : Writable n s a :=
  fun k hk => ramByte_writable (h k hk)

theorem InMemory.readable {n : Nat} {s : State} {a : Quad} (h : InMemory n s a) : Readable n s a :=
  fun k hk => memoryByte_readable (h k hk)

/-- A store to RAM changes memory and the record of stored addresses only. -/
structure RamFrame (s t : State) : Prop extends StoreFrame s t where
  told    : t.events = s.events
  ioRegs  : t.ioRegs = s.ioRegs
  flags   : t.flags = s.flags
  pcov    : t.pcov = s.pcov
  spov    : t.spov = s.spov
  dmabw   : t.dmabw = s.dmabw
  sysexcp : t.sysexcp = s.sysexcp

theorem RamFrame.refl (s : State) : RamFrame s s := ⟨.refl s, rfl, rfl, rfl, rfl, rfl, rfl, rfl⟩

theorem RamFrame.trans {s t u : State} (h : RamFrame s t) (h' : RamFrame t u) : RamFrame s u :=
  ⟨h.toStoreFrame.trans h'.toStoreFrame, by rw [h'.told, h.told], by rw [h'.ioRegs, h.ioRegs], by rw [h'.flags, h.flags], by rw [h'.pcov, h.pcov], by rw [h'.spov, h.spov],
    by rw [h'.dmabw, h.dmabw], by rw [h'.sysexcp, h.sysexcp]⟩

theorem writeByte_ramFrame {s t : State} {a : Quad} {b : Byte} (hr : ramByte s a = true)
    (h : writeByte s a b = .next t) : RamFrame s t := by
  rw [writeByte_ram b hr] at h
  cases h
  exact ⟨⟨rfl, rfl, rfl, rfl, rfl, rfl, rfl, rfl, rfl, rfl, rfl, rfl, ⟨[], rfl⟩, rfl⟩, rfl, rfl, rfl, rfl, rfl, rfl,
    rfl⟩

theorem writeMem_ramFrame {sz : Size} {s t : State} {a : Quad} {v : BitVec sz.bits} (hr : InRam sz.bytes s a)
    (h : writeMem sz s a v = .next t) : RamFrame s t :=
  writeMem_induct (RamFrame s) h (.refl s) fun k hk _ _ _ hf hm hw =>
    hm.trans (writeByte_ramFrame (by rw [ramByte_congr hf.cfg]; exact hr k hk) hw)

/-- A byte stored to RAM reads back. -/
theorem writeByte_ram_byteAt {s t : State} {a : Quad} {b : Byte} (hr : ramByte s a = true)
    (hw : Memory.wf (blankByte s.cfg) s.mem = true) (h : writeByte s a b = .next t) :
    byteAt t (phys s.cfg a) = b := by
  rw [writeByte_ram b hr] at h
  cases h
  exact byteAt_setByteAt_same s _ b hw

/-- The bytes after a store to RAM. -/
theorem writeMem_ram_bytes {sz : Size} {s t : State} {a : Quad} {v : BitVec sz.bits} (hr : InRam sz.bytes s a)
    (hw : Memory.wf (blankByte s.cfg) s.mem = true) (h : writeMem sz s a v = .next t) :
    ∀ k < sz.bytes, byteAt t (phys s.cfg (offsetBy a k)) = v.extractLsb' (8 * (sz.bytes - 1 - k)) 8 := by
  have ne : ∀ {j k : Nat}, j < 4 → k < 4 → j ≠ k → phys s.cfg (offsetBy a j) ≠ phys s.cfg (offsetBy a k) :=
    fun hj hk hne he => hne (phys_offset_inj (by omega) (by omega) he)
  have ram : ∀ {m : State}, StoreFrame s m → ∀ {k : Nat}, k < sz.bytes → ramByte m (offsetBy a k) = true :=
    fun hm _ hk => by rw [ramByte_congr hm.cfg]; exact hr _ hk
  have other : ∀ {m m' : State} {j : Nat} {b : Byte}, StoreFrame s m → writeByte m (offsetBy a j) b = .next m' →
      j < 4 → ∀ k < 4, k ≠ j → byteAt m' (phys s.cfg (offsetBy a k)) = byteAt m (phys s.cfg (offsetBy a k)) :=
    fun hm h hj k hk hne => writeByte_byteAt h (by rw [hm.cfg]; exact ne hk hj hne)
  have same : ∀ {m m' : State} {j : Nat} {b : Byte}, StoreFrame s m → Memory.wf (blankByte m.cfg) m.mem = true →
      writeByte m (offsetBy a j) b = .next m' → j < sz.bytes → byteAt m' (phys s.cfg (offsetBy a j)) = b :=
    fun hm hw h hj => by rw [← hm.cfg]; exact writeByte_ram_byteAt (ram hm hj) hw h
  cases sz with
  | byte =>
    intro k hk
    obtain rfl : k = 0 := by simp only [Size.bytes] at hk; omega
    rw [same (b := v) (.refl s) hw (by rw [offsetBy_zero]; exact h) (by decide)]
    simp
  | word =>
    simp only [writeMem, andThen_eq_next] at h
    obtain ⟨m1, h1, h2⟩ := h
    have h1' := h1
    rw [← offsetBy_zero a] at h1'
    have f1 := writeByte_frame h1
    have w1 := writeByte_memory_wf h1 hw
    intro k hk
    match k, hk with
    | 0, _ => rw [other f1 h2 (by decide) 0 (by decide) (by decide), same (.refl s) hw h1' (by decide)]; rfl
    | 1, _ => exact same f1 w1 h2 (by decide)
  | quad =>
    simp only [writeMem, andThen_eq_next] at h
    obtain ⟨m1, h1, m2, h2, m3, h3, h4⟩ := h
    have h1' := h1
    rw [← offsetBy_zero a] at h1'
    have f1 := writeByte_frame h1
    have f2 := f1.trans (writeByte_frame h2)
    have f3 := f2.trans (writeByte_frame h3)
    have w1 := writeByte_memory_wf h1 hw
    have w2 := writeByte_memory_wf h2 w1
    have w3 := writeByte_memory_wf h3 w2
    intro k hk
    match k, hk with
    | 0, _ =>
      rw [other f3 h4 (by decide) 0 (by decide) (by decide), other f2 h3 (by decide) 0 (by decide) (by decide),
        other f1 h2 (by decide) 0 (by decide) (by decide), same (.refl s) hw h1' (by decide)]; rfl
    | 1, _ =>
      rw [other f3 h4 (by decide) 1 (by decide) (by decide), other f2 h3 (by decide) 1 (by decide) (by decide),
        same f1 w1 h2 (by decide)]; rfl
    | 2, _ => rw [other f3 h4 (by decide) 2 (by decide) (by decide), same f2 w2 h3 (by decide)]; rfl
    | 3, _ => exact same f3 w3 h4 (by decide)

/-- The bytes of a word make the word. -/
theorem joinBytes_word (v : Word) : v.extractLsb' 8 8 ++ v.extractLsb' 0 8 = v := by
  apply BitVec.eq_of_getLsbD_eq
  intro i hi
  simp only [BitVec.getLsbD_append, BitVec.getLsbD_extractLsb']
  by_cases h : i < 8
  · simp [h]
  · simp only [h, decide_false, if_false, show i - 8 < 8 by omega, decide_true, Bool.true_and]
    congr 1; omega

/-- The bytes of a quad make the quad. -/
theorem joinBytes_quad (v : Quad) :
    v.extractLsb' 24 8 ++ v.extractLsb' 16 8 ++ v.extractLsb' 8 8 ++ v.extractLsb' 0 8 = v := by
  apply BitVec.eq_of_getLsbD_eq
  intro i hi
  simp only [BitVec.getLsbD_append, BitVec.getLsbD_extractLsb']
  by_cases h : i < 8
  · simp [h]
  · by_cases h' : i - 8 < 8
    · simp only [h, h', decide_false, if_false, decide_true, Bool.true_and, if_true]
      congr 1; omega
    · by_cases h'' : i - 8 - 8 < 8
      · simp only [h, h', h'', decide_false, if_false, decide_true, Bool.true_and, if_true]
        congr 1; omega
      · simp only [h, h', h'', decide_false, if_false, show i - 8 - 8 - 8 < 8 by omega, decide_true,
          Bool.true_and]
        congr 1; omega

/-- A datum stored to RAM reads back. -/
theorem writeMem_ram_dataAt {sz : Size} {s t : State} {a : Quad} {v : BitVec sz.bits} (hr : InRam sz.bytes s a)
    (hw : Memory.wf (blankByte s.cfg) s.mem = true) (h : writeMem sz s a v = .next t) : dataAt sz t a = v := by
  have hb := writeMem_ram_bytes hr hw h
  have hc := (writeMem_frame h).cfg
  unfold dataAt
  rw [hc]
  cases sz with
  | byte => simpa using hb 0 (by decide)
  | word =>
    simp only [hb 0 (by decide), hb 1 (by decide)]
    exact joinBytes_word v
  | quad =>
    simp only [hb 0 (by decide), hb 1 (by decide), hb 2 (by decide), hb 3 (by decide)]
    exact joinBytes_quad v

end Sys2Proof.Machine
end

