-- ==== Sys2Proof/Laws/Operations.lean ====
section
/-! SUPPORT. What the shared operations do, said once: register writes and the Stack Overflow test, the ends of the
register, flag and store instructions, pushes and pops, the frame of an entry, and jumps through a vector. -/

namespace Sys2Proof.Machine

/-! ### What is unchanged -/

theorem byteAt_congr {s t : State} (hm : t.mem = s.mem) (hc : t.cfg = s.cfg) (p : Nat) : byteAt t p = byteAt s p := by
  unfold byteAt; rw [hm, hc]

theorem SameMemory.of_eq {s t : State} (hm : t.mem = s.mem) (hw : t.written = s.written) (hc : t.cfg = s.cfg) :
    SameMemory s t := ⟨hm, hw, byteAt_congr hm hc⟩

theorem offsetBy_eq_nextPc (len : Nat) (s : State) : nextPc len s = offsetBy s.pc len := rfl

theorem sp_eq (s : State) : sp s = readReg s 15 := rfl

/-- A byte load depends on memory, the control registers, the peripherals and the draw only. -/
theorem readByte_congr {s t : State} (hc : t.cfg = s.cfg) (hm : t.mem = s.mem) (h1 : t.pcov = s.pcov)
    (h2 : t.spov = s.spov) (h3 : t.flags = s.flags) (h4 : t.dmabw = s.dmabw) (h5 : t.sysexcp = s.sysexcp)
    (h6 : t.freeCtr = s.freeCtr) (h7 : t.ioRegs = s.ioRegs) (a : Quad) : readByte t a = readByte s a := by
  unfold readByte byteAt deviceByte contentsAt
  rw [hc, hm, h1, h2, h3, h4, h5, h6, h7]

/-! ### Raising and the Stack Overflow test (60_exceptions.md R420, R424) -/

theorem NoException.refl (s : State) : NoException s s := ⟨rfl, rfl⟩

theorem raise_raised (e : SysExc) (s : State) : Raised e s (raise e s) := by
  unfold Raised
  rcases raise_cases e s with ⟨hb, h⟩ | ⟨hb, h⟩
  · rw [hb, h]; exact NoException.refl s
  · rw [hb, h]
    simp only [Bool.false_eq_true, if_false, sysexcpBit_with, if_true, true_and]
    exact fun x hx => if_neg hx

/-- Raising looks at SYSEXCP and the pending exception only. -/
theorem Raised.congr {e : SysExc} {s t s' t' : State} (h : Raised e s t) (h1 : s'.sysexcp = s.sysexcp)
    (h2 : s'.pendingExc = s.pendingExc) (h3 : t'.sysexcp = t.sysexcp) (h4 : t'.pendingExc = t.pendingExc) :
    Raised e s' t' := by
  unfold Raised NoException at *
  rw [h1, h2, h3, h4]; exact h

theorem StackChecked.congr {s t s' t' : State} {P : Prop} (h : StackChecked s t P) (h1 : s'.sysexcp = s.sysexcp)
    (h2 : s'.pendingExc = s.pendingExc) (h3 : t'.sysexcp = t.sysexcp) (h4 : t'.pendingExc = t.pendingExc) :
    StackChecked s' t' P := by
  refine ⟨fun hp => (h.1 hp).congr h1 h2 h3 h4, fun hp => ?_⟩
  have := h.2 hp
  exact ⟨by rw [h3, h1, this.1], by rw [h4, h2, this.2]⟩

theorem StackChecked.iff {s t : State} {P Q : Prop} (h : StackChecked s t P) (hpq : P ↔ Q) : StackChecked s t Q :=
  ⟨fun hq => h.1 (hpq.2 hq), fun hq => h.2 fun hp => hq (hpq.1 hp)⟩

theorem StackChecked.refl (s : State) {P : Prop} (h : ¬ P) : StackChecked s s P :=
  ⟨fun hp => absurd hp h, fun _ => .refl s⟩

theorem Raised.bit {e : SysExc} {s t : State} (h : Raised e s t) : sysexcpBit t.sysexcp e = true := by
  unfold Raised at h
  split at h
  · next hb => rw [h.1]; exact hb
  · exact h.2.1

theorem Raised.noException_of_bit {e : SysExc} {s t : State} (h : Raised e s t) (hb : sysexcpBit s.sysexcp e = true) :
    NoException s t := by
  unfold Raised at h
  rwa [if_pos hb] at h

/-- Two tests one after the other raise at most once. -/
theorem StackChecked.comp {s t u : State} {P Q : Prop} (h1 : StackChecked s t P) (h2 : StackChecked t u Q) :
    StackChecked s u (P ∨ Q) := by
  by_cases hp : P
  · have hr := h1.1 hp
    have hn : NoException t u := by
      by_cases hq : Q
      · exact (h2.1 hq).noException_of_bit hr.bit
      · exact h2.2 hq
    exact ⟨fun _ => hr.congr rfl rfl hn.1 hn.2, fun h => absurd (Or.inl hp) h⟩
  · have hn := h1.2 hp
    have h2' := h2.congr (s' := s) (t' := u) hn.1.symm hn.2.symm rfl rfl
    exact ⟨fun h => h2'.1 (h.resolve_left hp), fun h => h2'.2 fun hq => h (.inr hq)⟩

theorem writeReg_stackChecked (s : State) (d : Reg) (v : Quad) :
    StackChecked s (writeReg s d v) (BelowLimit s d v) := by
  rcases writeReg_cases s d v with ⟨h1, h2, h⟩ | ⟨h1, h⟩
  · refine ⟨fun _ => ?_, fun hn => absurd ⟨h1, h2⟩ hn⟩
    rw [h]
    exact (raise_raised .stackOverflow (setReg s d v)).congr rfl rfl rfl rfl
  · refine ⟨fun hp => absurd hp h1, fun _ => ?_⟩
    rw [h]; exact ⟨rfl, rfl⟩

theorem writeReg_sameRest (s : State) (d : Reg) (v : Quad) : SameRest s (writeReg s d v) :=
  ⟨.of_eq (by simp) (by simp) (by simp), by simp [SameControl], by simp [SameModifiers], by simp [SameEnvironment]⟩

theorem advance_raise (len : Nat) (e : SysExc) (s : State) : advance len (raise e s) = raise e (advance len s) := by
  unfold raise
  rw [apply_ite (advance len)]
  rfl

/-- Register writes and the advance of pc commute. -/
theorem advance_writeReg (len : Nat) (s : State) (d : Reg) (v : Quad) :
    advance len (writeReg s d v) = writeReg (advance len s) d v := by
  unfold writeReg
  rw [apply_ite (advance len), advance_raise]
  rfl

/-- When a result may be stored at ea, also after the operand there is read. -/
theorem writesFlagsTwice_noteReads {s : State} {sz : Size} {a ea : Quad} (h : NotFlagsTwice s ea) :
    writesFlagsTwice (noteReads sz a s) ea = false := by
  unfold NotFlagsTwice at h
  unfold writesFlagsTwice flagsAddress
  simp only [noteReads_cfg, noteReads_noflagsPending]
  by_cases hp : phys s.cfg ea = ioBase s.cfg + 0x10
  · simp [h hp]
  · simp [hp]

/-! ### The ends of the instructions -/

/-- A register result, the flags and pc (40_arithmetic.md R150). -/
theorem wroteRegister (s : State) (d : Reg) (v : Quad) (u : FlagUpdate) (len : Nat) :
    WroteRegister s (advance len (setFlags u (writeReg s d v))) d v u len := by
  refine ⟨by simp, fun r hr => ?_, ?_, ?_, ?_, ?_⟩
  · simp only [List.mem_singleton] at hr
    simp [hr]
  · exact (writeReg_stackChecked s d v).congr rfl rfl (by simp) (by simp)
  · have := setFlags_flagsSet u (writeReg s d v)
    simpa using this
  · simp [nextPc, offsetBy]
  · exact ⟨.of_eq (by simp) (by simp) (by simp), by simp [SameControl], by simp [SameModifiers],
      by simp [SameEnvironment]⟩

/-- A register result and pc. -/
theorem wroteRegister_plain (s : State) (d : Reg) (v : Quad) (len : Nat) :
    WroteRegister s (advance len (writeReg s d v)) d v {} len := by
  have h := wroteRegister s d v {} len
  rwa [setFlags_none] at h

/-- The flags and pc only. -/
theorem setFlagsOnly (s : State) (u : FlagUpdate) (len : Nat) : SetFlagsOnly s (advance len (setFlags u s)) u len := by
  refine ⟨fun r _ => by simp, ⟨by simp, by simp⟩, ?_, ?_, ?_⟩
  · exact setFlags_flagsSet u s
  · simp [nextPc, offsetBy]
  · exact ⟨.of_eq (by simp) (by simp) (by simp), by simp [SameControl], by simp [SameModifiers],
      by simp [SameEnvironment]⟩

/-- A store, the flags and pc. -/
theorem stored {sz : Size} {s m : State} {ea : Quad} {v : BitVec sz.bits} (u : FlagUpdate) (len : Nat)
    (h : writeMem sz s ea v = .next m) : Stored sz s (advance len (setFlags u m)) ea v u len := by
  have hf := writeMem_frame h
  refine ⟨m, h, by simp, by simp, fun p hp => ?_, by simp [SameControl], ⟨by simp, by simp⟩, ?_, fun r _ => ?_, ?_, ?_,
    ?_, ?_⟩
  · rw [byteAt_congr (by simp) (by simp : _ = m.cfg), writeMem_byteAt h p hp]
  · have := setFlags_flagsSet u m
    rw [hf.noflagsPending] at this
    exact this
  · simp [readReg_congr hf.regs]
  · simp [nextPc, hf.pc, offsetBy]
  · simp [SameModifiers, hf.extendPending, hf.noflagsPending, hf.atmCount]
  · simp [SameEnvironment]
  · simp [SameButPeripherals, hf.runState, hf.wdtEnabled, hf.irq, hf.cfg, hf.env, hf.freeCtr, hf.heldExc]

/-- A store and pc. -/
theorem stored_plain {sz : Size} {s m : State} {ea : Quad} {v : BitVec sz.bits} (len : Nat)
    (h : writeMem sz s ea v = .next m) : Stored sz s (advance len m) ea v {} len := by
  have hf := writeMem_frame h
  refine ⟨m, h, rfl, rfl, fun p hp => ?_, ⟨rfl, rfl, rfl⟩, ⟨rfl, rfl⟩, ?_, fun r _ => ?_, ?_, ?_, ?_, ?_⟩
  · rw [byteAt_congr (by simp) (by simp : _ = m.cfg), writeMem_byteAt h p hp]
  · simp [FlagsSet]
  · simp [readReg_congr hf.regs]
  · simp [nextPc, hf.pc, offsetBy]
  · simp [SameModifiers, hf.extendPending, hf.noflagsPending, hf.atmCount]
  · simp [SameEnvironment]
  · simp [SameButPeripherals, hf.runState, hf.wdtEnabled, hf.irq, hf.cfg, hf.env, hf.freeCtr, hf.heldExc]

/-- A write of one half of a pair and then of the other: the registers but these two, and the Stack Overflow rule. -/
theorem writePair_regs (s : State) (d r : Reg) (vd vr : Quad) :
    (d ≠ r → readReg (writePair d r vd vr s) d = vd ∧ readReg (writePair d r vd vr s) r = vr) ∧
      SameRegs s (writePair d r vd vr s) [d, r] := by
  unfold writePair
  refine ⟨fun hne => by simp [hne], fun x hx => ?_⟩
  simp only [List.mem_cons, List.not_mem_nil, or_false, not_or] at hx
  dsimp only
  split <;> simp [hx.1, hx.2]

/-- But for the register file, the pair write is the two writes. -/
theorem writePair_only (s : State) (d r : Reg) (vd vr : Quad) :
    writePair d r vd vr s =
      { writeReg (writeReg s d vd) r vr with regs := (writePair d r vd vr s).regs } := by
  unfold writePair
  dsimp only
  split <;> rfl

/-- Two register results, the flags and pc. -/
theorem wrotePair (s : State) (d r : Reg) (vd vr : Quad) (u : FlagUpdate) (len : Nat) :
    WrotePair s (advance len (setFlags u (writePair d r vd vr s))) d r vd vr u len := by
  have e := writePair_only s d r vd vr
  have hr := writePair_regs s d r vd vr
  refine ⟨fun hne => by simpa using hr.1 hne, fun x hx => by simpa using hr.2 x hx, ?_, ?_, ?_, ?_⟩
  · have h := (writeReg_stackChecked s d vd).comp (writeReg_stackChecked (writeReg s d vd) r vr)
    have hb : BelowLimit (writeReg s d vd) r vr = BelowLimit s r vr := by simp [BelowLimit]
    rw [hb] at h
    exact h.congr rfl rfl (by rw [e]; simp) (by rw [e]; simp)
  · have := setFlags_flagsSet u (writePair d r vd vr s)
    rw [e] at this ⊢
    simpa using this
  · rw [e]; simp [nextPc, offsetBy]
  · rw [e]
    exact ⟨.of_eq (by simp) (by simp) (by simp), by simp [SameControl], by simp [SameModifiers],
      by simp [SameEnvironment]⟩

end Sys2Proof.Machine
end

