-- ==== Sys2Proof/Laws/BinaryOps.lean ====
section
/-! SUPPORT. The two-operand operations: each agrees with its integer arithmetic in Safety.lean, and what the skeletons of
spec/40_arithmetic.md R150 do with one. -/

namespace Sys2Proof.Machine

/-- The machine's operation of each mnemonic. -/
def BinOp.machine (o : BinOp) {w : Nat} : Byte → BitVec w → BitVec w → BitVec w × FlagUpdate :=
  match o with
  | .add => opAdd
  | .adc => opAdc
  | .sub => opSub
  | .sbc => opSbc
  | .and => opAnd
  | .or => opOr
  | .xor => opXor
  | .cp => opSub
  | .cpc => opSbc
  | .tm => opAnd
  | .tcm => opTcm

theorem beq_zero_eq {w : Nat} (a : BitVec w) : (a == 0#w) = decide (a = 0#w) := rfl

theorem blankOf_eq {w : Nat} (a b : BitVec w) : blankOf a b = decide (a = 0#w ∨ b = 0#w) := by
  simp [blankOf, beq_zero_eq]

theorem toNat_flag (x : Bool) : x.toNat = if x then 1 else 0 := by cases x <;> rfl

/-- Each operation is its integer arithmetic (10_state.md R31, R32, 00_scope.md R16). -/
theorem BinOp.machine_eq (o : BinOp) {w : Nat} (hw : 0 < w) (f : Byte) (a b : BitVec w) :
    o.machine f a b = (o.result (o.carryIn f) a b, o.flags f a b) := by
  have hadd : ∀ c : Bool, (aluAdd a b c).c = decide (2 ^ w ≤ a.toNat + b.toNat + c.toNat) := fun _ => rfl
  have haz : ∀ c : Bool, (aluAdd a b c).z = decide ((aluAdd a b c).result = 0#w) := fun _ => rfl
  have has : ∀ c : Bool, (aluAdd a b c).s = (aluAdd a b c).result.msb := fun _ => rfl
  have hsz : ∀ c : Bool, (aluSub a b c).z = decide ((aluSub a b c).result = 0#w) := fun _ => rfl
  have hss : ∀ c : Bool, (aluSub a b c).s = (aluSub a b c).result.msb := fun _ => rfl
  cases o <;>
    simp only [BinOp.machine, opAdd, opAdc, opSub, opSbc, opAnd, opOr, opXor, opTcm, arithFlags, stickyFlags,
      logicFlags, blankOf_eq, hadd, haz, has, hsz, hss, aluAdd_result, aluSub_result, aluAdd_v hw, aluSub_v hw, aluSub_c,
      BinOp.flags, BinOp.result, BinOp.carry, BinOp.overflow, BinOp.zero, BinOp.carryIn, toNat_flag,
      beq_zero_eq, Bool.false_eq_true, if_false, Nat.cast_zero] <;> rfl

/-- The skeleton with a register destination. -/
theorem bopWrite_register (o : BinOp) (s : State) (d : Reg) (a b : Quad) (len : Nat) (hw : o.writes = true) :
    RegisterOutcome o s d a b len (bopWrite .quad o.machine len (.next (⟨a, b, .reg d⟩, s))) := by
  refine ⟨_, rfl, ?_⟩
  rw [if_pos hw]
  have h := BinOp.machine_eq o (w := 32) (by decide) s.flags a b
  simp only [Size.bits, h, BitVec.setWidth_eq]
  exact wroteRegister s d _ _ len

/-- The skeleton of a test. -/
theorem bopTest_register (o : BinOp) (s : State) (d : Reg) (a b : Quad) (dest : Dest) (len : Nat)
    (hw : o.writes = false) : RegisterOutcome o s d a b len (bopTest o.machine len (.next (⟨a, b, dest⟩, s))) := by
  refine ⟨_, rfl, ?_⟩
  rw [hw, if_neg (by decide)]
  have h := BinOp.machine_eq o (w := 32) (by decide) s.flags a b
  simp only [h]
  exact setFlagsOnly s _ len

/-- The skeleton with a memory destination. -/
theorem bopWrite_memory (o : BinOp) {sz : Size} {s : State} {ea : Quad} {b : BitVec sz.bits} {len : Nat}
    (hw : o.writes = true) (h : MemoryReady o sz.bytes s ea) :
    MemoryOutcome o sz s ea b len (bopWrite sz o.machine len (memOperands sz ea b s)) := by
  obtain ⟨a, ha⟩ := readMem_next h.1
  obtain ⟨hwr, hfl⟩ := h.2 hw
  have hop := BinOp.machine_eq o (w := sz.bits) (by cases sz <;> decide) s.flags a b
  have hwr' : Writable sz.bytes (noteReads sz ea s) ea :=
    fun k hk => by rw [writableByte_congr (noteReads_cfg s sz ea)]; exact hwr k hk
  have hfl' : writesFlagsTwice (noteReads sz ea s) ea = false := writesFlagsTwice_noteReads hfl
  obtain ⟨m, hm⟩ := writeMem_next (sz := sz) (o.result (o.carryIn s.flags) a b) hwr'
  refine ⟨a, advance len (setFlags (o.flags s.flags a b) m), ha, ?_, ?_⟩
  · simp only [bopWrite, memOperands, loadMem_next ha, andThen_next, writeBack, storeResult, hfl', Bool.false_eq_true,
      if_false, noteReads_flags, hop, hm]
  · rw [if_pos hw]
    exact stored _ len hm

/-- The skeleton of a test of memory. -/
theorem bopTest_memory (o : BinOp) {sz : Size} {s : State} {ea : Quad} {b : BitVec sz.bits} {len : Nat}
    (hw : o.writes = false) (h : Readable sz.bytes s ea) :
    MemoryOutcome o sz s ea b len (bopTest o.machine len (memOperands sz ea b s)) := by
  obtain ⟨a, ha⟩ := readMem_next h
  have hop := BinOp.machine_eq o (w := sz.bits) (by cases sz <;> decide) s.flags a b
  refine ⟨a, advance len (setFlags (o.flags s.flags a b) (noteReads sz ea s)), ha, ?_, ?_⟩
  · simp only [bopTest, memOperands, loadMem_next ha, andThen_next, noteReads_flags, hop]
  · rw [hw, if_neg (by decide)]
    exact setFlagsOnly (noteReads sz ea s) _ len

/-- What a two-operand instruction is: the skeleton its operation needs. -/
def BinOp.skeleton (o : BinOp) (sz : Size) (len : Nat) (operands : Res (Operands sz.bits × State)) : Res State :=
  if o.writes then bopWrite sz o.machine len operands else bopTest o.machine len operands

theorem BinOp.skeleton_register (o : BinOp) (s : State) (d : Reg) (a b : Quad) (len : Nat) :
    RegisterOutcome o s d a b len (o.skeleton .quad len (.next (⟨a, b, .reg d⟩, s))) := by
  unfold BinOp.skeleton
  cases h : o.writes
  · exact bopTest_register o s d a b _ len h
  · exact bopWrite_register o s d a b len h

theorem BinOp.skeleton_memory (o : BinOp) {sz : Size} {s : State} {ea : Quad} {b : BitVec sz.bits} {len : Nat}
    (h : MemoryReady o sz.bytes s ea) :
    MemoryOutcome o sz s ea b len (o.skeleton sz len (memOperands sz ea b s)) := by
  unfold BinOp.skeleton
  cases hw : o.writes
  · exact bopTest_memory o hw h.1
  · exact bopWrite_memory o hw h

/-- Every two-operand instruction is its skeleton. -/
theorem exec_quad (o : BinOp) (f : BopQuad) (s : State) :
    exec (o.quad f) s = o.skeleton .quad (o.quad f).len (bopQuadOperands f s) := by cases o <;> rfl

theorem exec_ub (o : BinOp) (d : Reg) (m : BopSource) (s : State) :
    exec (o.ub d m) s = o.skeleton .quad (o.ub d m).len (bopSourceOperands .byte .unsigned d m s) := by
  cases o <;> rfl

theorem exec_sb (o : BinOp) (d : Reg) (m : BopSource) (s : State) :
    exec (o.sb d m) s = o.skeleton .quad (o.sb d m).len (bopSourceOperands .byte .signed d m s) := by
  cases o <;> rfl

theorem exec_uw (o : BinOp) (d : Reg) (m : BopSource) (s : State) :
    exec (o.uw d m) s = o.skeleton .quad (o.uw d m).len (bopSourceOperands .word .unsigned d m s) := by
  cases o <;> rfl

theorem exec_sw (o : BinOp) (d : Reg) (m : BopSource) (s : State) :
    exec (o.sw d m) s = o.skeleton .quad (o.sw d m).len (bopSourceOperands .word .signed d m s) := by
  cases o <;> rfl

theorem exec_byte (o : BinOp) (f : BopDest 8) (s : State) :
    exec (o.byte f) s = o.skeleton .byte (o.byte f).len (bopDestOperands .byte f s) := by cases o <;> rfl

theorem exec_word (o : BinOp) (f : BopDest 16) (s : State) :
    exec (o.word f) s = o.skeleton .word (o.word f).len (bopDestOperands .word f s) := by cases o <;> rfl

/-! ### Lengths -/

theorem len_ub (o : BinOp) (d : Reg) (m : BopSource) : (o.ub d m).len = sourceLen m := by cases o <;> cases m <;> rfl
theorem len_sb (o : BinOp) (d : Reg) (m : BopSource) : (o.sb d m).len = sourceLen m := by cases o <;> cases m <;> rfl
theorem len_uw (o : BinOp) (d : Reg) (m : BopSource) : (o.uw d m).len = sourceLen m := by cases o <;> cases m <;> rfl
theorem len_sw (o : BinOp) (d : Reg) (m : BopSource) : (o.sw d m).len = sourceLen m := by cases o <;> cases m <;> rfl
theorem len_byte (o : BinOp) (f : BopDest 8) : (o.byte f).len = destLen f := by cases o <;> cases f <;> rfl
theorem len_word (o : BinOp) (f : BopDest 16) : (o.word f).len = destLen f := by cases o <;> cases f <;> rfl

end Sys2Proof.Machine
end

