-- ==== Sys2Proof/Laws/Encoding.lean ====
section
/-! SUPPORT. The fields of an encoded word, and the word-0 patterns of spec/30_encoding.md R101 and R115 as ranges. -/

namespace Sys2Proof

/-! ### Fields of encoded words -/

@[simp] theorem nib3_wordOf (a b c d : BitVec 4) : nib3 (wordOf a b c d) = a := by
  apply BitVec.eq_of_getLsbD_eq; intro i hi
  simp only [nib3, wordOf, BitVec.getLsbD_extractLsb', BitVec.getLsbD_append, hi, decide_true, Bool.true_and]
  simp [show ¬ (12 + i < 4) by omega, show ¬ (12 + i - 4 < 4) by omega, show ¬ (12 + i - 4 - 4 < 4) by omega,
    show 12 + i - 4 - 4 - 4 = i by omega]

@[simp] theorem nib2_wordOf (a b c d : BitVec 4) : nib2 (wordOf a b c d) = b := by
  apply BitVec.eq_of_getLsbD_eq; intro i hi
  simp only [nib2, wordOf, BitVec.getLsbD_extractLsb', BitVec.getLsbD_append, hi, decide_true, Bool.true_and]
  simp [show ¬ (8 + i < 4) by omega, show ¬ (8 + i - 4 < 4) by omega,
    show 8 + i - 4 - 4 = i by omega, hi]

@[simp] theorem nib1_wordOf (a b c d : BitVec 4) : nib1 (wordOf a b c d) = c := by
  apply BitVec.eq_of_getLsbD_eq; intro i hi
  simp only [nib1, wordOf, BitVec.getLsbD_extractLsb', BitVec.getLsbD_append, hi, decide_true, Bool.true_and]
  simp [show ¬ (4 + i < 4) by omega, show 4 + i - 4 = i by omega, hi]

@[simp] theorem nib0_wordOf (a b c d : BitVec 4) : nib0 (wordOf a b c d) = d := by
  apply BitVec.eq_of_getLsbD_eq; intro i hi
  simp only [nib0, wordOf, BitVec.getLsbD_extractLsb', BitVec.getLsbD_append, hi, decide_true, Bool.true_and]
  simp [hi]

/-- A word given by its first two nibbles and its low byte, as four nibbles. -/
theorem wordOfByte_eq (a b : BitVec 4) (i : Byte) :
    wordOfByte a b i = wordOf a b (i.extractLsb' 4 4) (i.extractLsb' 0 4) := by
  apply BitVec.eq_of_getLsbD_eq; intro j hj
  simp only [wordOfByte, wordOf, BitVec.getLsbD_append, BitVec.getLsbD_extractLsb']
  by_cases h : j < 4
  · simp [h, show j < 8 by omega]
  · by_cases h' : j < 8
    · simp [h, h', show j - 4 < 4 by omega, show 4 + (j - 4) = j by omega]
    · by_cases h'' : j < 12
      · simp [h, h', show ¬ (j - 4 < 4) by omega, show j - 8 < 4 by omega,
          show j - 4 - 4 = j - 8 by omega]
      · simp [h, h', show ¬ (j - 4 < 4) by omega, show ¬ (j - 4 - 4 < 4) by omega, show ¬ (j - 8 < 4) by omega,
          show j - 4 - 4 - 4 = j - 8 - 4 by omega]

@[simp] theorem lowByte_wordOfByte (a b : BitVec 4) (i : Byte) : lowByte (wordOfByte a b i) = i := by
  apply BitVec.eq_of_getLsbD_eq; intro j hj
  simp only [lowByte, wordOfByte, BitVec.getLsbD_extractLsb', BitVec.getLsbD_append, hj, decide_true, Bool.true_and]
  simp [hj]

/-- The two words of a 32-bit value make it. -/
@[simp] theorem quadOf_quadWords (q : Quad) : quadOf (q.extractLsb' 16 16) (q.extractLsb' 0 16) = q := by
  apply BitVec.eq_of_getLsbD_eq; intro j hj
  simp only [quadOf, BitVec.getLsbD_append, BitVec.getLsbD_extractLsb']
  by_cases h : j < 16
  · simp [h]
  · simp [h, show j - 16 < 16 by omega, show 16 + (j - 16) = j by omega]

/-- A word is its two bytes. -/
@[simp] theorem wordOfBytes_bytes (w : Word) : wordOfBytes (w.extractLsb' 8 8) (w.extractLsb' 0 8) = w := by
  apply BitVec.eq_of_getLsbD_eq; intro j hj
  simp only [wordOfBytes, BitVec.getLsbD_append, BitVec.getLsbD_extractLsb']
  by_cases h : j < 8
  · simp [h]
  · simp [h, show j - 8 < 8 by omega, show 8 + (j - 8) = j by omega]

/-! ### Nibbles as numbers -/

theorem nib3_toNat (w : Word) : (nib3 w).toNat = w.toNat / 4096 := by
  have := w.isLt
  simp only [nib3, BitVec.extractLsb'_toNat, Nat.shiftRight_eq_div_pow]
  omega

theorem nib2_toNat (w : Word) : (nib2 w).toNat = w.toNat / 256 % 16 := by
  simp only [nib2, BitVec.extractLsb'_toNat, Nat.shiftRight_eq_div_pow]

theorem nib1_toNat (w : Word) : (nib1 w).toNat = w.toNat / 16 % 16 := by
  simp only [nib1, BitVec.extractLsb'_toNat, Nat.shiftRight_eq_div_pow]

theorem nib0_toNat (w : Word) : (nib0 w).toNat = w.toNat % 16 := by
  simp only [nib0, BitVec.extractLsb'_toNat, Nat.shiftRight_eq_div_pow]; omega

theorem wordOf_toNat (a b c d : BitVec 4) :
    (wordOf a b c d).toNat = a.toNat * 4096 + b.toNat * 256 + c.toNat * 16 + d.toNat := by
  have h3 := nib3_toNat (wordOf a b c d)
  have h2 := nib2_toNat (wordOf a b c d)
  have h1 := nib1_toNat (wordOf a b c d)
  have h0 := nib0_toNat (wordOf a b c d)
  simp only [nib3_wordOf, nib2_wordOf, nib1_wordOf, nib0_wordOf] at h3 h2 h1 h0
  omega

/-! ### Patterns on word 0 -/

/-- A pattern that fixes all bits from k up is a range. -/
theorem matchesPattern_eq (w : Word) (m k : Nat) (hk : k ≤ 16) (hm : m % 2 ^ k = 0) :
    matchesPattern w m (2 ^ 16 - 2 ^ k) = decide (m ≤ w.toNat ∧ w.toNat < m + 2 ^ k) := by
  have hland : w.toNat &&& (2 ^ 16 - 2 ^ k) = w.toNat / 2 ^ k * 2 ^ k := by
    apply Nat.eq_of_testBit_eq
    intro i
    have hw : w.toNat < 2 ^ 16 := w.isLt
    have hsub : 2 ^ 16 - 2 ^ k = (2 ^ (16 - k) - 1) * 2 ^ k := by
      rw [Nat.sub_mul, ← Nat.pow_add, Nat.sub_add_cancel hk, Nat.one_mul]
    rw [Nat.testBit_and, hsub, Nat.testBit_mul_two_pow, Nat.testBit_mul_two_pow, Nat.testBit_two_pow_sub_one,
      Nat.testBit_div_two_pow]
    by_cases h : k ≤ i
    · simp only [h, decide_true, Bool.true_and]
      by_cases h' : i - k < 16 - k
      · simp [h', show i - k + k = i by omega]
      · have hz : w.toNat.testBit i = false :=
          Nat.testBit_lt_two_pow (Nat.lt_of_lt_of_le hw (Nat.pow_le_pow_right (by decide) (by omega)))
        simp [h', hz, show i - k + k = i by omega]
    · simp [h]
  have hp := Nat.two_pow_pos k
  unfold matchesPattern
  rw [hland]
  have hdm := Nat.div_add_mod w.toNat (2 ^ k)
  have hlt := Nat.mod_lt w.toNat hp
  obtain ⟨q, rfl⟩ := Nat.dvd_of_mod_eq_zero hm
  rw [show (w.toNat / 2 ^ k * 2 ^ k == 2 ^ k * q) = decide (w.toNat / 2 ^ k * 2 ^ k = 2 ^ k * q) from rfl]
  congr 1
  apply propext
  rw [Nat.mul_comm]
  constructor
  · intro h; omega
  · rintro ⟨h1, h2⟩
    have h3 : w.toNat / 2 ^ k = q := by
      apply Nat.div_eq_of_lt_le
      · rw [Nat.mul_comm]; exact h1
      · rw [Nat.add_mul, Nat.one_mul, Nat.mul_comm]; exact h2
    rw [h3]

end Sys2Proof
end

