-- ==== Sys2Proof/Laws/Stack.lean ====
section
/-! SUPPORT. What the stack operations and the jumps through memory do, said once: pushes, pops, the frame of an entry, and
a vector. -/

namespace Sys2Proof.Machine

/-! ### Pushes (20_memory.md R85) -/

theorem InMemory.congr {n : Nat} {s t : State} {a : Quad} (h : InMemory n s a) (hc : t.cfg = s.cfg) : InMemory n t a :=
  fun k hk => by rw [memoryByte_congr hc]; exact h k hk

theorem InRam.congr {n : Nat} {s t : State} {a : Quad} (h : InRam n s a) (hc : t.cfg = s.cfg) : InRam n t a :=
  fun k hk => by rw [ramByte_congr hc]; exact h k hk

/-- A read of memory depends on its bytes only. -/
theorem readMem_congr {sz : Size} {s t : State} {a : Quad} (hm : InMemory sz.bytes s a) (hc : t.cfg = s.cfg)
    (h : ∀ k < sz.bytes, byteAt t (phys s.cfg (offsetBy a k)) = byteAt s (phys s.cfg (offsetBy a k))) :
    readMem sz t a = readMem sz s a := by
  rw [readMem_memory hm, readMem_memory (hm.congr hc), dataAt_congr hc h]

/-- A push in RAM: the datum at the new SP, and nothing else but SP, the Stack Overflow test and the record of stored
addresses. -/
structure PushFrame (sz : Size) (s t : State) (v : BitVec sz.bits) : Prop where
  pushed  : Pushed sz s t v
  pc      : t.pc = s.pc
  memory  : Memory.wf (blankByte t.cfg) t.mem = true

theorem push_eq (sz : Size) (v : BitVec sz.bits) (s : State) :
    push sz v s = writeMem sz (writeReg s spReg (sp s - sizeQuad sz)) (sp s - sizeQuad sz) v := by
  simp [push, storePreDec, sp]

theorem push_ram {sz : Size} {s : State} (v : BitVec sz.bits) (hw : Memory.wf (blankByte s.cfg) s.mem = true)
    (hr : InRam sz.bytes s (sp s - sizeQuad sz)) : ∃ t, push sz v s = .next t ∧ PushFrame sz s t v := by
  have hc : (writeReg s spReg (sp s - sizeQuad sz)).cfg = s.cfg := by simp
  have hr' := hr.congr hc
  have hw' : Memory.wf (blankByte (writeReg s spReg (sp s - sizeQuad sz)).cfg)
      (writeReg s spReg (sp s - sizeQuad sz)).mem = true := by simpa using hw
  obtain ⟨t, ht⟩ := writeMem_next v hr'.writable
  have hf := writeMem_ramFrame hr' ht
  refine ⟨t, by rw [push_eq]; exact ht, ⟨?_, ?_, ?_, ?_, ?_, ?_, ?_, ?_, ?_⟩, ?_, writeMem_memory_wf ht hw'⟩
  · rw [readMem_memory ((InRam.memory hr).congr (hf.cfg.trans hc)), writeMem_ram_dataAt hr' hw' ht]
  · simp [sp, readReg_congr hf.regs]
  · intro r hr
    simp only [List.mem_singleton] at hr
    rw [readReg_congr hf.regs, readReg_writeReg, if_neg (by simpa [spReg] using hr)]
  · intro p hp
    rw [writeMem_byteAt ht p (by simpa using hp)]
    exact byteAt_congr (by simp) (by simp) p
  · have h := writeReg_stackChecked s spReg (sp s - sizeQuad sz)
    refine (h.congr rfl rfl hf.sysexcp hf.pendingExc).iff ?_
    simp [BelowLimit, spReg]
  · simp [hf.flags]
  · simp [SameControl, hf.pcov, hf.spov, hf.dmabw]
  · simp [SameModifiers, hf.extendPending, hf.noflagsPending, hf.atmCount]
  · simp [SameEnvironment, hf.runState, hf.wdtEnabled, hf.irq, hf.cfg, hf.env, hf.told, hf.freeCtr, hf.ioRegs,
      hf.heldExc]
  · simp [hf.pc]

/-! ### Jumps through memory -/

/-- The state after a jump to an even address that was loaded (10_state.md R27). -/
theorem jumpLoaded_even {target : Quad} (s : State) (h : target.getLsbD 0 = false) :
    jumpLoaded target s = .next (jump target s) := by
  simp only [jumpLoaded, h, Bool.false_eq_true, if_false]

theorem jumpLoaded_odd {target : Quad} (s : State) (h : target.getLsbD 0 = true) :
    jumpLoaded target s = .refused .oddPc := by
  simp only [jumpLoaded, h, if_true]

/-- A jump through a vector quad in memory is a jump to the address it holds (60_exceptions.md R412, R421). -/
theorem jumpVector_memory {s : State} {vec target : Quad} (hm : InMemory 4 s vec)
    (hv : readMem .quad s vec = .next target) : jumpVector vec s = jumpLoaded target s := by
  rw [jumpVector, loadMem_memory (sz := .quad) hm hv, andThen_next]

/-! ### The frame of an entry (60_exceptions.md R413) -/

theorem offsetBy_sub (a : Quad) {n k : Nat} (h : n ≤ k) : offsetBy (a - BitVec.ofNat 32 n) k = offsetBy a (k - n) := by
  unfold offsetBy
  obtain ⟨j, rfl⟩ := Nat.exists_eq_add_of_le h
  rw [Nat.add_sub_cancel_left, BitVec.ofNat_add, ← BitVec.add_assoc, BitVec.sub_add_cancel]

theorem offsetBy_sub_of_le (a : Quad) {n k : Nat} (h : k ≤ n) :
    offsetBy (a - BitVec.ofNat 32 n) k = a - BitVec.ofNat 32 (n - k) := by
  unfold offsetBy
  obtain ⟨j, rfl⟩ := Nat.exists_eq_add_of_le h
  rw [Nat.add_sub_cancel_left, BitVec.ofNat_add, BitVec.add_comm (BitVec.ofNat 32 k)]
  rw [show a - (BitVec.ofNat 32 j + BitVec.ofNat 32 k) = a - BitVec.ofNat 32 j - BitVec.ofNat 32 k by
    simp only [BitVec.sub_eq_add_neg, BitVec.neg_add, BitVec.add_assoc], BitVec.sub_add_cancel]

theorem highByte_append (a b : Byte) : (a ++ b).extractLsb' 8 8 = a := by
  apply BitVec.eq_of_getLsbD_eq
  intro i hi
  simp only [BitVec.getLsbD_extractLsb', BitVec.getLsbD_append, hi]
  simp

theorem lowByte_append (a b : Byte) : (a ++ b).extractLsb' 0 8 = b := by
  apply BitVec.eq_of_getLsbD_eq
  intro i hi
  simp only [BitVec.getLsbD_extractLsb', BitVec.getLsbD_append, hi]
  simp [hi]

/-- A frame pushed in RAM: its six bytes, SP, the Stack Overflow test, and nothing else but the record of stored
addresses. -/
structure FramePushed (s t : State) (ret : Quad) : Prop where
  ret         : readMem .quad t (sp s - 6) = .next ret
  pad         : readByte t (sp s - 2) = .next 0
  saved       : readByte t (sp s - 1) = .next s.flags
  sp          : Machine.sp t = Machine.sp s - 6
  regs        : SameRegs s t [15]
  outside     : SameOutside s t 6 (Machine.sp s - 6)
  stack       : StackChecked s t ((Machine.sp s - 2).toNat < s.spov.toNat ∨ (Machine.sp s - 6).toNat < s.spov.toNat)
  flags       : t.flags = s.flags
  control     : SameControl s t
  modifiers   : SameModifiers s t
  environment : SameEnvironment s t
  pc          : t.pc = s.pc
  memory      : Memory.wf (blankByte t.cfg) t.mem = true

theorem InRam.sub {n m j : Nat} {s : State} {a : Quad} (h : InRam n s (a - BitVec.ofNat 32 m)) (hj : j ≤ m) (l : Nat)
    (hl : m - j + l ≤ n) : InRam l s (a - BitVec.ofNat 32 j) := by
  intro k hk
  have := h (m - j + k) (by omega)
  rwa [← offsetBy_offsetBy, offsetBy_sub_of_le a (by omega), show m - (m - j) = j by omega] at this

theorem pushFrame_ram {s : State} (ret : Quad) (hw : Memory.wf (blankByte s.cfg) s.mem = true)
    (hr : InRam 6 s (sp s - 6)) : ∃ t, pushFrame ret s = .next t ∧ FramePushed s t ret := by
  have hr2 : InRam 2 s (sp s - 2) := InRam.sub (m := 6) (j := 2) hr (by decide) 2 (by decide)
  obtain ⟨s1, h1, f1⟩ := push_ram (sz := .word) (0#8 ++ s.flags) hw hr2
  have hc1 : s1.cfg = s.cfg := f1.pushed.2.2.2.2.2.2.2.2.2.2.2.1
  have hsp1 : sp s1 = sp s - 2 := f1.pushed.2.1
  have h6 : sp s1 - 4 = sp s - 6 := by rw [hsp1]; bv_omega
  have hr4 : InRam 4 s1 (sp s1 - 4) := by
    rw [h6]
    exact (InRam.sub (m := 6) (j := 6) hr (by decide) 4 (by decide)).congr hc1
  obtain ⟨t, h2, f2⟩ := push_ram (sz := .quad) ret f1.memory hr4
  have hsq : sizeQuad .quad = 4 := rfl
  have hsw : sizeQuad .word = 2 := rfl
  obtain ⟨a1, a2, a3, a4, a5, a6, a7, a8, a9⟩ := f1.pushed
  obtain ⟨b1, b2, b3, b4, b5, b6, b7, b8, b9⟩ := f2.pushed
  rw [hsq, h6] at b1 b2 b4 b5
  rw [hsw] at a1 a2 a4 a5
  have hct : t.cfg = s1.cfg := b9.2.2.2.1
  have ne : ∀ {j k : Nat}, j < 6 → k < 6 → j ≠ k → phys s.cfg (offsetBy (sp s - 6) j) ≠ phys s.cfg (offsetBy (sp s - 6) k) :=
    fun hj hk h h' => h (phys_offset_inj (by omega) (by omega) h')
  have hword : readMem .word t (sp s - 2) = .next (0#8 ++ s.flags) := by
    rw [← a1]
    refine readMem_congr ((InRam.memory hr2).congr hc1) hct fun k hk => ?_
    apply b4
    intro j hj
    rw [hc1, show sp s - 2 = sp s - BitVec.ofNat 32 2 from rfl,
      show offsetBy (sp s - BitVec.ofNat 32 2) k = offsetBy (sp s - 6) (4 + k) by
        rw [← offsetBy_offsetBy, show sp s - 6 = sp s - BitVec.ofNat 32 6 from rfl,
            offsetBy_sub_of_le (n := 6) (k := 4) _ (by decide)]]
    exact ne (by simp [Size.bytes] at hk; omega) (by simp [Size.bytes] at hj; omega) (by simp [Size.bytes] at hj; omega)
  have hb0 := readByte_memory (s := t) (a := sp s - 2)
    (by have := (InRam.memory hr2).congr (hct.trans hc1) 0 (by decide); rwa [offsetBy_zero] at this)
  have hb1 := readByte_memory (s := t) (a := sp s - 2 + 1)
    (by have := (InRam.memory hr2).congr (hct.trans hc1) 1 (by decide); rwa [offsetBy_one] at this)
  have hsplit := hword
  simp only [readMem, hb0, hb1, andThen_next] at hsplit
  have hj : byteAt t (phys t.cfg (sp s - 2)) ++ byteAt t (phys t.cfg (sp s - 2 + 1)) = 0#8 ++ s.flags := by
    injection hsplit
  have hpad : byteAt t (phys t.cfg (sp s - 2)) = 0#8 := by
    have := congrArg (BitVec.extractLsb' 8 8) hj
    simpa only [highByte_append] using this
  have hfl : byteAt t (phys t.cfg (sp s - 2 + 1)) = s.flags := by
    have := congrArg (BitVec.extractLsb' 0 8) hj
    simpa only [lowByte_append] using this
  refine ⟨t, by rw [pushFrame, h1, andThen_next, h2], ⟨b1, by rw [hb0, hpad]; rfl, ?_, b2, ?_, ?_, ?_, b6.trans a6, ?_, ?_, ?_,
    f2.pc.trans f1.pc, f2.memory⟩⟩
  · rw [show sp s - 1 = sp s - 2 + 1 by bv_omega, hb1, hfl]
  · exact fun r hr => (b3 r hr).trans (a3 r hr)
  · intro p hp
    rw [b4 p (fun k hk => by rw [hc1]; exact hp k (by simp [Size.bytes] at hk; omega)), a4 p]
    intro k hk
    have := hp (4 + k) (by simp [Size.bytes] at hk; omega)
    rwa [← offsetBy_offsetBy, show sp s - 6 = sp s - BitVec.ofNat 32 6 from rfl, offsetBy_sub_of_le _ (by decide)] at this
  · have h := a5.comp b5
    rwa [show s1.spov = s.spov from a7.2.1] at h
  · exact ⟨b7.1.trans a7.1, b7.2.1.trans a7.2.1, b7.2.2.trans a7.2.2⟩
  · exact ⟨b8.1.trans a8.1, b8.2.1.trans a8.2.1, b8.2.2.trans a8.2.2⟩
  · obtain ⟨c1, c2, c3, c4, c5, c6, c7, c8, c9⟩ := a9
    obtain ⟨d1, d2, d3, d4, d5, d6, d7, d8, d9⟩ := b9
    exact ⟨d1.trans c1, d2.trans c2, d3.trans c3, d4.trans c4, d5.trans c5, d6.trans c6, d7.trans c7, d8.trans c8,
      d9.trans c9⟩

end Sys2Proof.Machine
end

