-- ==== Sys2Proof/Laws/Entries.lean ====
section
/-! SUPPORT. What taking an interrupt, a system exception or a trap does, said once, from `EntryReady`
(spec/60_exceptions.md R412, R413, R421, R431). -/

namespace Sys2Proof.Machine

/-- The vector is still what it was after the frame is pushed. -/
theorem FramePushed.vector {s t : State} {ret vec target : Quad} (h : EntryReady s vec target)
    (f : FramePushed s t ret) : readMem .quad t vec = .next target := by
  rw [← h.holds]
  apply readMem_congr (sz := .quad) h.vector f.environment.2.2.2.1
  intro k hk
  apply f.outside
  exact fun j hj e => h.apart j hj k hk e.symm

theorem readByte_memory_congr {s t : State} {a : Quad} (h : memoryByte s a = true) (hc : t.cfg = s.cfg)
    (hm : t.mem = s.mem) : readByte t a = readByte s a := by
  rw [readByte_memory h, readByte_memory (by rw [memoryByte_congr hc]; exact h), byteAt_congr hm hc, hc]

theorem readMem_memory_congr {sz : Size} {s t : State} {a : Quad} (h : InMemory sz.bytes s a) (hc : t.cfg = s.cfg)
    (hm : t.mem = s.mem) : readMem sz t a = readMem sz s a :=
  readMem_congr h hc fun _ _ => byteAt_congr hm hc _

/-- An entry is its frame and then nothing but flags, modifiers, events and pc. -/
theorem FramePushed.entered {s t u : State} {ret target : Quad} (hr : InRam 6 s (Machine.sp s - 6))
    (f : FramePushed s t ret) (hmem : u.mem = t.mem) (hregs : u.regs = t.regs) (hs : u.sysexcp = t.sysexcp)
    (hp : u.pendingExc = t.pendingExc) (hpc : u.pc = target) (hw : u.written = []) (hct : SameControl t u)
    (h1 : u.runState = t.runState) (h2 : u.wdtEnabled = t.wdtEnabled) (h3 : u.irq = t.irq) (h4 : u.cfg = t.cfg)
    (h5 : u.env = t.env) (h6 : u.freeCtr = t.freeCtr) (h7 : u.ioRegs = t.ioRegs)
    (h8 : u.heldExc = t.heldExc) : Entered s u ret target := by
  have hc : t.cfg = s.cfg := f.environment.2.2.2.1
  have hm : ∀ n a, InRam n s a → InMemory n t a := fun n a h => (InRam.memory h).congr hc
  obtain ⟨e1, e2, e3, e4, e5, e6, e7, e8, e9⟩ := f.environment
  refine ⟨?_, ?_, ?_, ?_, fun r hr => ?_, ?_, ?_, hpc, hw, ?_, ⟨h1.trans e1, h2.trans e2, h3.trans e3, h4.trans e4,
    h5.trans e5, h6.trans e7, h8.trans e9⟩, h7.trans e8⟩
  · rw [readMem_memory_congr (sz := .quad) (a := Machine.sp s - 6)
      (hm 4 _ (InRam.sub (m := 6) (j := 6) hr (by decide) 4 (by decide))) h4 hmem]
    exact f.ret
  · rw [readByte_memory_congr _ h4 hmem]
    · exact f.pad
    · have := hm 1 _ (InRam.sub (m := 6) (j := 2) hr (by decide) 1 (by decide)) 0 (by decide)
      rwa [offsetBy_zero] at this
  · rw [readByte_memory_congr _ h4 hmem]
    · exact f.saved
    · have := hm 1 _ (InRam.sub (m := 6) (j := 1) hr (by decide) 1 (by decide)) 0 (by decide)
      rwa [offsetBy_zero] at this
  · rw [sp_eq, readReg_congr hregs, ← sp_eq, f.sp]
  · rw [readReg_congr hregs]; exact f.regs r hr
  · intro p hp; rw [byteAt_congr hmem h4]; exact f.outside p hp
  · exact f.stack.congr rfl rfl hs hp
  · exact ⟨hct.1.trans f.control.1, hct.2.1.trans f.control.2.1, hct.2.2.trans f.control.2.2⟩

/-- Readiness depends on the configuration, memory and the registers only. -/
theorem EntryReady.congr {s s' : State} {v target : Quad} (h : EntryReady s v target) (hc : s'.cfg = s.cfg)
    (hm : s'.mem = s.mem) (hr : s'.regs = s.regs) : EntryReady s' v target := by
  have hsp : sp s' = sp s := by rw [sp_eq, sp_eq, readReg_congr hr]
  constructor
  · rw [hc, hm]; exact h.memory
  · rw [hsp]; exact h.frame.congr hc
  · exact h.vector.congr hc
  · rw [hsp]; unfold Apart; rw [hc]; exact h.apart
  · rw [readMem_memory_congr (sz := .quad) h.vector hc hm, h.holds]

/-- System exception entry (60_exceptions.md R421). -/
theorem exceptionEntry_ready {s : State} {target : Quad} (ret : Quad) (h : EntryReady s 8 target) :
    if target.getLsbD 0 then exceptionEntry ret s = .refused .oddPc
    else ∃ t, exceptionEntry ret s = .next t ∧ Entered { s with pendingExc := none } t ret target ∧
      Masked s.flags t.flags ∧ NoModifiers t ∧ t.events = s.events := by
  have h' : EntryReady { s with pendingExc := none } 8 target := h.congr rfl rfl rfl
  obtain ⟨t1, ht1, f⟩ := pushFrame_ram ret h'.memory h'.frame
  have hm : InMemory 4 (clearModifiers (maskInterrupts s.flags t1)) systemVector :=
    h'.vector.congr (by simpa using f.environment.2.2.2.1)
  have hv : readMem .quad (clearModifiers (maskInterrupts s.flags t1)) systemVector = .next target := by
    rw [show systemVector = 8 from rfl, readMem_memory_congr (s := t1) (sz := .quad)
      (h'.vector.congr f.environment.2.2.2.1) (by simp) (by simp)]
    exact f.vector h'
  by_cases he : target.getLsbD 0 = true
  · rw [if_pos he, exceptionEntry, ht1, andThen_next, jumpVector_memory hm hv, jumpLoaded_odd _ he]
  rw [if_neg he]
  rw [Bool.not_eq_true] at he
  refine ⟨_, by rw [exceptionEntry, ht1, andThen_next, jumpVector_memory hm hv, jumpLoaded_even _ he], ?_, ?_, ?_, ?_⟩
  · exact f.entered h'.frame (by simp) (by simp) (by simp) (by simp) (by simp) (by simp) (by simp [SameControl])
      (by simp) (by simp) (by simp) (by simp) (by simp) (by simp) (by simp) (by simp)
  · simp only [jump_flags, clearModifiers_flags, maskInterrupts_flags, f.flags]
    exact withEnables_masked _
  · simp [NoModifiers]
  · simpa using f.environment.2.2.2.2.2.1

/-- Interrupt entry (60_exceptions.md R412). -/
theorem interruptEntry_ready {s : State} {v target : Quad} (h : EntryReady s v target) :
    if target.getLsbD 0 then interruptEntry v s = .refused .oddPc
    else ∃ t, interruptEntry v s = .next t ∧ Entered s t s.pc target ∧ Masked s.flags t.flags ∧ SameModifiers s t ∧
      t.events = .interruptAcknowledge v :: s.events := by
  obtain ⟨t1, ht1, f⟩ := pushFrame_ram s.pc h.memory h.frame
  have hm : InMemory 4 (maskInterrupts s.flags t1) v := h.vector.congr (by simpa using f.environment.2.2.2.1)
  have hv : readMem .quad (maskInterrupts s.flags t1) v = .next target := by
    rw [readMem_memory_congr (s := t1) (sz := .quad) (h.vector.congr f.environment.2.2.2.1) (by simp) (by simp)]
    exact f.vector h
  by_cases he : target.getLsbD 0 = true
  · rw [if_pos he, interruptEntry, ht1, andThen_next, jumpVector_memory hm hv, jumpLoaded_odd _ he, andThen_refused]
  rw [if_neg he]
  rw [Bool.not_eq_true] at he
  refine ⟨_, by rw [interruptEntry, ht1, andThen_next, jumpVector_memory hm hv, jumpLoaded_even _ he, andThen_next], ?_, ?_, ?_, ?_⟩
  · exact f.entered h.frame (by simp) (by simp) (by simp) (by simp) (by simp) (by simp) (by simp [SameControl])
      (by simp) (by simp) (by simp) (by simp) (by simp) (by simp) (by simp) (by simp)
  · simp only [jump_flags, acknowledge_flags, maskInterrupts_flags, f.flags]
    exact withEnables_masked _
  · simpa [SameModifiers] using f.modifiers
  · simpa using f.environment.2.2.2.2.2.1

/-- TRAP's entry (46_program_control.md R355). -/
theorem trapEntry_ready {s : State} {len : Nat} {vector : Byte} {target : Quad}
    (h : EntryReady s (4 * vector.setWidth 32) target) :
    if target.getLsbD 0 then trapEntry len vector s = .refused .oddPc
    else ∃ t, trapEntry len vector s = .next t ∧ Entered s t (nextPc len s) target ∧ t.flags = s.flags ∧ NoModifiers t ∧
      t.events = s.events := by
  obtain ⟨t1, ht1, f⟩ := pushFrame_ram (nextPc len s) h.memory h.frame
  have hm : InMemory 4 (clearModifiers t1) (4 * vector.setWidth 32) :=
    h.vector.congr (by simpa using f.environment.2.2.2.1)
  have hv : readMem .quad (clearModifiers t1) (4 * vector.setWidth 32) = .next target := by
    rw [readMem_memory_congr (s := t1) (sz := .quad) (h.vector.congr f.environment.2.2.2.1) (by simp) (by simp)]
    exact f.vector h
  by_cases he : target.getLsbD 0 = true
  · rw [if_pos he, trapEntry, ht1, andThen_next, jumpVector_memory hm hv, jumpLoaded_odd _ he]
  rw [if_neg he]
  rw [Bool.not_eq_true] at he
  refine ⟨_, by rw [trapEntry, ht1, andThen_next, jumpVector_memory hm hv, jumpLoaded_even _ he], ?_, ?_, ?_, ?_⟩
  · exact f.entered h.frame (by simp) (by simp) (by simp) (by simp) (by simp) (by simp) (by simp [SameControl])
      (by simp) (by simp) (by simp) (by simp) (by simp) (by simp) (by simp) (by simp)
  · simp [f.flags]
  · simp [NoModifiers]
  · simpa using f.environment.2.2.2.2.2.1

/-- Illegal Instruction with its bit 1: the vector is read and nothing pushed (60_exceptions.md R428). -/
theorem illegalEntry_again {s : State} {target : Quad} (hm : InMemory 4 s 8) (hv : readMem .quad s 8 = .next target)
    (hb : s.sysexcp.ill = true) : illegalEntry s = jumpLoaded target (clearModifiers s) := by
  simp only [illegalEntry, hb, if_true]
  refine jumpVector_memory (hm.congr (by simp)) ?_
  rw [← hv]
  exact readMem_memory_congr (sz := .quad) hm (by simp) (by simp)

end Sys2Proof.Machine
end

