-- ==== Sys2Proof/Laws/Updates.lean ====
section
/-! SUPPORT. What an instruction can do, said once: a chain of single updates of the state. An invariant that each single
update keeps is kept by every instruction, entry and return. -/

namespace Sys2Proof.Machine

/-- One update of the state that an instruction, an entry or a return can make. -/
inductive Update : State → State → Prop
  /-- A register written. -/
  | reg (s : State) (d : Reg) (v : Quad) : Update s (writeReg s d v)
  /-- A register given a free value, which is tested against nothing. -/
  | freeReg (s : State) (d : Reg) (v : Quad) : Update s (setReg s d v)
  /-- An exception raised. -/
  | raise (s : State) (e : SysExc) : Update s (raise e s)
  /-- FLAGS written. -/
  | flags (s : State) (f : Byte) : Update s { s with flags := f }
  /-- pc written; an even one stays even. -/
  | pc (s : State) (q : Quad) (h : s.pc.getLsbD 0 = false → q.getLsbD 0 = false) : Update s { s with pc := q }
  /-- A byte read by an instruction. -/
  | read (s : State) (a : Quad) : Update s (noteRead a s)
  /-- A byte stored. -/
  | store {s t : State} {a : Quad} {b : Byte} (h : writeByte s a b = .next t) : Update s t
  /-- The record of stored addresses emptied. -/
  | forget (s : State) : Update s { s with written := [] }
  /-- The modifiers cleared. -/
  | modifiers (s : State) : Update s (clearModifiers s)
  /-- The exception state written. -/
  | exceptions (s : State) (x : Sysexcp) (p : Option SysExc) : Update s { s with sysexcp := x, pendingExc := p }
  /-- An interrupt acknowledged. -/
  | acknowledge (s : State) (v : Quad) : Update s (acknowledge v s)

/-- A chain of updates. -/
abbrev Updates : State → State → Prop := Relation.ReflTransGen Update

/-- What every update keeps, a chain keeps. -/
theorem Updates.induct {s t : State} (P : State → Prop) (h : Updates s t) (h0 : P s)
    (hstep : ∀ u v, Update u v → P u → P v) : P t := by
  induction h with
  | refl => exact h0
  | tail _ hu ih => exact hstep _ _ hu ih

theorem Update.one {s t : State} (h : Update s t) : Updates s t := .single h

/-! ### The shared operations are chains of updates -/

theorem getLsbD_zero_eq (a : Quad) : (a.getLsbD 0 = false) ↔ a.toNat % 2 = 0 := by
  rw [BitVec.getLsbD, Nat.testBit_zero, decide_eq_false_iff_not]
  omega

theorem getLsbD_add_even {a b : Quad} (ha : a.getLsbD 0 = false) (hb : b.getLsbD 0 = false) :
    (a + b).getLsbD 0 = false := by
  rw [getLsbD_zero_eq] at *
  rw [BitVec.toNat_add]; omega

theorem getLsbD_zero_two_mul (a : Quad) : (2 * a).getLsbD 0 = false := by
  rw [getLsbD_zero_eq, BitVec.toNat_mul, show (2 : Quad).toNat = 2 from rfl]
  omega

theorem nextPc_even {s : State} {len : Nat} (hl : len % 2 = 0) (h : s.pc.getLsbD 0 = false) :
    (nextPc len s).getLsbD 0 = false := by
  refine getLsbD_add_even h ?_
  simp only [BitVec.getLsbD_ofNat, Nat.testBit_zero, hl]; decide

theorem len_even (i : Instr) : i.len % 2 = 0 := by unfold Instr.len; omega

theorem advance_updates (s : State) {len : Nat} (hl : len % 2 = 0) : Updates s (advance len s) :=
  (Update.pc s (nextPc len s) (nextPc_even hl)).one

theorem setFlags_updates (u : FlagUpdate) (s : State) : Updates s (setFlags u s) := by
  unfold setFlags
  split
  · exact .refl
  · exact (Update.flags s _).one

theorem jump_updates (s : State) {target : Quad} (h : s.pc.getLsbD 0 = false → target.getLsbD 0 = false) :
    Updates s (jump target s) :=
  (Update.pc s target h).one.tail (.forget _)

theorem jumpLoaded_updates {s t : State} {target : Quad} (h : jumpLoaded target s = .next t) : Updates s t := by
  unfold jumpLoaded at h
  split at h
  · cases h
  · next he => cases h; exact jump_updates s fun _ => by simpa using he

theorem noteReads_updates (sz : Size) (a : Quad) (s : State) : Updates s (noteReads sz a s) := by
  cases sz with
  | byte => exact (Update.read s a).one
  | word => exact (Update.read s a).one.tail (.read _ _)
  | quad => exact (((Update.read s a).one.tail (.read _ _)).tail (.read _ _)).tail (.read _ _)

theorem loadMem_updates {sz : Size} {a : Quad} {s : State} {r : BitVec sz.bits × State} (h : loadMem sz a s = .next r) :
    Updates s r.2 := by
  rw [(loadMem_cases h).2]; exact noteReads_updates sz a s

theorem jumpVector_updates {s t : State} {v : Quad} (h : jumpVector v s = .next t) : Updates s t := by
  obtain ⟨q, h1, h⟩ := andThen_eq_next.1 h
  exact (loadMem_updates h1).trans (jumpLoaded_updates h)

theorem writeMem_updates {sz : Size} {s t : State} {a : Quad} {v : BitVec sz.bits} (h : writeMem sz s a v = .next t) :
    Updates s t :=
  writeMem_induct (Updates s) h .refl fun _ _ _ _ _ _ hm hw => hm.tail (.store hw)

theorem storePreDec_updates {sz : Size} {d : Reg} {v : BitVec sz.bits} {s t : State}
    (h : storePreDec sz d v s = .next t) : Updates s t :=
  (Update.reg s d _).one.trans (writeMem_updates h)

theorem push_updates {sz : Size} {v : BitVec sz.bits} {s t : State} (h : push sz v s = .next t) : Updates s t :=
  storePreDec_updates h

theorem popQuad_updates {s : State} {r : Quad × State} (h : popQuad s = .next r) : Updates s r.2 := by
  obtain ⟨v, h1, h⟩ := andThen_eq_next.1 h
  cases h
  exact (loadMem_updates h1).tail (.reg _ _ _)

theorem pushRegs_updates {l : List Reg} {s t : State} (h : pushRegs l s = .next t) : Updates s t := by
  induction l generalizing s with
  | nil => cases h; exact .refl
  | cons r rest ih =>
    obtain ⟨u, h1, h2⟩ := andThen_eq_next.1 h
    exact (push_updates h1).trans (ih h2)

theorem popRegs_updates {l : List Reg} {o : Option Quad} {s : State} {r : Option Quad × State}
    (h : popRegs l o s = .next r) : Updates s r.2 := by
  induction l generalizing s o with
  | nil => cases h; exact .refl
  | cons d rest ih =>
    obtain ⟨u, h1, h2⟩ := andThen_eq_next.1 h
    exact ((popQuad_updates h1).tail (.reg _ _ _)).trans (ih h2)

theorem pushFrame_updates {ret : Quad} {s t : State} (h : pushFrame ret s = .next t) : Updates s t := by
  obtain ⟨u, h1, h2⟩ := andThen_eq_next.1 h
  exact (push_updates h1).trans (push_updates h2)

theorem maskInterrupts_updates (f : Byte) (s : State) : Updates s (maskInterrupts f s) := (Update.flags s _).one

theorem exceptionEntry_updates {ret : Quad} {s t : State} (h : exceptionEntry ret s = .next t) : Updates s t := by
  obtain ⟨u, h1, h2⟩ := andThen_eq_next.1 h
  have h0 : Updates s { s with pendingExc := none } := (Update.exceptions s s.sysexcp none).one
  exact (h0.trans (pushFrame_updates h1)).trans
    (((maskInterrupts_updates _ u).tail (.modifiers _)).trans (jumpVector_updates h2))

theorem illegalEntry_updates {s t : State} (h : illegalEntry s = .next t) : Updates s t := by
  unfold illegalEntry at h
  split at h
  · exact (Update.modifiers s).one.trans (jumpVector_updates h)
  · exact (Update.exceptions s _ s.pendingExc).one.trans (exceptionEntry_updates h)

theorem interruptEntry_updates {v : Quad} {s t : State} (h : interruptEntry v s = .next t) : Updates s t := by
  obtain ⟨u, h1, h2⟩ := andThen_eq_next.1 h
  obtain ⟨w, h3, h4⟩ := andThen_eq_next.1 h2
  cases h4
  exact (((pushFrame_updates h1).trans (maskInterrupts_updates _ u)).trans (jumpVector_updates h3)).tail (.acknowledge w v)

theorem trapEntry_updates {len : Nat} {v : Byte} {s t : State} (h : trapEntry len v s = .next t) : Updates s t := by
  obtain ⟨u, h1, h2⟩ := andThen_eq_next.1 h
  exact ((pushFrame_updates h1).tail (.modifiers u)).trans (jumpVector_updates h2)

theorem interruptReturn_updates {s t : State} (h : interruptReturn s = .next t) : Updates s t := by
  obtain ⟨u, h1, h2⟩ := andThen_eq_next.1 h
  obtain ⟨f, h2, h3⟩ := andThen_eq_next.1 h2
  exact ((((popQuad_updates h1).trans (loadMem_updates h2)).tail (.flags _ f.1)).tail (.reg _ _ _)).trans
    (jumpLoaded_updates h3)

theorem chainedReturn_updates {v : Quad} {s t : State} (h : chainedReturn v s = .next t) : Updates s t := by
  obtain ⟨u, h1, h2⟩ := andThen_eq_next.1 h
  cases h2
  exact ((Update.flags s _).one.trans (jumpVector_updates h1)).tail (.acknowledge u v)

/-! ### The skeletons -/

theorem storeResult_updates {sz : Size} {ea : Quad} {v : BitVec sz.bits} {s t : State}
    (h : storeResult sz ea v s = .next t) : Updates s t := by
  unfold storeResult at h
  split at h
  · cases h
  · exact writeMem_updates h

theorem writeBack_updates {sz : Size} {d : Dest} {v : BitVec sz.bits} {s t : State}
    (h : writeBack sz d v s = .next t) : Updates s t := by
  cases d with
  | reg d => cases h; exact (Update.reg s d _).one
  | mem ea => exact storeResult_updates h

theorem regOperands_updates {d : Reg} {b : Quad} {s : State} {r : Operands 32 × State}
    (h : regOperands d b s = .next r) : Updates s r.2 := by cases h; exact .refl

theorem regMemOperands_updates {d : Reg} {ea : Quad} {s : State} {r : Operands 32 × State}
    (h : regMemOperands d ea s = .next r) : Updates s r.2 := by
  obtain ⟨v, h1, h⟩ := andThen_eq_next.1 h
  cases h
  exact loadMem_updates h1

theorem memOperands_updates {sz : Size} {ea : Quad} {b : BitVec sz.bits} {s : State} {r : Operands sz.bits × State}
    (h : memOperands sz ea b s = .next r) : Updates s r.2 := by
  obtain ⟨v, h1, h⟩ := andThen_eq_next.1 h
  cases h
  exact loadMem_updates h1

theorem bopQuadOperands_updates {f : BopQuad} {s : State} {r : Operands 32 × State}
    (h : bopQuadOperands f s = .next r) : Updates s r.2 := by
  cases f <;>
    first
    | exact regOperands_updates h
    | exact regMemOperands_updates h
    | exact memOperands_updates (sz := .quad) h

theorem addQuadOperands_updates {f : AddQuad} {s : State} {r : Operands 32 × State}
    (h : addQuadOperands f s = .next r) : Updates s r.2 := by
  cases f with
  | bop f => exact bopQuadOperands_updates h
  | regSimm8 d i => exact regOperands_updates h
  | regRegReg d s1 s2 => cases h; exact .refl

theorem cpQuadOperands_updates {f : CpQuad} {s : State} {r : Operands 32 × State}
    (h : cpQuadOperands f s = .next r) : Updates s r.2 := by
  cases f with
  | bop f => exact bopQuadOperands_updates h
  | regSimm8 d i => exact regOperands_updates h

theorem bopSourceOperands_updates {sz : Size} {x : Extension} {d : Reg} {m : BopSource} {s : State}
    {r : Operands 32 × State} (h : bopSourceOperands sz x d m s = .next r) : Updates s r.2 := by
  obtain ⟨v, h1, h⟩ := andThen_eq_next.1 h
  cases h
  exact loadMem_updates h1

theorem bopWrite_updates {sz : Size} {op : Byte → BitVec sz.bits → BitVec sz.bits → BitVec sz.bits × FlagUpdate}
    {len : Nat} {operands : Res (Operands sz.bits × State)} {s t : State} (hl : len % 2 = 0)
    (ho : ∀ r, operands = .next r → Updates s r.2) (h : bopWrite sz op len operands = .next t) : Updates s t := by
  obtain ⟨o, h0, h⟩ := andThen_eq_next.1 h
  obtain ⟨u, h1, h2⟩ := andThen_eq_next.1 h
  cases h2
  exact (((ho o h0).trans (writeBack_updates h1)).trans (setFlags_updates _ u)).trans (advance_updates _ hl)

theorem bopTest_updates {w : Nat} {op : Byte → BitVec w → BitVec w → BitVec w × FlagUpdate} {len : Nat}
    {operands : Res (Operands w × State)} {s t : State} (hl : len % 2 = 0)
    (ho : ∀ r, operands = .next r → Updates s r.2) (h : bopTest op len operands = .next t) : Updates s t := by
  obtain ⟨o, h0, h⟩ := andThen_eq_next.1 h
  cases h
  exact ((ho o h0).trans (setFlags_updates _ _)).trans (advance_updates _ hl)

theorem uopWrite_updates {sz : Size} {op : Byte → BitVec sz.bits → BitVec sz.bits × FlagUpdate} {len : Nat}
    {m : UopDest} {s t : State} (hl : len % 2 = 0) (h : uopWrite sz op len m s = .next t) : Updates s t := by
  obtain ⟨o, h0, h⟩ := andThen_eq_next.1 h
  obtain ⟨u, h1, h2⟩ := andThen_eq_next.1 h
  cases h2
  exact (((loadMem_updates h0).trans (storeResult_updates h1)).trans (setFlags_updates _ u)).trans (advance_updates _ hl)

theorem uopTest_updates {sz : Size} {op : Byte → BitVec sz.bits → BitVec sz.bits × FlagUpdate} {len : Nat}
    {m : UopDest} {s t : State} (hl : len % 2 = 0) (h : uopTest sz op len m s = .next t) : Updates s t := by
  obtain ⟨o, h0, h⟩ := andThen_eq_next.1 h
  cases h
  exact ((loadMem_updates h0).trans (setFlags_updates _ _)).trans (advance_updates _ hl)

theorem uopClear_updates {sz : Size} {len : Nat} {m : UopDest} {s t : State} (hl : len % 2 = 0)
    (h : uopClear sz len m s = .next t) : Updates s t := by
  obtain ⟨u, h1, h2⟩ := andThen_eq_next.1 h
  cases h2
  exact (writeMem_updates h1).trans (advance_updates _ hl)

/-- A register result, flags and pc. -/
theorem register_updates (s : State) (d : Reg) (v : Quad) (u : FlagUpdate) {len : Nat} (hl : len % 2 = 0) :
    Updates s (advance len (setFlags u (writeReg s d v))) :=
  ((Update.reg s d v).one.trans (setFlags_updates u _)).trans (advance_updates _ hl)

theorem loadRegister_updates {d : Reg} {v : Quad} {len : Nat} {s t : State} (hl : len % 2 = 0)
    (h : loadRegister d v len s = .next t) : Updates s t := by
  cases h
  exact (Update.reg s d v).one.trans (advance_updates _ hl)

theorem load_updates {sz : Size} {x : Extension} {d : Reg} {m : LoadSource} {len : Nat} {s t : State}
    (hl : len % 2 = 0) (h : load sz x d m len s = .next t) : Updates s t := by
  obtain ⟨r, h1, h⟩ := andThen_eq_next.1 h
  cases h
  refine ((loadMem_updates h1).trans ?_).trans (register_updates _ d _ _ hl)
  cases m <;> first | exact .refl | exact (Update.reg _ _ _).one

theorem store_updates {sz : Size} {m : StoreDest} {v : BitVec sz.bits} {len : Nat} {s t : State}
    (hl : len % 2 = 0) (h : store sz m v len s = .next t) : Updates s t := by
  obtain ⟨u, h1, h2⟩ := andThen_eq_next.1 h
  cases h2
  refine .trans ?_ (advance_updates _ hl)
  cases m with
  | preDec d => exact storePreDec_updates h1
  | postInc d =>
    obtain ⟨w, h3, h4⟩ := andThen_eq_next.1 h1
    cases h4
    exact (writeMem_updates h3).tail (.reg _ _ _)
  | addr16 _ => exact writeMem_updates h1
  | addr32 _ => exact writeMem_updates h1
  | ind _ => exact writeMem_updates h1
  | off _ _ => exact writeMem_updates h1
  | fpRel _ => exact writeMem_updates h1

theorem pushThenAdvance_updates {sz : Size} {v : BitVec sz.bits} {len : Nat} {s t : State} (hl : len % 2 = 0)
    (h : pushThenAdvance sz v len s = .next t) : Updates s t := by
  obtain ⟨u, h1, h2⟩ := andThen_eq_next.1 h
  cases h2
  exact (push_updates h1).trans (advance_updates _ hl)

theorem pushMultiple_updates {l : List Reg} {len : Nat} {s t : State} (hl : len % 2 = 0)
    (h : pushMultiple l len s = .next t) : Updates s t := by
  obtain ⟨u, h1, h2⟩ := andThen_eq_next.1 h
  cases h2
  exact (pushRegs_updates h1).trans (advance_updates _ hl)

theorem popMultiple_updates {l : List Reg} {len : Nat} {s t : State} (hl : len % 2 = 0)
    (h : popMultiple l len s = .next t) : Updates s t := by
  obtain ⟨u, h1, h2⟩ := andThen_eq_next.1 h
  have hu := popRegs_updates h1
  split at h2 <;> cases h2
  · exact (hu.trans (setFlags_updates _ _)).trans (advance_updates _ hl)
  · exact hu.trans (advance_updates _ hl)

theorem shiftRegister_updates {d : Reg} {r : Quad} {b : Bool} {len : Nat} {s t : State} (hl : len % 2 = 0)
    (h : shiftRegister d r b len s = .next t) : Updates s t := by
  cases h
  exact register_updates s d r _ hl

theorem writePair_updates (d r : Reg) (vd vr : Quad) (s : State) : Updates s (writePair d r vd vr s) := by
  unfold writePair
  have h := (Update.reg s d vd).one.tail (.reg _ r vr)
  dsimp only
  split
  · exact h.tail (.freeReg _ d _)
  · exact h

theorem pair_updates {d r : Reg} {vd vr : Quad} {u : FlagUpdate} {len : Nat} {s t : State} (hl : len % 2 = 0)
    (h : arithPair d r vd vr u len s = .next t) : Updates s t := by
  cases h
  exact ((writePair_updates d r vd vr s).trans (setFlags_updates _ _)).trans (advance_updates _ hl)

theorem raiseAndAdvance_updates {e : SysExc} {len : Nat} {s t : State} (hl : len % 2 = 0)
    (h : raiseAndAdvance e len s = .next t) : Updates s t := by
  cases h
  exact (Update.raise s e).one.trans (advance_updates _ hl)

theorem relTarget_even {w : Nat} {len : Nat} (hl : len % 2 = 0) (r : BitVec w) {s : State}
    (h : s.pc.getLsbD 0 = false) : (relTarget len r s).getLsbD 0 = false :=
  getLsbD_add_even (nextPc_even hl h) (getLsbD_zero_two_mul _)

theorem evenAddress_even (a : Quad) : (evenAddress a).getLsbD 0 = false := by
  simp [evenAddress]

theorem jumpTargetEa_even (t : JumpTarget) {len : Nat} (hl : len % 2 = 0) {s : State} (h : s.pc.getLsbD 0 = false) :
    (jumpTargetEa t len s).getLsbD 0 = false := by
  cases t
  · exact evenAddress_even _
  · exact relTarget_even hl _ h
  · exact relTarget_even hl _ h

theorem condTargetEa_even (t : CondTarget) {len : Nat} (hl : len % 2 = 0) {s : State} (h : s.pc.getLsbD 0 = false) :
    (condTargetEa t len s).getLsbD 0 = false := by
  cases t <;> exact relTarget_even hl _ h

theorem djnzTarget_even (u : BitVec 4) {len : Nat} (hl : len % 2 = 0) {s : State} (h : s.pc.getLsbD 0 = false) :
    (djnzTarget u len s).getLsbD 0 = false :=
  getLsbD_add_even (nextPc_even hl h) (by revert u; decide)

theorem callTo_updates {target : Quad} {len : Nat} {s t : State}
    (he : s.pc.getLsbD 0 = false → target.getLsbD 0 = false) (h : callTo target len s = .next t) : Updates s t := by
  obtain ⟨u, h1, h2⟩ := andThen_eq_next.1 h
  cases h2
  have hu := push_updates h1
  have hp : u.pc = s.pc := by
    have := (writeMem_frame (push_eq .quad (nextPc len s) s ▸ h1)).pc
    simpa using this
  exact hu.trans (jump_updates u (by rw [hp]; exact he))

end Sys2Proof.Machine
end

