-- ==== Sys2Proof/Laws/Exec.lean ====
section
/-! SUPPORT. Every instruction but the prefixes, HALT, STOP and WDT is a chain of updates; and what a chain of updates
keeps. -/

namespace Sys2Proof.Machine

/-- The instructions that change the modifiers, the run state or the Watchdog Timer themselves; each is a plain record
update (Machine/CpuControl.lean). -/
def setsMode : Instr → Bool
  | .extend | .noflags | .atm | .halt | .stop | .wdt => true
  | _ => false

theorem execLd_updates {f : LdQuad} {s t : State} (h : execLd f s = .next t) : Updates s t := by
  cases f
  · exact loadRegister_updates (len_even _) h
  · exact loadRegister_updates (len_even _) h
  · exact loadRegister_updates (len_even _) h
  · exact loadRegister_updates (len_even _) h
  · exact load_updates (len_even _) h
  · exact store_updates (len_even _) h
  · exact store_updates (len_even _) h
  · exact store_updates (len_even _) h

theorem execLink_updates {i : Byte} {s t : State} (h : execLink i s = .next t) : Updates s t := by
  obtain ⟨u, h1, h2⟩ := andThen_eq_next.1 h
  cases h2
  exact (((push_updates h1).tail (.reg _ _ _)).tail (.reg _ _ _)).trans (advance_updates _ (len_even _))

theorem execUnlink_updates {s t : State} (h : execUnlink s = .next t) : Updates s t := by
  obtain ⟨u, h1, h2⟩ := andThen_eq_next.1 h
  cases h2
  exact ((((Update.reg s _ _).one.trans (loadMem_updates h1)).tail (.reg _ _ _)).tail (.reg _ _ _)).trans
    (advance_updates _ (len_even _))

theorem execPopf_updates {s t : State} (h : execPopf s = .next t) : Updates s t := by
  obtain ⟨f, h1, h2⟩ := andThen_eq_next.1 h
  cases h2
  exact (((loadMem_updates h1).tail (.flags _ f.1)).tail (.reg _ _ _)).trans (advance_updates _ (len_even _))

theorem execDi_updates {s t : State} (h : execDi s = .next t) : Updates s t := by
  cases h; exact (Update.flags s _).one.trans (advance_updates _ (len_even _))

theorem execEi_updates {s t : State} (h : execEi s = .next t) : Updates s t := by
  cases h; exact (Update.flags s _).one.trans (advance_updates _ (len_even _))

theorem execBrk_updates {s t : State} (h : execBrk s = .next t) : Updates s t := by
  unfold execBrk at h
  split at h
  · cases h
  · exact illegalEntry_updates h

theorem execDjnz_updates {d : Reg} {u : BitVec 4} {s t : State} (h : execDjnz d u s = .next t) : Updates s t := by
  have h0 : Updates s (setFlags (opDec s.flags (readReg s d)).2 (writeReg s d (opDec s.flags (readReg s d)).1)) :=
    (Update.reg s d _).one.trans (setFlags_updates _ _)
  simp only [execDjnz] at h
  split at h <;> cases h
  · exact h0.trans (advance_updates _ (len_even _))
  · exact h0.trans (jump_updates _ fun he => djnzTarget_even u (len_even _) (by simpa using he))

theorem execIret_updates {s t : State} (h : execIret s = .next t) : Updates s t := by
  unfold execIret at h
  split at h
  · split at h
    · exact chainedReturn_updates h
    · exact interruptReturn_updates h
  · exact interruptReturn_updates h

theorem execJpCc_updates {cc : Cond} {c : CondTarget} {s t : State} (h : execJpCc cc c s = .next t) : Updates s t := by
  unfold execJpCc at h
  split at h <;> cases h
  · exact jump_updates s fun he => condTargetEa_even c (len_even _) he
  · exact advance_updates s (len_even _)

theorem execRet_updates {s t : State} (h : execRet s = .next t) : Updates s t := by
  obtain ⟨u, h1, h2⟩ := andThen_eq_next.1 h
  exact (popQuad_updates h1).trans (jumpLoaded_updates h2)

theorem execUdiv_updates {d r : Reg} {s t : State} (h : execUdiv d r s = .next t) : Updates s t := by
  simp only [execUdiv] at h
  split at h
  · exact raiseAndAdvance_updates (len_even _) h
  · exact pair_updates (len_even _) h

theorem execSdiv_updates {d r : Reg} {s t : State} (h : execSdiv d r s = .next t) : Updates s t := by
  simp only [execSdiv] at h
  split at h
  · exact raiseAndAdvance_updates (len_even _) h
  · split at h <;> exact pair_updates (len_even _) h

theorem execUdiv64_updates {d r : Reg} {s t : State} (h : execUdiv64 d r s = .next t) : Updates s t := by
  simp only [execUdiv64] at h
  split at h
  · exact raiseAndAdvance_updates (len_even _) h
  · split at h
    · exact raiseAndAdvance_updates (len_even _) h
    · exact pair_updates (len_even _) h

/-- What every other instruction can do. -/
theorem exec_updates {i : Instr} {s t : State} (hi : setsMode i = false) (h : exec i s = .next t) : Updates s t := by
  cases i with
  | brk => exact execBrk_updates h
  | unlink => exact execUnlink_updates h
  | pushf => exact pushThenAdvance_updates (len_even _) h
  | popf => exact execPopf_updates h
  | atm => exact absurd hi (by decide)
  | noflags => exact absurd hi (by decide)
  | extend => exact absurd hi (by decide)
  | ld _ => exact execLd_updates h
  | lea _ _ => exact loadRegister_updates (len_even _) h
  | ldUB _ _ => exact load_updates (len_even _) h
  | ldUW _ _ => exact load_updates (len_even _) h
  | ldSB _ _ => exact load_updates (len_even _) h
  | ldSW _ _ => exact load_updates (len_even _) h
  | ldCc _ _ => exact loadRegister_updates (len_even _) h
  | ldB f => cases f <;> exact store_updates (len_even _) h
  | ldW f => cases f <;> exact store_updates (len_even _) h
  | pushmlo _ => exact pushMultiple_updates (len_even _) h
  | pushmhi _ => exact pushMultiple_updates (len_even _) h
  | popmlo _ => exact popMultiple_updates (len_even _) h
  | popmhi _ => exact popMultiple_updates (len_even _) h
  | link _ => exact execLink_updates h
  | pushB _ => exact pushThenAdvance_updates (len_even _) h
  | pushW _ => exact pushThenAdvance_updates (len_even _) h
  | push _ => exact pushThenAdvance_updates (len_even _) h
  | add _ => exact bopWrite_updates (len_even _) (fun _ => addQuadOperands_updates) h
  | extUB _ _ => cases h; exact register_updates _ _ _ _ (len_even _)
  | extUW _ _ => cases h; exact register_updates _ _ _ _ (len_even _)
  | extSB _ _ => cases h; exact register_updates _ _ _ _ (len_even _)
  | extSW _ _ => cases h; exact register_updates _ _ _ _ (len_even _)
  | ldes _ => exact loadRegister_updates (len_even _) h
  | com _ => cases h; exact register_updates _ _ _ _ (len_even _)
  | neg _ => cases h; exact register_updates _ _ _ _ (len_even _)
  | addUB _ _ => exact bopWrite_updates (len_even _) (fun _ => bopSourceOperands_updates) h
  | addSB _ _ => exact bopWrite_updates (len_even _) (fun _ => bopSourceOperands_updates) h
  | addUW _ _ => exact bopWrite_updates (len_even _) (fun _ => bopSourceOperands_updates) h
  | addSW _ _ => exact bopWrite_updates (len_even _) (fun _ => bopSourceOperands_updates) h
  | addB _ => exact bopWrite_updates (len_even _) (fun _ => memOperands_updates (sz := .byte)) h
  | addW _ => exact bopWrite_updates (len_even _) (fun _ => memOperands_updates (sz := .word)) h
  | subUB _ _ => exact bopWrite_updates (len_even _) (fun _ => bopSourceOperands_updates) h
  | subSB _ _ => exact bopWrite_updates (len_even _) (fun _ => bopSourceOperands_updates) h
  | subUW _ _ => exact bopWrite_updates (len_even _) (fun _ => bopSourceOperands_updates) h
  | subSW _ _ => exact bopWrite_updates (len_even _) (fun _ => bopSourceOperands_updates) h
  | sub _ => exact bopWrite_updates (len_even _) (fun _ => bopQuadOperands_updates) h
  | subB _ => exact bopWrite_updates (len_even _) (fun _ => memOperands_updates (sz := .byte)) h
  | subW _ => exact bopWrite_updates (len_even _) (fun _ => memOperands_updates (sz := .word)) h
  | andUB _ _ => exact bopWrite_updates (len_even _) (fun _ => bopSourceOperands_updates) h
  | andSB _ _ => exact bopWrite_updates (len_even _) (fun _ => bopSourceOperands_updates) h
  | andUW _ _ => exact bopWrite_updates (len_even _) (fun _ => bopSourceOperands_updates) h
  | andSW _ _ => exact bopWrite_updates (len_even _) (fun _ => bopSourceOperands_updates) h
  | and _ => exact bopWrite_updates (len_even _) (fun _ => bopQuadOperands_updates) h
  | andB _ => exact bopWrite_updates (len_even _) (fun _ => memOperands_updates (sz := .byte)) h
  | andW _ => exact bopWrite_updates (len_even _) (fun _ => memOperands_updates (sz := .word)) h
  | orUB _ _ => exact bopWrite_updates (len_even _) (fun _ => bopSourceOperands_updates) h
  | orSB _ _ => exact bopWrite_updates (len_even _) (fun _ => bopSourceOperands_updates) h
  | orUW _ _ => exact bopWrite_updates (len_even _) (fun _ => bopSourceOperands_updates) h
  | orSW _ _ => exact bopWrite_updates (len_even _) (fun _ => bopSourceOperands_updates) h
  | or _ => exact bopWrite_updates (len_even _) (fun _ => bopQuadOperands_updates) h
  | orB _ => exact bopWrite_updates (len_even _) (fun _ => memOperands_updates (sz := .byte)) h
  | orW _ => exact bopWrite_updates (len_even _) (fun _ => memOperands_updates (sz := .word)) h
  | xorUB _ _ => exact bopWrite_updates (len_even _) (fun _ => bopSourceOperands_updates) h
  | xorSB _ _ => exact bopWrite_updates (len_even _) (fun _ => bopSourceOperands_updates) h
  | xorUW _ _ => exact bopWrite_updates (len_even _) (fun _ => bopSourceOperands_updates) h
  | xorSW _ _ => exact bopWrite_updates (len_even _) (fun _ => bopSourceOperands_updates) h
  | xor _ => exact bopWrite_updates (len_even _) (fun _ => bopQuadOperands_updates) h
  | xorB _ => exact bopWrite_updates (len_even _) (fun _ => memOperands_updates (sz := .byte)) h
  | xorW _ => exact bopWrite_updates (len_even _) (fun _ => memOperands_updates (sz := .word)) h
  | cpUB _ _ => exact bopTest_updates (len_even _) (fun _ => bopSourceOperands_updates) h
  | cpSB _ _ => exact bopTest_updates (len_even _) (fun _ => bopSourceOperands_updates) h
  | cpUW _ _ => exact bopTest_updates (len_even _) (fun _ => bopSourceOperands_updates) h
  | cpSW _ _ => exact bopTest_updates (len_even _) (fun _ => bopSourceOperands_updates) h
  | cp _ => exact bopTest_updates (len_even _) (fun _ => cpQuadOperands_updates) h
  | cpB _ => exact bopTest_updates (len_even _) (fun _ => memOperands_updates (sz := .byte)) h
  | cpW _ => exact bopTest_updates (len_even _) (fun _ => memOperands_updates (sz := .word)) h
  | tmUB _ _ => exact bopTest_updates (len_even _) (fun _ => bopSourceOperands_updates) h
  | tmSB _ _ => exact bopTest_updates (len_even _) (fun _ => bopSourceOperands_updates) h
  | tmUW _ _ => exact bopTest_updates (len_even _) (fun _ => bopSourceOperands_updates) h
  | tmSW _ _ => exact bopTest_updates (len_even _) (fun _ => bopSourceOperands_updates) h
  | tm _ => exact bopTest_updates (len_even _) (fun _ => bopQuadOperands_updates) h
  | tmB _ => exact bopTest_updates (len_even _) (fun _ => memOperands_updates (sz := .byte)) h
  | tmW _ => exact bopTest_updates (len_even _) (fun _ => memOperands_updates (sz := .word)) h
  | tcmUB _ _ => exact bopTest_updates (len_even _) (fun _ => bopSourceOperands_updates) h
  | tcmSB _ _ => exact bopTest_updates (len_even _) (fun _ => bopSourceOperands_updates) h
  | tcmUW _ _ => exact bopTest_updates (len_even _) (fun _ => bopSourceOperands_updates) h
  | tcmSW _ _ => exact bopTest_updates (len_even _) (fun _ => bopSourceOperands_updates) h
  | tcm _ => exact bopTest_updates (len_even _) (fun _ => bopQuadOperands_updates) h
  | tcmB _ => exact bopTest_updates (len_even _) (fun _ => memOperands_updates (sz := .byte)) h
  | tcmW _ => exact bopTest_updates (len_even _) (fun _ => memOperands_updates (sz := .word)) h
  | clrB _ => exact uopClear_updates (len_even _) h
  | clrW _ => exact uopClear_updates (len_even _) h
  | clr _ => exact uopClear_updates (len_even _) h
  | cpzB _ => exact uopTest_updates (len_even _) h
  | cpzW _ => exact uopTest_updates (len_even _) h
  | cpz _ => exact uopTest_updates (len_even _) h
  | incB _ => exact uopWrite_updates (len_even _) h
  | incW _ => exact uopWrite_updates (len_even _) h
  | inc _ => exact uopWrite_updates (len_even _) h
  | decB _ => exact uopWrite_updates (len_even _) h
  | decW _ => exact uopWrite_updates (len_even _) h
  | dec _ => exact uopWrite_updates (len_even _) h
  | udiv _ _ => exact execUdiv_updates h
  | sdiv _ _ => exact execSdiv_updates h
  | umul _ _ => exact pair_updates (len_even _) h
  | smul _ _ => exact pair_updates (len_even _) h
  | mul _ _ => cases h; exact register_updates _ _ _ _ (len_even _)
  | sra _ _ => exact shiftRegister_updates (len_even _) h
  | srl _ _ => exact shiftRegister_updates (len_even _) h
  | sll _ _ => exact shiftRegister_updates (len_even _) h
  | rl _ _ => exact shiftRegister_updates (len_even _) h
  | jp _ => cases h; exact jump_updates _ fun he => jumpTargetEa_even _ (len_even _) he
  | call _ => exact callTo_updates (fun he => jumpTargetEa_even _ (len_even _) he) h
  | jpCc _ _ => exact execJpCc_updates h
  | jpa _ => cases h; exact jump_updates _ fun _ => evenAddress_even _
  | calla _ => exact callTo_updates (fun _ => evenAddress_even _) h
  | djnz _ _ => exact execDjnz_updates h
  | trap _ => exact trapEntry_updates h
  | wdt => exact absurd hi (by decide)
  | stop => exact absurd hi (by decide)
  | halt => exact absurd hi (by decide)
  | ei => exact execEi_updates h
  | di => exact execDi_updates h
  | ret => exact execRet_updates h
  | iret => exact execIret_updates h
  | nop => cases h; exact advance_updates _ (len_even _)
  | ill => exact illegalEntry_updates h
  | unimplemented _ => exact illegalEntry_updates h
  | adcUB _ _ => exact bopWrite_updates (len_even _) (fun _ => bopSourceOperands_updates) h
  | adcSB _ _ => exact bopWrite_updates (len_even _) (fun _ => bopSourceOperands_updates) h
  | adcUW _ _ => exact bopWrite_updates (len_even _) (fun _ => bopSourceOperands_updates) h
  | adcSW _ _ => exact bopWrite_updates (len_even _) (fun _ => bopSourceOperands_updates) h
  | adc _ => exact bopWrite_updates (len_even _) (fun _ => addQuadOperands_updates) h
  | adcB _ => exact bopWrite_updates (len_even _) (fun _ => memOperands_updates (sz := .byte)) h
  | adcW _ => exact bopWrite_updates (len_even _) (fun _ => memOperands_updates (sz := .word)) h
  | sbcUB _ _ => exact bopWrite_updates (len_even _) (fun _ => bopSourceOperands_updates) h
  | sbcSB _ _ => exact bopWrite_updates (len_even _) (fun _ => bopSourceOperands_updates) h
  | sbcUW _ _ => exact bopWrite_updates (len_even _) (fun _ => bopSourceOperands_updates) h
  | sbcSW _ _ => exact bopWrite_updates (len_even _) (fun _ => bopSourceOperands_updates) h
  | sbc _ => exact bopWrite_updates (len_even _) (fun _ => bopQuadOperands_updates) h
  | sbcB _ => exact bopWrite_updates (len_even _) (fun _ => memOperands_updates (sz := .byte)) h
  | sbcW _ => exact bopWrite_updates (len_even _) (fun _ => memOperands_updates (sz := .word)) h
  | cpcUB _ _ => exact bopTest_updates (len_even _) (fun _ => bopSourceOperands_updates) h
  | cpcSB _ _ => exact bopTest_updates (len_even _) (fun _ => bopSourceOperands_updates) h
  | cpcUW _ _ => exact bopTest_updates (len_even _) (fun _ => bopSourceOperands_updates) h
  | cpcSW _ _ => exact bopTest_updates (len_even _) (fun _ => bopSourceOperands_updates) h
  | cpc _ => exact bopTest_updates (len_even _) (fun _ => cpQuadOperands_updates) h
  | cpcB _ => exact bopTest_updates (len_even _) (fun _ => memOperands_updates (sz := .byte)) h
  | cpcW _ => exact bopTest_updates (len_even _) (fun _ => memOperands_updates (sz := .word)) h
  | cpczB _ => exact uopTest_updates (len_even _) h
  | cpczW _ => exact uopTest_updates (len_even _) h
  | cpcz _ => exact uopTest_updates (len_even _) h
  | sllx _ _ => exact pair_updates (len_even _) h
  | srax _ _ => exact pair_updates (len_even _) h
  | srlx _ _ => exact pair_updates (len_even _) h
  | udiv64 _ _ => exact execUdiv64_updates h

/-! ### What a chain of updates keeps -/

/-- What no instruction, entry or return changes, and what it can only extend. -/
structure Kept (s t : State) : Prop where
  cfg        : t.cfg = s.cfg
  env        : t.env = s.env
  irq        : t.irq = s.irq
  heldExc    : t.heldExc = s.heldExc
  freeCtr    : t.freeCtr = s.freeCtr
  runState   : t.runState = s.runState
  wdtEnabled : t.wdtEnabled = s.wdtEnabled
  events     : ∃ new, t.events = new ++ s.events
  nvm        : ∀ p, p < ioBase s.cfg → regionKind s.cfg p = .nvm → byteAt t p = byteAt s p
  memory     : Memory.wf (blankByte s.cfg) s.mem = true → Memory.wf (blankByte t.cfg) t.mem = true
  ioRegs     : Memory.wf (resetContents s.cfg) s.ioRegs = true → Memory.wf (resetContents t.cfg) t.ioRegs = true
  written    : risingFrom 0 s.written = true → risingFrom 0 t.written = true
  even       : s.pc.getLsbD 0 = false → t.pc.getLsbD 0 = false
  modifiers  : SameModifiers s t ∨ NoModifiers t

theorem Kept.refl (s : State) : Kept s s :=
  ⟨rfl, rfl, rfl, rfl, rfl, rfl, rfl, ⟨[], rfl⟩, fun _ _ _ => rfl, id, id, id, id, .inl ⟨rfl, rfl, rfl⟩⟩

theorem Kept.trans {s t u : State} (h : Kept s t) (h' : Kept t u) : Kept s u where
  cfg := h'.cfg.trans h.cfg
  env := h'.env.trans h.env
  irq := h'.irq.trans h.irq
  heldExc := h'.heldExc.trans h.heldExc
  freeCtr := h'.freeCtr.trans h.freeCtr
  runState := h'.runState.trans h.runState
  wdtEnabled := h'.wdtEnabled.trans h.wdtEnabled
  events := by
    obtain ⟨a, ha⟩ := h.events
    obtain ⟨b, hb⟩ := h'.events
    exact ⟨b ++ a, by rw [hb, ha, List.append_assoc]⟩
  nvm := fun p hp hk => (h'.nvm p (by rw [h.cfg]; exact hp) (by rw [h.cfg]; exact hk)).trans (h.nvm p hp hk)
  memory := fun hm => h'.memory (h.memory hm)
  ioRegs := fun hm => h'.ioRegs (h.ioRegs hm)
  written := fun hw => h'.written (h.written hw)
  even := fun he => h'.even (h.even he)
  modifiers := by
    rcases h'.modifiers with h2 | h2
    · rcases h.modifiers with h1 | h1
      · exact .inl ⟨h2.1.trans h1.1, h2.2.1.trans h1.2.1, h2.2.2.trans h1.2.2⟩
      · exact .inr ⟨h2.1.trans h1.1, h2.2.1.trans h1.2.1, h2.2.2.trans h1.2.2⟩
    · exact .inr h2

/-- An update that touches neither memory nor what is kept. -/
theorem Kept.of_eq {s t : State} (h1 : t.cfg = s.cfg) (h2 : t.env = s.env) (h3 : t.irq = s.irq)
    (h4 : t.freeCtr = s.freeCtr) (h5 : t.runState = s.runState) (h6 : t.wdtEnabled = s.wdtEnabled)
    (h7 : t.events = s.events) (h8 : t.mem = s.mem) (h9 : t.written = s.written) (h10 : t.pc = s.pc)
    (h11 : SameModifiers s t) (h12 : t.ioRegs = s.ioRegs) (h13 : t.heldExc = s.heldExc) : Kept s t :=
  ⟨h1, h2, h3, h13, h4, h5, h6, ⟨[], h7⟩, fun p _ _ => byteAt_congr h8 h1 p, by rw [h8, h1]; exact id,
    by rw [h12, h1]; exact id, by rw [h9]; exact id,
    by rw [h10]; exact id, .inl h11⟩

theorem locate_nvm {c : Config} {p : Nat} (hp : p < ioBase c) (hk : regionKind c p = .nvm) : locate c p = .nvm := by
  unfold locate
  rw [if_neg (by omega), hk]

/-- A byte store leaves nonvolatile memory alone: it is refused there. -/
theorem writeByte_nvm {s t : State} {a : Quad} {b : Byte} (h : writeByte s a b = .next t) {p : Nat}
    (hp : p < ioBase s.cfg) (hk : regionKind s.cfg p = .nvm) : byteAt t p = byteAt s p := by
  refine writeByte_byteAt h fun he => ?_
  unfold writeByte at h
  simp only [← he, locate_nvm hp hk] at h
  cases h

theorem Update.kept {s t : State} (h : Update s t) : Kept s t := by
  cases h with
  | reg d v =>
    exact .of_eq (by simp) (by simp) (by simp) (by simp) (by simp) (by simp) (by simp) (by simp) (by simp) (by simp)
      (by simp [SameModifiers]) (by simp) (by simp)
  | freeReg d v => exact .of_eq rfl rfl rfl rfl rfl rfl rfl rfl rfl rfl ⟨rfl, rfl, rfl⟩ rfl rfl
  | raise e =>
    exact .of_eq (by simp) (by simp) (by simp) (by simp) (by simp) (by simp) (by simp) (by simp) (by simp) (by simp)
      (by simp [SameModifiers]) (by simp) (by simp)
  | flags f => exact .of_eq rfl rfl rfl rfl rfl rfl rfl rfl rfl rfl ⟨rfl, rfl, rfl⟩ rfl rfl
  | pc q hq =>
    exact ⟨rfl, rfl, rfl, rfl, rfl, rfl, rfl, ⟨[], rfl⟩, fun _ _ _ => rfl, id, id, id, hq, .inl ⟨rfl, rfl, rfl⟩⟩
  | read a =>
    have e := noteRead_only a s
    have hc : (noteRead a s).cfg = s.cfg := noteRead_cfg a s
    exact ⟨hc, by rw [e], by rw [e], by rw [e], by rw [e], by rw [e], by rw [e], noteRead_events a s,
      fun p _ _ => byteAt_congr (by rw [e]) hc p, by rw [hc, show (noteRead a s).mem = s.mem by rw [e]]; exact id,
      noteRead_wf a, by rw [show (noteRead a s).written = s.written by rw [e]]; exact id,
      by rw [show (noteRead a s).pc = s.pc by rw [e]]; exact id, .inl ⟨by rw [e], by rw [e], by rw [e]⟩⟩
  | store hw =>
    have f := writeByte_frame hw
    exact ⟨f.cfg, f.env, f.irq, f.heldExc, f.freeCtr, f.runState, f.wdtEnabled, f.events, fun p => writeByte_nvm hw,
      writeByte_memory_wf hw, writeByte_ioRegs_wf hw, writeByte_written hw, by rw [f.pc]; exact id,
      .inl ⟨f.extendPending, f.noflagsPending, f.atmCount⟩⟩
  | forget =>
    exact ⟨rfl, rfl, rfl, rfl, rfl, rfl, rfl, ⟨[], rfl⟩, fun _ _ _ => rfl, id, id, fun _ => rfl, id, .inl ⟨rfl, rfl, rfl⟩⟩
  | modifiers =>
    exact ⟨rfl, rfl, rfl, rfl, rfl, rfl, rfl, ⟨[], rfl⟩, fun _ _ _ => rfl, id, id, id, id, .inr ⟨rfl, rfl, rfl⟩⟩
  | exceptions x p => exact .of_eq rfl rfl rfl rfl rfl rfl rfl rfl rfl rfl ⟨rfl, rfl, rfl⟩ rfl rfl
  | acknowledge v =>
    exact ⟨rfl, rfl, rfl, rfl, rfl, rfl, rfl, ⟨[_], rfl⟩, fun _ _ _ => rfl, id, id, id, id, .inl ⟨rfl, rfl, rfl⟩⟩

theorem Updates.kept {s t : State} (h : Updates s t) : Kept s t :=
  h.induct (Kept s) (.refl s) fun _ _ hu hk => hk.trans hu.kept

end Sys2Proof.Machine
end

