-- ==== Sys2Proof/Laws/UnaryOps.lean ====
section
/-! SUPPORT. The one-operand operations and their skeletons (spec/40_arithmetic.md R151, R158 to R161, spec/44_load.md
R251), and what loads and stores do (R254 to R257). -/

namespace Sys2Proof.Machine

/-- INC's operation as its rule words it (40_arithmetic.md R160). -/
theorem opInc_eq (sz : Size) (f : Byte) (a : BitVec sz.bits) : opInc f a = (a + 1#sz.bits, incFlags a) := by
  have hr : (aluAdd a 1#sz.bits false).result = a + 1#sz.bits := by simp [aluAdd_result]
  have hv := aluAdd_v (w := sz.bits) (by cases sz <;> decide) a 1#sz.bits false
  have hc : (aluAdd a 1#sz.bits false).c = decide (a = BitVec.allOnes sz.bits) := by
    show decide _ = _
    congr 1; apply propext
    rw [← BitVec.toNat_inj]
    have := a.isLt
    cases sz <;> simp [Size.bits] at * <;> omega
  have hz : (aluAdd a 1#sz.bits false).z = decide ((aluAdd a 1#sz.bits false).result = 0#sz.bits) := rfl
  have hs : (aluAdd a 1#sz.bits false).s = (aluAdd a 1#sz.bits false).result.msb := rfl
  have hv' : (aluAdd a 1#sz.bits false).v = decide (a = BitVec.intMax sz.bits) := by
    rw [hv]
    unfold outOfRange
    congr 1; apply propext
    rw [← BitVec.toInt_inj]
    have h1 := @BitVec.toInt_lt _ a
    have h2 := @BitVec.le_toInt _ a
    cases sz <;> simp [Size.bits] at * <;> omega
  simp only [opInc, arithFlags, hr, hc, hz, hs, hv', beq_zero_eq]; rfl

/-- DEC's and DJNZ's operation (R161). -/
theorem opDec_eq (sz : Size) (f : Byte) (a : BitVec sz.bits) : opDec f a = (a - 1#sz.bits, decFlags a) := by
  have hr : (aluSub a 1#sz.bits false).result = a - 1#sz.bits := by simp [aluSub_result]
  have hv := aluSub_v (w := sz.bits) (by cases sz <;> decide) a 1#sz.bits false
  have hc : (aluSub a 1#sz.bits false).c = decide (a = 0#sz.bits) := by
    rw [aluSub_c]
    congr 1; apply propext
    rw [← BitVec.toNat_inj]
    cases sz <;> simp [Size.bits]
  have hz : (aluSub a 1#sz.bits false).z = decide ((aluSub a 1#sz.bits false).result = 0#sz.bits) := rfl
  have hs : (aluSub a 1#sz.bits false).s = (aluSub a 1#sz.bits false).result.msb := rfl
  have hv' : (aluSub a 1#sz.bits false).v = decide (a = BitVec.intMin sz.bits) := by
    rw [hv]
    unfold outOfRange
    congr 1; apply propext
    rw [← BitVec.toInt_inj]
    have h1 := @BitVec.toInt_lt _ a
    have h2 := @BitVec.le_toInt _ a
    have h3 : (BitVec.intMin sz.bits).toInt = -2 ^ (sz.bits - 1) := by cases sz <;> decide
    rw [h3]
    cases sz <;> simp [Size.bits] at * <;> omega
  simp only [opDec, arithFlags, hr, hc, hz, hs, hv', beq_zero_eq]; rfl

/-- CPZ's flags (R158). -/
theorem opCpz_eq (sz : Size) (f : Byte) (a : BitVec sz.bits) : (opCpz f a).2 = cpzFlags a := by
  have hr : (aluSub a 0#sz.bits false).result = a := by simp [aluSub_result]
  have hv := aluSub_v (w := sz.bits) (by cases sz <;> decide) a 0#sz.bits false
  have hc : (aluSub a 0#sz.bits false).c = false := by
    rw [aluSub_c]; simp
  have hz : (aluSub a 0#sz.bits false).z = decide ((aluSub a 0#sz.bits false).result = 0#sz.bits) := rfl
  have hs : (aluSub a 0#sz.bits false).s = (aluSub a 0#sz.bits false).result.msb := rfl
  have hv' : (aluSub a 0#sz.bits false).v = false := by
    rw [hv]
    unfold outOfRange
    have h1 := @BitVec.toInt_lt _ a
    have h2 := @BitVec.le_toInt _ a
    cases sz <;> simp [Size.bits] at * <;> omega
  simp only [opCpz, arithFlags, hr, hc, hz, hs, hv']; rfl

/-- CPCZ's flags (R159). -/
theorem opCpcz_eq (sz : Size) (f : Byte) (a : BitVec sz.bits) :
    (opCpcz f a).2 = cpczFlags (flagC f) (flagZ f) a := by
  have hr : (aluSub a 0#sz.bits (flagC f)).result = a - (BitVec.ofBool (flagC f)).setWidth sz.bits := by
    rw [aluSub_result, BitVec.sub_zero]
    congr 1
    cases flagC f <;> cases sz <;> rfl
  have hv := aluSub_v (w := sz.bits) (by cases sz <;> decide) a 0#sz.bits (flagC f)
  have hc : (aluSub a 0#sz.bits (flagC f)).c = (decide (a = 0#sz.bits) && flagC f) := by
    rw [aluSub_c, Bool.eq_iff_iff]
    cases flagC f
    · simp
    · simp [← BitVec.toNat_inj]
  have hz : (aluSub a 0#sz.bits (flagC f)).z = decide ((aluSub a 0#sz.bits (flagC f)).result = 0#sz.bits) := rfl
  have hs : (aluSub a 0#sz.bits (flagC f)).s = (aluSub a 0#sz.bits (flagC f)).result.msb := rfl
  have hv' : (aluSub a 0#sz.bits (flagC f)).v = (decide (a = BitVec.intMin sz.bits) && flagC f) := by
    rw [hv, Bool.eq_iff_iff]
    unfold outOfRange
    have h1 := @BitVec.toInt_lt _ a
    have h2 := @BitVec.le_toInt _ a
    have h3 : (BitVec.intMin sz.bits).toInt = -2 ^ (sz.bits - 1) := by cases sz <;> decide
    rw [Bool.and_eq_true, decide_eq_true_iff, decide_eq_true_iff, ← BitVec.toInt_inj, h3]
    cases flagC f <;> cases sz <;> simp [Size.bits] at * <;> omega
  simp only [opCpcz, stickyFlags, hr, hc, hz, hs, hv']; rfl
/-! ### The skeletons -/

theorem uopWrite_outcome {sz : Size} {op : Byte → BitVec sz.bits → BitVec sz.bits × FlagUpdate}
    {f : BitVec sz.bits → BitVec sz.bits} {u : BitVec sz.bits → FlagUpdate} {m : UopDest} {s : State} {len : Nat}
    (hop : ∀ a, op s.flags a = (f a, u a)) (hlen : len = uopLen m) (h : UpdateReady sz.bytes s (uopEa m s)) :
    UpdateOutcome sz f u m s (uopWrite sz op len m s) := by
  obtain ⟨a, ha⟩ := readMem_next h.1
  have hwr : Writable sz.bytes (noteReads sz (uopEa m s) s) (uopEa m s) :=
    fun k hk => by rw [writableByte_congr (noteReads_cfg s sz _)]; exact h.2.1 k hk
  have hfl : writesFlagsTwice (noteReads sz (uopEa m s) s) (uopEa m s) = false := writesFlagsTwice_noteReads h.2.2
  obtain ⟨t, ht⟩ := writeMem_next (sz := sz) (f a) hwr
  refine ⟨a, advance len (setFlags (u a) t), ha, ?_, ?_⟩
  · simp only [uopWrite, loadMem_next ha, andThen_next, hop, storeResult, hfl, Bool.false_eq_true, if_false, ht]
  · rw [hlen]; exact stored _ _ ht

theorem uopTest_outcome {sz : Size} {op : Byte → BitVec sz.bits → BitVec sz.bits × FlagUpdate}
    {u : BitVec sz.bits → FlagUpdate} {m : UopDest} {s : State} {len : Nat}
    (hop : ∀ a, (op s.flags a).2 = u a) (hlen : len = uopLen m) (h : Readable sz.bytes s (uopEa m s)) :
    TestOutcome sz u m s (uopTest sz op len m s) := by
  obtain ⟨a, ha⟩ := readMem_next h
  refine ⟨a, advance len (setFlags (u a) (noteReads sz (uopEa m s) s)), ha, ?_, ?_⟩
  · simp only [uopTest, loadMem_next ha, andThen_next, hop]
  · rw [hlen]; exact setFlagsOnly (noteReads sz (uopEa m s) s) _ _

theorem uopClear_outcome {sz : Size} {m : UopDest} {s : State} {len : Nat} (hlen : len = uopLen m)
    (h : Writable sz.bytes s (uopEa m s)) :
    ∃ t, uopClear sz len m s = .next t ∧ Stored sz s t (uopEa m s) 0 {} (uopLen m) := by
  obtain ⟨t, ht⟩ := writeMem_next (sz := sz) 0 h
  exact ⟨advance len t, by rw [uopClear, ht, andThen_next], by rw [hlen]; exact stored_plain _ ht⟩

theorem load_outcome {sz : Size} {x : Extension} {d : Reg} {m : LoadSource} {s : State} {len : Nat}
    (hlen : len = loadLen m) (h : Readable sz.bytes s (loadEa m (offsetBy s.pc (loadLen m)) s)) :
    LoadOutcome sz (fun v => extendTo x v) d m s (load sz x d m len s) := by
  subst hlen
  obtain ⟨v, hv⟩ := readMem_next h
  refine ⟨v, _, hv, by rw [load, offsetBy_eq_nextPc, loadMem_next hv, andThen_next], ?_⟩
  exact wroteRegister (loadPointer sz m _) d (extendTo x v) (blankFlag v) (loadLen m)

theorem store_outcome {sz : Size} {m : StoreDest} {v : BitVec sz.bits} {s : State} {len : Nat}
    (h : Writable sz.bytes s (storeEa sz m s)) : StoreOutcome sz m v len s (store sz m v len s) := by
  obtain ⟨t, ht⟩ := writeMem_next (sz := sz) v h
  cases m with
  | preDec d =>
    have hw : Writable sz.bytes (writeReg s d (readReg s d - sizeQuad sz)) (readReg s d - sizeQuad sz) :=
      fun k hk => by rw [writableByte_congr (s := s) (by simp)]; exact h k hk
    obtain ⟨t, ht⟩ := writeMem_next (sz := sz) v hw
    refine ⟨advance len t, ?_, ?_⟩
    · simp only [store, storeTo, storePreDec, readReg_writeReg, if_true, ht, andThen_next]
    · have := stored_plain len ht
      exact this
  | postInc d =>
    have hf := writeMem_frame ht
    refine ⟨advance len t, ?_, stored_plain len ht⟩
    simp only [storeEa] at ht
    simp only [store, storeTo, ht, andThen_next, readReg_congr hf.regs, advance_writeReg]
  | addr16 a =>
    exact ⟨advance len t, by simp only [store, storeTo, addr16Ea, sext]; simp only [storeEa] at ht; rw [ht]; rfl,
      stored_plain len ht⟩
  | addr32 a =>
    exact ⟨advance len t, by simp only [store, storeTo]; simp only [storeEa] at ht; rw [ht]; rfl, stored_plain len ht⟩
  | ind d =>
    exact ⟨advance len t, by simp only [store, storeTo]; simp only [storeEa] at ht; rw [ht]; rfl, stored_plain len ht⟩
  | off o d =>
    exact ⟨advance len t, by simp only [store, storeTo, indirectEa, sext]; simp only [storeEa] at ht; rw [ht]; rfl,
      stored_plain len ht⟩
  | fpRel o =>
    exact ⟨advance len t, by
      simp only [store, storeTo, indirectEa, sext, fpReg]; simp only [storeEa] at ht; rw [ht]; rfl, stored_plain len ht⟩

end Sys2Proof.Machine
end

