-- ==== Sys2Proof/Tests/Slice0.lean ====
section
/-! SUPPORT. Tests: the well-formedness check refuses, every constructor's word written out from the spec's encoding
tables decodes to it, one step of each family ends as spec/95_test_vectors.md says, the kernel evaluates the host's entry
points, and the hypotheses of every statement are met by a concrete state. -/

namespace Sys2Proof.Tests

open Sys2Proof Sys2Proof.Machine

/- One kernel evaluation at a time: many at once run the compiler out of threads. -/
set_option Elab.async false

/-! ### Well-formedness (30_encoding.md R115) -/

theorem test_refused_unimplemented_of_nop : (Instr.unimplemented 0xFFFE).wellFormed = false := by decide
theorem test_refused_unimplemented_of_extend : (Instr.unimplemented 0x0007).wellFormed = false := by decide
theorem test_accepted_unimplemented : (Instr.unimplemented 0x0006).wellFormed = true := by decide

/-! ### Decoding: words written from the forms of 40_arithmetic.md R150, R151 and the rows of 30_encoding.md R123 to R131
and 44_load.md -/

theorem test_decode_add :
    decodeWords false 0x7004 0xB07B 0 = .addUB 4 (.addr16 0xB07B) ∧
    decodeWords false 0x709C 0x1234 0x5678 = .addSB 12 (.addr32 0x12345678) ∧
    decodeWords false 0x78AC 0x5FFE 0 = .addUW 12 (.ind 0x1FFE 10) ∧
    decodeWords false 0x7876 0x7FFE 0 = .addSW 6 (.ind 0x1FFE 7) ∧
    decodeWords false 0xA0B3 0 0 = .add (.bop (.regReg 3 11)) ∧
    decodeWords false 0xAD96 0x000D 0 = .addB (.indImm 6 0x0D) ∧
    decodeWords false 0xAB03 0x1055 0 = .addW (.indImm 3 0x1055) := by decide +kernel

theorem test_decode_sub :
    decodeWords false 0x7104 0xB07B 0 = .subUB 4 (.addr16 0xB07B) ∧
    decodeWords false 0x719C 0x1234 0x5678 = .subSB 12 (.addr32 0x12345678) ∧
    decodeWords false 0x79AC 0x5FFE 0 = .subUW 12 (.ind 0x1FFE 10) ∧
    decodeWords false 0x7976 0x7FFE 0 = .subSW 6 (.ind 0x1FFE 7) ∧
    decodeWords false 0xA1B3 0 0 = .sub (.regReg 3 11) ∧
    decodeWords false 0xAD96 0x010D 0 = .subB (.indImm 6 0x0D) ∧
    decodeWords false 0xAB13 0x1055 0 = .subW (.indImm 3 0x1055) := by decide +kernel

theorem test_decode_and :
    decodeWords false 0x7204 0xB07B 0 = .andUB 4 (.addr16 0xB07B) ∧
    decodeWords false 0x729C 0x1234 0x5678 = .andSB 12 (.addr32 0x12345678) ∧
    decodeWords false 0x7AAC 0x5FFE 0 = .andUW 12 (.ind 0x1FFE 10) ∧
    decodeWords false 0x7A76 0x7FFE 0 = .andSW 6 (.ind 0x1FFE 7) ∧
    decodeWords false 0xA2B3 0 0 = .and (.regReg 3 11) ∧
    decodeWords false 0xAD96 0x020D 0 = .andB (.indImm 6 0x0D) ∧
    decodeWords false 0xAB23 0x1055 0 = .andW (.indImm 3 0x1055) := by decide +kernel

theorem test_decode_or :
    decodeWords false 0x7304 0xB07B 0 = .orUB 4 (.addr16 0xB07B) ∧
    decodeWords false 0x739C 0x1234 0x5678 = .orSB 12 (.addr32 0x12345678) ∧
    decodeWords false 0x7BAC 0x5FFE 0 = .orUW 12 (.ind 0x1FFE 10) ∧
    decodeWords false 0x7B76 0x7FFE 0 = .orSW 6 (.ind 0x1FFE 7) ∧
    decodeWords false 0xA3B3 0 0 = .or (.regReg 3 11) ∧
    decodeWords false 0xAD96 0x030D 0 = .orB (.indImm 6 0x0D) ∧
    decodeWords false 0xAB33 0x1055 0 = .orW (.indImm 3 0x1055) := by decide +kernel

theorem test_decode_xor :
    decodeWords false 0x7404 0xB07B 0 = .xorUB 4 (.addr16 0xB07B) ∧
    decodeWords false 0x749C 0x1234 0x5678 = .xorSB 12 (.addr32 0x12345678) ∧
    decodeWords false 0x7CAC 0x5FFE 0 = .xorUW 12 (.ind 0x1FFE 10) ∧
    decodeWords false 0x7C76 0x7FFE 0 = .xorSW 6 (.ind 0x1FFE 7) ∧
    decodeWords false 0xA4B3 0 0 = .xor (.regReg 3 11) ∧
    decodeWords false 0xAD96 0x040D 0 = .xorB (.indImm 6 0x0D) ∧
    decodeWords false 0xAB43 0x1055 0 = .xorW (.indImm 3 0x1055) := by decide +kernel

theorem test_decode_cp :
    decodeWords false 0x7504 0xB07B 0 = .cpUB 4 (.addr16 0xB07B) ∧
    decodeWords false 0x759C 0x1234 0x5678 = .cpSB 12 (.addr32 0x12345678) ∧
    decodeWords false 0x7DAC 0x5FFE 0 = .cpUW 12 (.ind 0x1FFE 10) ∧
    decodeWords false 0x7D76 0x7FFE 0 = .cpSW 6 (.ind 0x1FFE 7) ∧
    decodeWords false 0xA5B3 0 0 = .cp (.bop (.regReg 3 11)) ∧
    decodeWords false 0xAD96 0x050D 0 = .cpB (.indImm 6 0x0D) ∧
    decodeWords false 0xAB53 0x1055 0 = .cpW (.indImm 3 0x1055) := by decide +kernel

theorem test_decode_tm :
    decodeWords false 0x7604 0xB07B 0 = .tmUB 4 (.addr16 0xB07B) ∧
    decodeWords false 0x769C 0x1234 0x5678 = .tmSB 12 (.addr32 0x12345678) ∧
    decodeWords false 0x7EAC 0x5FFE 0 = .tmUW 12 (.ind 0x1FFE 10) ∧
    decodeWords false 0x7E76 0x7FFE 0 = .tmSW 6 (.ind 0x1FFE 7) ∧
    decodeWords false 0xA6B3 0 0 = .tm (.regReg 3 11) ∧
    decodeWords false 0xAD96 0x060D 0 = .tmB (.indImm 6 0x0D) ∧
    decodeWords false 0xAB63 0x1055 0 = .tmW (.indImm 3 0x1055) := by decide +kernel

theorem test_decode_tcm :
    decodeWords false 0x7704 0xB07B 0 = .tcmUB 4 (.addr16 0xB07B) ∧
    decodeWords false 0x779C 0x1234 0x5678 = .tcmSB 12 (.addr32 0x12345678) ∧
    decodeWords false 0x7FAC 0x5FFE 0 = .tcmUW 12 (.ind 0x1FFE 10) ∧
    decodeWords false 0x7F76 0x7FFE 0 = .tcmSW 6 (.ind 0x1FFE 7) ∧
    decodeWords false 0xA7B3 0 0 = .tcm (.regReg 3 11) ∧
    decodeWords false 0xAD96 0x070D 0 = .tcmB (.indImm 6 0x0D) ∧
    decodeWords false 0xAB73 0x1055 0 = .tcmW (.indImm 3 0x1055) := by decide +kernel

theorem test_decode_adc :
    decodeWords true 0x7004 0xB07B 0 = .adcUB 4 (.addr16 0xB07B) ∧
    decodeWords true 0x709C 0x1234 0x5678 = .adcSB 12 (.addr32 0x12345678) ∧
    decodeWords true 0x78AC 0x5FFE 0 = .adcUW 12 (.ind 0x1FFE 10) ∧
    decodeWords true 0x7876 0x7FFE 0 = .adcSW 6 (.ind 0x1FFE 7) ∧
    decodeWords true 0xA0B3 0 0 = .adc (.bop (.regReg 3 11)) ∧
    decodeWords true 0xAD96 0x000D 0 = .adcB (.indImm 6 0x0D) ∧
    decodeWords true 0xAB03 0x1055 0 = .adcW (.indImm 3 0x1055) := by decide +kernel

theorem test_decode_sbc :
    decodeWords true 0x7104 0xB07B 0 = .sbcUB 4 (.addr16 0xB07B) ∧
    decodeWords true 0x719C 0x1234 0x5678 = .sbcSB 12 (.addr32 0x12345678) ∧
    decodeWords true 0x79AC 0x5FFE 0 = .sbcUW 12 (.ind 0x1FFE 10) ∧
    decodeWords true 0x7976 0x7FFE 0 = .sbcSW 6 (.ind 0x1FFE 7) ∧
    decodeWords true 0xA1B3 0 0 = .sbc (.regReg 3 11) ∧
    decodeWords true 0xAD96 0x010D 0 = .sbcB (.indImm 6 0x0D) ∧
    decodeWords true 0xAB13 0x1055 0 = .sbcW (.indImm 3 0x1055) := by decide +kernel

theorem test_decode_cpc :
    decodeWords true 0x7504 0xB07B 0 = .cpcUB 4 (.addr16 0xB07B) ∧
    decodeWords true 0x759C 0x1234 0x5678 = .cpcSB 12 (.addr32 0x12345678) ∧
    decodeWords true 0x7DAC 0x5FFE 0 = .cpcUW 12 (.ind 0x1FFE 10) ∧
    decodeWords true 0x7D76 0x7FFE 0 = .cpcSW 6 (.ind 0x1FFE 7) ∧
    decodeWords true 0xA5B3 0 0 = .cpc (.bop (.regReg 3 11)) ∧
    decodeWords true 0xAD96 0x050D 0 = .cpcB (.indImm 6 0x0D) ∧
    decodeWords true 0xAB53 0x1055 0 = .cpcW (.indImm 3 0x1055) := by decide +kernel

theorem test_decode_two_operand_forms :
    decodeWords false 0xAA91 0x1234 0x5678 = .sub (.regImm32 1 0x12345678) ∧
    decodeWords false 0xAA14 0x0001 0 = .sub (.regUimm16 4 1) ∧
    decodeWords false 0x7142 0xB07B 0 = .sub (.regAddr16 2 0xB07B) ∧
    decodeWords false 0x71C2 0x1234 0x5678 = .sub (.regAddr32 2 0x12345678) ∧
    decodeWords false 0x79A2 0x9FFE 0 = .sub (.regInd 2 0x1FFE 10) ∧
    decodeWords false 0x7175 0xB040 0 = .sub (.addr16Reg 0xB040 5) ∧
    decodeWords false 0x71F5 0x1234 0x5678 = .sub (.addr32Reg 0x12345678 5) ∧
    decodeWords false 0x7921 0xE004 0 = .sub (.indReg 4 1 2) ∧
    decodeWords false 0xAB93 0x1234 0x5678 = .sub (.indImm32 3 0x12345678) ∧
    decodeWords false 0xAD13 0xFFFE 0 = .sub (.indSimm16 3 0xFFFE) ∧
    decodeWords false 0x83FF 0 0 = .add (.regSimm8 3 0xFF) ∧
    decodeWords false 0x2123 0 0 = .add (.regRegReg 1 2 3) ∧
    decodeWords true 0x2123 0 0 = .adc (.regRegReg 1 2 3) ∧
    decodeWords false 0x95FF 0 0 = .cp (.regSimm8 5 0xFF) ∧
    decodeWords true 0x95FF 0 0 = .cpc (.regSimm8 5 0xFF) := by decide +kernel

theorem test_decode_two_operand_narrow_forms :
    decodeWords false 0x7105 0xB040 0 = .subUB 5 (.addr16 0xB040) ∧
    decodeWords false 0x7135 0xB040 0 = .subSW 5 (.addr16 0xB040) ∧
    decodeWords false 0x71A5 0x1234 0x5678 = .subUW 5 (.addr32 0x12345678) ∧
    decodeWords false 0x79AC 0x2000 0 = .subSB 12 (.ind 0 10) ∧
    decodeWords false 0x7155 0xB040 0 = .subB (.addr16Reg 0xB040 5) ∧
    decodeWords false 0x7165 0xB040 0 = .subW (.addr16Reg 0xB040 5) ∧
    decodeWords false 0x71D5 0x1234 0x5678 = .subB (.addr32Reg 0x12345678 5) ∧
    decodeWords false 0x71E5 0x1234 0x5678 = .subW (.addr32Reg 0x12345678 5) ∧
    decodeWords false 0x7921 0xA004 0 = .subB (.indReg 4 1 2) ∧
    decodeWords false 0x7921 0xC004 0 = .subW (.indReg 4 1 2) := by decide +kernel

theorem test_decode_clr :
    decodeWords false 0xADA0 0xB034 0 = .clrB (.addr16 0xB034) ∧
    decodeWords false 0xADB4 0x1234 0x5678 = .clrW (.addr32 0x12345678) ∧
    decodeWords false 0xAC83 0 0 = .clr (.ind 3) ∧
    decodeWords false 0xADC3 0x0008 0 = .clrB (.off 8 3) ∧
    decodeWords false 0xADC3 0x4008 0 = .clrW (.off 8 3) ∧
    decodeWords false 0xADC3 0xBFFC 0 = .clr (.off 0x3FFC 3) ∧
    decodeWords false 0xADAC 0xB034 0 = .clr (.addr16 0xB034) := by decide +kernel

theorem test_decode_cpz :
    decodeWords false 0xADA1 0xB034 0 = .cpzB (.addr16 0xB034) ∧
    decodeWords false 0xADB5 0x1234 0x5678 = .cpzW (.addr32 0x12345678) ∧
    decodeWords false 0xAC93 0 0 = .cpz (.ind 3) ∧
    decodeWords false 0xADD3 0x0008 0 = .cpzB (.off 8 3) ∧
    decodeWords false 0xADD3 0x4008 0 = .cpzW (.off 8 3) ∧
    decodeWords false 0xADD3 0xBFFC 0 = .cpz (.off 0x3FFC 3) ∧
    decodeWords false 0xADAD 0xB034 0 = .cpz (.addr16 0xB034) := by decide +kernel

theorem test_decode_cpcz :
    decodeWords true 0xADA1 0xB034 0 = .cpczB (.addr16 0xB034) ∧
    decodeWords true 0xADB5 0x1234 0x5678 = .cpczW (.addr32 0x12345678) ∧
    decodeWords true 0xAC93 0 0 = .cpcz (.ind 3) ∧
    decodeWords true 0xADD3 0x0008 0 = .cpczB (.off 8 3) ∧
    decodeWords true 0xADD3 0x4008 0 = .cpczW (.off 8 3) ∧
    decodeWords true 0xADD3 0xBFFC 0 = .cpcz (.off 0x3FFC 3) ∧
    decodeWords true 0xADAD 0xB034 0 = .cpcz (.addr16 0xB034) := by decide +kernel

theorem test_decode_inc :
    decodeWords false 0xADA2 0xB034 0 = .incB (.addr16 0xB034) ∧
    decodeWords false 0xADB6 0x1234 0x5678 = .incW (.addr32 0x12345678) ∧
    decodeWords false 0xACA3 0 0 = .inc (.ind 3) ∧
    decodeWords false 0xADE3 0x0008 0 = .incB (.off 8 3) ∧
    decodeWords false 0xADE3 0x4008 0 = .incW (.off 8 3) ∧
    decodeWords false 0xADE3 0xBFFC 0 = .inc (.off 0x3FFC 3) ∧
    decodeWords false 0xADAE 0xB034 0 = .inc (.addr16 0xB034) := by decide +kernel

theorem test_decode_dec :
    decodeWords false 0xADA3 0xB034 0 = .decB (.addr16 0xB034) ∧
    decodeWords false 0xADB7 0x1234 0x5678 = .decW (.addr32 0x12345678) ∧
    decodeWords false 0xACB3 0 0 = .dec (.ind 3) ∧
    decodeWords false 0xADF3 0x0008 0 = .decB (.off 8 3) ∧
    decodeWords false 0xADF3 0x4008 0 = .decW (.off 8 3) ∧
    decodeWords false 0xADF3 0xBFFC 0 = .dec (.off 0x3FFC 3) ∧
    decodeWords false 0xADAF 0xB034 0 = .dec (.addr16 0xB034) := by decide +kernel

theorem test_decode_loads :
    decodeWords false 0x3D34 0 0 = .ld (.regSimm8 13 0x34) ∧
    decodeWords false 0x4515 0x0000 0 = .ld (.regSimm17 5 0x10000) ∧
    decodeWords false 0x4525 0x1234 0x5678 = .ld (.regImm32 5 0x12345678) ∧
    decodeWords false 0x44B3 0 0 = .ld (.regReg 3 11) ∧
    decodeWords false 0x0341 0x7002 0 = .ld (.load 1 (.addr16 0x7002)) ∧
    decodeWords false 0x03C1 0xFFFF 0xB003 = .ld (.load 1 (.addr32 0xFFFFB003)) ∧
    decodeWords false 0x12CD 0 0 = .ld (.load 13 (.ind 12)) ∧
    decodeWords false 0x13FD 0 0 = .ld (.load 13 (.postInc 15)) ∧
    decodeWords false 0x4821 0x3FFC 0 = .ld (.load 1 (.off 0x3FFC 2)) ∧
    decodeWords false 0x0027 0x3FF8 0 = .ld (.load 7 (.pcRel 0x3FF8)) ∧
    decodeWords false 0x5DF2 0 0 = .ld (.load 2 (.fpRel 0x1F)) := by decide +kernel

theorem test_decode_narrow_loads :
    decodeWords false 0x030C 0xB034 0 = .ldUB 12 (.addr16 0xB034) ∧
    decodeWords false 0x039C 0x1234 0x5678 = .ldSB 12 (.addr32 0x12345678) ∧
    decodeWords false 0x1A53 0 0 = .ldUW 3 (.ind 5) ∧
    decodeWords false 0x1B53 0 0 = .ldUW 3 (.postInc 5) ∧
    decodeWords false 0x49CA 0x0004 0 = .ldUB 10 (.off 4 12) ∧
    decodeWords false 0x49CA 0x8004 0 = .ldSB 10 (.off 4 12) ∧
    decodeWords false 0x49CA 0x4004 0 = .ldUW 10 (.off 4 12) ∧
    decodeWords false 0x49DC 0xFFFA 0 = .ldSW 12 (.off 0x3FFA 13) ∧
    decodeWords false 0x003C 0xFFF6 0 = .ldSW 12 (.pcRel 0x3FF6) ∧
    decodeWords false 0x6202 0 0 = .ldUB 2 (.fpRel 0x20) ∧
    decodeWords false 0x6FAC 0 0 = .ldSW 12 (.fpRel 0x3A) := by decide +kernel

theorem test_decode_stores :
    decodeWords false 0x0371 0xE00C 0 = .ld (.store (.addr16 0xE00C) 1) ∧
    decodeWords false 0x0BB3 0 0 = .ld (.store (.ind 3) 11) ∧
    decodeWords false 0x1055 0 0 = .ld (.store (.preDec 5) 5) ∧
    decodeWords false 0x1154 0 0 = .ld (.store (.postInc 4) 5) ∧
    decodeWords false 0x4A34 0x0006 0 = .ld (.store (.off 6 4) 3) ∧
    decodeWords false 0x5843 0 0 = .ld (.store (.fpRel 4) 3) ∧
    decodeWords false 0x03D1 0x1234 0x5678 = .ldB (.store (.addr32 0x12345678) 1) ∧
    decodeWords false 0x4B34 0x3FFF 0 = .ldB (.store (.off 0x3FFF 4) 3) ∧
    decodeWords false 0x1534 0 0 = .ldB (.store (.postInc 4) 3) ∧
    decodeWords false 0x4B34 0x4006 0 = .ldW (.store (.off 6 4) 3) ∧
    decodeWords false 0x166D 0 0 = .ldW (.store (.preDec 13) 6) := by decide +kernel

theorem test_decode_immediate_stores :
    decodeWords false 0x09DD 0x1234 0x5678 = .ld (.storeImm32 .ind 13 0x12345678) ∧
    decodeWords false 0x09EF 0x1234 0x5678 = .ld (.storeImm32 .preDec 15 0x12345678) ∧
    decodeWords false 0x099D 0x0042 0 = .ld (.storeSimm16 .preDec 13 0x42) ∧
    decodeWords false 0x09BD 0x0042 0 = .ld (.storeSimm16 .postInc 13 0x42) ∧
    decodeWords false 0x096D 0x00FC 0 = .ldW (.storeImm .ind 13 0xFC) ∧
    decodeWords false 0x098D 0x00FC 0 = .ldW (.storeImm .preDec 13 0xFC) ∧
    decodeWords false 0x095D 0xFF5A 0 = .ldB (.storeImm .postInc 13 0x5A) ∧
    decodeWords false 0x09CD 0x005A 0 = .ldB (.storeImm .ind 13 0x5A) := by decide +kernel

theorem test_decode_register_and_stack_loads :
    decodeWords false 0x019D 0 0 = .ldCc .ge 13 ∧
    decodeWords false 0x4887 0x8004 0 = .lea 7 (.off 4 8) ∧
    decodeWords false 0x0021 0x8100 0 = .lea 1 (.pcRel 0x100) ∧
    decodeWords false 0x40B3 0 0 = .extUB 3 11 ∧
    decodeWords false 0x41B3 0 0 = .extUW 3 11 ∧
    decodeWords false 0x42B3 0 0 = .extSB 3 11 ∧
    decodeWords false 0x43B3 0 0 = .extSW 3 11 ∧
    decodeWords false 0x453D 0 0 = .ldes 13 ∧
    decodeWords false 0x4547 0 0 = .com 7 ∧
    decodeWords false 0x4557 0 0 = .neg 7 := by decide +kernel

theorem test_decode_stack :
    decodeWords false 0x0481 0 0 = .pushmlo 0x81 ∧
    decodeWords false 0x0504 0 0 = .pushmhi 4 ∧
    decodeWords false 0x0681 0 0 = .popmlo 0x81 ∧
    decodeWords false 0x0720 0 0 = .popmhi 0x20 ∧
    decodeWords false 0x0808 0 0 = .link 8 ∧
    decodeWords false 0x0001 0 0 = .unlink ∧
    decodeWords false 0x0A42 0 0 = .pushB 0x42 ∧
    decodeWords false 0x0C42 0 0 = .pushW 0x42 ∧
    decodeWords false 0x0D42 0 0 = .push 0x42 ∧
    decodeWords false 0x0002 0 0 = .pushf ∧
    decodeWords false 0x0003 0 0 = .popf := by decide +kernel

theorem test_decode_multiply_divide_shift :
    decodeWords false 0xB021 0 0 = .umul 1 2 ∧
    decodeWords false 0xB121 0 0 = .smul 1 2 ∧
    decodeWords false 0xB221 0 0 = .mul 1 2 ∧
    decodeWords false 0xAE21 0 0 = .udiv 1 2 ∧
    decodeWords false 0xAF21 0 0 = .sdiv 1 2 ∧
    decodeWords true 0xAE53 0 0 = .udiv64 3 5 ∧
    decodeWords false 0xB487 0 0 = .sra 7 (.reg 8) ∧
    decodeWords false 0xB587 0 0 = .srl 7 (.reg 8) ∧
    decodeWords false 0xB687 0 0 = .sll 7 (.reg 8) ∧
    decodeWords false 0xB787 0 0 = .rl 7 (.reg 8) ∧
    decodeWords true 0xB787 0 0 = .rl 7 (.reg 8) ∧
    decodeWords true 0xB487 0 0 = .srax 7 8 ∧
    decodeWords true 0xB587 0 0 = .srlx 7 8 ∧
    decodeWords true 0xB687 0 0 = .sllx 7 8 ∧
    decodeWords false 0xB9F7 0 0 = .sra 7 (.uimm5 31) ∧
    decodeWords false 0xBA47 0 0 = .srl 7 (.uimm5 4) ∧
    decodeWords false 0xBC47 0 0 = .sll 7 (.uimm5 4) ∧
    decodeWords false 0xBFF7 0 0 = .rl 7 (.uimm5 31) := by decide +kernel

theorem test_decode_program_control :
    decodeWords false 0xF207 0 0 = .jp (.reg 7) ∧
    decodeWords false 0xCFFE 0 0 = .jp (.rel12 0xFFE) ∧
    decodeWords false 0xF081 0x0002 0 = .jp (.rel24 0x810002) ∧
    decodeWords false 0xF217 0 0 = .call (.reg 7) ∧
    decodeWords false 0xD010 0 0 = .call (.rel12 0x10) ∧
    decodeWords false 0xF100 0x8000 0 = .call (.rel24 0x8000) ∧
    decodeWords false 0xE902 0 0 = .jpCc .ge (.rel8 2) ∧
    decodeWords false 0xF22E 0x1000 0 = .jpCc .nz (.rel16 0x1000) ∧
    decodeWords false 0xF230 0x0035 0x2920 = .jpa 0x00352920 ∧
    decodeWords false 0xF231 0x0035 0x2920 = .calla 0x00352920 ∧
    decodeWords false 0xFDD6 0 0 = .djnz 6 13 ∧
    decodeWords false 0xFEFF 0 0 = .trap 0xFF := by decide +kernel

theorem test_decode_control_words :
    decodeWords false 0x0000 0 0 = .brk ∧
    decodeWords false 0x0004 0 0 = .atm ∧
    decodeWords false 0x0005 0 0 = .noflags ∧
    decodeWords false 0x0007 0 0 = .extend ∧
    decodeWords false 0xFFF7 0 0 = .wdt ∧
    decodeWords false 0xFFF8 0 0 = .stop ∧
    decodeWords false 0xFFF9 0 0 = .halt ∧
    decodeWords false 0xFFFA 0 0 = .ei ∧
    decodeWords false 0xFFFB 0 0 = .di ∧
    decodeWords false 0xFFFC 0 0 = .ret ∧
    decodeWords false 0xFFFD 0 0 = .iret ∧
    decodeWords false 0xFFFE 0 0 = .nop ∧
    decodeWords false 0xFFFF 0 0 = .ill ∧
    decodeWords false 0xB300 0 0 = .unimplemented 0xB300 ∧
    decodeWords true 0x0006 0 0 = .unimplemented 0x0006 := by decide +kernel

/-! ### One step, against the rows of spec/95_test_vectors.md named in each docstring -/

/-- The start of a row: code at pc, registers, FLAGS, bytes of memory, what a prefix left, and the end: pc, changed
registers, FLAGS, changed bytes. -/
structure Row where
  code    : List Word
  pc      : Quad := 0x1000
  ext     : Bool := false
  noflags : Bool := false
  spov    : Quad := 0
  regs    : List (Reg × Quad) := []
  flags   : Byte := 0
  mem     : List (Quad × List Byte) := []
  pc1     : Quad
  regs1   : List (Reg × Quad) := []
  flags1  : Byte := 0
  mem1    : List (Quad × List Byte) := []

/-- Registers set one after another. -/
def setRegs (l : List (Reg × Quad)) (s : State) : State := l.foldl (fun s p => setReg s p.1 p.2) s

/-- Runs of bytes placed in memory one after another. -/
def place (l : List (Quad × List Byte)) (s : State) : State := l.foldl (fun s p => placeBytes p.2 p.1 s) s

/-- The state a row starts from. -/
def Row.start (r : Row) : State :=
  place r.mem (placeBytes (r.code.flatMap bytesOfWord) r.pc
    (setRegs r.regs { State.reset with
      pc := r.pc, flags := r.flags, extendPending := r.ext, noflagsPending := r.noflags, spov := r.spov }))

/-- Whether an operation goes on to a value with a property. -/
def goesOn {α : Type} (r : Res α) (p : α → Bool) : Bool :=
  match r with
  | .next a => p a
  | _ => false

/-- One step ends with exactly these registers, FLAGS, pc and memory, and with no prefix pending. -/
def Row.ok (r : Row) : Bool :=
  goesOn (step r.start) fun t =>
    decide (t.pc = r.pc1 ∧ t.flags = r.flags1 ∧ t.regs = (setRegs r.regs1 r.start).regs ∧
      t.mem = (place r.mem1 r.start).mem ∧ t.extendPending = false ∧ t.noflagsPending = false)

/-- All rows of a list. -/
def rowsOk (l : List Row) : Bool := l.all Row.ok

/-- E4, E6, V9, V13, V5, V7, V11, V10, V12, V234. -/
theorem test_add : rowsOk
    [{ code := [0xAB03, 0x1055], regs := [(3, 0xFFFFB023)], mem := [(0xFFFFB023, [0x70, 0x2E])], pc1 := 0x1004,
       flags1 := 0x30, mem1 := [(0xFFFFB023, [0x80, 0x83])] },
     { code := [0x78AC, 0x2000], regs := [(10, 0xFFFFB020), (12, 0x00000016)], mem := [(0xFFFFB020, [0x91])],
       pc1 := 0x1004, regs1 := [(12, 0xFFFFFFA7)], flags1 := 0x20 },
     { code := [0xAB03, 0x8000], regs := [(3, 0xFFFFB041)], mem := [(0xFFFFB041, [0x80, 0x00])], pc1 := 0x1004,
       flags1 := 0xD0, mem1 := [(0xFFFFB041, [0x00, 0x00])] },
     { code := [0x7876, 0x7FFE], regs := [(6, 0x00000001), (7, 0xFFFFB052)], mem := [(0xFFFFB050, [0xFF, 0xFF])],
       pc1 := 0x1004, regs1 := [(6, 0x00000000)], flags1 := 0xC0 },
     { code := [0x83FF], regs := [(3, 0x00000005)], pc1 := 0x1002, regs1 := [(3, 0x00000004)], flags1 := 0x80 },
     { code := [0x2123], regs := [(1, 0x00000000), (2, 0x00000001), (3, 0x00000002)], pc1 := 0x1002,
       regs1 := [(1, 0x00000003), (2, 0x00000001), (3, 0x00000002)] },
     { code := [0xAA04, 0xFFFF], regs := [(4, 0x00000001)], pc1 := 0x1004, regs1 := [(4, 0x00010000)] },
     { code := [0xAD03, 0xFFFE], regs := [(3, 0xFFFFB044)], mem := [(0xFFFFB044, [0x00, 0x00, 0x00, 0x02])],
       pc1 := 0x1004, flags1 := 0xC0, mem1 := [(0xFFFFB044, [0x00, 0x00, 0x00, 0x00])] },
     { code := [0xAD92, 0x007F], regs := [(2, 0xFFFFB048)], mem := [(0xFFFFB048, [0x01])], pc1 := 0x1004,
       flags1 := 0x30, mem1 := [(0xFFFFB048, [0x80])] },
     { code := [0x8FFF], spov := 0xFFFFDC00, regs := [(15, 0xFFFFDC00)],
       mem := [(0x00000004, [0x00, 0x00, 0x01, 0x00]), (0x00000008, [0x00, 0x00, 0x20, 0x00]), (0x00000040, [0x00, 0x00, 0x30, 0x00])],
       pc1 := 0x1002, regs1 := [(15, 0xFFFFDBFF)], flags1 := 0xA0 }] = true := by
  decide +kernel

/-- E1, V16. -/
theorem test_adc : rowsOk
    [{ code := [0xA0B3], pc := 0x1002, ext := true, regs := [(3, 0x00000016), (11, 0x00000020)], flags := 0x80,
       pc1 := 0x1004, regs1 := [(3, 0x00000037)] },
     { code := [0xA021], pc := 0x1002, ext := true, regs := [(1, 0xFFFFFFFF), (2, 0x00000000)], flags := 0x80,
       pc1 := 0x1004, regs1 := [(1, 0x00000000)], flags1 := 0x88 }] = true := by
  decide +kernel

/-- V22, E88, E90, E91. -/
theorem test_sub : rowsOk
    [{ code := [0xA121], regs := [(1, 0x7FFFFFFF), (2, 0xFFFFFFFF)], pc1 := 0x1002, regs1 := [(1, 0x80000000)],
       flags1 := 0xB0 },
     { code := [0xAB13, 0xFFFF], regs := [(3, 0xFFFFB0D4)], mem := [(0xFFFFB0D4, [0x80, 0x0F])], pc1 := 0x1004,
       flags1 := 0xA0, mem1 := [(0xFFFFB0D4, [0x80, 0x10])] },
     { code := [0x79AC, 0x0000], regs := [(10, 0xFFFFB020), (12, 0x00000016)], mem := [(0xFFFFB020, [0x91])],
       pc1 := 0x1004, regs1 := [(12, 0xFFFFFF85)], flags1 := 0xA0 },
     { code := [0x79AC, 0x2000], regs := [(10, 0xFFFFB020), (12, 0x00000016)], mem := [(0xFFFFB020, [0x91])],
       pc1 := 0x1004, regs1 := [(12, 0x00000085)], flags1 := 0x80 }] = true := by
  decide +kernel

/-- V25. -/
theorem test_sbc : rowsOk
    [{ code := [0xA121], pc := 0x1002, ext := true, regs := [(1, 0x00000005), (2, 0x00000004)], flags := 0xC0,
       pc1 := 0x1004, regs1 := [(1, 0x00000000)], flags1 := 0x40 }] = true := by
  decide +kernel

/-- E9, E11, V70, V73. -/
theorem test_and : rowsOk
    [{ code := [0x7214, 0xB07B], regs := [(4, 0xFFFFFF79)], mem := [(0xFFFFB07B, [0xEA])], pc1 := 0x1004,
       regs1 := [(4, 0xFFFFFF68)], flags1 := 0x20 },
     { code := [0xAB2D, 0x80F0], regs := [(13, 0xFFFFB07A)], mem := [(0xFFFFB07A, [0xC3, 0xF7])], pc1 := 0x1004,
       flags1 := 0x20, mem1 := [(0xFFFFB07A, [0x80, 0xF0])] },
     { code := [0xAA25, 0x00FD], regs := [(5, 0xFFFFFFB3)], flags := 0x80, pc1 := 0x1004, regs1 := [(5, 0x000000B1)],
       flags1 := 0x80 },
     { code := [0xAD92, 0x020F], regs := [(2, 0xFFFFB084)], mem := [(0xFFFFB084, [0xA5])], pc1 := 0x1004,
       mem1 := [(0xFFFFB084, [0x05])] }] = true := by
  decide +kernel

/-- E62, E64, V74, V75. -/
theorem test_or : rowsOk
    [{ code := [0x7314, 0xB07B], regs := [(4, 0xFFFFFF79)], mem := [(0xFFFFB07B, [0xEA])], pc1 := 0x1004,
       regs1 := [(4, 0xFFFFFFFB)], flags1 := 0x20 },
     { code := [0xAB3D, 0x80F0], regs := [(13, 0xFFFFB07A)], mem := [(0xFFFFB07A, [0xC3, 0xF7])], pc1 := 0x1004,
       flags1 := 0x20, mem1 := [(0xFFFFB07A, [0xC3, 0xF7])] },
     { code := [0x7357, 0xB085], regs := [(7, 0x00000102)], mem := [(0xFFFFB085, [0x80])], pc1 := 0x1004,
       regs1 := [(7, 0x00000102)], flags1 := 0x20, mem1 := [(0xFFFFB085, [0x82])] },
     { code := [0xA321], regs := [(1, 0x00000000), (2, 0x00000000)], pc1 := 0x1002, regs1 := [(1, 0x00000000)],
       flags1 := 0x48 }] = true := by
  decide +kernel

/-- V79, E105, E106. -/
theorem test_xor : rowsOk
    [{ code := [0xAAC1, 0x8000, 0x0000], regs := [(1, 0x00000000)], pc1 := 0x1006, regs1 := [(1, 0x80000000)],
       flags1 := 0x28 },
     { code := [0x7404, 0xB07B], regs := [(4, 0xFFFFFF79)], mem := [(0xFFFFB07B, [0xEA])], pc1 := 0x1004,
       regs1 := [(4, 0xFFFFFF93)], flags1 := 0x20 },
     { code := [0xAB4D, 0x80F0], regs := [(13, 0xFFFFB07A)], mem := [(0xFFFFB07A, [0xC3, 0xF7])], pc1 := 0x1004,
       mem1 := [(0xFFFFB07A, [0x43, 0x07])] }] = true := by
  decide +kernel

/-- E21, V30, V28. -/
theorem test_cp : rowsOk
    [{ code := [0x7DAC, 0x2000], regs := [(10, 0xFFFFB020), (12, 0x00000016)], mem := [(0xFFFFB020, [0x91])],
       pc1 := 0x1004, regs1 := [(12, 0x00000016)], flags1 := 0x80 },
     { code := [0xAD96, 0x050D], regs := [(6, 0xFFFFB060)], mem := [(0xFFFFB060, [0x00])], pc1 := 0x1004,
       flags1 := 0xA8, mem1 := [(0xFFFFB060, [0x00])] },
     { code := [0xAAD1, 0x1234, 0x5678], regs := [(1, 0x12345677)], pc1 := 0x1006, regs1 := [(1, 0x12345677)],
       flags1 := 0xA0 }] = true := by
  decide +kernel

/-- E24. -/
theorem test_cpc : rowsOk
    [{ code := [0xA5B3], pc := 0x1002, ext := true, regs := [(3, 0x00000016), (11, 0x00000016)], flags := 0x80,
       pc1 := 0x1004, flags1 := 0xA0 }] = true := by
  decide +kernel

/-- V34. -/
theorem test_cpcz : rowsOk
    [{ code := [0xAC53], pc := 0x1002, ext := true, regs := [(3, 0xFFFFB068)], flags := 0x80,
       mem := [(0xFFFFB068, [0x80, 0x00])], pc1 := 0x1004, flags1 := 0x18, mem1 := [(0xFFFFB068, [0x80, 0x00])] }] = true := by
  decide +kernel

/-- E28, V32, V33. -/
theorem test_cpz : rowsOk
    [{ code := [0xAC53], regs := [(3, 0xFFFFB0D4)], mem := [(0xFFFFB0D4, [0x70, 0x42])], pc1 := 0x1002, flags1 := 0x08 },
     { code := [0xAC13], regs := [(3, 0xFFFFB061)], mem := [(0xFFFFB061, [0x80])], pc1 := 0x1002, flags1 := 0x28,
       mem1 := [(0xFFFFB061, [0x80])] },
     { code := [0xADA9, 0xB064], flags := 0x80, mem := [(0xFFFFB064, [0x00, 0x00, 0x00, 0x00])], pc1 := 0x1004,
       flags1 := 0x48, mem1 := [(0xFFFFB064, [0x00, 0x00, 0x00, 0x00])] }] = true := by
  decide +kernel

/-- E29, V40. -/
theorem test_dec : rowsOk
    [{ code := [0xADF3, 0x4008], regs := [(3, 0xFFFFB024)], mem := [(0xFFFFB02C, [0x70, 0x2E])], pc1 := 0x1004,
       mem1 := [(0xFFFFB02C, [0x70, 0x2D])] },
     { code := [0xADF3, 0xBFFC], regs := [(3, 0xFFFFB07C)], mem := [(0xFFFFB078, [0x00, 0x00, 0x00, 0x01])],
       pc1 := 0x1004, flags1 := 0x40, mem1 := [(0xFFFFB078, [0x00, 0x00, 0x00, 0x00])] }] = true := by
  decide +kernel

/-- V36, V35. -/
theorem test_inc : rowsOk
    [{ code := [0xAC63], regs := [(3, 0xFFFFB06C)], mem := [(0xFFFFB06C, [0x7F, 0xFF])], pc1 := 0x1002,
       flags1 := 0x30, mem1 := [(0xFFFFB06C, [0x80, 0x00])] },
     { code := [0xAC23], regs := [(3, 0xFFFFB06A)], mem := [(0xFFFFB06A, [0xFF])], pc1 := 0x1002, flags1 := 0xC0,
       mem1 := [(0xFFFFB06A, [0x00])] }] = true := by
  decide +kernel

/-- E96, E98, V95. -/
theorem test_tm : rowsOk
    [{ code := [0xA6E1], regs := [(1, 0x00000038), (14, 0x00000008)], pc1 := 0x1002, regs1 := [(1, 0x00000038)] },
     { code := [0xAB6D, 0x1000], regs := [(13, 0xFFFFB07A)], mem := [(0xFFFFB07A, [0xC3, 0xF7])], pc1 := 0x1004,
       flags1 := 0x40, mem1 := [(0xFFFFB07A, [0xC3, 0xF7])] },
     { code := [0xAD92, 0x0680], regs := [(2, 0xFFFFB047)], mem := [(0xFFFFB047, [0x80])], pc1 := 0x1004,
       flags1 := 0x20, mem1 := [(0xFFFFB047, [0x80])] }] = true := by
  decide +kernel

/-- E93, E95, V96. -/
theorem test_tcm : rowsOk
    [{ code := [0xA7E1], regs := [(1, 0x00000038), (14, 0x00000008)], pc1 := 0x1002, regs1 := [(1, 0x00000038)],
       flags1 := 0x40 },
     { code := [0xAB7D, 0x1000], regs := [(13, 0xFFFFB07A)], mem := [(0xFFFFB07A, [0xC3, 0xF7])], pc1 := 0x1004,
       mem1 := [(0xFFFFB07A, [0xC3, 0xF7])] },
     { code := [0xAD92, 0x0781], regs := [(2, 0xFFFFB047)], mem := [(0xFFFFB047, [0x7E])], pc1 := 0x1004,
       flags1 := 0x20, mem1 := [(0xFFFFB047, [0x7E])] }] = true := by
  decide +kernel

/-- V80. -/
theorem test_com : rowsOk
    [{ code := [0x4547], regs := [(7, 0x00000000)], flags := 0x80, pc1 := 0x1002, regs1 := [(7, 0xFFFFFFFF)],
       flags1 := 0x28 }] = true := by
  decide +kernel

/-- V42. -/
theorem test_neg : rowsOk
    [{ code := [0x4557], regs := [(7, 0x80000000)], pc1 := 0x1002, regs1 := [(7, 0x80000000)], flags1 := 0xB0 }] = true := by
  decide +kernel

/-- V43. -/
theorem test_mul : rowsOk
    [{ code := [0xB221], regs := [(1, 0x00010000), (2, 0x00010000)], flags := 0x98, pc1 := 0x1002,
       regs1 := [(1, 0x00000000), (2, 0x00010000)], flags1 := 0xC0 }] = true := by
  decide +kernel

/-- V44. -/
theorem test_umul : rowsOk
    [{ code := [0xB021], regs := [(1, 0xFFFFFFFF), (2, 0xFFFFFFFF)], pc1 := 0x1002,
       regs1 := [(1, 0x00000001), (2, 0xFFFFFFFE)], flags1 := 0x20 }] = true := by
  decide +kernel

/-- V48. -/
theorem test_smul : rowsOk
    [{ code := [0xB121], regs := [(1, 0x80000000), (2, 0x00000001)], pc1 := 0x1002,
       regs1 := [(1, 0x80000000), (2, 0xFFFFFFFF)], flags1 := 0x20 }] = true := by
  decide +kernel

/-- V49, V57. -/
theorem test_udiv : rowsOk
    [{ code := [0xAE21], regs := [(1, 0x00000003), (2, 0x00000005)], flags := 0x80, pc1 := 0x1002,
       regs1 := [(1, 0x00000000), (2, 0x00000003)], flags1 := 0xC0 },
     { code := [0xAE21], regs := [(1, 0x00000064), (2, 0x00000000), (15, 0xFFFFDC00)], flags := 0xB1,
       mem := [(0x00000008, [0x00, 0x00, 0x20, 0x00])], pc1 := 0x1002,
       regs1 := [(1, 0x00000064), (2, 0x00000000), (15, 0xFFFFDC00)], flags1 := 0xB1 }] = true := by
  decide +kernel

/-- V51, V53. -/
theorem test_sdiv : rowsOk
    [{ code := [0xAF21], regs := [(1, 0x80000000), (2, 0xFFFFFFFF)], pc1 := 0x1002,
       regs1 := [(1, 0x80000000), (2, 0x00000000)], flags1 := 0x30 },
     { code := [0xAF21], regs := [(1, 0xFFFFFFF9), (2, 0x00000002)], pc1 := 0x1002,
       regs1 := [(1, 0xFFFFFFFD), (2, 0xFFFFFFFF)], flags1 := 0x20 }] = true := by
  decide +kernel

/-- V55, V56, V60. -/
theorem test_udiv64 : rowsOk
    [{ code := [0xAE53], pc := 0x1002, ext := true, regs := [(3, 0x00000004), (4, 0xFFFFFFFF), (5, 0x00000005)],
       pc1 := 0x1004, regs1 := [(3, 0xFFFFFFFF), (4, 0x00000004), (5, 0x00000005)], flags1 := 0x20 },
     { code := [0xAE5F], pc := 0x1002, ext := true, regs := [(0, 0x00000064), (5, 0x00000007), (15, 0x00000000)],
       pc1 := 0x1004, regs1 := [(0, 0x00000002), (5, 0x00000007), (15, 0x0000000E)] },
     { code := [0xAE53], pc := 0x1002, ext := true,
       regs := [(3, 0x00000005), (4, 0x00000000), (5, 0x00000005), (15, 0xFFFFDC00)],
       mem := [(0x00000008, [0x00, 0x00, 0x20, 0x00])], pc1 := 0x1004,
       regs1 := [(3, 0x00000005), (4, 0x00000000), (5, 0x00000005), (15, 0xFFFFDC00)] }] = true := by
  decide +kernel

/-- V100. -/
theorem test_sll : rowsOk
    [{ code := [0xBC07], regs := [(7, 0x80000001)], flags := 0x88, pc1 := 0x1002, regs1 := [(7, 0x80000001)],
       flags1 := 0x30 }] = true := by
  decide +kernel

/-- V103. -/
theorem test_srl : rowsOk
    [{ code := [0xBBF7], regs := [(7, 0xC0000000)], pc1 := 0x1002, regs1 := [(7, 0x00000001)], flags1 := 0x90 }] = true := by
  decide +kernel

/-- V105. -/
theorem test_sra : rowsOk
    [{ code := [0xB9F7], regs := [(7, 0x80000000)], pc1 := 0x1002, regs1 := [(7, 0xFFFFFFFF)], flags1 := 0x30 }] = true := by
  decide +kernel

/-- V108. -/
theorem test_rl : rowsOk
    [{ code := [0xBFF7], regs := [(7, 0x00000002)], pc1 := 0x1002, regs1 := [(7, 0x00000001)], flags1 := 0x90 }] = true := by
  decide +kernel

/-- V112. -/
theorem test_sllx : rowsOk
    [{ code := [0xB687], pc := 0x1002, ext := true, regs := [(7, 0xFEDCBA98), (8, 0x00000010)], pc1 := 0x1004,
       regs1 := [(7, 0xBA980000), (8, 0x0000FEDC)], flags1 := 0x30 }] = true := by
  decide +kernel

/-- V113. -/
theorem test_srax : rowsOk
    [{ code := [0xB487], pc := 0x1002, ext := true, regs := [(7, 0x80000001), (8, 0x00000001)], pc1 := 0x1004,
       regs1 := [(7, 0xC0000000), (8, 0x80000000)], flags1 := 0xA0 }] = true := by
  decide +kernel

/-- V114. -/
theorem test_srlx : rowsOk
    [{ code := [0xB587], pc := 0x1002, ext := true, regs := [(7, 0x000000FF), (8, 0x00000008)], pc1 := 0x1004,
       regs1 := [(7, 0x00000000), (8, 0xFF000000)], flags1 := 0xD0 }] = true := by
  decide +kernel

/-- E14, E15, V140. -/
theorem test_clr : rowsOk
    [{ code := [0xADA8, 0xB032], mem := [(0xFFFFB032, [0x8B, 0xF7, 0x47, 0xAF])], pc1 := 0x1004,
       mem1 := [(0xFFFFB032, [0x00, 0x00, 0x00, 0x00])] },
     { code := [0xAC07], regs := [(7, 0xFFFFB023)], mem := [(0xFFFFB023, [0xFC])], pc1 := 0x1002,
       mem1 := [(0xFFFFB023, [0x00])] },
     { code := [0xADC7, 0x4002], regs := [(7, 0xFFFFB0C8)], flags := 0xF8,
       mem := [(0xFFFFB0C8, [0xFF, 0xFF, 0xFF, 0xFF])], pc1 := 0x1004, flags1 := 0xF8,
       mem1 := [(0xFFFFB0C8, [0xFF, 0xFF, 0x00, 0x00])] }] = true := by
  decide +kernel

/-- E33, V142, V143. -/
theorem test_ext : rowsOk
    [{ code := [0x42B3], regs := [(11, 0x00000086)], pc1 := 0x1002, regs1 := [(3, 0xFFFFFF86)], flags1 := 0x20 },
     { code := [0x41B3], regs := [(11, 0xFFFF8000)], flags := 0x98, pc1 := 0x1002, regs1 := [(3, 0x00008000)],
       flags1 := 0x90 },
     { code := [0x4333], regs := [(3, 0x00008000)], pc1 := 0x1002, regs1 := [(3, 0xFFFF8000)], flags1 := 0x20 }] = true := by
  decide +kernel

/-- V121, V123, V129, V130, E43, E44, E45, E46, E47, E49, V128, V132, E53, V145, V189, V190. -/
theorem test_ld : rowsOk
    [{ code := [0x4515, 0x0000], pc1 := 0x1004, regs1 := [(5, 0xFFFF0000)] },
     { code := [0x4525, 0x1234, 0x5678], pc1 := 0x1006, regs1 := [(5, 0x12345678)] },
     { code := [0x1355], regs := [(5, 0xFFFFB094)], mem := [(0xFFFFB094, [0xAA, 0xBB, 0xCC, 0xDD])], pc1 := 0x1002,
       regs1 := [(5, 0xAABBCCDD)] },
     { code := [0x1055], regs := [(5, 0xFFFFB09C)], pc1 := 0x1002, regs1 := [(5, 0xFFFFB098)],
       mem1 := [(0xFFFFB098, [0xFF, 0xFF, 0xB0, 0x9C])] },
     { code := [0x030C, 0xB034], mem := [(0xFFFFB034, [0xFC])], pc1 := 0x1004, regs1 := [(12, 0x000000FC)] },
     { code := [0x035C, 0xB034], regs := [(12, 0x00000045)], pc1 := 0x1004, mem1 := [(0xFFFFB034, [0x45])] },
     { code := [0x1CCD], regs := [(12, 0xFFFFB034)], mem := [(0xFFFFB034, [0xFF])], pc1 := 0x1002,
       regs1 := [(13, 0xFFFFFFFF)] },
     { code := [0x096D, 0x00FC], regs := [(13, 0xFFFFB07F)], pc1 := 0x1004, mem1 := [(0xFFFFB07F, [0x00, 0xFC])] },
     { code := [0x49DC, 0xFFFA], regs := [(13, 0xFFFFB07F)], mem := [(0xFFFFB079, [0xF7, 0x23])], pc1 := 0x1004,
       regs1 := [(12, 0xFFFFF723)] },
     { code := [0x6FAC], regs := [(14, 0xFFFFB07F)], mem := [(0xFFFFB079, [0xF7, 0x23])], pc1 := 0x1002,
       regs1 := [(12, 0xFFFFF723)] },
     { code := [0x1B53], regs := [(5, 0xFFFFB091)], mem := [(0xFFFFB091, [0x00, 0x00])], pc1 := 0x1002,
       regs1 := [(3, 0x00000000), (5, 0xFFFFB093)], flags1 := 0x08 },
     { code := [0x4B34, 0x4006], regs := [(3, 0x12345678), (4, 0xFFFFB0A0)], pc1 := 0x1004,
       mem1 := [(0xFFFFB0A6, [0x56, 0x78])] },
     { code := [0x019D], flags := 0x20, pc1 := 0x1002, regs1 := [(13, 0x00000000)], flags1 := 0x20 },
     { code := [0x0120], regs := [(0, 0xFFFFFFFF)], flags := 0x30, pc1 := 0x1002, regs1 := [(0, 0x00000000)],
       flags1 := 0x30 },
     { code := [0x0355, 0xE010], regs := [(5, 0x000000A1)], flags := 0xA3, pc1 := 0x1004, regs1 := [(5, 0x000000A1)],
       flags1 := 0xA1 },
     { code := [0x0371, 0xE00C], regs := [(1, 0xFFFFB800)], pc1 := 0x1004 }] = true := by
  decide +kernel

/-- E55. -/
theorem test_ldes : rowsOk
    [{ code := [0x453D], flags := 0x20, pc1 := 0x1002, regs1 := [(13, 0xFFFFFFFF)], flags1 := 0x20 }] = true := by
  decide +kernel

/-- E57, V148, V149. -/
theorem test_lea : rowsOk
    [{ code := [0x4D5B], regs := [(14, 0xFFFFB016)], pc1 := 0x1002, regs1 := [(11, 0xFFFFB02B)] },
     { code := [0x4821, 0xFFFC], regs := [(2, 0xFFFFB010)], flags := 0xF8, pc1 := 0x1004, regs1 := [(1, 0xFFFFB00C)],
       flags1 := 0xF8 },
     { code := [0x0021, 0x8100], pc1 := 0x1004, regs1 := [(1, 0x00001104)] }] = true := by
  decide +kernel

/-- V160, V163, V164, E70, V231. -/
theorem test_push : rowsOk
    [{ code := [0x10FF], regs := [(15, 0xFFFFDC00)], pc1 := 0x1002, regs1 := [(15, 0xFFFFDBFC)],
       mem1 := [(0xFFFFDBFC, [0xFF, 0xFF, 0xDC, 0x00])] },
     { code := [0x0DFE], regs := [(15, 0xFFFFDC00)], pc1 := 0x1002, regs1 := [(15, 0xFFFFDBFC)],
       mem1 := [(0xFFFFDBFC, [0xFF, 0xFF, 0xFF, 0xFE])] },
     { code := [0x0CFE], regs := [(15, 0xFFFFDC00)], pc1 := 0x1002, regs1 := [(15, 0xFFFFDBFE)],
       mem1 := [(0xFFFFDBFE, [0xFF, 0xFE])] },
     { code := [0x0A42], regs := [(15, 0xFFFFDB22)], pc1 := 0x1002, regs1 := [(15, 0xFFFFDB21)],
       mem1 := [(0xFFFFDB21, [0x42])] },
     { code := [0x101F], spov := 0xFFFFDBFE, regs := [(1, 0xCAFEF00D), (15, 0xFFFFDC00)], flags := 0x01,
       mem := [(0x00000004, [0x00, 0x00, 0x01, 0x00]), (0x00000008, [0x00, 0x00, 0x20, 0x00]), (0x00000040, [0x00, 0x00, 0x30, 0x00])],
       pc1 := 0x1002, regs1 := [(15, 0xFFFFDBFC)], flags1 := 0x01, mem1 := [(0xFFFFDBFC, [0xCA, 0xFE, 0xF0, 0x0D])] }] = true := by
  decide +kernel

/-- V168. -/
theorem test_pushf : rowsOk
    [{ code := [0x0002], regs := [(15, 0xFFFFDC00)], flags := 0xFF, pc1 := 0x1002, regs1 := [(15, 0xFFFFDBFE)],
       flags1 := 0xFF, mem1 := [(0xFFFFDBFE, [0x00, 0xFF])] }] = true := by
  decide +kernel

/-- V169. -/
theorem test_popf : rowsOk
    [{ code := [0x0003], regs := [(15, 0xFFFFDBFE)], flags := 0xF8, mem := [(0xFFFFDBFE, [0x5A, 0x03])],
       pc1 := 0x1002, regs1 := [(15, 0xFFFFDC00)], flags1 := 0x03 }] = true := by
  decide +kernel

/-- V172. -/
theorem test_popmhi : rowsOk
    [{ code := [0x0780], regs := [(15, 0xFFFFDBFC)], mem := [(0xFFFFDBFC, [0xFF, 0xFF, 0xDD, 0x00])], pc1 := 0x1002,
       regs1 := [(15, 0xFFFFDD00)] }] = true := by
  decide +kernel

/-- V173. -/
theorem test_pushmlo : rowsOk
    [{ code := [0x0481], regs := [(0, 0x11111111), (7, 0x77777777), (15, 0xFFFFDC00)], pc1 := 0x1002,
       regs1 := [(15, 0xFFFFDBF8)],
       mem1 := [(0xFFFFDBFC, [0x77, 0x77, 0x77, 0x77]), (0xFFFFDBF8, [0x11, 0x11, 0x11, 0x11])] }] = true := by
  decide +kernel

/-- V174. -/
theorem test_popmlo : rowsOk
    [{ code := [0x0681], regs := [(15, 0xFFFFDBF8)],
       mem := [(0xFFFFDBF8, [0x11, 0x11, 0x11, 0x11]), (0xFFFFDBFC, [0x00, 0x00, 0x00, 0x00])], pc1 := 0x1002,
       regs1 := [(0, 0x11111111), (7, 0x00000000), (15, 0xFFFFDC00)], flags1 := 0x08 }] = true := by
  decide +kernel

/-- V166. -/
theorem test_link : rowsOk
    [{ code := [0x0808], regs := [(14, 0xAAAA5555), (15, 0xFFFFDC00)], pc1 := 0x1002,
       regs1 := [(14, 0xFFFFDBFC), (15, 0xFFFFDBF4)], mem1 := [(0xFFFFDBFC, [0xAA, 0xAA, 0x55, 0x55])] }] = true := by
  decide +kernel

/-- V167. -/
theorem test_unlink : rowsOk
    [{ code := [0x0001], regs := [(14, 0xFFFFDBFC), (15, 0xFFFFDBF4)],
       mem := [(0xFFFFDBFC, [0xAA, 0xAA, 0x55, 0x55])], pc1 := 0x1002, regs1 := [(14, 0xAAAA5555), (15, 0xFFFFDC00)] }] = true := by
  decide +kernel

/-- E12, V206. -/
theorem test_call : rowsOk
    [{ code := [0xF217], pc := 0x0472, regs := [(7, 0x00003521), (15, 0xFFFFDE24)], pc1 := 0x3520,
       regs1 := [(15, 0xFFFFDE20)], mem1 := [(0xFFFFDE20, [0x00, 0x00, 0x04, 0x74])] },
     { code := [0xF100, 0x8000], regs := [(15, 0xFFFFDC00)], pc1 := 0x11004, regs1 := [(15, 0xFFFFDBFC)],
       mem1 := [(0xFFFFDBFC, [0x00, 0x00, 0x10, 0x04])] }] = true := by
  decide +kernel

/-- V207. -/
theorem test_ret : rowsOk
    [{ code := [0xFFFC], pc := 0x1022, regs := [(15, 0xFFFFDBFC)], mem := [(0xFFFFDBFC, [0x00, 0x00, 0x10, 0x02])],
       pc1 := 0x1002, regs1 := [(15, 0xFFFFDC00)] }] = true := by
  decide +kernel

/-- E39, V209, V211. -/
theorem test_jp : rowsOk
    [{ code := [0xF207], pc := 0x0472, regs := [(7, 0x00003521)], pc1 := 0x3520 },
     { code := [0xE902], flags := 0x30, pc1 := 0x1006, flags1 := 0x30 },
     { code := [0xE380], pc := 0x1100, flags := 0x40, pc1 := 0x1002, flags1 := 0x40 }] = true := by
  decide +kernel

/-- V208. -/
theorem test_jpa : rowsOk
    [{ code := [0xF230, 0x0001, 0xF001], pc1 := 0x1F000 }] = true := by
  decide +kernel

/-- V214, V216. -/
theorem test_djnz : rowsOk
    [{ code := [0xFDD6], regs := [(6, 0x00000002)], pc1 := 0x0FFC, regs1 := [(6, 0x00000001)] },
     { code := [0xFD06], regs := [(6, 0x00000000)], pc1 := 0x0FE2, regs1 := [(6, 0xFFFFFFFF)], flags1 := 0xA8 }] = true := by
  decide +kernel

/-- V220. -/
theorem test_trap : rowsOk
    [{ code := [0xFE01], regs := [(15, 0xFFFFDC00)], flags := 0xA3,
       mem := [(0x00000004, [0x00, 0x00, 0x01, 0x00]), (0x00000008, [0x00, 0x00, 0x20, 0x00]), (0x00000040, [0x00, 0x00, 0x30, 0x00])],
       pc1 := 0x0100, regs1 := [(15, 0xFFFFDBFA)], flags1 := 0xA3,
       mem1 := [(0xFFFFDBFA, [0x00, 0x00, 0x10, 0x02]), (0xFFFFDBFE, [0x00, 0xA3])] }] = true := by
  decide +kernel

/-- V222. -/
theorem test_iret : rowsOk
    [{ code := [0xFFFD], pc := 0x0100, regs := [(15, 0xFFFFDBFA)],
       mem := [(0x00000004, [0x00, 0x00, 0x01, 0x00]), (0x00000008, [0x00, 0x00, 0x20, 0x00]), (0x00000040, [0x00, 0x00, 0x30, 0x00]), (0xFFFFDBFA, [0x00, 0x00, 0x10, 0x02]), (0xFFFFDBFE, [0x00, 0xA3])],
       pc1 := 0x1002, regs1 := [(15, 0xFFFFDC00)], flags1 := 0xA3 }] = true := by
  decide +kernel

/-- V226. -/
theorem test_ill : rowsOk
    [{ code := [0xFFFF], regs := [(15, 0xFFFFDC00)], flags := 0x81,
       mem := [(0x00000004, [0x00, 0x00, 0x01, 0x00]), (0x00000008, [0x00, 0x00, 0x20, 0x00]), (0x00000040, [0x00, 0x00, 0x30, 0x00])],
       pc1 := 0x2000, regs1 := [(15, 0xFFFFDBFA)], flags1 := 0x82,
       mem1 := [(0xFFFFDBFA, [0x00, 0x00, 0x10, 0x00]), (0xFFFFDBFE, [0x00, 0x81])] }] = true := by
  decide +kernel

/-- V228. -/
theorem test_unimplemented_word : rowsOk
    [{ code := [0x0006], regs := [(15, 0xFFFFDC00)],
       mem := [(0x00000004, [0x00, 0x00, 0x01, 0x00]), (0x00000008, [0x00, 0x00, 0x20, 0x00]), (0x00000040, [0x00, 0x00, 0x30, 0x00])],
       pc1 := 0x2000, regs1 := [(15, 0xFFFFDBFA)], mem1 := [(0xFFFFDBFA, [0x00, 0x00, 0x10, 0x00])] }] = true := by
  decide +kernel

/-- V229. -/
theorem test_brk : rowsOk
    [{ code := [0x0000], regs := [(15, 0xFFFFDC00)],
       mem := [(0x00000004, [0x00, 0x00, 0x01, 0x00]), (0x00000008, [0x00, 0x00, 0x20, 0x00]), (0x00000040, [0x00, 0x00, 0x30, 0x00])],
       pc1 := 0x2000, regs1 := [(15, 0xFFFFDBFA)], mem1 := [(0xFFFFDBFA, [0x00, 0x00, 0x10, 0x00])] }] = true := by
  decide +kernel

/-- V186. -/
theorem test_di : rowsOk
    [{ code := [0xFFFB], flags := 0xFF, pc1 := 0x1002, flags1 := 0xFE }] = true := by
  decide +kernel

/-- V185. -/
theorem test_ei : rowsOk
    [{ code := [0xFFFA], flags := 0xF8, pc1 := 0x1002, flags1 := 0xF9 }] = true := by
  decide +kernel

/-- V187. -/
theorem test_nop : rowsOk
    [{ code := [0xFFFE], flags := 0xA5, pc1 := 0x1002, flags1 := 0xA5 }] = true := by
  decide +kernel

/-- V180. -/
theorem test_noflags_add : rowsOk
    [{ code := [0xA021], pc := 0x1002, noflags := true, regs := [(1, 0xFFFFFFFF), (2, 0x00000001)], flags := 0x10,
       pc1 := 0x1004, regs1 := [(1, 0x00000000)], flags1 := 0x10 }] = true := by
  decide +kernel

/-- V183. -/
theorem test_extend_and : rowsOk
    [{ code := [0xA221], pc := 0x1002, ext := true, regs := [(1, 0x000000FF), (2, 0x0000000F)], flags := 0x80,
       pc1 := 0x1004, regs1 := [(1, 0x0000000F)], flags1 := 0x80 }] = true := by
  decide +kernel

/-! ### The host's entry points, evaluated by the kernel -/

theorem test_decodeTableWord :
    decodeTableWord 16 0xA0B3 = some (.add (.bop (.regReg 3 11))) ∧
    decodeTableWord 48 0x29200035F231 = some (.calla 0x00352920) ∧
    decodeTableWord 16 0x0341 = some (.ld (.load 1 (.addr16 0))) := by decide +kernel

theorem test_withFetchWord_runs :
    goesOn (step (State.reset.withFetchWord 16 0x3D34))
      (fun t => decide (readReg t 13 = 0x34 ∧ t.pc = 0x1002)) = true := by decide +kernel

theorem test_core_reset : Sys2Proof.core.reset = State.reset := rfl

/-! ### Steps that are no instruction: entries, waiting, reset (60_exceptions.md, 45_cpu_control.md,
70_reset_and_hazards.md) -/

/-- A NOP at 0000_1000H, vector quads at 4, 8 and 40H, the stack at FFFF_DC00H, IRQE = 1. -/
def w : State :=
  place [(0x1000, [0xFF, 0xFE]), (4, [0, 0, 1, 0]), (8, [0, 0, 0x20, 0]), (0x40, [0, 0, 0x30, 0]),
      (0xFFFFDC00, [0, 0, 0x10, 0x02, 0, 0xA3]), (0xFFFFB010, [0x11, 0x22, 0x33, 0x44])]
    (setRegs [(2, 0xFFFFB010), (3, 5), (5, 7), (14, 0xFFFFB010), (15, 0xFFFFDC00)]
      { State.reset with pc := 0x1000, flags := 0x01 })

/-- `w` with one list of inputs due. -/
def due (l : List EnvInput) (s : State) : State := { s with env := [l] }

theorem test_interrupt_entry :
    goesOn (step (due [.irq (some 0x40)] w)) (fun t => decide (t.pc = 0x3000 ∧ t.flags = 0x02 ∧
      sp t = 0xFFFFDBFA ∧ t.events = [.interruptAcknowledge 0x40])) = true := by decide +kernel

/-- 60_exceptions.md R411: no interrupt between a prefix and its instruction, nor in an ATM window. -/
theorem test_interrupt_held_off :
    goesOn (step { w with irq := some 0x40, extendPending := true }) (fun t => decide (t.pc = 0x1002)) = true ∧
    goesOn (step { w with irq := some 0x40, atmCount := 1 })
      (fun t => decide (t.pc = 0x1002 ∧ t.atmCount = 0)) = true := by decide +kernel

theorem test_exception_entry :
    goesOn (step { w with pendingExc := some .divideByZero }) (fun t => decide (t.pc = 0x2000 ∧ t.flags = 0x02 ∧
      sp t = 0xFFFFDBFA ∧ t.pendingExc = none)) = true := by decide +kernel

/-- Vector V235: an instruction above PCOV is stepped over. -/
theorem test_pc_overflow :
    goesOn (step { place [(0x1000, [0x45, 0x21, 0x12, 0x34, 0x56, 0x78])] w with pcov := 0xFFE })
      (fun t => decide (t.pc = 0x1006 ∧ t.pendingExc = some .pcOverflow ∧ readReg t 1 = 0)) = true := by decide +kernel

theorem test_chained_iret :
    goesOn (exec .iret { w with flags := 0x82, irq := some 0x40 }) (fun t => decide (t.pc = 0x3000 ∧ t.flags = 0x82 ∧
      sp t = 0xFFFFDC00)) = true := by decide +kernel

theorem test_reset_input :
    goesOn (step (due [.reset] { w with spov := 9, wdtEnabled := true, runState := .stopped })) (fun t =>
      decide (t.pc = 0x100 ∧ t.spov = 0 ∧ t.wdtEnabled = false ∧ t.runState = .running)) = true := by decide +kernel

theorem test_wdt_halt_stop_atm :
    goesOn (exec .wdt w) (fun t => decide (t.wdtEnabled = true ∧ t.events = [.watchdogRefresh, .watchdogStart])) = true ∧
    goesOn (exec .wdt { w with wdtEnabled := true })
      (fun t => decide (t.wdtEnabled = true ∧ t.events = [.watchdogRefresh])) = true ∧
    goesOn (exec .halt w) (fun t => decide (t.runState = .halted)) = true ∧
    goesOn (exec .stop w) (fun t => decide (t.runState = .stopped)) = true ∧
    goesOn (exec .atm w) (fun t => decide (t.atmCount = 3)) = true := by decide +kernel

/-! ### Peripherals and the device's own exceptions (20_memory.md R67, 60_exceptions.md R410, R418, R419, R434) -/

/-- `w` with Interrupt Request Register IRQ1 at FF_E060H and IRQ1SET at FF_E061H, a register that reading clears at
FF_E013H, a write-only one at FF_FFFFH, a further exception kind 5, and SYSEXCP's bits at no address. -/
def wIo : State :=
  { w with cfg := { w.cfg with
      ioDevices := [⟨0xFFE060, 0, .contents, .clearsOnes 0xFFE060⟩, ⟨0xFFE061, 0, .constant 0, .setsOnes 0xFFE060⟩,
        ⟨0xFFE013, 0x5A, .clearing, .ignored⟩, ⟨0xFFFFFF, 0, .constant 0xFF, .stored⟩]
      extraExceptions := [5] } }

/-- 60_exceptions.md R418: OR.B IRQ1SET,R5 sets the bits of R5 in IRQ1, and the Interrupt Controller is told. -/
theorem test_software_interrupt_request :
    goesOn (exec (.orB (.addr16Reg 0xE061 5)) wIo) (fun t => decide (contentsAt t 0xFFE060 = 0x07 ∧
      t.events = [.deviceWrite 0xFFE061 0x07, .deviceRead 0xFFE061])) = true := by decide +kernel

/-- 60_exceptions.md R419: TM.B IRQ1,R5 polls the bits, LD.B IRQ1,R5 clears them. -/
theorem test_polled_interrupt :
    goesOn (exec (.tmB (.addr16Reg 0xE060 5)) { wIo with ioRegs := [(0xFFE060, 0x04)] })
      (fun t => decide (flagZ t.flags = false)) = true ∧
    goesOn (exec (.tmB (.addr16Reg 0xE060 5)) wIo) (fun t => decide (flagZ t.flags = true)) = true ∧
    goesOn (exec (.ldB (.store (.addr16 0xE060) 5)) { wIo with ioRegs := [(0xFFE060, 0x84)] })
      (fun t => decide (contentsAt t 0xFFE060 = 0x80)) = true := by decide +kernel

/-- A load answers the contents and clears them; a register that is not configured reads FFH (20_memory.md R67). -/
theorem test_peripheral_loads :
    goesOn (exec (.ldUB 1 (.addr16 0xE013)) wIo)
      (fun t => decide (readReg t 1 = 0x5A ∧ contentsAt t 0xFFE013 = 0 ∧ t.events = [.deviceRead 0xFFE013])) = true ∧
    goesOn (exec (.ldUB 1 (.addr16 0xE014)) wIo) (fun t => decide (readReg t 1 = 0xFF ∧ t.events = [])) = true := by
  decide +kernel

theorem test_further_exception_is_entered :
    goesOn (step (due [.exception 5] wIo)) (fun t => decide (t.pc = 0x2000 ∧ t.sysexcp.extra = 32 ∧
      t.pendingExc = none)) = true ∧
    goesOn (step (due [.exception 4] wIo)) (fun t => decide (t.pc = 0x1002 ∧ t.sysexcp.extra = 0)) = true := by
  decide +kernel

/-- 45_cpu_control.md R320: no exception entry between a prefix and its instruction; the entry follows the instruction. -/
theorem test_exception_waits_behind_a_prefix :
    goesOn (step (due [.exception 5] { wIo with noflagsPending := true })) (fun t => decide (t.pc = 0x1002 ∧
      t.heldExc = [5] ∧ t.sysexcp.extra = 0 ∧ t.noflagsPending = false)) = true ∧
    goesOn (step { wIo with heldExc := [5] }) (fun t => decide (t.pc = 0x2000 ∧ t.heldExc = [] ∧
      t.sysexcp.extra = 32)) = true := by decide +kernel

/-- 43_rotate_shift.md R234, D13: SLLX R15,R15 of 8000_0001H gives 2 and 1, of which 1 is below SPOV = 2, none below 1. -/
theorem test_pair_in_one_register :
    goesOn (exec (.sllx 15 15) (setReg { w with spov := 2 } 15 0x80000001))
      (fun t => decide (t.sysexcp.spovf = true ∧ t.pendingExc = some .stackOverflow)) = true ∧
    goesOn (exec (.sllx 15 15) (setReg { w with spov := 1 } 15 0x80000001))
      (fun t => decide (t.sysexcp.spovf = false ∧ t.pendingExc = none ∧ flagC t.flags = true)) = true := by
  decide +kernel

theorem test_environment_inputs :
    applyInput (.clearSysexcp .divideByZero) { w with sysexcp := ⟨true, false, true, false, false, 0⟩ }
      = { w with sysexcp := ⟨true, false, false, false, false, 0⟩ } ∧
    contentsAt (applyInput (.device 0xFFE060 0x11) wIo) 0xFFE060 = 0x11 ∧
    applyInput (.device 0xFFE062 0x11) wIo = wIo := by decide +kernel

/-! ### Witnesses: for every statement with hypotheses, a state and operands that meet them all, at the boundaries of each
clause -/

/-- An operation gives exactly this value. -/
theorem next_of_goesOn {α : Type} [DecidableEq α] {r : Res α} {v : α} (h : goesOn r (fun a => decide (a = v)) = true) :
    r = .next v := by
  cases r with
  | next a => simpa [goesOn] using h
  | fault e => simp [goesOn] at h
  | refused e => simp [goesOn] at h

/-- An operation gives some value. -/
theorem exists_of_goesOn {α : Type} {r : Res α} (h : goesOn r (fun _ => true) = true) : ∃ v, r = .next v := by
  cases r with
  | next a => exact ⟨a, rfl⟩
  | fault e => simp [goesOn] at h
  | refused e => simp [goesOn] at h

theorem test_witness_EncodedBytesDecodeBack :
    (Instr.nop).wellFormed = true ∧ (Instr.unimplemented 0xFFF6).wellFormed = true := by decide

/-- Words of ADD and of SLL with a register and with an immediate count. -/
theorem test_witness_ExtendPrefixSelectsTheExtendedMnemonics :
    (decodeWords true 0xA2B3 0 0).isExtended = false ∧ (decodeWords true 0xA0B3 0 0).isExtended = true ∧
    extendedOf (decodeWords false 0xA0B3 0 0) = some (.adc (.bop (.regReg 3 11))) ∧
    extendedOf (decodeWords false 0xB847 0 0) = none := by
  decide +kernel

/-- 30_encoding.md R107: w0[6] of 1010 1100 1xoo dddd, w1[14] of 48sd, w2[0] of JPA. -/
theorem test_ignored_bits :
    decodeWords false 0xACC3 0 0 = decodeWords false 0xAC83 0 0 ∧
    decodeWords false 0x4812 0x4008 0 = decodeWords false 0x4812 0x0008 0 ∧
    goesOn (exec (decodeWords false 0xF230 0 0x1001) w) (fun t => decide (t.pc = 0x1000)) = true := by decide +kernel

/-- The first and the last place of a Quad in the RAM of the default map; a Quad read in nonvolatile memory and across a
peripheral's register, a Quad stored across one; the first and the last byte of nonvolatile memory. -/
theorem test_witness_StoredDataReadsBack :
    (Memory.wf (blankByte w.cfg) w.mem = true ∧ InRam 4 w 0xFFFFB000 ∧ InRam 4 w 0xFFFFDFFC ∧
      memoryByte w 0 = true ∧ memoryByte w 0x1FFFF = true) ∧
      (∃ t, writeMem .quad w 0xFFFFDFFC 0x01020304 = .next t) ∧ readMem .quad w 8 = .next 0x2000 ∧
      readMem .quad wIo 0xFFFFE013 = .next 0x5AFFFFFF ∧ readMem .word wIo 0xFFFFE013 = .next 0x5AFF ∧
      (∃ t, writeMem .quad wIo 0xFFFFE05E 0x01020304 = .next t) ∧ ∃ t, writeMem .word wIo 0xFFFFE060 1 = .next t :=
  ⟨by decide +kernel, exists_of_goesOn (by decide +kernel), next_of_goesOn (r := readMem .quad w 8) (by decide +kernel),
    next_of_goesOn (r := readMem .quad wIo 0xFFFFE013) (by decide +kernel),
    next_of_goesOn (r := readMem .word wIo 0xFFFFE013) (by decide +kernel), exists_of_goesOn (by decide +kernel),
    exists_of_goesOn (by decide +kernel)⟩

/-- Stores to RAM, across its end and to control registers; with addresses recorded before. -/
theorem test_witness_StoresLeaveTheRestAlone :
    (∃ t, writeMem .byte w 0xFFFFB000 1 = .next t) ∧ (∃ t, writeMem .quad w 0xFFFFDFFE 1 = .next t) ∧
      (∃ t, writeMem .word w 0xFFFFE004 1 = .next t) ∧
      (∃ t, writeMem .quad { w with written := [0xFFB000, 0xFFDFFF] } 0xFFFFDFFE 1 = .next t) ∧
      ramByte w (offsetBy 0xFFFFDFFE 1) = true ∧ ramByte w (offsetBy 0xFFFFDFFE 2) = false :=
  ⟨exists_of_goesOn (by decide +kernel), exists_of_goesOn (by decide +kernel), exists_of_goesOn (by decide +kernel),
    exists_of_goesOn (by decide +kernel), by decide +kernel⟩

/-- 20_memory.md R90, D16: the bytes of a store across the end of RAM are recorded beside the earlier ones. -/
theorem test_stores_are_recorded :
    goesOn (writeMem .quad { w with written := [0xFFB000] } 0xFFFFDFFE 1)
      (fun t => decide (t.written = [0xFFB000, 0xFFDFFE, 0xFFDFFF])) = true := by decide +kernel

theorem test_witness_HighAddressBitsAreIgnored :
    w.cfg.addrBits = .bits24 ∧ (0xFFFFB000 : Quad).extractLsb' 0 24 = (0x00FFB000 : Quad).extractLsb' 0 24 := by
  decide +kernel

/-- Addresses with no register, and peripherals at the lowest and the highest address one can have. -/
theorem test_witness_ControlRegistersInMemory :
    OtherIo w 0xFFFFE013 ∧ OtherIo w 0xFFFFFFFF ∧
    (∀ d ∈ w.cfg.ioDevices, d.addr ≠ phys w.cfg 0xFFFFE013 ∧ d.addr ≠ phys w.cfg 0xFFFFFFFF) ∧
    PeripheralAt wIo 0xFFFFE013 ⟨0xFFE013, 0x5A, .clearing, .ignored⟩ ∧
    PeripheralAt wIo 0xFFFFFFFF ⟨0xFFFFFF, 0, .constant 0xFF, .stored⟩ ∧
    Memory.wf (resetContents wIo.cfg) wIo.ioRegs = true ∧ wIo.ioRegs = [] :=
  ⟨⟨.inl (by decide +kernel), nofun⟩, ⟨.inl (by decide +kernel), nofun⟩, by decide +kernel,
    ⟨⟨.inl (by decide +kernel), nofun⟩, by decide +kernel⟩, ⟨⟨.inl (by decide +kernel), nofun⟩, by decide +kernel⟩,
    by decide +kernel, rfl⟩

theorem test_witness_AccessesWithoutMeaningStop :
    (phys w.cfg 0 < ioBase w.cfg ∧ regionKind w.cfg (phys w.cfg 0) = .nvm) ∧
    (phys w.cfg 0x1FFFF < ioBase w.cfg ∧ regionKind w.cfg (phys w.cfg 0x1FFFF) = .nvm) ∧
    (phys w.cfg 0x20000 < ioBase w.cfg ∧ regionKind w.cfg (phys w.cfg 0x20000) = .unavailable) ∧
    (phys w.cfg 0xFFFFAFFF < ioBase w.cfg ∧ regionKind w.cfg (phys w.cfg 0xFFFFAFFF) = .unavailable) ∧
    Readable 4 w 0x1FFFC ∧ Writable 4 w 0xFFFFDFFE ∧ Readable 4 wIo 0xFFFFE012 ∧ Writable 4 wIo 0xFFFFE012 ∧
    (ioBase w.cfg ≤ phys w.cfg 0xFFFFE000 ∧ ioBase w.cfg ≤ phys w.cfg (offsetBy 0xFFFFE000 (Size.quad.bytes - 1))) ∧
    (ioBase w.cfg ≤ phys w.cfg 0xFFFFFFFC ∧
      ioBase w.cfg ≤ phys w.cfg (offsetBy 0xFFFFFFFC (Size.quad.bytes - 1))) := by decide +kernel

/-- A place of SYSEXCP at FF_E020H, with a bit of the further kind 5. -/
def place20 : SysexcpPlace := ⟨0xFFFFE020, 0, 1, 2, 3, 7, [(5, 4)]⟩

theorem test_witness_SysexcpIsWriteOneToClear :
    ({ w.cfg with sysexcpPlace := some place20 } : Config).sysexcpPlace = some place20 ∧
      ioBase { w.cfg with sysexcpPlace := some place20 } + 0x13
        ≤ phys { w.cfg with sysexcpPlace := some place20 } place20.addr ∧
      ([place20.pcovf, place20.spovf, place20.div0, place20.divovf, place20.ill] ++ place20.extra.map Prod.snd).Nodup ∧
      (place20.extra.map Prod.fst).Nodup := by decide +kernel

/-- The bit of kind 5 read and cleared at its place. -/
theorem test_sysexcp_extra :
    readSysexcp place20 ⟨false, false, true, false, false, 32⟩ = 0x14 ∧
    writeSysexcp place20 ⟨false, false, true, false, false, 33⟩ 0x10 = ⟨false, false, true, false, false, 1⟩ := by
  decide +kernel

theorem test_witness_StepKeepsTheInvariant : Inv w ∧ ∃ t, step w = .next t :=
  ⟨⟨by decide +kernel, by decide +kernel, by decide +kernel, by decide +kernel⟩, exists_of_goesOn (by decide +kernel)⟩

theorem test_witness_StepKeepsPcEven : w.pc.getLsbD 0 = false ∧ ∃ t, step w = .next t :=
  ⟨by decide +kernel, exists_of_goesOn (by decide +kernel)⟩

theorem test_witness_StepKeepsNonvolatileMemory :
    (0 < ioBase w.cfg ∧ regionKind w.cfg 0 = .nvm ∧ 0x1FFFF < ioBase w.cfg ∧ regionKind w.cfg 0x1FFFF = .nvm) ∧
      ∃ t, step w = .next t :=
  ⟨by decide +kernel, exists_of_goesOn (by decide +kernel)⟩

theorem test_witness_OnlyHaltStopAndWdtChangeTheMode :
    (∃ t, exec .halt w = .next t) ∧ (∃ t, exec .stop w = .next t) ∧ (∃ t, exec .wdt w = .next t) ∧
      ∃ t, exec .nop w = .next t :=
  ⟨exists_of_goesOn (by decide +kernel), exists_of_goesOn (by decide +kernel), exists_of_goesOn (by decide +kernel),
    exists_of_goesOn (by decide +kernel)⟩

theorem test_witness_ModifiersAreUsedUp :
    (∃ t, exec .extend w = .next t) ∧ (∃ t, exec .noflags w = .next t) ∧ (∃ t, exec .atm w = .next t) ∧
      ∃ t, exec (.trap 2) w = .next t :=
  ⟨exists_of_goesOn (by decide +kernel), exists_of_goesOn (by decide +kernel), exists_of_goesOn (by decide +kernel),
    exists_of_goesOn (by decide +kernel)⟩

theorem test_witness_StepRunsTheDecodedInstruction :
    (EnvInput.reset ∉ inputsNow w ∧ (atBoundary w).runState = .running ∧ (atBoundary w).pc.getLsbD 0 = false ∧
      ((atBoundary w).pc.toNat ≤ (atBoundary w).pcov.toNat ∨ (atBoundary w).sysexcp.pcovf = true)) ∧
    NoEvent (atBoundary w) ∧ decodeBytes (atBoundary w).extendPending [0xFF, 0xFE] = .ok (.nop, []) ∧
    ∀ (k : Nat) (hk : k < [(0xFF : Byte), 0xFE].length),
      memoryByte (atBoundary w) (offsetBy (atBoundary w).pc k) = true ∧
      phys (atBoundary w).cfg (offsetBy (atBoundary w).pc k) ∉ (atBoundary w).written ∧
      byteAt (atBoundary w) (phys (atBoundary w).cfg (offsetBy (atBoundary w).pc k)) = [(0xFF : Byte), 0xFE][k] :=
  ⟨by decide +kernel, ⟨rfl, .inl rfl⟩, rfl, by decide +kernel⟩

/-- One state for each clause: an odd pc, the lowest and the highest I/O address, no memory, a stored byte. -/
theorem test_witness_FetchesWithoutMeaningStop :
    ({ w with pc := 0x1001 } : State).pc.getLsbD 0 = true ∧
    ((0xFFFFE000 : Quad).getLsbD 0 = false ∧ ioBase w.cfg ≤ phys w.cfg 0xFFFFE000) ∧
    ((0xFFFFFFFE : Quad).getLsbD 0 = false ∧ ioBase w.cfg ≤ phys w.cfg 0xFFFFFFFE) ∧
    ((0x20000 : Quad).getLsbD 0 = false ∧ phys w.cfg 0x20000 < ioBase w.cfg ∧
      regionKind w.cfg (phys w.cfg 0x20000) = .unavailable) ∧
    ((0xFFFFB000 : Quad).getLsbD 0 = false ∧
      memoryByte { w with pc := 0xFFFFB000, written := [0xFFB000] } 0xFFFFB000 = true ∧
      phys w.cfg 0xFFFFB000 ∈ ({ w with pc := 0xFFFFB000, written := [0xFFB000] } : State).written) := by decide +kernel

/-- PCOV just below pc. -/
def wPcov : State := { w with pcov := 0xFFF }

theorem test_witness_PcOverflowStepsOverTheInstruction :
    (EnvInput.reset ∉ inputsNow wPcov ∧ (atBoundary wPcov).runState = .running ∧
      (atBoundary wPcov).pc.getLsbD 0 = false ∧
      (atBoundary wPcov).pcov.toNat < (atBoundary wPcov).pc.toNat ∧ (atBoundary wPcov).sysexcp.pcovf = false) ∧
    NoEvent (atBoundary wPcov) ∧ fetchWord (atBoundary wPcov) (atBoundary wPcov).pc = .next 0xFFFE :=
  ⟨by decide +kernel, ⟨rfl, .inl rfl⟩, next_of_goesOn (by decide +kernel)⟩

/-- The quad at a vector and the stack of `w` are ready for an entry. -/
theorem ready_of_decided {s : State} {vec target : Quad}
    (h : Memory.wf (blankByte s.cfg) s.mem = true ∧ InRam 6 s (sp s - 6) ∧ InMemory 4 s vec ∧
      Apart s 6 (sp s - 6) 4 vec)
    (r : goesOn (readMem .quad s vec) (fun a => decide (a = target)) = true) : EntryReady s vec target :=
  ⟨h.1, h.2.1, h.2.2.1, h.2.2.2, next_of_goesOn r⟩

/-- `w` with a pending exception, and with a presented interrupt. -/
def wPending : State := { w with pendingExc := some .divideByZero }
def wIrq : State := { w with irq := some 0x40 }

/-- A state with odd addresses at the three vectors of `w`. -/
def oddVectors (s : State) : State := place [(7, [1]), (11, [1]), (0x43, [1])] s

/-- An operation is refused because the address in a vector is odd. -/
def refusedOdd {α : Type} (r : Res α) : Bool :=
  match r with
  | .refused .oddPc => true
  | _ => false

/-- 10_state.md R27, D4: entries, TRAP, ILL, the chained IRET and reset do not go to an odd address. -/
theorem test_odd_vectors_are_refused :
    refusedOdd (step (oddVectors wPending)) = true ∧ refusedOdd (step (oddVectors wIrq)) = true ∧
    refusedOdd (exec (.trap 1) (oddVectors w)) = true ∧ refusedOdd (exec .ill (oddVectors w)) = true ∧
    refusedOdd (exec .iret (oddVectors { wIrq with flags := 0x82 })) = true ∧
    refusedOdd (step (due [.reset] (oddVectors w))) = true := by decide +kernel

theorem test_witness_PendingExceptionIsEntered :
    (EnvInput.reset ∉ inputsNow wPending ∧ (atBoundary wPending).runState = .running ∧
      (atBoundary wPending).pendingExc = some .divideByZero) ∧ EntryReady (atBoundary wPending) 8 0x2000 ∧
    EntryReady (atBoundary (oddVectors wPending)) 8 0x2001 :=
  ⟨by decide +kernel, ready_of_decided (by decide +kernel) (by decide +kernel),
    ready_of_decided (by decide +kernel) (by decide +kernel)⟩

theorem test_witness_EnabledInterruptIsEntered :
    (EnvInput.reset ∉ inputsNow wIrq ∧ (atBoundary wIrq).runState = .running ∧ (atBoundary wIrq).pendingExc = none ∧
      flagIrqe (atBoundary wIrq).flags = true ∧ (atBoundary wIrq).irq = some 0x40) ∧
    NoModifiers (atBoundary wIrq) ∧ EntryReady (atBoundary wIrq) 0x40 0x3000 ∧
    EntryReady (atBoundary (oddVectors wIrq)) 0x40 0x3001 :=
  ⟨by decide +kernel, ⟨rfl, rfl, rfl⟩, ready_of_decided (by decide +kernel) (by decide +kernel),
    ready_of_decided (by decide +kernel) (by decide +kernel)⟩

/-- Debugger breaks disabled and enabled; the ILL bit 0, and 1, where no stack is needed; an even and an odd vector. -/
theorem test_witness_IllegalInstructionsAreEntered :
    w.cfg.ocdBreakEnabled = false ∧ w.sysexcp.ill = false ∧ EntryReady w 8 0x2000 ∧ EntryReady (oddVectors w) 8 0x2001 ∧
      ({ w.cfg with ocdBreakEnabled := true } : Config).ocdBreakEnabled = true ∧
      ({ w.sysexcp with ill := true } : Sysexcp).ill = true ∧
      InMemory 4 { w with sysexcp := { w.sysexcp with ill := true } } 8 ∧
      readMem .quad { w with sysexcp := { w.sysexcp with ill := true } } 8 = .next 0x2000 :=
  ⟨rfl, rfl, ready_of_decided (by decide +kernel) (by decide +kernel),
    ready_of_decided (by decide +kernel) (by decide +kernel), rfl, rfl, by decide +kernel,
    next_of_goesOn (r := readMem .quad { w with sysexcp := { w.sysexcp with ill := true } } 8) (by decide +kernel)⟩

/-- Vectors 1 and 10H, with even and with odd addresses. -/
theorem test_witness_TrapIsEntered :
    EntryReady w (4 * (1 : Byte).setWidth 32) 0x100 ∧ EntryReady w (4 * (0x10 : Byte).setWidth 32) 0x3000 ∧
    EntryReady (oddVectors w) (4 * (1 : Byte).setWidth 32) 0x101 :=
  ⟨ready_of_decided (by decide +kernel) (by decide +kernel), ready_of_decided (by decide +kernel) (by decide +kernel),
    ready_of_decided (by decide +kernel) (by decide +kernel)⟩

/-- An even address on the stack; an odd one is in the quad at FFFF_DC02H. -/
theorem test_witness_ReturnsPopTheStack :
    (InMemory 4 w (sp w) ∧ InMemory 6 w (sp w) ∧ flagCirqe w.flags = false ∧ w.irq = none ∧
      (0x1002 : Quad).getLsbD 0 = false ∧ (0x100200A3 : Quad).getLsbD 0 = true) ∧
    readMem .quad w (sp w) = .next 0x1002 ∧ readMem .byte w (sp w + 5) = .next 0xA3 ∧
    readMem .quad w (sp w + 2) = .next 0x100200A3 :=
  ⟨by decide +kernel, next_of_goesOn (r := readMem .quad w (sp w)) (by decide +kernel),
    next_of_goesOn (r := readMem .byte w (sp w + 5)) (by decide +kernel),
    next_of_goesOn (r := readMem .quad w (sp w + 2)) (by decide +kernel)⟩

/-- `w` in the routine of one interrupt with another presented. -/
def wChain : State := { wIrq with flags := 0x82 }

theorem test_witness_ReturnChainsToAPendingInterrupt :
    (flagCirqe wChain.flags = true ∧ wChain.irq = some 0x40 ∧ wChain.atmCount = 0 ∧ InMemory 4 wChain 0x40) ∧
    readMem .quad wChain 0x40 = .next 0x3000 ∧ readMem .quad (oddVectors wChain) 0x40 = .next 0x3001 :=
  ⟨by decide +kernel, next_of_goesOn (r := readMem .quad wChain 0x40) (by decide +kernel),
    next_of_goesOn (r := readMem .quad (oddVectors wChain) 0x40) (by decide +kernel)⟩

/-- Halted and stopped, with and without an admitted event, with and without inputs still to come. -/
theorem test_witness_HaltAndStopModeWait :
    (EnvInput.reset ∉ inputsNow { w with runState := .halted } ∧
      (atBoundary { w with runState := .halted }).runState = .halted ∧ w.env.tail = []) ∧
    ((atBoundary { w with runState := .stopped, env := [[], []] }).runState = .stopped ∧
      ({ w with runState := .stopped, env := [[], []] } : State).env.tail ≠ []) ∧
    (EnvInput.reset ∉ inputsNow { w with runState := .stopped, env := [[.wake]] } ∧
      wakes [.external] [.wake] { w with runState := .stopped } = true) := by decide +kernel

theorem test_witness_ResetIsTakenAtTheBoundary :
    (EnvInput.reset ∈ inputsNow (due [.reset] w) ∧
      InMemory 4 (atBoundary (due [.reset] w)) (due [.reset] w).cfg.resetVector) ∧
    readMem .quad (atBoundary (due [.reset] w)) 4 = .next 0x100 ∧
    readMem .quad (atBoundary (due [.reset] (oddVectors w))) 4 = .next 0x101 :=
  ⟨by decide +kernel, next_of_goesOn (r := readMem .quad (atBoundary (due [.reset] w)) 4) (by decide +kernel),
    next_of_goesOn (r := readMem .quad (atBoundary (due [.reset] (oddVectors w))) 4) (by decide +kernel)⟩

/-- SYSEXCP with and without an address; a configured kind of exception and another, with each prefix and without one;
canonical contents. -/
theorem test_witness_EnvironmentInputsActAtTheBoundary :
    wIo.cfg.sysexcpPlace = none ∧ ({ w.cfg with sysexcpPlace := some place20 } : Config).sysexcpPlace = some place20 ∧
    5 ∈ wIo.cfg.extraExceptions ∧ 4 ∉ wIo.cfg.extraExceptions ∧
    (wIo.extendPending = false ∧ wIo.noflagsPending = false) ∧
    ({ wIo with extendPending := true } : State).extendPending = true ∧
    ({ wIo with noflagsPending := true } : State).noflagsPending = true ∧
    Memory.wf (resetContents wIo.cfg) [(0xFFE060, 0x04)] = true := by decide +kernel

/-- Memory operands of each size in RAM (by a 16-bit and a 32-bit address and by a register), nonvolatile memory and a
control register; used by the statements on TwoOperandQuadSourceForms, TwoOperandExtendingSourceForms,
TwoOperandQuadDestinationForms, TwoOperandNarrowDestinationForms, UnaryMemoryInstructions and ClrStoresZero. -/
theorem test_witness_memory_operands :
    Readable 4 w (addr16Ea 0xB010) ∧ Readable 4 w 0 ∧ Readable 4 w (readReg w 2 + (0x1FF0 : BitVec 13).signExtend 32) ∧
    Readable 1 w (bopSourceEa (.addr16 0xB010) w) ∧ Readable 2 w (bopSourceEa (.ind 4 2) w) ∧
    Readable 4 w (uopEa (.off 4 2) w) ∧ Writable 4 w (uopEa (.addr16 0xE00C) w) ∧
    Writable 1 w (uopEa (.ind 2) w) ∧ Writable 2 w (uopEa (.addr32 0xFFFFB010) w) ∧
    UpdateReady 1 w (uopEa (.ind 2) w) ∧ UpdateReady 2 w (uopEa (.addr16 0xB000) w) ∧
    UpdateReady 4 w (uopEa (.addr32 0xFFFFDFFC) w) := by decide +kernel

/-- A writing operation and a comparing one; the byte FLAGS itself under NOFLAGS. -/
theorem test_witness_memory_destinations :
    MemoryReady .add 4 w (addr16Ea 0xB010) ∧ MemoryReady .sub 4 w 0xFFFFDFFC ∧ MemoryReady .xor 4 w (readReg w 2) ∧
    MemoryReady .cp 4 w 0 ∧ MemoryReady .adc 1 w (bopDestEa (.indImm 2 (1 : Byte)) w) ∧
    MemoryReady .tm 2 w (bopDestEa (.addr16Reg (w := 16) 0xE010 1) w) ∧
    MemoryReady .or 1 { w with noflagsPending := true } 0xFFFFE010 :=
  ⟨by decide +kernel, by decide +kernel, by decide +kernel, by decide +kernel, by decide +kernel, by decide +kernel,
    by decide +kernel⟩

theorem test_witness_FlagsDestinationIsRefused :
    BinOp.add.writes = true ∧ w.noflagsPending = false ∧
      phys w.cfg (bopDestEa (.addr16Reg (w := 8) 0xE010 1) w) = ioBase w.cfg + 0x10 ∧
      phys w.cfg (bopDestEa (.addr32Reg (w := 16) 0x00FFE010 1) w) = ioBase w.cfg + 0x10 ∧
      phys w.cfg (uopEa (.addr16 0xE010) w) = ioBase w.cfg + 0x10 ∧ Readable 4 w (uopEa (.addr16 0xE010) w) ∧
      quadDestEa (.addr16Reg 0xE010 1) w = some 0xFFFFE010 := by decide +kernel

/-- A divisor that is not 0 with the high half below it, not below it, and a divisor of 0. -/
theorem test_witness_divides :
    readReg w 5 ≠ 0 ∧ (readReg w 3).toNat < (readReg w 5).toNat ∧ (readReg w 5).toNat ≤ (readReg w 2).toNat ∧
      readReg w 0 = 0 := by decide +kernel

theorem test_witness_LoadsFromMemory :
    Readable 4 w (loadEa (.postInc 2) (offsetBy w.pc (loadLen (.postInc 2))) w) ∧
    Readable 1 w (loadEa (.pcRel 0x3FFF) (offsetBy w.pc (loadLen (.pcRel 0x3FFF))) w) ∧
    Readable 2 w (loadEa (.fpRel 0x1F) (offsetBy w.pc (loadLen (.fpRel 0x1F))) w) := by decide +kernel

theorem test_witness_StoresToMemory :
    Writable 4 w (storeEa .quad (.preDec 15) w) ∧ Writable 2 w (storeEa .word (.fpRel 0x1F) w) ∧
    Writable 1 w (storeEa .byte (.postInc 2) w) ∧ Writable 4 w (storeEa .quad (storePtrDest .preDec 15) w) ∧
    Writable 2 w (storeEa .word (storePtrDest .ind 2) w) ∧ Writable 1 w (storeEa .byte (storePtrDest .postInc 2) w) := by
  decide +kernel

/-- For PushAndFlagTransfers, LinkAndUnlink and Calls. -/
theorem test_witness_stack :
    Memory.wf (blankByte w.cfg) w.mem = true ∧ InRam 1 w (sp w - 1) ∧ InRam 2 w (sp w - 2) ∧ InRam 4 w (sp w - 4) ∧
      Readable 1 w (sp w + 1) ∧ InMemory 4 w (readReg w 14) := by decide +kernel

/-- The full mask, whose last push is 32 bytes down. -/
theorem test_witness_PushMultipleRegisters :
    Memory.wf (blankByte w.cfg) w.mem = true ∧ (pushMask 15 0xFF).length = 8 ∧
    InRam (4 * (pushMask 15 0xFF).length) w (sp w - BitVec.ofNat 32 (4 * (pushMask 15 0xFF).length)) ∧
    InRam (4 * (pushMask 7 0x81).length) w (sp w - BitVec.ofNat 32 (4 * (pushMask 7 0x81).length)) := by decide +kernel

/-- R0 from the stack of `w`, and an empty mask. -/
theorem test_witness_PopMultipleRegisters :
    (InMemory (4 * (popMask 0 0x01).length) w (sp w) ∧ InMemory (4 * (popMask 8 0).length) w (sp w) ∧
      (popMask 8 0).length = 0) ∧
    ∀ k < (popMask 0 0x01).length, readMem .quad w (sp w + BitVec.ofNat 32 (4 * k)) = .next 0x1002 :=
  ⟨by decide +kernel, fun k hk => by
    have hk0 : k = 0 := by
      have : (popMask 0 0x01).length = 1 := by decide
      omega
    subst hk0
    exact next_of_goesOn (r := readMem .quad w (sp w + BitVec.ofNat 32 (4 * 0))) (by decide +kernel)⟩

end Sys2Proof.Tests
end

section
/-! PROOFS. The condition codes of 10_state.md R36: negation pairs a code of the lower half of Table 3 with the code of
the upper half that stands eight rows below it. -/

namespace Sys2Proof

/-- The condition that holds exactly when the given one does not (its row in the other half of 10_state.md Table 3);
`Machine.condHolds_negate` and `Cond.ofBits_add_eight` tie it to the model. -/
def Cond.negate : Cond → Cond
  | .b => .nb | .lt => .ge | .le => .gt | .ule => .ugt | .ov => .nov | .mi => .pl | .z => .nz | .c => .nc
  | .nb => .b | .ge => .lt | .gt => .le | .ugt => .ule | .nov => .ov | .pl => .mi | .nz => .z | .nc => .c

/-- The code alone, with no FLAGS byte: a finite fact about the sixteen 4-bit values. The sum wraps, so it takes the
upper half of the table back to the lower. -/
theorem Cond.ofBits_add_eight (x : BitVec 4) : Cond.ofBits (x + 8) = (Cond.ofBits x).negate := by
  revert x
  decide

namespace Machine

/-- The flag test of each row of Table 3 and that of its partner are complementary. -/
@[simp] theorem condHolds_negate (cc : Cond) (f : Byte) : condHolds cc.negate f = !condHolds cc f := by
  cases cc with
  | b | lt | le | ule | ov | mi | z | c => rfl
  | nb | ge | gt | ugt | nov | pl | nz | nc => exact (Bool.not_not _).symm

/-- Settles O6: the rows of the lower half are `condHolds` at each code, and the upper half is the negation of the
lower because adding 8 to a code negates its condition. -/
theorem conditionCodesAreTable3 : Obligations.ConditionCodesAreTable3 := by
  intro f
  have add_eight_negates (x : BitVec 4) :
      condHolds (Cond.ofBits (x + 8)) f = !condHolds (Cond.ofBits x) f := by
    rw [Cond.ofBits_add_eight, condHolds_negate]
  exact ⟨rfl, rfl, rfl, rfl, rfl, rfl, rfl, rfl, add_eight_negates⟩

end Machine
end Sys2Proof
end

section
/-! PROOFS. The words of 30_encoding.md R115. The length table lists them as (match, mask) patterns, the decoder
leaves them to the last branches of its matches on nibbles, and `unimplementedRanges` gives their first and last
values; here both are shown to be the ranges. -/

namespace Sys2Proof

/-! ### The patterns of the length table tile the ranges -/

/-- The sum of the sizes 2^k of the blocks that the exponents in a list name. -/
def tileSize (ks : List Nat) : Nat := (ks.map (2 ^ ·)).sum

/-- The (match, mask) rows of consecutive blocks of the sizes 2^k, the first at `start`. -/
def tilePatterns : Nat → List Nat → List (Nat × Nat)
  | _, [] => []
  | start, k :: ks => (start, 2 ^ 16 - 2 ^ k) :: tilePatterns (start + 2 ^ k) ks

/-- Whether each of the consecutive blocks starts at a multiple of its size, as a pattern on word 0 must. -/
def tilesAligned : Nat → List Nat → Bool
  | _, [] => true
  | start, k :: ks => decide (k ≤ 16 ∧ start % 2 ^ k = 0) && tilesAligned (start + 2 ^ k) ks

/-- The start of each range of 30_encoding.md R115 and the exponents of the blocks that tile it
(`unimplementedPatterns_eq` and `unimplementedRanges_eq` tie it to the model's two tables). -/
def unimplementedTiles : List (Nat × List Nat) :=
  [(0x0006, [0]), (0x0008, [3]), (0x0010, [4]), (0x0040, [6]), (0x0080, [7]), (0x0200, [8]), (0x0900, [6]),
   (0x4560, [5]), (0x4580, [7]), (0x4600, [9]), (0xA800, [9]), (0xAD80, [4]), (0xB300, [8]), (0xF232, [1, 2, 3]),
   (0xF240, [6, 7]), (0xF300, [8]), (0xF400, [10, 10, 8]), (0xFF00, [7, 6, 5, 4, 2, 1, 0])]

theorem unimplementedPatterns_eq : unimplementedPatterns = unimplementedTiles.flatMap fun t => tilePatterns t.1 t.2 := by
  decide

theorem unimplementedRanges_eq :
    unimplementedRanges = unimplementedTiles.map fun t => (t.1, t.1 + tileSize t.2 - 1) := by
  decide

theorem unimplementedTiles_aligned : ∀ t ∈ unimplementedTiles, tilesAligned t.1 t.2 = true ∧ 0 < tileSize t.2 := by
  decide

/-- Consecutive aligned blocks make one range. -/
theorem any_tilePatterns (w : Word) (start : Nat) (ks : List Nat) (aligned : tilesAligned start ks = true) :
    ((tilePatterns start ks).any fun p => matchesPattern w p.1 p.2) =
      decide (start ≤ w.toNat ∧ w.toNat < start + tileSize ks) := by
  induction ks generalizing start with
  | nil =>
    have empty : ¬ (start ≤ w.toNat ∧ w.toNat < start + 0) := by omega
    exact (decide_eq_false empty).symm
  | cons k ks ih =>
    simp only [tilesAligned, Bool.and_eq_true, decide_eq_true_eq] at aligned
    obtain ⟨⟨hk, hstart⟩, rest_aligned⟩ := aligned
    have size_cons : tileSize (k :: ks) = 2 ^ k + tileSize ks := by simp [tileSize]
    rw [tilePatterns, List.any_cons, matchesPattern_eq w start k hk hstart, ih _ rest_aligned, size_cons,
      ← Bool.decide_or, decide_eq_decide]
    have := Nat.two_pow_pos k
    omega

/-- The two tables of 30_encoding.md R115 list the same words. -/
theorem isUnimplemented_eq_inUnimplementedRange (w : Word) : isUnimplemented w = inUnimplementedRange w := by
  rw [isUnimplemented, inUnimplementedRange, unimplementedPatterns_eq, unimplementedRanges_eq, List.any_flatMap,
    List.any_map, Bool.eq_iff_iff, List.any_eq_true, List.any_eq_true]
  refine exists_congr fun t => and_congr_right fun ht => ?_
  obtain ⟨aligned, size_pos⟩ := unimplementedTiles_aligned t ht
  rw [any_tilePatterns w _ _ aligned]
  simp only [Function.comp_apply, Bool.and_eq_true, decide_eq_true_eq]
  omega

theorem lengthOfWord_eq_none_iff (w : Word) : lengthOfWord w = none ↔ isUnimplemented w = true := by
  unfold lengthOfWord
  by_cases h : isUnimplemented w = true
  · simp [h]
  · rw [if_neg h]
    split <;> simp [h]

/-- Membership in the ranges, as bounds that `omega` can read. -/
theorem inUnimplementedRange_iff (w : Word) : inUnimplementedRange w = true ↔
    ∃ r ∈ unimplementedRanges, r.1 ≤ w.toNat ∧ w.toNat ≤ r.2 := by
  simp only [inUnimplementedRange, List.any_eq_true, Bool.and_eq_true, decide_eq_true_eq]

/-! ### An operation number always names an instruction -/

section
variable (ext : Bool) (w : Word)

@[simp] theorem bopQuadOf_ne_unimplemented (o : BitVec 3) (f : BopQuad) : bopQuadOf ext o f ≠ .unimplemented w := by
  cases ext <;> (unfold bopQuadOf; split <;> nofun)

@[simp] theorem bopUBOf_ne_unimplemented (o : BitVec 3) (d : Reg) (m : BopSource) :
    bopUBOf ext o d m ≠ .unimplemented w := by
  cases ext <;> (unfold bopUBOf; split <;> nofun)

@[simp] theorem bopSBOf_ne_unimplemented (o : BitVec 3) (d : Reg) (m : BopSource) :
    bopSBOf ext o d m ≠ .unimplemented w := by
  cases ext <;> (unfold bopSBOf; split <;> nofun)

@[simp] theorem bopUWOf_ne_unimplemented (o : BitVec 3) (d : Reg) (m : BopSource) :
    bopUWOf ext o d m ≠ .unimplemented w := by
  cases ext <;> (unfold bopUWOf; split <;> nofun)

@[simp] theorem bopSWOf_ne_unimplemented (o : BitVec 3) (d : Reg) (m : BopSource) :
    bopSWOf ext o d m ≠ .unimplemented w := by
  cases ext <;> (unfold bopSWOf; split <;> nofun)

@[simp] theorem bopBOf_ne_unimplemented (o : BitVec 3) (f : BopDest 8) : bopBOf ext o f ≠ .unimplemented w := by
  cases ext <;> (unfold bopBOf; split <;> nofun)

@[simp] theorem bopWOf_ne_unimplemented (o : BitVec 3) (f : BopDest 16) : bopWOf ext o f ≠ .unimplemented w := by
  cases ext <;> (unfold bopWOf; split <;> nofun)

@[simp] theorem uopOf_ne_unimplemented (sel o : BitVec 2) (m : UopDest) : uopOf ext sel o m ≠ .unimplemented w := by
  cases ext <;> (unfold uopOf uopBOf uopWOf uopQuadOf; split <;> split <;> nofun)

@[simp] theorem ldExtOf_ne_unimplemented (zb : BitVec 2) (d : Reg) (m : LoadSource) :
    ldExtOf zb d m ≠ .unimplemented w := by
  unfold ldExtOf; split <;> nofun

end

/-! ### The words each part of the decoder leaves unimplemented

Each part decodes the words of one page, whose first nibble or first byte its caller has fixed; a lemma gives the
ranges in the remaining nibbles. -/

section
variable (ext : Bool) (w w1 w2 : Word)

theorem lowByte_toNat : (lowByte w).toNat = w.toNat % 256 := by
  simp only [lowByte, BitVec.extractLsb'_toNat, Nat.shiftRight_zero]

theorem decode00_eq_unimplemented_iff : decode00 w w1 = .unimplemented w ↔
    w.toNat % 0x100 = 0x06 ∨ 0x08 ≤ w.toNat % 0x100 ∧ w.toNat % 0x100 ≤ 0x1F ∨ 0x40 ≤ w.toNat % 0x100 := by
  have third := nib1_toNat w
  have last := nib0_toNat w
  unfold decode00
  split
  case h_1 => split <;> simp only [reduceCtorEq, true_iff, false_iff, imp_false] at * <;> omega
  case h_2 => split <;> simp only [reduceCtorEq, false_iff] <;> omega
  case h_3 => simp only [ldExtOf_ne_unimplemented, false_iff]; omega
  case h_4 => simp only [true_iff, imp_false] at *; omega

theorem decode03_ne_unimplemented : decode03 w w1 w2 ≠ .unimplemented w := by
  unfold decode03; split <;> nofun

theorem decode09_eq_unimplemented_iff : decode09 w w1 w2 = .unimplemented w ↔ w.toNat % 0x100 ≤ 0x3F := by
  have third := nib1_toNat w
  unfold decode09
  split <;> simp only [reduceCtorEq, true_iff, false_iff, imp_false] at * <;> omega

theorem decode0_eq_unimplemented_iff : decode0 w w1 w2 = .unimplemented w ↔
    w.toNat % 0x1000 = 0x006 ∨ 0x008 ≤ w.toNat % 0x1000 ∧ w.toNat % 0x1000 ≤ 0x01F ∨
      0x040 ≤ w.toNat % 0x1000 ∧ w.toNat % 0x1000 ≤ 0x0FF ∨ 0x200 ≤ w.toNat % 0x1000 ∧ w.toNat % 0x1000 ≤ 0x2FF ∨
      0x900 ≤ w.toNat % 0x1000 ∧ w.toNat % 0x1000 ≤ 0x93F := by
  have second := nib2_toNat w
  unfold decode0
  split
  case h_1 => rw [decode00_eq_unimplemented_iff]; omega
  case h_4 => simp only [decode03_ne_unimplemented, false_iff]; omega
  case h_10 => rw [decode09_eq_unimplemented_iff]; omega
  all_goals simp only [reduceCtorEq, true_iff, false_iff, imp_false] at *; omega

theorem decode1_ne_unimplemented : decode1 w ≠ .unimplemented w := by
  unfold decode1; split <;> nofun

theorem decode45_eq_unimplemented_iff : decode45 w w1 w2 = .unimplemented w ↔ 0x60 ≤ w.toNat % 0x100 := by
  have third := nib1_toNat w
  unfold decode45
  split <;> simp only [reduceCtorEq, true_iff, false_iff, imp_false] at * <;> omega

theorem decode4_eq_unimplemented_iff : decode4 w w1 w2 = .unimplemented w ↔
    0x560 ≤ w.toNat % 0x1000 ∧ w.toNat % 0x1000 ≤ 0x7FF := by
  have second := nib2_toNat w
  unfold decode4
  split
  case h_6 => rw [decode45_eq_unimplemented_iff]; omega
  -- 48xxH and 4BxxH take one more bit, of word 1, to name the instruction.
  case h_9 | h_12 => split <;> simp only [reduceCtorEq, false_iff] <;> omega
  case h_10 => simp only [ldExtOf_ne_unimplemented, false_iff]; omega
  all_goals simp only [reduceCtorEq, true_iff, false_iff, imp_false] at *; omega

theorem decode5_ne_unimplemented : decode5 w ≠ .unimplemented w := by
  unfold decode5; split <;> nofun

theorem decode7_ne_unimplemented : decode7 ext w w1 w2 ≠ .unimplemented w := by
  unfold decode7 decode7Direct decode7Indirect
  split <;> split <;> simp

theorem decodeAD_eq_unimplemented_iff : decodeAD ext w w1 w2 = .unimplemented w ↔
    0x80 ≤ w.toNat % 0x100 ∧ w.toNat % 0x100 ≤ 0x8F := by
  have third := nib1_toNat w
  unfold decodeAD
  split
  case h_1 => simp only [true_iff]; omega
  all_goals
    simp only [bopBOf_ne_unimplemented, bopQuadOf_ne_unimplemented, uopOf_ne_unimplemented, false_iff, imp_false] at *
    omega

theorem decodeA_eq_unimplemented_iff : decodeA ext w w1 w2 = .unimplemented w ↔
    0x800 ≤ w.toNat % 0x1000 ∧ w.toNat % 0x1000 ≤ 0x9FF ∨
      0xD80 ≤ w.toNat % 0x1000 ∧ w.toNat % 0x1000 ≤ 0xD8F := by
  have second := nib2_toNat w
  unfold decodeA
  split
  case h_6 => rw [decodeAD_eq_unimplemented_iff]; omega
  case h_3 | h_4 =>
    split <;> simp only [bopQuadOf_ne_unimplemented, bopWOf_ne_unimplemented, false_iff] <;> omega
  case h_5 => simp only [uopOf_ne_unimplemented, false_iff]; omega
  case h_7 => split <;> simp only [reduceCtorEq, false_iff] <;> omega
  case h_9 => simp only [bopQuadOf_ne_unimplemented, false_iff, imp_false] at *; omega
  all_goals simp only [reduceCtorEq, true_iff, false_iff]; omega

theorem decodeB_eq_unimplemented_iff : decodeB ext w = .unimplemented w ↔
    0x300 ≤ w.toNat % 0x1000 ∧ w.toNat % 0x1000 ≤ 0x3FF := by
  have second := nib2_toNat w
  unfold decodeB
  split
  -- The register-count shifts name another instruction where `ext` is set.
  case h_5 | h_6 | h_7 => split <;> simp only [reduceCtorEq, false_iff] <;> omega
  all_goals simp only [reduceCtorEq, true_iff, false_iff, imp_false] at *; omega

theorem decodeF2_eq_unimplemented_iff : decodeF2 w w1 w2 = .unimplemented w ↔ 0x32 ≤ w.toNat % 0x100 := by
  have third := nib1_toNat w
  have last := nib0_toNat w
  unfold decodeF2
  split
  case h_4 => split <;> simp only [reduceCtorEq, true_iff, false_iff, imp_false] at * <;> omega
  all_goals simp only [reduceCtorEq, true_iff, false_iff, imp_false] at *; omega

theorem decodeFF_eq_unimplemented_iff : decodeFF w = .unimplemented w ↔ w.toNat % 0x100 ≤ 0xF6 := by
  have low := lowByte_toNat w
  unfold decodeFF
  split <;> simp only [reduceCtorEq, true_iff, false_iff, imp_false] at * <;> omega

theorem decodeF_eq_unimplemented_iff : decodeF w w1 w2 = .unimplemented w ↔
    0x232 ≤ w.toNat % 0x1000 ∧ w.toNat % 0x1000 ≤ 0xCFF ∨
      0xF00 ≤ w.toNat % 0x1000 ∧ w.toNat % 0x1000 ≤ 0xFF6 := by
  have second := nib2_toNat w
  unfold decodeF
  split
  case h_3 => rw [decodeF2_eq_unimplemented_iff]; omega
  case h_6 => rw [decodeFF_eq_unimplemented_iff]; omega
  all_goals simp only [reduceCtorEq, true_iff, false_iff, imp_false] at *; omega

/-- The first nibble selects a part of the decoder; the words that part leaves unimplemented are the ranges of
30_encoding.md R115 on its page. -/
theorem decodeWords_eq_unimplemented_iff :
    decodeWords ext w w1 w2 = .unimplemented w ↔ inUnimplementedRange w = true := by
  simp only [inUnimplementedRange_iff, unimplementedRanges, List.exists_mem_cons_iff, List.not_mem_nil, false_and,
    exists_false, or_false]
  have first := nib3_toNat w
  unfold decodeWords
  split
  -- The pages that hold ranges: 0xxxH, 4xxxH, AxxxH, BxxxH and, as the last branch, FxxxH.
  case h_1 => rw [decode0_eq_unimplemented_iff]; omega
  case h_5 => rw [decode4_eq_unimplemented_iff]; omega
  case h_11 => rw [decodeA_eq_unimplemented_iff]; omega
  case h_12 => rw [decodeB_eq_unimplemented_iff]; omega
  case h_16 =>
    have page : 0xF000 ≤ w.toNat := by
      simp only [imp_false] at *
      omega
    rw [decodeF_eq_unimplemented_iff]
    omega
  -- The other pages hold none.
  case h_2 => simp only [decode1_ne_unimplemented, false_iff]; omega
  case h_6 => simp only [decode5_ne_unimplemented, false_iff]; omega
  case h_7 => simp only [ldExtOf_ne_unimplemented, false_iff]; omega
  case h_8 => simp only [decode7_ne_unimplemented, false_iff]; omega
  case h_3 | h_9 | h_10 => split <;> simp only [reduceCtorEq, false_iff] <;> omega
  case h_4 | h_13 | h_14 | h_15 => simp only [reduceCtorEq, false_iff]; omega

end

/-- Settles O3: the decoder's and the length table's unimplemented words are both the ranges. -/
theorem unimplementedWordsAreTheListed : Obligations.UnimplementedWordsAreTheListed := by
  intro ext w0 w1 w2
  have length_iff : lengthOfWord w0 = none ↔ inUnimplementedRange w0 = true := by
    rw [lengthOfWord_eq_none_iff, isUnimplemented_eq_inUnimplementedRange]
  exact ⟨decodeWords_eq_unimplemented_iff ext w0 w1 w2, length_iff⟩

end Sys2Proof
end

section
/-! PROOFS. NEG, MUL and COM (40_arithmetic.md R162, R163, 41_logical.md R204): their words are four nibbles each, and
their results and flags are those of 0 - a, of the product modulo 2^32 and of the complement. -/

namespace Sys2Proof

/-! ### Words -/

/-- The words of 45xxH, by their third nibble (30_encoding.md R126). -/
theorem decodeWords_wordOf_45 (ext : Bool) (c d : BitVec 4) (w1 w2 : Word) :
    decodeWords ext (wordOf 0x4 0x5 c d) w1 w2 = decode45 (wordOf 0x4 0x5 c d) w1 w2 := by
  simp [decodeWords, decode4]

theorem decodeWords_neg (ext : Bool) (d : Reg) (w1 w2 : Word) :
    decodeWords ext (wordOf 0x4 0x5 0x5 d) w1 w2 = .neg d := by
  rw [decodeWords_wordOf_45]
  simp [decode45]

theorem decodeWords_com (ext : Bool) (d : Reg) (w1 w2 : Word) :
    decodeWords ext (wordOf 0x4 0x5 0x4 d) w1 w2 = .com d := by
  rw [decodeWords_wordOf_45]
  simp [decode45]

theorem decodeWords_mul (ext : Bool) (d r : Reg) (w1 w2 : Word) :
    decodeWords ext (wordOf 0xB 0x2 r d) w1 w2 = .mul d r := by
  simp [decodeWords, decodeB]

namespace Machine

/-! ### Subtraction from 0 -/

theorem aluSub_zero_result {w : Nat} (a : BitVec w) : (aluSub 0#w a false).result = 0#w - a := by
  simp [aluSub_result]

/-- 0 - a borrows unless a is 0. -/
theorem aluSub_zero_c {w : Nat} (a : BitVec w) : (aluSub 0#w a false).c = decide (a ≠ 0#w) := by
  rw [aluSub_c, decide_eq_decide, ne_eq, ← BitVec.toNat_inj]
  simp [Nat.pos_iff_ne_zero]

/-- The least negative value is the only one whose negation does not fit. -/
theorem aluSub_zero_v {w : Nat} (hw : 0 < w) (a : BitVec w) :
    (aluSub 0#w a false).v = decide (a = BitVec.intMin w) := by
  have below := BitVec.toInt_lt (x := a)
  have above := BitVec.le_toInt a
  rw [aluSub_v hw, outOfRange, decide_eq_decide, ← BitVec.toInt_inj, BitVec.toInt_intMin_of_pos hw]
  simp only [BitVec.toInt_zero, Bool.toNat_false]
  omega

/-- NEG's flags as its rule words them (40_arithmetic.md R162). -/
def negFlags {w : Nat} (a : BitVec w) : FlagUpdate where
  c := some (decide (a ≠ 0#w))
  z := some (decide (0#w - a = 0#w))
  s := some (0#w - a).msb
  v := some (decide (a = BitVec.intMin w))
  b := some (decide (a = 0#w))

theorem arithFlags_aluSub_zero {w : Nat} (hw : 0 < w) (a : BitVec w) :
    arithFlags (aluSub 0#w a false) (a == 0#w) = negFlags a := by
  have z_eq : (aluSub 0#w a false).z = decide ((aluSub 0#w a false).result = 0#w) := rfl
  have s_eq : (aluSub 0#w a false).s = (aluSub 0#w a false).result.msb := rfl
  rw [arithFlags, z_eq, s_eq, aluSub_zero_result, aluSub_zero_c, aluSub_zero_v hw, beq_zero_eq, negFlags]

/-! ### What the instructions do -/

theorem exec_neg_outcome (s : State) (d : Reg) :
    ∃ t, exec (.neg d) s = .next t ∧ WroteRegister s t d (0 - readReg s d) (negFlags (readReg s d)) 2 := by
  refine ⟨_, rfl, ?_⟩
  rw [arithFlags_aluSub_zero (by decide), aluSub_zero_result]
  exact wroteRegister s d _ _ 2

theorem exec_mul_outcome (s : State) (d r : Reg) :
    ∃ t, exec (.mul d r) s = .next t ∧ WroteRegister s t d (readReg s d * readReg s r)
      (wideFlags (decide (readReg s d * readReg s r = 0)) (readReg s d * readReg s r).msb) 2 :=
  ⟨_, rfl, wroteRegister s d _ _ 2⟩

theorem exec_com_outcome (s : State) (d : Reg) :
    ∃ t, exec (.com d) s = .next t ∧ WroteRegister s t d (~~~ readReg s d)
      { c := some false, z := some (decide (~~~ readReg s d = 0)), s := some (~~~ readReg s d).msb,
        v := some false, b := some (decide (readReg s d = 0)) } 2 :=
  ⟨_, rfl, wroteRegister s d _ _ 2⟩

/-- Settles O41: the words are the nibbles the encoder writes and the decoder reads; the result of MUL is the product
of bit vectors, which is the low half of the product of numbers. -/
theorem negMulAndCom : Obligations.NegMulAndCom := by
  intro s d r
  have low_product : BitVec.ofNat 32 ((readReg s d).toNat * (readReg s r).toNat) = readReg s d * readReg s r := by
    rw [BitVec.ofNat_mul, BitVec.ofNat_toNat, BitVec.ofNat_toNat, BitVec.setWidth_eq, BitVec.setWidth_eq]
  have neg_word : 0x455#12 ++ d = wordOf 0x4 0x5 0x5 d := rfl
  have mul_word : 0xB2#8 ++ r ++ d = wordOf 0xB 0x2 r d := rfl
  have com_word : 0x454#12 ++ d = wordOf 0x4 0x5 0x4 d := rfl
  rw [low_product, neg_word, mul_word, com_word]
  exact ⟨rfl, rfl, rfl,
    fun ext w1 w2 => ⟨decodeWords_neg ext d w1 w2, decodeWords_mul ext d r w1 w2, decodeWords_com ext d w1 w2⟩,
    exec_neg_outcome s d, exec_mul_outcome s d r, exec_com_outcome s d⟩

end Machine
end Sys2Proof
end

section
/-! PROOFS. LD cc, LDES and EXT (44_load.md R280, R281, R252): the first two are a register load, which sets no flag; EXT
writes the extension of the source's low part and sets its flags from that result. -/

namespace Sys2Proof

/-- Each condition's code in 10_state.md Table 3 names that condition. -/
theorem Cond.ofBits_bits (cc : Cond) : Cond.ofBits cc.bits = cc := by
  cases cc <;> rfl

namespace Machine

theorem loadRegister_outcome (s : State) (d : Reg) (v : Quad) (len : Nat) :
    ∃ t, loadRegister d v len s = .next t ∧ WroteRegister s t d v {} len :=
  ⟨_, rfl, wroteRegister_plain s d v len⟩

/-- EXT's flags for a result, as its rule words them (44_load.md R252). -/
def extFlags (v : Quad) : FlagUpdate where
  z := some (decide (v = 0))
  s := some v.msb
  b := some false

theorem extendRegister_outcome {w : Nat} (s : State) (x : Extension) (a : BitVec w) (d : Reg) (len : Nat) :
    ∃ t, extendRegister x a d len s = .next t ∧
      WroteRegister s t d (extendTo x a) (extFlags (extendTo x a)) len := by
  refine ⟨_, rfl, ?_⟩
  rw [beq_zero_eq]
  exact wroteRegister s d (extendTo x a) (extFlags (extendTo x a)) len

/-- Settles O49: LD cc and LDES are register loads, and each EXT is `extendRegister` on the low byte or word, which the
model takes as a field of the source and the statement as its truncation. -/
theorem extLdccAndLdes : Obligations.ExtLdccAndLdes := by
  intro s d r
  have low_byte : (readReg s r).setWidth 8 = (readReg s r).extractLsb' 0 8 :=
    BitVec.setWidth_eq_extractLsb' (by decide)
  have low_word : (readReg s r).setWidth 16 = (readReg s r).extractLsb' 0 16 :=
    BitVec.setWidth_eq_extractLsb' (by decide)
  rw [low_byte, low_word]
  refine ⟨fun cc => ⟨rfl, cc.ofBits_bits, loadRegister_outcome s d _ 2⟩, rfl, loadRegister_outcome s d _ 2,
    rfl, rfl, rfl, rfl, ?_⟩
  rintro i v (⟨rfl, rfl⟩ | ⟨rfl, rfl⟩ | ⟨rfl, rfl⟩ | ⟨rfl, rfl⟩)
  · exact extendRegister_outcome s .unsigned ((readReg s r).extractLsb' 0 8) d 2
  · exact extendRegister_outcome s .unsigned ((readReg s r).extractLsb' 0 16) d 2
  · exact extendRegister_outcome s .signed ((readReg s r).extractLsb' 0 8) d 2
  · exact extendRegister_outcome s .signed ((readReg s r).extractLsb' 0 16) d 2

end Machine
end Sys2Proof
end

section
/-! PROOFS. One step, said once: what the environment's inputs leave alone, the ways a step can go on, and what every
step keeps (00_scope.md R19, 60_exceptions.md R411). -/

namespace Sys2Proof.Machine

/-! ### The inputs at a boundary -/

/-- t differs from s in what the environment's inputs reach only. -/
def InputsOnly (s t : State) : Prop :=
  t = { s with irq := t.irq, sysexcp := t.sysexcp, pendingExc := t.pendingExc, heldExc := t.heldExc, ioRegs := t.ioRegs }

theorem InputsOnly.refl (s : State) : InputsOnly s s := rfl

theorem InputsOnly.trans {s t u : State} (h : InputsOnly s t) (h' : InputsOnly t u) : InputsOnly s u := by
  unfold InputsOnly at *
  rw [h] at h'
  exact h'

theorem raise_inputsOnly (e : SysExc) (s : State) : InputsOnly s (raise e s) := by
  rcases raise_cases e s with ⟨_, h⟩ | ⟨_, h⟩ <;> rw [h] <;> rfl

theorem raiseFromDevice_inputsOnly (k : Nat) (s : State) : InputsOnly s (raiseFromDevice k s) := by
  unfold raiseFromDevice
  split
  · rfl
  · exact raise_inputsOnly _ s

theorem setContents_inputsOnly (s : State) (p : Nat) (b : Byte) : InputsOnly s (setContents s p b) := by
  unfold setContents
  split <;> rfl

theorem applyInput_exception (k : Nat) (s : State) :
    applyInput (.exception k) s = if k ∈ s.cfg.extraExceptions then raiseFromDevice k s else s := rfl

theorem applyInput_clearSysexcp_none (x : SysExc) {s : State} (h : s.cfg.sysexcpPlace = none) :
    applyInput (.clearSysexcp x) s = { s with sysexcp := withSysexcpBit s.sysexcp x false } := by
  simp only [applyInput, h]

theorem applyInput_clearSysexcp_some (x : SysExc) {s : State} {place : SysexcpPlace}
    (h : s.cfg.sysexcpPlace = some place) : applyInput (.clearSysexcp x) s = s := by
  simp only [applyInput, h]

theorem applyInput_inputsOnly (i : EnvInput) (s : State) : InputsOnly s (applyInput i s) := by
  cases i with
  | irq v => rfl
  | clearSysexcp x =>
    cases h : s.cfg.sysexcpPlace with
    | none => rw [applyInput_clearSysexcp_none x h]; rfl
    | some place => rw [applyInput_clearSysexcp_some x h]; exact .refl s
  | device p b => exact setContents_inputsOnly s p b
  | exception k =>
    rw [applyInput_exception]
    split
    · exact raiseFromDevice_inputsOnly k s
    · exact .refl s
  | wake => rfl
  | reset => rfl

/-- Only a device's own input changes the contents of the peripherals' registers. -/
theorem applyInput_ioRegs_wf (i : EnvInput) {s : State} (h : Memory.wf (resetContents s.cfg) s.ioRegs = true) :
    Memory.wf (resetContents (applyInput i s).cfg) (applyInput i s).ioRegs = true := by
  cases i with
  | irq v => exact h
  | clearSysexcp x =>
    cases hp : s.cfg.sysexcpPlace with
    | none => rw [applyInput_clearSysexcp_none x hp]; exact h
    | some place => rwa [applyInput_clearSysexcp_some x hp]
  | device p b => exact setContents_wf p b h
  | exception k =>
    rw [applyInput_exception, raiseFromDevice]
    split
    · split
      · exact h
      · rwa [raise_cfg, raise_ioRegs]
    · exact h
  | wake => exact h
  | reset => exact h

/-- What holds of the state and is kept by every input holds after all of them. -/
theorem applyInputs_induct (P : State → Prop) (hstep : ∀ i s, P s → P (applyInput i s)) (is : List EnvInput)
    {s : State} (h : P s) : P (applyInputs is s) := by
  induction is generalizing s with
  | nil => exact h
  | cons i is ih => exact ih (hstep i s h)

theorem applyInputs_inputsOnly (is : List EnvInput) (s : State) : InputsOnly s (applyInputs is s) :=
  applyInputs_induct (InputsOnly s) (fun i _ h => h.trans (applyInput_inputsOnly i _)) is (.refl s)

/-- The state that the inputs of a boundary act on: the list of inputs is taken, the free values are drawn anew, and no
exception waits any more. -/
def boundaryStart (s : State) : State := { s with env := s.env.tail, freeCtr := s.freeCtr + 1, heldExc := [] }

theorem atBoundary_eq (s : State) :
    atBoundary s = applyInputs (s.heldExc.map .exception ++ inputsNow s) (boundaryStart s) := rfl

theorem atBoundary_inputsOnly (s : State) : InputsOnly (boundaryStart s) (atBoundary s) :=
  applyInputs_inputsOnly _ _

@[simp] theorem atBoundary_cfg (s : State) : (atBoundary s).cfg = s.cfg := by
  rw [atBoundary_inputsOnly s]; rfl
@[simp] theorem atBoundary_env (s : State) : (atBoundary s).env = s.env.tail := by
  rw [atBoundary_inputsOnly s]; rfl
@[simp] theorem atBoundary_freeCtr (s : State) : (atBoundary s).freeCtr = s.freeCtr + 1 := by
  rw [atBoundary_inputsOnly s]; rfl
@[simp] theorem atBoundary_events (s : State) : (atBoundary s).events = s.events := by
  rw [atBoundary_inputsOnly s]; rfl
@[simp] theorem atBoundary_mem (s : State) : (atBoundary s).mem = s.mem := by
  rw [atBoundary_inputsOnly s]; rfl
@[simp] theorem atBoundary_written (s : State) : (atBoundary s).written = s.written := by
  rw [atBoundary_inputsOnly s]; rfl
@[simp] theorem atBoundary_pc (s : State) : (atBoundary s).pc = s.pc := by
  rw [atBoundary_inputsOnly s]; rfl
@[simp] theorem atBoundary_atmCount (s : State) : (atBoundary s).atmCount = s.atmCount := by
  rw [atBoundary_inputsOnly s]; rfl

theorem atBoundary_ioRegs_wf {s : State} (h : Memory.wf (resetContents s.cfg) s.ioRegs = true) :
    Memory.wf (resetContents (atBoundary s).cfg) (atBoundary s).ioRegs = true :=
  applyInputs_induct (fun t => Memory.wf (resetContents t.cfg) t.ioRegs = true)
    (fun i _ h => applyInput_ioRegs_wf i h) _ (s := boundaryStart s) h

/-! ### The ways a step can go on -/

theorem step_reset {s : State} (h : EnvInput.reset ∈ inputsNow s) : step s = resetEntry (atBoundary s) :=
  if_pos h

theorem step_running {s : State} (h : EnvInput.reset ∉ inputsNow s) (hr : (atBoundary s).runState = .running) :
    step s = runStep (atBoundary s) := by
  unfold step
  dsimp only
  rw [if_neg h, hr]

theorem step_halted {s : State} (h : EnvInput.reset ∉ inputsNow s) (hr : (atBoundary s).runState = .halted) :
    step s = waitStep s.cfg.wakeFromHalt .stuckInHalt (inputsNow s) (atBoundary s) := by
  unfold step
  dsimp only
  rw [if_neg h, hr, atBoundary_cfg]

theorem step_stopped {s : State} (h : EnvInput.reset ∉ inputsNow s) (hr : (atBoundary s).runState = .stopped) :
    step s = waitStep s.cfg.wakeFromStop .stuckInStop (inputsNow s) (atBoundary s) := by
  unfold step
  dsimp only
  rw [if_neg h, hr, atBoundary_cfg]

theorem waitStep_cases {admitted : List WakeEvent} {stuck : Fault} {inputs : List EnvInput} {s t : State}
    (h : waitStep admitted stuck inputs s = .next t) : runStep { s with runState := .running } = .next t ∨ t = s := by
  unfold waitStep at h
  split at h
  · exact .inl h
  · split at h
    · cases h
    · cases h; exact .inr rfl

/-- A step that goes on is a reset, a step of a running CPU, or a wait. -/
theorem step_cases {s t : State} (h : step s = .next t) :
    resetEntry (atBoundary s) = .next t ∨ (∃ r, runStep { atBoundary s with runState := r } = .next t) ∨
      t = atBoundary s := by
  by_cases hreset : EnvInput.reset ∈ inputsNow s
  · exact .inl (step_reset hreset ▸ h)
  cases hr : (atBoundary s).runState with
  | running => exact .inr (.inl ⟨(atBoundary s).runState, step_running hreset hr ▸ h⟩)
  | halted =>
    rw [step_halted hreset hr] at h
    exact .inr ((waitStep_cases h).imp_left fun h => ⟨.running, h⟩)
  | stopped =>
    rw [step_stopped hreset hr] at h
    exact .inr ((waitStep_cases h).imp_left fun h => ⟨.running, h⟩)

/-- Everything a reset can do when it goes on. -/
theorem resetEntry_cases {s t : State} (h : resetEntry s = .next t) : ∃ target : Quad, target.getLsbD 0 = false ∧
    t = jump target { State.reset with
      irq := s.irq, mem := s.mem, cfg := s.cfg, env := s.env,
      events := (noteReads .quad s.cfg.resetVector s).events, freeCtr := s.freeCtr } := by
  obtain ⟨r, hread, h⟩ := andThen_eq_next.1 h
  obtain ⟨_, hafter⟩ := loadMem_cases hread
  dsimp only at h
  rw [hafter] at h
  cases odd : r.1.getLsbD 0 with
  | true => rw [jumpLoaded_odd _ odd] at h; cases h
  | false => rw [jumpLoaded_even _ odd] at h; cases h; exact ⟨r.1, odd, rfl⟩

theorem lengthOrTwo_even (w0 : Word) : lengthOrTwo w0 % 2 = 0 := by
  have table_even : ∀ p ∈ lengthPatterns, p.2.2 % 2 = 0 := by decide
  unfold lengthOrTwo lengthOfWord
  split
  · rfl
  · split
    · next p hp => exact table_even p (List.mem_of_find?_eq_some hp)
    · rfl

/-- A step of a running CPU is an instruction and its retirement, or a chain of updates: an entry, or a word above the
limit that is stepped over. -/
theorem runStep_cases {s t : State} (h : runStep s = .next t) :
    Updates s t ∨ ∃ i u, exec i s = .next u ∧ t = retire i u := by
  unfold runStep at h
  split at h
  · exact .inl (exceptionEntry_updates h)
  · split at h
    · exact .inl (interruptEntry_updates h)
    · obtain ⟨w0, _, h⟩ := andThen_eq_next.1 h
      split at h
      · cases h
        exact .inl ((advance_updates s (lengthOrTwo_even w0)).tail (.raise _ _))
      · obtain ⟨i, _, h⟩ := andThen_eq_next.1 h
        obtain ⟨u, hu, h⟩ := andThen_eq_next.1 h
        cases h
        exact .inr ⟨i, u, hu, rfl⟩

/-! ### What every step keeps -/

/-- What every instruction, entry and return keeps, with its retirement. -/
structure StepKept (s t : State) : Prop where
  cfg     : t.cfg = s.cfg
  env     : t.env = s.env
  freeCtr : t.freeCtr = s.freeCtr
  events  : ∃ new, t.events = new ++ s.events
  nvm     : ∀ p, p < ioBase s.cfg → regionKind s.cfg p = .nvm → byteAt t p = byteAt s p
  even    : s.pc.getLsbD 0 = false → t.pc.getLsbD 0 = false
  inv     : Inv s → Inv t

theorem StepKept.trans {s t u : State} (h : StepKept s t) (h' : StepKept t u) : StepKept s u where
  cfg := h'.cfg.trans h.cfg
  env := h'.env.trans h.env
  freeCtr := h'.freeCtr.trans h.freeCtr
  events := by
    obtain ⟨a, ha⟩ := h.events
    obtain ⟨b, hb⟩ := h'.events
    exact ⟨b ++ a, by rw [hb, ha, List.append_assoc]⟩
  nvm p hp hk := (h'.nvm p (by rwa [h.cfg]) (by rwa [h.cfg])).trans (h.nvm p hp hk)
  even he := h'.even (h.even he)
  inv hi := h'.inv (h.inv hi)

theorem Kept.stepKept {s t : State} (h : Kept s t) : StepKept s t where
  cfg := h.cfg
  env := h.env
  freeCtr := h.freeCtr
  events := h.events
  nvm := h.nvm
  even := h.even
  inv hi := by
    have window : t.atmCount ≤ 3 := by
      rcases h.modifiers with ⟨_, _, hc⟩ | ⟨_, _, hc⟩
      · exact hc ▸ hi.window
      · omega
    exact ⟨h.memory hi.memory, h.ioRegs hi.ioRegs, h.written hi.written, window⟩

/-- A change of the modifiers, the run state and the Watchdog Timer that leaves at most three instructions in the ATM
window. -/
theorem stepKept_modes (s : State) (x n w : Bool) (a : Nat) (r : RunState) (ha : s.atmCount ≤ 3 → a ≤ 3) :
    StepKept s { s with extendPending := x, noflagsPending := n, atmCount := a, runState := r, wdtEnabled := w } where
  cfg := rfl
  env := rfl
  freeCtr := rfl
  events := ⟨[], rfl⟩
  nvm _ _ _ := rfl
  even := id
  inv hi := ⟨hi.memory, hi.ioRegs, hi.written, ha hi.window⟩

theorem stepKept_tell (e : EnvEvent) (s : State) : StepKept s (tell e s) where
  cfg := rfl
  env := rfl
  freeCtr := rfl
  events := ⟨[e], rfl⟩
  nvm _ _ _ := rfl
  even := id
  inv hi := ⟨hi.memory, hi.ioRegs, hi.written, hi.window⟩

theorem stepKept_advance (i : Instr) (s : State) : StepKept s (advance i.len s) :=
  (advance_updates s (len_even i)).kept.stepKept

theorem execWdt_stepKept {s t : State} (h : execWdt s = .next t) : StepKept s t := by
  cases h
  refine .trans (.trans ?_ (stepKept_tell _ _)) (stepKept_advance _ _)
  split
  · exact (Kept.refl s).stepKept
  · exact (stepKept_modes s s.extendPending s.noflagsPending true s.atmCount s.runState id).trans (stepKept_tell _ _)

theorem exec_stepKept {i : Instr} {s t : State} (h : exec i s = .next t) : StepKept s t := by
  cases hm : setsMode i with
  | false => exact (exec_updates hm h).kept.stepKept
  | true =>
    cases i with
    | extend =>
      cases h
      exact (stepKept_modes s true s.noflagsPending s.wdtEnabled s.atmCount s.runState id).trans (stepKept_advance _ _)
    | noflags =>
      cases h
      exact (stepKept_modes s s.extendPending true s.wdtEnabled s.atmCount s.runState id).trans (stepKept_advance _ _)
    | atm =>
      cases h
      exact (stepKept_modes s s.extendPending s.noflagsPending s.wdtEnabled 3 s.runState fun _ => le_rfl).trans
        (stepKept_advance _ _)
    | halt =>
      cases h
      exact (stepKept_advance .halt s).trans
        (stepKept_modes _ s.extendPending s.noflagsPending s.wdtEnabled s.atmCount .halted id)
    | stop =>
      cases h
      exact (stepKept_advance .stop s).trans
        (stepKept_modes _ s.extendPending s.noflagsPending s.wdtEnabled s.atmCount .stopped id)
    | wdt => exact execWdt_stepKept h
    | _ => cases hm

theorem retire_stepKept (i : Instr) (s : State) : StepKept s (retire i s) := by
  unfold retire
  split
  · exact (Kept.refl s).stepKept
  · exact stepKept_modes s false false s.wdtEnabled (s.atmCount - 1) s.runState fun h => by omega

theorem runStep_stepKept {s t : State} (h : runStep s = .next t) : StepKept s t := by
  rcases runStep_cases h with h | ⟨i, u, hu, rfl⟩
  · exact h.kept.stepKept
  · exact (exec_stepKept hu).trans (retire_stepKept i u)

theorem noteReads_events (sz : Size) (a : Quad) (s : State) : ∃ new, (noteReads sz a s).events = new ++ s.events :=
  (noteReads_updates sz a s).kept.events

theorem resetEntry_stepKept {s t : State} (h : resetEntry s = .next t) : StepKept s t := by
  obtain ⟨target, even, rfl⟩ := resetEntry_cases h
  exact {
    cfg := rfl
    env := rfl
    freeCtr := rfl
    events := noteReads_events .quad s.cfg.resetVector s
    nvm := fun _ _ _ => rfl
    even := fun _ => even
    inv := fun hi => ⟨hi.memory, rfl, rfl, Nat.zero_le 3⟩ }

/-- A step keeps from the boundary on what its instruction, entry or reset keeps. -/
theorem step_stepKept {s t : State} (h : step s = .next t) : StepKept (atBoundary s) t := by
  rcases step_cases h with h | ⟨r, h⟩ | rfl
  · exact resetEntry_stepKept h
  · exact (stepKept_modes (atBoundary s) _ _ _ _ r id).trans (runStep_stepKept h)
  · exact (Kept.refl _).stepKept

theorem atBoundary_inv {s : State} (h : Inv s) : Inv (atBoundary s) where
  memory := by rw [atBoundary_cfg, atBoundary_mem]; exact h.memory
  ioRegs := atBoundary_ioRegs_wf h.ioRegs
  written := by rw [atBoundary_written]; exact h.written
  window := by rw [atBoundary_atmCount]; exact h.window

/-- Settles O15: the inputs of the boundary keep the invariant, and so does the rest of the step. -/
theorem stepKeepsTheInvariant : Obligations.StepKeepsTheInvariant :=
  fun _ _ hi h => (step_stepKept h).inv (atBoundary_inv hi)

/-- Settles O16: no input moves pc, and the rest of the step keeps it even. -/
theorem stepKeepsPcEven : Obligations.StepKeepsPcEven :=
  fun s _ he h => (step_stepKept h).even (by rwa [atBoundary_pc])

/-- Settles O17: the boundary takes one list of inputs and draws once, and the rest of the step changes neither. -/
theorem stepKeepsNonvolatileMemory : Obligations.StepKeepsNonvolatileMemory := by
  intro s t h
  have kept := step_stepKept h
  refine ⟨fun p hp hk => ?_, by rw [kept.cfg, atBoundary_cfg], by rw [kept.env, atBoundary_env],
    by rw [kept.freeCtr, atBoundary_freeCtr], by simpa using kept.events⟩
  have after_boundary : byteAt t p = byteAt (atBoundary s) p :=
    kept.nvm p (by rwa [atBoundary_cfg]) (by rwa [atBoundary_cfg])
  rw [after_boundary, byteAt_congr (atBoundary_mem s) (atBoundary_cfg s)]

end Sys2Proof.Machine
end

section
/-! PROOFS. What an instruction does to the run state, the Watchdog Timer and the modifiers
(45_cpu_control.md R320 to R331): six instructions set them, the entries clear the modifiers, and every other instruction
leaves the ATM window to its retirement. -/

namespace Sys2Proof.Machine

/-! ### CPU control instructions and reset values -/

/-- Settles O59: each is one record update; DI and EI are the AND and OR of FLAGS with a mask. -/
theorem cpuControlInstructions : Obligations.CpuControlInstructions := by
  intro s
  have di_flags := withIrqe_false s.flags
  have ei_flags := withIrqe_true s.flags
  refine ⟨rfl, rfl, rfl, ?_, ?_, rfl, rfl, rfl, ?_⟩
  · rw [← di_flags]; rfl
  · rw [← ei_flags]; rfl
  · cases h : s.wdtEnabled with
    | false => simp only [exec, execWdt, h]; rfl
    | true => simp only [exec, execWdt, h, if_true]; rw [← h]; rfl

/-- Settles O14. -/
theorem resetMeetsTheInvariant : Obligations.ResetMeetsTheInvariant :=
  ⟨Memory.wf_reset, Memory.wf_reset_ioRegs, rfl, Nat.zero_le 3⟩

/-- Settles O18: the fields of the reset state, and the two reads of it. -/
theorem resetValues : Obligations.ResetValues := by
  have cpuctl_reads : readByte State.reset 0xFFFFE012 = .next 0xFF := rfl
  have vector_reads : readMem .quad State.reset 4 = .next State.reset.pc := rfl
  exact ⟨rfl, rfl, cpuctl_reads, rfl, rfl, rfl, rfl, ⟨rfl, rfl, rfl⟩, rfl, rfl, rfl, vector_reads⟩

/-! ### The run state and the Watchdog Timer -/

/-- Settles O19: an instruction that sets no mode is a chain of updates, and no update touches these fields; the six others
are record updates. -/
theorem onlyHaltStopAndWdtChangeTheMode : Obligations.OnlyHaltStopAndWdtChangeTheMode := by
  intro i s t h
  cases hm : setsMode i with
  | false =>
    have kept := (exec_updates hm h).kept
    have ne {j : Instr} (hj : setsMode j = true) : i ≠ j := by rintro rfl; rw [hm] at hj; cases hj
    refine ⟨fun _ _ => kept.runState, fun e => absurd e (ne rfl), fun e => absurd e (ne rfl), ?_, kept.irq, kept.heldExc,
      kept.cfg, kept.env⟩
    rw [kept.wdtEnabled, decide_eq_false (ne rfl), Bool.or_false]
  | true =>
    cases i with
    | extend | noflags | atm | halt | stop => cases h; simp
    | wdt => cases h; cases hw : s.wdtEnabled <;> simp [hw]
    | _ => cases hm

/-! ### The ATM window -/

theorem loadMem_only {sz : Size} {a : Quad} {s : State} {r : BitVec sz.bits × State} (h : loadMem sz a s = .next r) :
    PeripheralsOnly s r.2 := by
  rw [(loadMem_cases h).2]; exact noteReads_only sz a s

theorem regOperands_only {d : Reg} {b : Quad} {s : State} {r : Operands 32 × State}
    (h : regOperands d b s = .next r) : PeripheralsOnly s r.2 := by
  cases h; exact .refl s

theorem regMemOperands_only {d : Reg} {ea : Quad} {s : State} {r : Operands 32 × State}
    (h : regMemOperands d ea s = .next r) : PeripheralsOnly s r.2 := by
  obtain ⟨v, hv, h⟩ := andThen_eq_next.1 h
  cases h
  exact loadMem_only hv

theorem memOperands_only {sz : Size} {ea : Quad} {b : BitVec sz.bits} {s : State} {r : Operands sz.bits × State}
    (h : memOperands sz ea b s = .next r) : PeripheralsOnly s r.2 := by
  obtain ⟨v, hv, h⟩ := andThen_eq_next.1 h
  cases h
  exact loadMem_only hv

theorem bopSourceOperands_only {sz : Size} {x : Extension} {d : Reg} {m : BopSource} {s : State}
    {r : Operands 32 × State} (h : bopSourceOperands sz x d m s = .next r) : PeripheralsOnly s r.2 := by
  obtain ⟨v, hv, h⟩ := andThen_eq_next.1 h
  cases h
  exact loadMem_only hv

theorem bopQuadOperands_only {f : BopQuad} {s : State} {r : Operands 32 × State}
    (h : bopQuadOperands f s = .next r) : PeripheralsOnly s r.2 := by
  cases f with
  | regImm32 | regUimm16 | regReg => exact regOperands_only h
  | regAddr16 | regAddr32 | regInd => exact regMemOperands_only h
  | addr16Reg | addr32Reg | indReg | indImm32 | indSimm16 => exact memOperands_only (sz := .quad) h

theorem addQuadOperands_only {f : AddQuad} {s : State} {r : Operands 32 × State}
    (h : addQuadOperands f s = .next r) : PeripheralsOnly s r.2 := by
  cases f with
  | bop f => exact bopQuadOperands_only h
  | regSimm8 d i => exact regOperands_only h
  | regRegReg d s1 s2 => cases h; exact .refl s

theorem cpQuadOperands_only {f : CpQuad} {s : State} {r : Operands 32 × State}
    (h : cpQuadOperands f s = .next r) : PeripheralsOnly s r.2 := by
  cases f with
  | bop f => exact bopQuadOperands_only h
  | regSimm8 d i => exact regOperands_only h

theorem PeripheralsOnly.atmCount {s t : State} (h : PeripheralsOnly s t) : t.atmCount = s.atmCount := by rw [h]

theorem storeResult_atmCount {sz : Size} {ea : Quad} {v : BitVec sz.bits} {s t : State}
    (h : storeResult sz ea v s = .next t) : t.atmCount = s.atmCount := by
  unfold storeResult at h
  split at h
  · cases h
  · exact (writeMem_frame h).atmCount

theorem writeBack_atmCount {sz : Size} {d : Dest} {v : BitVec sz.bits} {s t : State}
    (h : writeBack sz d v s = .next t) : t.atmCount = s.atmCount := by
  cases d with
  | reg d => cases h; exact writeReg_atmCount s d _
  | mem ea => exact storeResult_atmCount h

section
variable {s t : State} {len : Nat}

theorem bopWrite_atmCount {sz : Size} {op : Byte → BitVec sz.bits → BitVec sz.bits → BitVec sz.bits × FlagUpdate}
    {operands : Res (Operands sz.bits × State)} (ho : ∀ r, operands = .next r → PeripheralsOnly s r.2)
    (h : bopWrite sz op len operands = .next t) : t.atmCount = s.atmCount := by
  obtain ⟨o, read, h⟩ := andThen_eq_next.1 h
  obtain ⟨u, written, h⟩ := andThen_eq_next.1 h
  cases h
  rw [advance_atmCount, setFlags_atmCount, writeBack_atmCount written, (ho o read).atmCount]

theorem bopTest_atmCount {w : Nat} {op : Byte → BitVec w → BitVec w → BitVec w × FlagUpdate}
    {operands : Res (Operands w × State)} (ho : ∀ r, operands = .next r → PeripheralsOnly s r.2)
    (h : bopTest op len operands = .next t) : t.atmCount = s.atmCount := by
  obtain ⟨o, read, h⟩ := andThen_eq_next.1 h
  cases h
  rw [advance_atmCount, setFlags_atmCount, (ho o read).atmCount]

theorem uopWrite_atmCount {sz : Size} {op : Byte → BitVec sz.bits → BitVec sz.bits × FlagUpdate} {m : UopDest}
    (h : uopWrite sz op len m s = .next t) : t.atmCount = s.atmCount := by
  obtain ⟨o, read, h⟩ := andThen_eq_next.1 h
  obtain ⟨u, written, h⟩ := andThen_eq_next.1 h
  cases h
  rw [advance_atmCount, setFlags_atmCount, storeResult_atmCount written, (loadMem_only read).atmCount]

theorem uopTest_atmCount {sz : Size} {op : Byte → BitVec sz.bits → BitVec sz.bits × FlagUpdate} {m : UopDest}
    (h : uopTest sz op len m s = .next t) : t.atmCount = s.atmCount := by
  obtain ⟨o, read, h⟩ := andThen_eq_next.1 h
  cases h
  rw [advance_atmCount, setFlags_atmCount, (loadMem_only read).atmCount]

theorem uopClear_atmCount {sz : Size} {m : UopDest} (h : uopClear sz len m s = .next t) : t.atmCount = s.atmCount := by
  obtain ⟨u, written, h⟩ := andThen_eq_next.1 h
  cases h
  rw [advance_atmCount, (writeMem_frame written).atmCount]

/-- The end that register, multiply and shift instructions share. -/
theorem register_atmCount (s : State) (d : Reg) (v : Quad) (u : FlagUpdate) (len : Nat) :
    (advance len (setFlags u (writeReg s d v))).atmCount = s.atmCount := by
  rw [advance_atmCount, setFlags_atmCount, writeReg_atmCount]

theorem pair_atmCount {d r : Reg} {vd vr : Quad} {u : FlagUpdate} (h : arithPair d r vd vr u len s = .next t) :
    t.atmCount = s.atmCount := by
  cases h
  rw [advance_atmCount, setFlags_atmCount, writePair_only, writeReg_atmCount, writeReg_atmCount]

theorem raiseAndAdvance_atmCount {e : SysExc} (h : raiseAndAdvance e len s = .next t) : t.atmCount = s.atmCount := by
  cases h
  rw [advance_atmCount, raise_atmCount]

theorem load_atmCount {sz : Size} {x : Extension} {d : Reg} {m : LoadSource} (h : load sz x d m len s = .next t) :
    t.atmCount = s.atmCount := by
  obtain ⟨r, read, h⟩ := andThen_eq_next.1 h
  cases h
  rw [register_atmCount, ← (loadMem_only read).atmCount]
  cases m with
  | postInc p => exact writeReg_atmCount _ _ _
  | addr16 | addr32 | ind | off | pcRel | fpRel => rfl

theorem storePreDec_atmCount {sz : Size} {d : Reg} {v : BitVec sz.bits} (h : storePreDec sz d v s = .next t) :
    t.atmCount = s.atmCount := by
  rw [(writeMem_frame h).atmCount, writeReg_atmCount]

theorem store_atmCount {sz : Size} {m : StoreDest} {v : BitVec sz.bits} (h : store sz m v len s = .next t) :
    t.atmCount = s.atmCount := by
  obtain ⟨u, stored, h⟩ := andThen_eq_next.1 h
  cases h
  rw [advance_atmCount]
  cases m with
  | preDec d => exact storePreDec_atmCount stored
  | postInc d =>
    obtain ⟨w, written, h⟩ := andThen_eq_next.1 stored
    cases h
    rw [writeReg_atmCount, (writeMem_frame written).atmCount]
  | addr16 | addr32 | ind | off | fpRel => exact (writeMem_frame stored).atmCount

theorem push_atmCount {sz : Size} {v : BitVec sz.bits} (h : push sz v s = .next t) : t.atmCount = s.atmCount :=
  storePreDec_atmCount h

theorem popQuad_atmCount {r : Quad × State} (h : popQuad s = .next r) : r.2.atmCount = s.atmCount := by
  obtain ⟨v, read, h⟩ := andThen_eq_next.1 h
  cases h
  rw [writeReg_atmCount, (loadMem_only read).atmCount]

theorem pushRegs_atmCount {l : List Reg} (h : pushRegs l s = .next t) : t.atmCount = s.atmCount := by
  induction l generalizing s with
  | nil => cases h; rfl
  | cons r rest ih =>
    obtain ⟨u, pushed, h⟩ := andThen_eq_next.1 h
    rw [ih h, push_atmCount pushed]

theorem popRegs_atmCount {l : List Reg} {o : Option Quad} {r : Option Quad × State} (h : popRegs l o s = .next r) :
    r.2.atmCount = s.atmCount := by
  induction l generalizing s o with
  | nil => cases h; rfl
  | cons d rest ih =>
    obtain ⟨u, popped, h⟩ := andThen_eq_next.1 h
    rw [ih h, writeReg_atmCount, popQuad_atmCount popped]

theorem pushThenAdvance_atmCount {sz : Size} {v : BitVec sz.bits} (h : pushThenAdvance sz v len s = .next t) :
    t.atmCount = s.atmCount := by
  obtain ⟨u, pushed, h⟩ := andThen_eq_next.1 h
  cases h
  exact (push_atmCount pushed :)

theorem pushMultiple_atmCount {l : List Reg} (h : pushMultiple l len s = .next t) : t.atmCount = s.atmCount := by
  obtain ⟨u, pushed, h⟩ := andThen_eq_next.1 h
  cases h
  exact (pushRegs_atmCount pushed :)

theorem popMultiple_atmCount {l : List Reg} (h : popMultiple l len s = .next t) : t.atmCount = s.atmCount := by
  obtain ⟨u, popped, h⟩ := andThen_eq_next.1 h
  rw [← popRegs_atmCount popped]
  split at h <;> cases h
  · rw [advance_atmCount, setFlags_atmCount]
  · exact advance_atmCount _ _

theorem callTo_atmCount {target : Quad} (h : callTo target len s = .next t) : t.atmCount = s.atmCount := by
  obtain ⟨u, pushed, h⟩ := andThen_eq_next.1 h
  cases h
  exact (push_atmCount pushed :)

theorem jumpLoaded_atmCount {target : Quad} (h : jumpLoaded target s = .next t) : t.atmCount = s.atmCount := by
  unfold jumpLoaded at h
  split at h <;> cases h
  rfl

theorem chainedReturn_atmCount {v : Quad} (h : chainedReturn v s = .next t) : t.atmCount = s.atmCount := by
  obtain ⟨u, jumped, h⟩ := andThen_eq_next.1 h
  cases h
  obtain ⟨q, read, h⟩ := andThen_eq_next.1 jumped
  rw [acknowledge_atmCount, jumpLoaded_atmCount h, (loadMem_only read).atmCount]

theorem interruptReturn_atmCount (h : interruptReturn s = .next t) : t.atmCount = s.atmCount := by
  obtain ⟨u, popped, h⟩ := andThen_eq_next.1 h
  obtain ⟨f, read, h⟩ := andThen_eq_next.1 h
  rw [jumpLoaded_atmCount h, writeReg_atmCount, (loadMem_only read).atmCount, popQuad_atmCount popped]

theorem execIret_atmCount (h : execIret s = .next t) : t.atmCount = s.atmCount := by
  unfold execIret at h
  split at h
  · split at h
    · exact chainedReturn_atmCount h
    · exact interruptReturn_atmCount h
  · exact interruptReturn_atmCount h

theorem execRet_atmCount (h : execRet s = .next t) : t.atmCount = s.atmCount := by
  obtain ⟨u, popped, h⟩ := andThen_eq_next.1 h
  rw [jumpLoaded_atmCount h, popQuad_atmCount popped]

theorem execLink_atmCount {i : Byte} (h : execLink i s = .next t) : t.atmCount = s.atmCount := by
  obtain ⟨u, pushed, h⟩ := andThen_eq_next.1 h
  cases h
  rw [advance_atmCount, writeReg_atmCount, writeReg_atmCount, push_atmCount pushed]

theorem execUnlink_atmCount (h : execUnlink s = .next t) : t.atmCount = s.atmCount := by
  obtain ⟨u, read, h⟩ := andThen_eq_next.1 h
  cases h
  rw [advance_atmCount, writeReg_atmCount, writeReg_atmCount, (loadMem_only read).atmCount, writeReg_atmCount]

theorem execPopf_atmCount (h : execPopf s = .next t) : t.atmCount = s.atmCount := by
  obtain ⟨f, read, h⟩ := andThen_eq_next.1 h
  cases h
  rw [advance_atmCount, writeReg_atmCount, (loadMem_only read).atmCount]

theorem execDjnz_atmCount {d : Reg} {u : BitVec 4} (h : execDjnz d u s = .next t) : t.atmCount = s.atmCount := by
  simp only [execDjnz] at h
  split at h <;> cases h
  · exact register_atmCount s d _ _ 0
  · exact register_atmCount s d _ _ 0

theorem execJpCc_atmCount {cc : Cond} {c : CondTarget} (h : execJpCc cc c s = .next t) : t.atmCount = s.atmCount := by
  unfold execJpCc at h
  split at h <;> cases h <;> rfl

theorem execUdiv_atmCount {d r : Reg} (h : execUdiv d r s = .next t) : t.atmCount = s.atmCount := by
  simp only [execUdiv] at h
  split at h
  · exact raiseAndAdvance_atmCount h
  · exact pair_atmCount h

theorem execSdiv_atmCount {d r : Reg} (h : execSdiv d r s = .next t) : t.atmCount = s.atmCount := by
  simp only [execSdiv] at h
  split at h
  · exact raiseAndAdvance_atmCount h
  · split at h <;> exact pair_atmCount h

theorem execUdiv64_atmCount {d r : Reg} (h : execUdiv64 d r s = .next t) : t.atmCount = s.atmCount := by
  simp only [execUdiv64] at h
  split at h
  · exact raiseAndAdvance_atmCount h
  · split at h
    · exact raiseAndAdvance_atmCount h
    · exact pair_atmCount h

theorem execLd_atmCount {f : LdQuad} (h : execLd f s = .next t) : t.atmCount = s.atmCount := by
  cases f with
  | regSimm8 | regSimm17 | regImm32 | regReg => cases h; exact writeReg_atmCount _ _ _
  | load => exact load_atmCount h
  | store | storeImm32 | storeSimm16 => exact store_atmCount h

end

/-- The instructions that end an ATM window (45_cpu_control.md R324, 60_exceptions.md R421). -/
def endsWindow : Instr → Bool
  | .ill | .brk | .unimplemented _ | .trap _ => true
  | _ => false

/-- Every other instruction but ATM leaves the window as it is. -/
theorem exec_atmCount {i : Instr} {s t : State} (hi : endsWindow i = false) (hatm : i ≠ .atm)
    (h : exec i s = .next t) : t.atmCount = s.atmCount := by
  cases i with
  | ill | brk | unimplemented | trap => cases hi
  | atm => exact absurd rfl hatm
  | noflags | extend | halt | stop | nop | ei | di | jp | jpa => cases h; rfl
  | wdt => cases h; cases s.wdtEnabled <;> simp
  | unlink => exact execUnlink_atmCount h
  | link => exact execLink_atmCount h
  | popf => exact execPopf_atmCount h
  | pushf | pushB | pushW | push => exact pushThenAdvance_atmCount h
  | pushmlo | pushmhi => exact pushMultiple_atmCount h
  | popmlo | popmhi => exact popMultiple_atmCount h
  | ld => exact execLd_atmCount h
  | lea | ldCc | ldes => cases h; exact writeReg_atmCount _ _ _
  | ldUB | ldUW | ldSB | ldSW => exact load_atmCount h
  | ldB f => cases f <;> exact store_atmCount h
  | ldW f => cases f <;> exact store_atmCount h
  | extUB | extUW | extSB | extSW | com | neg | mul => cases h; exact register_atmCount _ _ _ _ _
  | sra | srl | sll | rl => cases h; exact register_atmCount _ _ _ _ _
  | umul | smul | sllx | srax | srlx => exact pair_atmCount h
  | udiv => exact execUdiv_atmCount h
  | sdiv => exact execSdiv_atmCount h
  | udiv64 => exact execUdiv64_atmCount h
  | jpCc => exact execJpCc_atmCount h
  | djnz => exact execDjnz_atmCount h
  | call | calla => exact callTo_atmCount h
  | ret => exact execRet_atmCount h
  | iret => exact execIret_atmCount h
  | clrB | clrW | clr => exact uopClear_atmCount h
  | cpzB | cpzW | cpz | cpczB | cpczW | cpcz => exact uopTest_atmCount h
  | incB | incW | inc | decB | decW | dec => exact uopWrite_atmCount h
  | add | adc => exact bopWrite_atmCount (fun _ => addQuadOperands_only) h
  | sub | sbc | and | or | xor => exact bopWrite_atmCount (fun _ => bopQuadOperands_only) h
  | cp | cpc => exact bopTest_atmCount (fun _ => cpQuadOperands_only) h
  | tm | tcm => exact bopTest_atmCount (fun _ => bopQuadOperands_only) h
  | addUB | addSB | addUW | addSW | adcUB | adcSB | adcUW | adcSW
  | subUB | subSB | subUW | subSW | sbcUB | sbcSB | sbcUW | sbcSW
  | andUB | andSB | andUW | andSW | orUB | orSB | orUW | orSW | xorUB | xorSB | xorUW | xorSW =>
    exact bopWrite_atmCount (fun _ => bopSourceOperands_only) h
  | cpUB | cpSB | cpUW | cpSW | cpcUB | cpcSB | cpcUW | cpcSW
  | tmUB | tmSB | tmUW | tmSW | tcmUB | tcmSB | tcmUW | tcmSW =>
    exact bopTest_atmCount (fun _ => bopSourceOperands_only) h
  | addB | adcB | subB | sbcB | andB | orB | xorB =>
    exact bopWrite_atmCount (fun _ => memOperands_only (sz := .byte)) h
  | addW | adcW | subW | sbcW | andW | orW | xorW =>
    exact bopWrite_atmCount (fun _ => memOperands_only (sz := .word)) h
  | cpB | cpcB | tmB | tcmB => exact bopTest_atmCount (fun _ => memOperands_only (sz := .byte)) h
  | cpW | cpcW | tmW | tcmW => exact bopTest_atmCount (fun _ => memOperands_only (sz := .word)) h

theorem isPrefix_eq_false {i : Instr} (h1 : i ≠ .extend) (h2 : i ≠ .noflags) (h3 : i ≠ .atm) : i.isPrefix = false := by
  cases i with
  | extend | noflags | atm => contradiction
  | _ => rfl

theorem endsWindow_iff (i : Instr) : endsWindow i = true ↔
    i = .ill ∨ i = .brk ∨ (∃ w, i = .unimplemented w) ∨ ∃ v, i = .trap v := by
  cases i <;> simp [endsWindow]

/-- What retirement does after an instruction that is none of the three of 30_encoding.md R118. -/
theorem retire_of_not_isPrefix {i : Instr} (h : i.isPrefix = false) (s : State) :
    retire i s = { s with extendPending := false, noflagsPending := false, atmCount := s.atmCount - 1 } := by
  simp only [retire, h, Bool.false_eq_true, if_false]

/-- An instruction that ends the window leaves it as it was, when its entry is not taken by clearing it, or empty. -/
theorem exec_atmCount_of_endsWindow {i : Instr} {s t : State} (hi : endsWindow i = true) (h : exec i s = .next t) :
    t.atmCount = s.atmCount ∨ t.atmCount = 0 := by
  have no_mode : setsMode i = false := by
    cases i with
    | ill | brk | unimplemented | trap => rfl
    | _ => cases hi
  rcases (exec_updates no_mode h).kept.modifiers with ⟨_, _, same⟩ | ⟨_, _, empty⟩
  · exact .inl same
  · exact .inr empty

/-- Settles O20: the three that set a modifier are record updates and do not retire it; after any other the retirement
counts the window down from what `exec_atmCount` and `exec_atmCount_of_endsWindow` say. -/
theorem modifiersAreUsedUp : Obligations.ModifiersAreUsedUp := by
  intro i s t h
  split
  · next e => subst e; cases h; exact ⟨rfl, rfl, rfl⟩
  · next not_extend =>
    split
    · next e => subst e; cases h; exact ⟨rfl, rfl, rfl⟩
    · next not_noflags =>
      split
      · next e => subst e; cases h; exact ⟨rfl, rfl, rfl⟩
      · next not_atm =>
        rw [retire_of_not_isPrefix (isPrefix_eq_false not_extend not_noflags not_atm)]
        refine ⟨rfl, rfl, ?_⟩
        dsimp only
        cases ends : endsWindow i with
        | false => exact .inl (by rw [exec_atmCount ends not_atm h])
        | true =>
          rcases exec_atmCount_of_endsWindow ends h with same | empty
          · exact .inl (by rw [same])
          · exact .inr ⟨by rw [empty], (endsWindow_iff i).1 ends⟩

end Sys2Proof.Machine
end

section
/-! PROOFS. What one step does (60_exceptions.md R410 to R423, 45_cpu_control.md R327, R330, 70_reset_and_hazards.md R460):
the inputs at the boundary, the fetch, the entries a running CPU takes, waiting, and reset. -/

namespace Sys2Proof.Machine

/-! ### The environment's inputs -/

theorem applyInputs_eq_foldl (is : List EnvInput) (s : State) :
    applyInputs is s = is.foldl (fun t i => applyInput i t) s := by
  induction is generalizing s with
  | nil => rfl
  | cons i is ih => exact ih (applyInput i s)

theorem behindPrefix_iff (s : State) : behindPrefix s = true ↔ s.extendPending = true ∨ s.noflagsPending = true := by
  rw [behindPrefix, Bool.or_eq_true]

theorem InputsOnly.behindPrefix {s t : State} (h : InputsOnly s t) : behindPrefix t = behindPrefix s := by rw [h]; rfl

/-- Where an exception of a device has to wait, no input makes one pending. -/
theorem applyInput_pendingExc (i : EnvInput) {s : State} (h : behindPrefix s = true) :
    (applyInput i s).pendingExc = s.pendingExc := by
  cases i with
  | irq v => rfl
  | clearSysexcp x =>
    cases hp : s.cfg.sysexcpPlace with
    | none => rw [applyInput_clearSysexcp_none x hp]
    | some place => rw [applyInput_clearSysexcp_some x hp]
  | device p b => exact setContents_pendingExc s p b
  | exception k =>
    rw [applyInput_exception, raiseFromDevice, if_pos h]
    split <;> rfl
  | wake => rfl
  | reset => rfl

theorem atBoundary_pendingExc {s : State} (h : behindPrefix s = true) : (atBoundary s).pendingExc = s.pendingExc := by
  have kept : behindPrefix (atBoundary s) = true ∧ (atBoundary s).pendingExc = s.pendingExc :=
    applyInputs_induct (fun t => behindPrefix t = true ∧ t.pendingExc = s.pendingExc)
      (fun i t ⟨behind, same⟩ =>
        ⟨by rw [(applyInput_inputsOnly i t).behindPrefix, behind], by rw [applyInput_pendingExc i behind, same]⟩)
      _ (s := boundaryStart s) ⟨h, rfl⟩
  exact kept.2

theorem deviceAt_isSome (c : Config) (p : Nat) : (deviceAt c p).isSome = c.ioDevices.any fun e => e.addr == p := by
  rw [Bool.eq_iff_iff, deviceAt, List.find?_isSome, List.any_eq_true]

/-- Contents given to the register at p are there, if there is one; no other register changes. -/
theorem setContents_contentsSet {s : State} (p : Nat) (b : Byte) (h : Memory.wf (resetContents s.cfg) s.ioRegs = true) :
    ContentsSet s (setContents s p b) p b := by
  rw [ContentsSet, ← deviceAt_isSome]
  refine ⟨fun there => ?_, fun q hq => contentsAt_setContents_other s b hq, fun absent => ?_⟩
  · obtain ⟨d, hd⟩ := Option.isSome_iff_exists.1 there
    exact contentsAt_setContents_same b hd h
  · rw [Option.isSome_eq_false_iff, Option.isNone_iff_eq_none] at absent
    simp only [setContents, absent]

theorem setContents_ioRegs_only (s : State) (p : Nat) (b : Byte) :
    setContents s p b = { s with ioRegs := (setContents s p b).ioRegs } := by
  unfold setContents
  split <;> rfl

/-- Settles O60: each input's equation; behind NOFLAGS or Extend by induction over the inputs. -/
theorem environmentInputsActAtTheBoundary : Obligations.EnvironmentInputsActAtTheBoundary := by
  intro s
  refine ⟨rfl, applyInputs_eq_foldl _ _, fun h => atBoundary_pendingExc ((behindPrefix_iff s).2 h), fun _ => rfl,
    fun x none => ⟨withSysexcpBit s.sysexcp x false, applyInput_clearSysexcp_none x none, ?_, fun z hz => ?_⟩,
    fun x place some => applyInput_clearSysexcp_some x some,
    fun p b wf => ⟨(setContents s p b).ioRegs, setContents_ioRegs_only s p b, ?_⟩,
    fun k configured free => ⟨(raise (.extra k) s).sysexcp, (raise (.extra k) s).pendingExc, ?_, ?_⟩,
    fun k configured behind => ?_, fun k absent => ?_, rfl, rfl⟩
  · rw [sysexcpBit_with, if_pos rfl]
  · rw [sysexcpBit_with, if_neg hz]
  · rw [← setContents_ioRegs_only]
    exact setContents_contentsSet p b wf
  · have not_behind : behindPrefix s = false := by rw [behindPrefix, free.1, free.2]; rfl
    rw [applyInput_exception, if_pos configured, raiseFromDevice, not_behind, if_neg Bool.false_ne_true]
    rcases raise_cases (.extra k) s with ⟨_, h⟩ | ⟨_, h⟩ <;> rw [h]
  · exact (raise_raised (.extra k) s).congr rfl rfl rfl rfl
  · rw [applyInput_exception, if_pos configured, raiseFromDevice, if_pos ((behindPrefix_iff s).2 behind)]
  · rw [applyInput_exception, if_neg absent]

/-! ### Which event is taken -/

theorem runStep_exception {s : State} {x : SysExc} (h : s.pendingExc = some x) :
    runStep s = exceptionEntry s.pc s := by
  simp only [runStep, h]

theorem acceptedInterrupt_enabled {s : State} (h : NoModifiers s) (hf : flagIrqe s.flags = true) :
    acceptedInterrupt s = s.irq := by
  obtain ⟨extend, noflags, window⟩ := h
  simp [acceptedInterrupt, behindPrefix, extend, noflags, window, hf]

theorem runStep_interrupt {s : State} {v : Quad} (hp : s.pendingExc = none) (h : acceptedInterrupt s = some v) :
    runStep s = interruptEntry v s := by
  simp only [runStep, hp, h]

/-- With no event an instruction is executed (60_exceptions.md R411 item 5). -/
theorem runStep_noEvent {s : State} (h : NoEvent s) : runStep s = executeNext s := by
  obtain ⟨no_exception, held⟩ := h
  have no_interrupt : acceptedInterrupt s = none := by
    unfold acceptedInterrupt behindPrefix
    rcases held with h | h | h | h | h <;> simp [h]
  simp only [runStep, no_exception, no_interrupt]

/-! ### Entries, taken by the step -/

/-- Settles O24: an exception is entered before anything else, by `exceptionEntry_ready`. -/
theorem pendingExceptionIsEntered : Obligations.PendingExceptionIsEntered := by
  intro s x target no_reset running pending ready
  rw [step_running no_reset running, runStep_exception pending]
  exact exceptionEntry_ready _ ready

/-- Settles O25: the interrupt is accepted, and entered by `interruptEntry_ready`. -/
theorem enabledInterruptIsEntered : Obligations.EnabledInterruptIsEntered := by
  intro s v target no_reset running none modifiers enabled presented ready
  have accepted : acceptedInterrupt (atBoundary s) = some v := by
    rw [acceptedInterrupt_enabled modifiers enabled, presented]
  rw [step_running no_reset running, runStep_interrupt none accepted]
  have entry := interruptEntry_ready ready
  split
  · next odd => rwa [if_pos odd] at entry
  · next even =>
    rw [if_neg even] at entry
    obtain ⟨t, next, entered, masked, ⟨extend, noflags, window⟩, told⟩ := entry
    obtain ⟨extend0, noflags0, window0⟩ := modifiers
    exact ⟨t, next, entered, masked, ⟨extend.trans extend0, noflags.trans noflags0, window.trans window0⟩, told⟩

/-- With the ILL bit 0 an illegal instruction is the system exception entry with that bit set. -/
theorem illegalEntry_first {s : State} {target : Quad} (hb : s.sysexcp.ill = false) (h : EntryReady s 8 target) :
    if target.getLsbD 0 then illegalEntry s = .refused .oddPc
    else ∃ t, illegalEntry s = .next t ∧
      Entered { s with sysexcp := { s.sysexcp with ill := true }, pendingExc := none } t s.pc target ∧
      Masked s.flags t.flags ∧ NoModifiers t ∧ t.events = s.events := by
  have entry : illegalEntry s = exceptionEntry s.pc { s with sysexcp := { s.sysexcp with ill := true } } := by
    simp only [illegalEntry, hb, Bool.false_eq_true, if_false, withSysexcpBit]
  rw [entry]
  exact exceptionEntry_ready s.pc (h.congr rfl rfl rfl)

/-- Settles O26: the three kinds of illegal instruction are `illegalEntry`, whose two cases are the two values of the ILL
bit. -/
theorem illegalInstructionsAreEntered : Obligations.IllegalInstructionsAreEntered := by
  refine ⟨fun s enabled => if_pos enabled, fun s target i illegal => ?_⟩
  have entry : exec i s = illegalEntry s := by
    rcases illegal with rfl | ⟨w, rfl⟩ | ⟨rfl, disabled⟩
    · rfl
    · rfl
    · exact if_neg (by rw [disabled]; exact Bool.false_ne_true)
  rw [entry]
  refine ⟨illegalEntry_first, fun again memory vector => ?_⟩
  rw [illegalEntry_again memory vector again]
  split
  · next odd => exact jumpLoaded_odd _ odd
  · next even => exact jumpLoaded_even _ (by simpa using even)

/-- Settles O27, by `trapEntry_ready`. -/
theorem trapIsEntered : Obligations.TrapIsEntered :=
  fun _ _ _ ready => trapEntry_ready ready

/-! ### Returns -/

/-- A pop from memory reads the quad at SP and moves SP. -/
theorem popQuad_memory {s : State} {v : Quad} (hm : InMemory 4 s (sp s)) (hv : readMem .quad s (sp s) = .next v) :
    popQuad s = .next (v, writeReg s spReg (sp s + 4)) := by
  rw [popQuad, loadMem_memory (sz := .quad) hm hv, andThen_next]

theorem exec_ret {s : State} {target : Quad} (hm : InMemory 4 s (sp s))
    (hv : readMem .quad s (sp s) = .next target) :
    exec .ret s = jumpLoaded target (writeReg s spReg (sp s + 4)) := by
  have popped := popQuad_memory hm hv
  show andThen (popQuad s) _ = _
  rw [popped, andThen_next]

/-- IRET that does not chain (46_program_control.md R346, D12). -/
theorem exec_iret_normal {s : State} (h : flagCirqe s.flags = false ∨ s.irq = none ∨ s.atmCount ≠ 0) :
    exec .iret s = interruptReturn s := by
  show execIret s = _
  unfold execIret
  split
  · next v presented =>
    have not_chained : (flagCirqe s.flags && s.atmCount == 0) = false := by
      rcases h with h | h | h
      · rw [h, Bool.false_and]
      · rw [presented] at h; cases h
      · rw [beq_eq_false_iff_ne.2 h, Bool.and_false]
    rw [not_chained, if_neg Bool.false_ne_true]
  · rfl

/-- Writing SP leaves what memory holds. -/
theorem readByte_writeReg {s : State} {a : Quad} (r : Reg) (v : Quad) (h : memoryByte s a = true) :
    readByte (writeReg s r v) a = readByte s a :=
  readByte_memory_congr h (writeReg_cfg s r v) (writeReg_mem s r v)

theorem interruptReturn_memory {s : State} {target : Quad} {f : Byte} (hm : InMemory 6 s (sp s))
    (hv : readMem .quad s (sp s) = .next target) (hf : readMem .byte s (sp s + 5) = .next f) :
    interruptReturn s =
      jumpLoaded target (writeReg { writeReg s spReg (sp s + 4) with flags := f } spReg (sp s + 6)) := by
  have popped := popQuad_memory (fun k hk => hm k (by omega)) hv
  have sp_popped : sp (writeReg s spReg (sp s + 4)) = sp s + 4 := by simp [sp]
  have byte_in_memory : InMemory 1 (writeReg s spReg (sp s + 4)) (sp s + 5) := by
    intro k hk
    obtain rfl : k = 0 := by omega
    rw [offsetBy_zero, memoryByte_congr (writeReg_cfg s _ _)]
    exact hm 5 (by decide)
  have byte_read : readMem .byte (writeReg s spReg (sp s + 4)) (sp s + 5) = .next f :=
    (readByte_writeReg _ _ (hm 5 (by decide))).trans hf
  have five : sp s + 4 + 1 = sp s + 5 := by bv_omega
  have six : sp s + 4 + 2 = sp s + 6 := by bv_omega
  rw [interruptReturn, popped, andThen_next]
  dsimp only
  rw [sp_popped, five, six, loadMem_memory (sz := .byte) byte_in_memory byte_read, andThen_next]

/-- The jump of a return: pc and the record of stored addresses, and nothing else. -/
theorem jump_byteAt (s : State) (target : Quad) (p : Nat) : byteAt (jump target s) p = byteAt s p := rfl

/-- Settles O28: RET is one write of SP, IRET two and the flags between them; then the jump, if the popped address is
even. -/
theorem returnsPopTheStack : Obligations.ReturnsPopTheStack := by
  intro s target f hv
  refine ⟨fun hm => ?_, fun hm hf normal => ?_⟩
  · rw [exec_ret hm hv]
    split
    · next odd => exact jumpLoaded_odd _ odd
    · next even =>
      have rest := writeReg_sameRest s spReg (sp s + 4)
      obtain ⟨⟨mem, _, bytes⟩, control, modifiers, environment⟩ := rest
      refine ⟨_, jumpLoaded_even _ (by simpa using even), rfl, by simp [sp], fun r hr => ?_, ?_, by simp, mem, bytes, rfl,
        control, modifiers, environment⟩
      · have ne : r ≠ spReg := by simpa [spReg] using hr
        simp [ne]
      · refine ((writeReg_stackChecked s spReg (sp s + 4)).congr rfl rfl rfl rfl).iff ?_
        simp [BelowLimit, spReg]
  · rw [exec_iret_normal normal, interruptReturn_memory hm hv hf]
    split
    · next odd => exact jumpLoaded_odd _ odd
    · next even =>
      refine ⟨_, jumpLoaded_even _ (by simpa using even), rfl, by simp, by simp [sp], fun r hr => ?_, ?_, by simp,
        byteAt_congr (by simp) (by simp), rfl, by simp [SameControl], by simp [SameModifiers], by simp [SameEnvironment]⟩
      · have ne : r ≠ spReg := by simpa [spReg] using hr
        rw [readReg_jump, readReg_writeReg, if_neg ne]
        exact (readReg_writeReg s spReg r (sp s + 4)).trans (if_neg ne)
      · have first := writeReg_stackChecked s spReg (sp s + 4)
        have second := writeReg_stackChecked { writeReg s spReg (sp s + 4) with flags := f } spReg (sp s + 6)
        refine ((first.comp (second.congr rfl rfl rfl rfl)).congr rfl rfl rfl rfl).iff ?_
        simp [BelowLimit, spReg]

/-- Settles O29: IRET chains, and its vector is read from memory, which FLAGS does not change. -/
theorem returnChainsToAPendingInterrupt : Obligations.ReturnChainsToAPendingInterrupt := by
  intro s v target cirqe presented window hm hv
  have chained : exec .iret s = chainedReturn v s := by
    show execIret s = _
    simp [execIret, presented, cirqe, window]
  have hm' : InMemory 4 { s with flags := withIrqe s.flags false } v := hm
  have hv' : readMem .quad { s with flags := withIrqe s.flags false } v = .next target := by
    rw [← hv]; exact readMem_memory_congr (sz := .quad) hm rfl rfl
  rw [chained, chainedReturn, jumpVector_memory hm' hv', withIrqe_false]
  split
  · next odd => rw [jumpLoaded_odd _ odd, andThen_refused]
  · next even => rw [jumpLoaded_even _ (by simpa using even), andThen_next]; rfl

/-! ### Waiting and reset -/

/-- Settles O30: the kinds of event by cases of the admitted list's members, and the two modes are `waitStep`. -/
theorem haltAndStopModeWait : Obligations.HaltAndStopModeWait := by
  refine ⟨fun admitted inputs s => ?_, fun s no_reset => ⟨fun halted => ?_, fun stopped => ?_⟩⟩
  · rw [wakes, List.any_eq_true]
    constructor
    · rintro ⟨e, admitted, occurs⟩
      cases e with
      | enabledInterrupt =>
        rw [Bool.and_eq_true, Option.isSome_iff_ne_none] at occurs
        exact .inl ⟨admitted, occurs⟩
      | anyInterrupt => exact .inr (.inl ⟨admitted, Option.isSome_iff_ne_none.1 occurs⟩)
      | exception => exact .inr (.inr (.inl ⟨admitted, Option.isSome_iff_ne_none.1 occurs⟩))
      | external => exact .inr (.inr (.inr ⟨admitted, of_decide_eq_true occurs⟩))
    · rintro (⟨admitted, presented, enabled⟩ | ⟨admitted, presented⟩ | ⟨admitted, pending⟩ | ⟨admitted, signal⟩)
      · exact ⟨_, admitted, Bool.and_eq_true_iff.2 ⟨Option.isSome_iff_ne_none.2 presented, enabled⟩⟩
      · exact ⟨_, admitted, Option.isSome_iff_ne_none.2 presented⟩
      · exact ⟨_, admitted, Option.isSome_iff_ne_none.2 pending⟩
      · exact ⟨_, admitted, decide_eq_true signal⟩
  · rw [step_halted no_reset halted, ← atBoundary_env]; rfl
  · rw [step_stopped no_reset stopped, ← atBoundary_env]; rfl

/-- Settles O31: the vector is read from memory, and the next state is the reset state but for the named fields. -/
theorem resetIsTakenAtTheBoundary : Obligations.ResetIsTakenAtTheBoundary := by
  intro s target reset hm hv
  have load : loadMem .quad (atBoundary s).cfg.resetVector (atBoundary s) = .next (target, atBoundary s) := by
    rw [atBoundary_cfg]; exact loadMem_memory (sz := .quad) hm hv
  rw [step_reset reset, resetEntry, load, andThen_next]
  dsimp only
  split
  · next odd => exact jumpLoaded_odd _ odd
  · next even =>
    have f1_clear : flagF1 State.reset.flags = false := rfl
    have cirqe_clear : flagCirqe State.reset.flags = false := rfl
    have irqe_clear : flagIrqe State.reset.flags = false := rfl
    exact ⟨_, jumpLoaded_even _ (by simpa using even), rfl, rfl, rfl, rfl, rfl, f1_clear, cirqe_clear, irqe_clear, ⟨rfl, rfl, rfl⟩,
      rfl, rfl, rfl, rfl, rfl, atBoundary_mem s, rfl, atBoundary_cfg s, atBoundary_env s, rfl, rfl⟩

/-! ### The fetch -/

theorem fetchByte_memory {s : State} {a : Quad} (hm : memoryByte s a = true) (hw : phys s.cfg a ∉ s.written) :
    fetchByte s a = .next (byteAt s (phys s.cfg a)) := by
  unfold memoryByte at hm
  unfold fetchByte
  cases hl : locate s.cfg (phys s.cfg a) with
  | ram | nvm => simp only [hl, hw, if_false]
  | _ => simp only [hl, Bool.false_eq_true] at hm

/-- The bytes bs stand at a, in memory not stored to since the last control transfer. -/
def BytesAt (s : State) (a : Quad) (bs : List Byte) : Prop :=
  ∀ (k : Nat) (hk : k < bs.length), memoryByte s (offsetBy a k) = true ∧ phys s.cfg (offsetBy a k) ∉ s.written ∧
    byteAt s (phys s.cfg (offsetBy a k)) = bs[k]

theorem BytesAt.fetchByte {s : State} {a : Quad} {bs : List Byte} (h : BytesAt s a bs) {k : Nat} {b : Byte}
    (hb : bs[k]? = some b) : Machine.fetchByte s (offsetBy a k) = .next b := by
  obtain ⟨hk, hb⟩ := List.getElem?_eq_some_iff.1 hb
  obtain ⟨memory, fresh, byte⟩ := h k hk
  rw [fetchByte_memory memory fresh, byte, hb]

theorem BytesAt.fetchWord {s : State} {a : Quad} {bs : List Byte} (h : BytesAt s a bs) (k : Nat) {hi lo : Byte}
    (hhi : bs[k]? = some hi) (hlo : bs[k + 1]? = some lo) :
    Machine.fetchWord s (offsetBy a k) = .next (wordOfBytes hi lo) := by
  have next_byte : offsetBy a k + 1 = offsetBy a (k + 1) := offsetBy_offsetBy a k 1
  rw [Machine.fetchWord, h.fetchByte hhi, andThen_next, next_byte, h.fetchByte hlo, andThen_next]

theorem fetchFirst_even {s : State} (h : s.pc.getLsbD 0 = false) : fetchFirst s = fetchWord s s.pc := by
  rw [fetchFirst, h, if_neg Bool.false_ne_true]

theorem fetchRest_four {w0 : Word} (h : lengthOrTwo w0 = 4) (s : State) :
    fetchRest w0 s =
      andThen (fetchWord s (s.pc + 2)) fun w1 => .next (decodeWords s.extendPending w0 w1 0) := by
  simp only [fetchRest, h]

theorem fetchRest_six {w0 : Word} (h : lengthOrTwo w0 = 6) (s : State) :
    fetchRest w0 s =
      andThen (fetchWord s (s.pc + 2)) fun w1 =>
      andThen (fetchWord s (s.pc + 4)) fun w2 => .next (decodeWords s.extendPending w0 w1 w2) := by
  simp only [fetchRest, h]

theorem fetchRest_one_word {w0 : Word} (h4 : lengthOrTwo w0 ≠ 4) (h6 : lengthOrTwo w0 ≠ 6) (s : State) :
    fetchRest w0 s = .next (decodeWords s.extendPending w0 0 0) := by
  unfold fetchRest
  split
  · contradiction
  · contradiction
  · rfl

/-- Bytes that decode to i and nothing more are fetched as i: word 0 first, then the words it asks for. -/
theorem BytesAt.fetch {s : State} {bs : List Byte} {i : Instr} (h : BytesAt s s.pc bs)
    (hd : decodeBytes s.extendPending bs = .ok (i, [])) :
    ∃ w0, Machine.fetchWord s s.pc = .next w0 ∧ fetchRest w0 s = .next i := by
  match bs, h, hd with
  | h0 :: l0 :: rest, h, hd =>
    have first := h.fetchWord 0 rfl rfl
    rw [offsetBy_zero] at first
    refine ⟨wordOfBytes h0 l0, first, ?_⟩
    simp only [decodeBytes] at hd
    split at hd
    · next len hl =>
      cases hd
      rw [fetchRest_four hl, ← offsetBy_two, h.fetchWord 2 rfl rfl, andThen_next]
    · cases hd
    · next len hl =>
      cases hd
      have four : s.pc + 4 = offsetBy s.pc 4 := rfl
      rw [fetchRest_six hl, ← offsetBy_two, four, h.fetchWord 2 rfl rfl, andThen_next, h.fetchWord 4 rfl rfl,
        andThen_next]
    · cases hd
    · next not_four not_six _ _ =>
      cases hd
      exact fetchRest_one_word not_four not_six s

/-- Settles O21: the bytes are fetched as i, the limit does not stop it, and no event is taken. -/
theorem stepRunsTheDecodedInstruction : Obligations.StepRunsTheDecodedInstruction := by
  intro s bs i no_reset running no_event even limit decoded bytes
  have bytes_at : BytesAt (atBoundary s) (atBoundary s).pc bs := bytes
  obtain ⟨w0, word0, rest⟩ := bytes_at.fetch decoded
  have below : pcOverflows (atBoundary s) = false := by
    rcases limit with below | flagged
    · rw [pcOverflows, decide_eq_false (by omega), Bool.false_and]
    · rw [pcOverflows, flagged, Bool.not_true, Bool.and_false]
  rw [step_running no_reset running, runStep_noEvent no_event, executeNext, fetchFirst_even even, word0, andThen_next,
    below, if_neg Bool.false_ne_true, rest, andThen_next]
  cases exec i (atBoundary s) <;> rfl

/-- Settles O23: above the limit the word is stepped over and its exception raised. -/
theorem pcOverflowStepsOverTheInstruction : Obligations.PcOverflowStepsOverTheInstruction := by
  intro s w0 no_reset running no_event even word0 above clear
  have overflows : pcOverflows (atBoundary s) = true := by
    rw [pcOverflows, decide_eq_true above, clear]; rfl
  rw [step_running no_reset running, runStep_noEvent no_event, executeNext, fetchFirst_even even, word0, andThen_next,
    overflows, if_pos rfl, overflowAtFetch, raise]
  have not_yet : ¬ sysexcpBit (advance (lengthOrTwo w0) (atBoundary s)).sysexcp .pcOverflow = true := by
    rw [advance_sysexcp, sysexcpBit, clear]; exact Bool.false_ne_true
  rw [if_neg not_yet]
  rfl

/-- A fetch whose first byte stops stops as that byte does. -/
theorem fetchInstr_fault {s : State} {e : Fault} (he : s.pc.getLsbD 0 = false) (h : fetchByte s s.pc = .fault e) :
    fetchInstr s = .fault e := by
  rw [fetchInstr, fetchFirst_even he, fetchWord, h]; rfl

theorem fetchInstr_refused {s : State} {e : Refusal} (he : s.pc.getLsbD 0 = false)
    (h : fetchByte s s.pc = .refused e) : fetchInstr s = .refused e := by
  rw [fetchInstr, fetchFirst_even he, fetchWord, h]; rfl

/-! ### I/O memory -/

/-- What an address of the I/O range can name. -/
def Location.isIo : Location → Bool
  | .ram | .nvm | .absent => false
  | _ => true

theorem locatePeripheral_isIo (c : Config) (p : Nat) : (locatePeripheral c p).isIo = true := by
  unfold locatePeripheral
  split <;> rfl

theorem locateOtherIo_isIo (c : Config) (p : Nat) : (locateOtherIo c p).isIo = true := by
  unfold locateOtherIo
  split
  · split
    · rfl
    · exact locatePeripheral_isIo c p
  · exact locatePeripheral_isIo c p

theorem locateIo_isIo (c : Config) (p offset : Nat) : (locateIo c p offset).isIo = true := by
  unfold locateIo
  split
  case h_20 => exact locateOtherIo_isIo c p
  all_goals rfl

theorem locate_io {c : Config} {p : Nat} (h : ioBase c ≤ p) : locate c p = locateIo c p (p - ioBase c) :=
  if_pos h

theorem locate_unavailable {c : Config} {p : Nat} (hp : p < ioBase c) (hk : regionKind c p = .unavailable) :
    locate c p = .absent := by
  unfold locate
  rw [if_neg (by omega), hk]

theorem fetchByte_io {s : State} {a : Quad} (h : (locate s.cfg (phys s.cfg a)).isIo = true) :
    fetchByte s a = .fault .ioFetch := by
  cases hl : locate s.cfg (phys s.cfg a) with
  | ram | nvm | absent => rw [hl] at h; cases h
  | _ => simp only [fetchByte, hl]

theorem fetchByte_stale {s : State} {a : Quad} (hm : memoryByte s a = true) (hw : phys s.cfg a ∈ s.written) :
    fetchByte s a = .refused .staleCode := by
  unfold memoryByte at hm
  unfold fetchByte
  cases hl : locate s.cfg (phys s.cfg a) with
  | ram | nvm => simp only [hl, hw, if_true]
  | _ => simp only [hl, Bool.false_eq_true] at hm

/-- Settles O22: each stop is that of the first byte, or of the odd address before it. -/
theorem fetchesWithoutMeaningStop : Obligations.FetchesWithoutMeaningStop := by
  intro s
  refine ⟨fun odd => ?_, fun even io => ?_, fun even below unavailable => ?_, fun even memory stored => ?_⟩
  · rw [fetchInstr, fetchFirst, if_pos odd, andThen_refused]
  · exact fetchInstr_fault even (fetchByte_io (by rw [locate_io io]; exact locateIo_isIo _ _ _))
  · refine fetchInstr_fault even ?_
    simp only [fetchByte, locate_unavailable below unavailable]
  · exact fetchInstr_refused even (fetchByte_stale memory stored)

end Sys2Proof.Machine
end

section
/-! PROOFS. The two-operand, one-operand, load and store instructions (40_arithmetic.md R150 to R161, 41_logical.md,
42_bit_manipulation.md, 44_load.md R250 to R257, R282): each is its skeleton with its operands, and each skeleton's
outcome is a law. -/

namespace Sys2Proof.Machine

/-- Settles O32, by the laws of a register write. -/
theorem registerWritesCheckTheStackLimit : Obligations.RegisterWritesCheckTheStackLimit := by
  intro s d v
  refine ⟨by rw [readReg_writeReg, if_pos rfl], fun r hr => ?_, writeReg_stackChecked s d v, writeReg_flags s d v,
    writeReg_pc s d v, writeReg_sameRest s d v⟩
  rw [readReg_writeReg, if_neg (mt List.mem_singleton.2 hr)]

/-- 20_memory.md R62: the lowest and the highest 32 KB. -/
theorem addr16Ea_eq (a : Word) : addr16Ea a = if a.toNat < 0x8000 then 0#16 ++ a else 0xFFFF#16 ++ a := by
  have extended : addr16Ea a = (if a.msb then BitVec.allOnes 16 else 0#16) ++ a :=
    BitVec.signExtend_eq_append_of_le (by decide)
  rw [extended, BitVec.msb_eq_decide]
  split
  · next high => rw [if_neg (by simpa using high)]; rfl
  · next low => rw [if_pos (by simpa using low)]

/-- Settles O7: every clause is an equation of its definition but the 16-bit address, whose sign bit is compared with
8000H, and the postincrement, whose pointer is read after the store. -/
theorem effectiveAddresses : Obligations.EffectiveAddresses := by
  refine ⟨addr16Ea_eq, fun s => ⟨fun _ => rfl, fun _ => rfl, fun _ _ => rfl, fun _ _ _ => rfl, fun _ _ _ => rfl,
    fun _ _ _ _ => rfl, fun _ _ _ => rfl, fun _ _ _ => rfl, fun _ _ _ => rfl, fun _ _ _ _ => rfl, fun _ _ _ => rfl,
    fun _ _ => rfl, fun _ _ => rfl, fun _ _ _ => rfl, fun _ _ => rfl, fun _ _ => rfl, fun _ _ _ => rfl,
    fun _ _ => rfl, fun _ _ => rfl, fun _ => rfl, fun _ => rfl, fun _ => rfl, fun _ _ => rfl, fun _ _ => rfl,
    fun _ _ => rfl, fun _ _ => rfl, fun _ _ => rfl, fun _ _ _ => rfl, fun _ _ => rfl, fun _ _ => rfl,
    fun sz m => ?_, fun _ _ => rfl, fun _ _ _ => rfl, fun _ _ => rfl,
    fun sz v => ⟨fun _ => rfl, fun _ => rfl, fun _ => rfl, fun _ _ => rfl, fun _ => rfl, fun d => ?_, fun d t h => ?_⟩,
    fun _ => rfl, fun _ => rfl, fun _ => rfl⟩⟩
  · cases m <;> rfl
  · simp only [storeTo, storePreDec, readReg_writeReg, if_true]; rfl
  · simp only [storeTo, h, andThen_next, readReg_congr (writeMem_frame h).regs]; rfl

/-! ### Two-operand instructions -/

theorem exec_add_regSimm8 (d : Reg) (i : Byte) (s : State) : exec (.add (.regSimm8 d i)) s =
    BinOp.add.skeleton .quad 2 (.next (⟨readReg s d, i.signExtend 32, .reg d⟩, s)) := rfl

theorem exec_adc_regSimm8 (d : Reg) (i : Byte) (s : State) : exec (.adc (.regSimm8 d i)) s =
    BinOp.adc.skeleton .quad 2 (.next (⟨readReg s d, i.signExtend 32, .reg d⟩, s)) := rfl

theorem exec_cp_regSimm8 (d : Reg) (i : Byte) (s : State) : exec (.cp (.regSimm8 d i)) s =
    BinOp.cp.skeleton .quad 2 (.next (⟨readReg s d, i.signExtend 32, .reg d⟩, s)) := rfl

theorem exec_cpc_regSimm8 (d : Reg) (i : Byte) (s : State) : exec (.cpc (.regSimm8 d i)) s =
    BinOp.cpc.skeleton .quad 2 (.next (⟨readReg s d, i.signExtend 32, .reg d⟩, s)) := rfl

theorem exec_add_regRegReg (d r1 r2 : Reg) (s : State) : exec (.add (.regRegReg d r1 r2)) s =
    BinOp.add.skeleton .quad 2 (.next (⟨readReg s r1, readReg s r2, .reg d⟩, s)) := rfl

theorem exec_adc_regRegReg (d r1 r2 : Reg) (s : State) : exec (.adc (.regRegReg d r1 r2)) s =
    BinOp.adc.skeleton .quad 2 (.next (⟨readReg s r1, readReg s r2, .reg d⟩, s)) := rfl

/-- The length of a 32-bit two-operand form (30_encoding.md R101). -/
def quadLen : BopQuad → Nat
  | .regReg _ _ => 2
  | .regImm32 _ _ | .regAddr32 _ _ | .addr32Reg _ _ | .indImm32 _ _ => 6
  | .regUimm16 _ _ | .regAddr16 _ _ | .regInd _ _ _ | .addr16Reg _ _ | .indReg _ _ _ | .indSimm16 _ _ => 4

theorem len_quad (o : BinOp) (f : BopQuad) : (o.quad f).len = quadLen f := by cases o <;> cases f <;> rfl

/-- Settles O33: the operands of these forms need no memory. -/
theorem twoOperandRegisterForms : Obligations.TwoOperandRegisterForms := by
  intro s d
  refine ⟨fun o r => ?_, fun o i => ?_, fun o i => ?_, fun i => ?_, fun i => ?_, fun i => ?_, fun i => ?_,
    fun r1 r2 => ?_, fun r1 r2 => ?_⟩
  · rw [exec_quad, len_quad]; exact o.skeleton_register s d _ _ 2
  · rw [exec_quad, len_quad]; exact o.skeleton_register s d _ _ 6
  · rw [exec_quad, len_quad]; exact o.skeleton_register s d _ _ 4
  · rw [exec_add_regSimm8]; exact BinOp.add.skeleton_register s d _ _ 2
  · rw [exec_adc_regSimm8]; exact BinOp.adc.skeleton_register s d _ _ 2
  · rw [exec_cp_regSimm8]; exact BinOp.cp.skeleton_register s d _ _ 2
  · rw [exec_cpc_regSimm8]; exact BinOp.cpc.skeleton_register s d _ _ 2
  · rw [exec_add_regRegReg]; exact BinOp.add.skeleton_register s d _ _ 2
  · rw [exec_adc_regRegReg]; exact BinOp.adc.skeleton_register s d _ _ 2

/-- The skeleton with a Quad of memory as source: the outcome is that of the state after the read. -/
theorem BinOp.skeleton_regMem (o : BinOp) {s : State} (d : Reg) {ea : Quad} (len : Nat) (h : Readable 4 s ea) :
    ∃ b, readMem .quad s ea = .next b ∧
      RegisterOutcome o (noteReads .quad ea s) d (readReg s d) b len (o.skeleton .quad len (regMemOperands d ea s)) := by
  obtain ⟨b, hb⟩ := readMem_next (sz := .quad) h
  refine ⟨b, hb, ?_⟩
  rw [regMemOperands, loadMem_next hb, andThen_next]
  exact o.skeleton_register (noteReads .quad ea s) d _ _ len

/-- Settles O34. -/
theorem twoOperandQuadSourceForms : Obligations.TwoOperandQuadSourceForms := by
  intro o s d
  refine ⟨fun a h => ?_, fun a h => ?_, fun off r h => ?_⟩
  · rw [exec_quad, len_quad]; exact o.skeleton_regMem d 4 h
  · rw [exec_quad, len_quad]; exact o.skeleton_regMem d 6 h
  · rw [exec_quad, len_quad]; exact o.skeleton_regMem d 4 h

/-- The skeleton with an extended Byte or Word of memory as source. -/
theorem BinOp.skeleton_source (o : BinOp) {sz : Size} (x : Extension) {s : State} (d : Reg) {m : BopSource} (len : Nat)
    {v : BitVec sz.bits} (hv : readMem sz s (bopSourceEa m s) = .next v) :
    RegisterOutcome o (noteReads sz (bopSourceEa m s) s) d (readReg s d) (extendTo x v) len
      (o.skeleton .quad len (bopSourceOperands sz x d m s)) := by
  rw [bopSourceOperands, loadMem_next hv, andThen_next]
  exact o.skeleton_register (noteReads sz (bopSourceEa m s) s) d _ _ len

/-- Settles O35: the two extensions of each datum. -/
theorem twoOperandExtendingSourceForms : Obligations.TwoOperandExtendingSourceForms := by
  intro o s d m
  refine ⟨fun h => ?_, fun h => ?_⟩
  · obtain ⟨v, hv⟩ := readMem_next (sz := .byte) h
    rw [exec_ub, exec_sb, len_ub, len_sb]
    exact ⟨v, hv, o.skeleton_source .unsigned d _ hv, o.skeleton_source .signed d _ hv⟩
  · obtain ⟨v, hv⟩ := readMem_next (sz := .word) h
    rw [exec_uw, exec_sw, len_uw, len_sw]
    exact ⟨v, hv, o.skeleton_source .unsigned d _ hv, o.skeleton_source .signed d _ hv⟩

/-- Settles O36. -/
theorem twoOperandQuadDestinationForms : Obligations.TwoOperandQuadDestinationForms := by
  intro o s
  refine ⟨fun a r h => ?_, fun a r h => ?_, fun off d r h => ?_, fun d i h => ?_, fun d i h => ?_⟩ <;>
    rw [exec_quad, len_quad] <;> exact o.skeleton_memory (sz := .quad) h

/-- Settles O37. -/
theorem twoOperandNarrowDestinationForms : Obligations.TwoOperandNarrowDestinationForms := by
  intro o s
  refine ⟨fun f h => ?_, fun f h => ?_⟩
  · rw [exec_byte, len_byte]; exact o.skeleton_memory (sz := .byte) h
  · rw [exec_word, len_word]; exact o.skeleton_memory (sz := .word) h

/-! ### The FLAGS destination (10_state.md R35, U12) -/

/-- A result stored at FLAGS is refused while the flags are written, also after the operand there is read. -/
theorem storeResult_flags {sz : Size} {s : State} {a ea : Quad} (v : BitVec sz.bits) (hn : s.noflagsPending = false)
    (hf : phys s.cfg ea = ioBase s.cfg + 0x10) :
    storeResult sz ea v (noteReads sz a s) = .refused .flagsDestination := by
  have twice : writesFlagsTwice (noteReads sz a s) ea = true := by
    simp [writesFlagsTwice, flagsAddress, hn, hf]
  rw [storeResult, if_pos twice]

theorem BinOp.skeleton_flags (o : BinOp) {sz : Size} {s : State} {ea : Quad} (b : BitVec sz.bits) (len : Nat)
    (hw : o.writes = true) (hn : s.noflagsPending = false) (hf : phys s.cfg ea = ioBase s.cfg + 0x10)
    (h : Readable sz.bytes s ea) :
    o.skeleton sz len (memOperands sz ea b s) = .refused .flagsDestination := by
  obtain ⟨a, ha⟩ := readMem_next h
  rw [BinOp.skeleton, if_pos hw, bopWrite, memOperands, loadMem_next ha, andThen_next]
  simp only [andThen_next, writeBack, storeResult_flags _ hn hf, andThen_refused]

theorem uopWrite_flags {sz : Size} (op : Byte → BitVec sz.bits → BitVec sz.bits × FlagUpdate) (len : Nat) {m : UopDest}
    {s : State} (hn : s.noflagsPending = false) (hf : phys s.cfg (uopEa m s) = ioBase s.cfg + 0x10)
    (h : Readable sz.bytes s (uopEa m s)) : uopWrite sz op len m s = .refused .flagsDestination := by
  obtain ⟨a, ha⟩ := readMem_next h
  rw [uopWrite, loadMem_next ha, andThen_next]
  simp only [storeResult_flags _ hn hf, andThen_refused]

/-- In the top 8 KB the address k bytes on is the physical address k bytes on. -/
theorem phys_offsetBy_io {c : Config} {a : Quad} {j k : Nat} (h : phys c a = ioBase c + j) (hk : j + k < 0x2000) :
    phys c (offsetBy a k) = ioBase c + (j + k) := by
  have below := a.isLt
  unfold phys ioBase offsetBy at *
  cases hb : c.addrBits <;> simp only [hb, BitVec.toNat_add, BitVec.toNat_ofNat] at h ⊢ <;> omega

theorem locate_ioBase_add (c : Config) (j : Nat) : locate c (ioBase c + j) = locateIo c (ioBase c + j) j := by
  rw [locate_io (Nat.le_add_right _ j), Nat.add_sub_cancel_left]

theorem readableByte_io {s : State} {a : Quad} (h : (locate s.cfg (phys s.cfg a)).isIo = true) :
    readableByte s a = true := by
  unfold readableByte
  cases hl : locate s.cfg (phys s.cfg a) with
  | absent => rw [hl] at h; cases h
  | _ => rfl

/-- The bytes of a Word at FLAGS can be read: FLAGS and the reserved byte after it. -/
theorem readable_flags {s : State} {a : Quad} (h : phys s.cfg a = ioBase s.cfg + 0x10) : Readable 2 s a := by
  intro k hk
  apply readableByte_io
  rw [phys_offsetBy_io h (by omega), locate_ioBase_add]
  exact locateIo_isIo _ _ _

/-- Settles O38: the operand can be read, and storing its result is refused. -/
theorem flagsDestinationIsRefused : Obligations.FlagsDestinationIsRefused := by
  intro o s writes no_noflags
  have readable1 {a : Quad} (h : phys s.cfg a = ioBase s.cfg + 0x10) : Readable 1 s a :=
    fun k hk => readable_flags h k (by omega)
  refine ⟨fun f at_flags => ?_, fun f at_flags => ?_, fun m at_flags => ?_, fun m at_flags readable => ?_,
    fun f ea dest at_flags readable => ?_⟩
  · rw [exec_byte]
    exact o.skeleton_flags (sz := .byte) _ _ writes no_noflags at_flags (readable1 at_flags)
  · rw [exec_word]
    exact o.skeleton_flags (sz := .word) _ _ writes no_noflags at_flags (readable_flags at_flags)
  · exact ⟨uopWrite_flags (sz := .byte) _ _ no_noflags at_flags (readable1 at_flags),
      uopWrite_flags (sz := .byte) _ _ no_noflags at_flags (readable1 at_flags),
      uopWrite_flags (sz := .word) _ _ no_noflags at_flags (readable_flags at_flags),
      uopWrite_flags (sz := .word) _ _ no_noflags at_flags (readable_flags at_flags)⟩
  · exact ⟨uopWrite_flags (sz := .quad) _ _ no_noflags at_flags readable,
      uopWrite_flags (sz := .quad) _ _ no_noflags at_flags readable⟩
  · rw [exec_quad]
    cases f with
    | addr16Reg | addr32Reg | indReg | indImm32 | indSimm16 =>
      cases dest
      exact o.skeleton_flags (sz := .quad) _ _ writes no_noflags at_flags readable
    | _ => cases dest

/-! ### One-operand instructions -/

/-- The length of a one-operand instruction is that of its operand form, whatever the size and the operation. -/
theorem encodeUop_length (sel o : BitVec 2) (m : UopDest) : 2 * (encodeUop sel o m).length = uopLen m := by
  cases m <;> rfl

/-- Settles O39: each is its skeleton, and its operation's law gives result and flags. -/
theorem unaryMemoryInstructions : Obligations.UnaryMemoryInstructions := by
  intro s m
  refine ⟨fun h => ⟨?_, ?_⟩, fun h => ⟨?_, ?_⟩, fun h => ⟨?_, ?_⟩, fun h => ⟨?_, ?_⟩, fun h => ⟨?_, ?_⟩,
    fun h => ⟨?_, ?_⟩⟩
  · exact uopWrite_outcome (sz := .byte) (opInc_eq .byte s.flags) (encodeUop_length 0 2 m) h
  · exact uopWrite_outcome (sz := .byte) (opDec_eq .byte s.flags) (encodeUop_length 0 3 m) h
  · exact uopWrite_outcome (sz := .word) (opInc_eq .word s.flags) (encodeUop_length 1 2 m) h
  · exact uopWrite_outcome (sz := .word) (opDec_eq .word s.flags) (encodeUop_length 1 3 m) h
  · exact uopWrite_outcome (sz := .quad) (opInc_eq .quad s.flags) (encodeUop_length 2 2 m) h
  · exact uopWrite_outcome (sz := .quad) (opDec_eq .quad s.flags) (encodeUop_length 2 3 m) h
  · exact uopTest_outcome (sz := .byte) (opCpz_eq .byte s.flags) (encodeUop_length 0 1 m) h
  · exact uopTest_outcome (sz := .byte) (opCpcz_eq .byte s.flags) (encodeUop_length 0 1 m) h
  · exact uopTest_outcome (sz := .word) (opCpz_eq .word s.flags) (encodeUop_length 1 1 m) h
  · exact uopTest_outcome (sz := .word) (opCpcz_eq .word s.flags) (encodeUop_length 1 1 m) h
  · exact uopTest_outcome (sz := .quad) (opCpz_eq .quad s.flags) (encodeUop_length 2 1 m) h
  · exact uopTest_outcome (sz := .quad) (opCpcz_eq .quad s.flags) (encodeUop_length 2 1 m) h

/-- Settles O40. -/
theorem clrStoresZero : Obligations.ClrStoresZero :=
  fun _ m => ⟨uopClear_outcome (sz := .byte) (encodeUop_length 0 0 m),
    uopClear_outcome (sz := .word) (encodeUop_length 1 0 m), uopClear_outcome (sz := .quad) (encodeUop_length 2 0 m)⟩

/-! ### Loads and stores -/

/-- Settles O48: each is `loadRegister` of its value. -/
theorem registerLoads : Obligations.RegisterLoads :=
  fun s d => ⟨fun _ => loadRegister_outcome s d _ 2, fun _ => loadRegister_outcome s d _ 4,
    fun _ => loadRegister_outcome s d _ 6, fun _ => loadRegister_outcome s d _ 2,
    fun _ => loadRegister_outcome s d _ 4, fun _ _ => loadRegister_outcome s d _ 4,
    fun _ => loadRegister_outcome s d _ 2⟩

theorem encodeLoadQuad_length (d : Reg) (m : LoadSource) : 2 * (encodeLoadQuad d m).length = loadLen m := by
  cases m <;> rfl

theorem encodeLoadExt_length (z b : BitVec 1) (d : Reg) (m : LoadSource) :
    2 * (encodeLoadExt z b d m).length = loadLen m := by
  cases m <;> rfl

/-- Settles O50, by `load_outcome`; a Quad fills the register, so that its extension is itself. -/
theorem loadsFromMemory : Obligations.LoadsFromMemory := by
  intro s d m
  have quad_fills : (fun v : Quad => extendTo .unsigned v) = fun v => v := by
    funext v; exact BitVec.setWidth_eq v
  refine ⟨fun h => ?_, fun h => ⟨?_, ?_⟩, fun h => ⟨?_, ?_⟩⟩
  · have outcome := load_outcome (sz := .quad) (x := .unsigned) (d := d) (encodeLoadQuad_length d m) h
    rwa [quad_fills] at outcome
  · exact load_outcome (sz := .byte) (x := .unsigned) (encodeLoadExt_length 0 0 d m) h
  · exact load_outcome (sz := .byte) (x := .signed) (encodeLoadExt_length 1 0 d m) h
  · exact load_outcome (sz := .word) (x := .unsigned) (encodeLoadExt_length 0 1 d m) h
  · exact load_outcome (sz := .word) (x := .signed) (encodeLoadExt_length 1 1 d m) h

theorem encodeStoreQuad_length (r : Reg) (m : StoreDest) : 2 * (encodeStoreQuad r m).length = storeLen m := by
  cases m <;> rfl
theorem encodeStoreW_length (r : Reg) (m : StoreDest) : 2 * (encodeStoreW r m).length = storeLen m := by
  cases m <;> rfl
theorem encodeStoreB_length (r : Reg) (m : StoreDest) : 2 * (encodeStoreB r m).length = storeLen m := by
  cases m <;> rfl

/-- Settles O51, by `store_outcome` at the length of each form. -/
theorem storesToMemory : Obligations.StoresToMemory := by
  intro s
  refine ⟨fun m r => ⟨fun h => ?_, fun h => ?_, fun h => ?_⟩, fun p d => ⟨fun h => ⟨fun i => ?_, fun i => ?_⟩,
    fun h i => ?_, fun h i => ?_⟩⟩
  · rw [← encodeStoreQuad_length r m]; exact store_outcome (sz := .quad) h
  · rw [← encodeStoreW_length r m]; exact store_outcome (sz := .word) h
  · rw [← encodeStoreB_length r m]; exact store_outcome (sz := .byte) h
  · cases p <;> exact store_outcome (sz := .quad) h
  · cases p <;> exact store_outcome (sz := .quad) h
  · cases p <;> exact store_outcome (sz := .word) h
  · cases p <;> exact store_outcome (sz := .byte) h

end Sys2Proof.Machine
end

section
/-! PROOFS. The length word 0 gives (30_encoding.md R101) is the length of the instruction the decoder reads, page by
page of word 0, and every decoded term is well formed. -/

namespace Sys2Proof

/-! ### The length table as ranges -/

/-- `matchesPattern_eq` with the mask as it stands in the table. -/
theorem matchesPattern_range (w : Word) (m mask : Nat)
    (h : ∃ k ∈ List.range 17, mask = 2 ^ 16 - 2 ^ k ∧ m % 2 ^ k = 0) :
    matchesPattern w m mask = decide (m ≤ w.toNat ∧ w.toNat < m + (2 ^ 16 - mask)) := by
  obtain ⟨k, hk, rfl, aligned⟩ := h
  have small : k ≤ 16 := by have := List.mem_range.1 hk; omega
  have le := Nat.pow_le_pow_right (n := 2) (by decide) small
  rw [matchesPattern_eq w m k small aligned, Nat.sub_sub_self le]

/-- A pattern that fixes w0[15:11] and w0[7]: the direct forms of 7xxxH. -/
theorem matchesPattern_direct (w : Word) (m : Nat) (hm : m % 0x800 = 0 ∨ m % 0x800 = 0x80) :
    matchesPattern w m 0xF880 =
      decide (w.toNat / 0x800 = m / 0x800 ∧ w.toNat / 0x80 % 2 = m / 0x80 % 2) := by
  have below := w.isLt
  have low : w.toNat % 0x800 &&& 0x80 = w.toNat / 0x80 % 2 * 0x80 := by
    rw [show 0x80 = 2 ^ 7 from rfl, Nat.and_two_pow, Nat.testBit_eq_decide_div_mod_eq]
    rcases Nat.mod_two_eq_zero_or_one (w.toNat % 0x800 / 2 ^ 7) with h | h <;> rw [h] <;> simp <;> omega
  have high : w.toNat / 0x800 &&& 0x1F = w.toNat / 0x800 := by
    rw [show 0x1F = 2 ^ 5 - 1 from rfl, Nat.and_two_pow_sub_one_eq_mod]; omega
  have quotient : (w.toNat &&& 0xF880) / 2 ^ 11 = w.toNat / 0x800 := by
    rw [Nat.and_div_two_pow]; exact high
  have remainder : (w.toNat &&& 0xF880) % 2 ^ 11 = w.toNat / 0x80 % 2 * 0x80 := by
    rw [Nat.and_mod_two_pow]; exact low
  have mask : w.toNat &&& 0xF880 = w.toNat / 0x800 * 0x800 + w.toNat / 0x80 % 2 * 0x80 := by omega
  rw [matchesPattern, mask, beq_eq_decide, decide_eq_decide]
  omega

/-- The words 0 of six-byte instructions. -/
abbrev SixBytes (n : Nat) : Prop :=
  0x380 ≤ n ∧ n < 0x400 ∨ 0x9D0 ≤ n ∧ n < 0xA00 ∨ 0x4520 ≤ n ∧ n < 0x4530 ∨
    0x7000 ≤ n ∧ n < 0x7800 ∧ 0x80 ≤ n % 0x100 ∨ 0xAA80 ≤ n ∧ n < 0xAB00 ∨ 0xAB80 ≤ n ∧ n < 0xAC00 ∨
    0xADB0 ≤ n ∧ n < 0xADC0 ∨ 0xF230 ≤ n ∧ n < 0xF232

/-- The words 0 of four-byte instructions. -/
abbrev FourBytes (n : Nat) : Prop :=
  0x20 ≤ n ∧ n < 0x40 ∨ 0x300 ≤ n ∧ n < 0x380 ∨ 0x940 ≤ n ∧ n < 0x9D0 ∨ 0x4500 ≤ n ∧ n < 0x4520 ∨
    0x4800 ≤ n ∧ n < 0x4C00 ∨ 0x7000 ≤ n ∧ n < 0x7800 ∧ n % 0x100 < 0x80 ∨ 0x7800 ≤ n ∧ n < 0x8000 ∨
    0xAA00 ≤ n ∧ n < 0xAA80 ∨ 0xAB00 ≤ n ∧ n < 0xAB80 ∨ 0xAD00 ≤ n ∧ n < 0xAD80 ∨ 0xAD90 ≤ n ∧ n < 0xADB0 ∨
    0xADC0 ≤ n ∧ n < 0xAE00 ∨ 0xF000 ≤ n ∧ n < 0xF200 ∨ 0xF220 ≤ n ∧ n < 0xF230

/-- The first nine rows of the table are those of six bytes. -/
theorem sixRows_iff (w : Word) :
    ((lengthPatterns.take 9).any fun p => matchesPattern w p.1 p.2.1) = true ↔ SixBytes w.toNat := by
  simp (disch := decide) only [lengthPatterns, List.take_succ_cons, List.take_zero, List.any_cons, List.any_nil, Bool.false_eq_true, or_false,
    matchesPattern_range, matchesPattern_direct, Bool.or_eq_true, decide_eq_true_eq]
  simp only [SixBytes]
  omega

theorem fourRows_iff (w : Word) :
    ((lengthPatterns.drop 9).any fun p => matchesPattern w p.1 p.2.1) = true ↔ FourBytes w.toNat := by
  simp (disch := decide) only [lengthPatterns, List.drop_succ_cons, List.drop_zero, List.any_cons, List.any_nil, Bool.false_eq_true, or_false,
    matchesPattern_range, matchesPattern_direct, Bool.or_eq_true, decide_eq_true_eq]
  simp only [FourBytes]
  omega

/-- Among rows of one length the first match gives that length. -/
theorem find?_row_length (w : Word) (n : Nat) {rows : List (Nat × Nat × Nat)} (same : ∀ p ∈ rows, p.2.2 = n) :
    (rows.find? fun p => matchesPattern w p.1 p.2.1).map (·.2.2) =
      if (rows.any fun p => matchesPattern w p.1 p.2.1) = true then some n else none := by
  cases h : rows.find? fun p => matchesPattern w p.1 p.2.1 with
  | none =>
    rw [List.find?_eq_none] at h
    rw [if_neg (by simpa using h)]; rfl
  | some p =>
    rw [if_pos (List.any_eq_true.2 ⟨p, List.mem_of_find?_eq_some h, by simpa using List.find?_some h⟩), Option.map_some,
      same p (List.mem_of_find?_eq_some h)]

/-- The length of word 0 in bytes, by the ranges. -/
def lengthByRange (n : Nat) : Nat := if SixBytes n then 6 else if FourBytes n then 4 else 2

/-- An unimplemented word counts 2 bytes. -/
theorem lengthOfWord_getD (w : Word) : (lengthOfWord w).getD 2 = lengthByRange w.toNat := by
  unfold lengthOfWord
  split
  · next unimplemented =>
    rw [isUnimplemented_eq_inUnimplementedRange, inUnimplementedRange_iff] at unimplemented
    simp only [unimplementedRanges, List.exists_mem_cons_iff, List.not_mem_nil, false_and, exists_false,
      or_false] at unimplemented
    rw [lengthByRange, if_neg (by unfold SixBytes; omega), if_neg (by unfold FourBytes; omega), Option.getD_none]
  · have found : ((lengthPatterns.find? fun p => matchesPattern w p.1 p.2.1).map (·.2.2)) =
        if SixBytes w.toNat then some 6 else if FourBytes w.toNat then some 4 else none := by
      rw [← List.take_append_drop 9 lengthPatterns, List.find?_append, Option.map_or,
        find?_row_length w 6 (by decide), find?_row_length w 4 (by decide)]
      simp only [sixRows_iff, fourRows_iff]
      split <;> rfl
    calc
      _ = ((lengthPatterns.find? fun p => matchesPattern w p.1 p.2.1).map (·.2.2)).getD 2 := by
        cases lengthPatterns.find? fun p => matchesPattern w p.1 p.2.1 <;> rfl
      _ = lengthByRange w.toNat := by
        rw [found, lengthByRange]
        repeat' split
        all_goals rfl

/-! ### The length of the decoded instruction, by page -/

section
variable (ext : Bool) (w w1 w2 : Word)

@[simp] theorem bopQuadOf_len (o : BitVec 3) (f : BopQuad) : (bopQuadOf ext o f).len = Machine.quadLen f := by
  cases f <;> cases ext <;> (unfold bopQuadOf; split <;> rfl)

@[simp] theorem bopUBOf_len (o : BitVec 3) (d : Reg) (m : BopSource) :
    (bopUBOf ext o d m).len = Machine.sourceLen m := by
  cases m <;> cases ext <;> (unfold bopUBOf; split <;> rfl)

@[simp] theorem bopSBOf_len (o : BitVec 3) (d : Reg) (m : BopSource) :
    (bopSBOf ext o d m).len = Machine.sourceLen m := by
  cases m <;> cases ext <;> (unfold bopSBOf; split <;> rfl)

@[simp] theorem bopUWOf_len (o : BitVec 3) (d : Reg) (m : BopSource) :
    (bopUWOf ext o d m).len = Machine.sourceLen m := by
  cases m <;> cases ext <;> (unfold bopUWOf; split <;> rfl)

@[simp] theorem bopSWOf_len (o : BitVec 3) (d : Reg) (m : BopSource) :
    (bopSWOf ext o d m).len = Machine.sourceLen m := by
  cases m <;> cases ext <;> (unfold bopSWOf; split <;> rfl)

@[simp] theorem bopBOf_len (o : BitVec 3) (f : BopDest 8) : (bopBOf ext o f).len = Machine.destLen f := by
  cases f <;> cases ext <;> (unfold bopBOf; split <;> rfl)

@[simp] theorem bopWOf_len (o : BitVec 3) (f : BopDest 16) : (bopWOf ext o f).len = Machine.destLen f := by
  cases f <;> cases ext <;> (unfold bopWOf; split <;> rfl)

@[simp] theorem uopOf_len (sel o : BitVec 2) (m : UopDest) : (uopOf ext sel o m).len = Machine.uopLen m := by
  cases m <;> cases ext <;> (unfold uopOf uopBOf uopWOf uopQuadOf; split <;> split <;> rfl)

@[simp] theorem ldExtOf_len (zb : BitVec 2) (d : Reg) (m : LoadSource) :
    (ldExtOf zb d m).len = Machine.loadLen m := by
  cases m <;> (unfold ldExtOf; split <;> rfl)

end

/-- Word 0, as a number, gives this length by the ranges. -/
def LengthFits (n len : Nat) : Prop :=
  len = 6 ∧ SixBytes n ∨ len = 4 ∧ FourBytes n ∨ len = 2 ∧ ¬ SixBytes n ∧ ¬ FourBytes n

theorem LengthFits.six {n len : Nat} (h : len = 6) (hn : SixBytes n := by unfold SixBytes; omega) :
    LengthFits n len := .inl ⟨h, hn⟩
theorem LengthFits.four {n len : Nat} (h : len = 4) (hn : FourBytes n := by unfold FourBytes; omega) :
    LengthFits n len := .inr (.inl ⟨h, hn⟩)
theorem LengthFits.two {n len : Nat} (h : len = 2) (h6 : ¬ SixBytes n := by unfold SixBytes; omega)
    (h4 : ¬ FourBytes n := by unfold FourBytes; omega) : LengthFits n len := .inr (.inr ⟨h, h6, h4⟩)

theorem LengthFits.eq {n len : Nat} (h : LengthFits n len) : len = lengthByRange n := by
  unfold lengthByRange
  rcases h with ⟨rfl, h6⟩ | ⟨rfl, h4⟩ | ⟨rfl, h6, h4⟩
  · rw [if_pos h6]
  · have h6 : ¬ SixBytes n := by unfold SixBytes FourBytes at *; omega
    rw [if_neg h6, if_pos h4]
  · rw [if_neg h6, if_neg h4]

section
variable (ext : Bool) (w w1 w2 : Word)

theorem decode00_len (page : w.toNat / 0x100 = 0x00) : LengthFits w.toNat (decode00 w w1).len := by
  have third := nib1_toNat w
  unfold decode00
  split <;> simp -failIfUnchanged only [imp_false] at *
  case h_1 => split <;> exact .two rfl
  case h_2 => split <;> exact .four rfl
  case h_3 => exact .four (ldExtOf_len _ _ _)
  case h_4 => exact .two rfl

theorem decode03_len (page : w.toNat / 0x100 = 0x03) : LengthFits w.toNat (decode03 w w1 w2).len := by
  have third := nib1_toNat w
  unfold decode03
  split <;> simp -failIfUnchanged only [imp_false] at *
  case h_1 | h_2 | h_3 | h_4 | h_5 | h_6 | h_7 | h_8 => exact .four rfl
  all_goals exact .six rfl

theorem decode09_len (page : w.toNat / 0x100 = 0x09) : LengthFits w.toNat (decode09 w w1 w2).len := by
  have third := nib1_toNat w
  unfold decode09
  split <;> simp -failIfUnchanged only [imp_false] at *
  case h_10 | h_11 | h_12 => exact .six rfl
  case h_13 => exact .two rfl
  all_goals exact .four rfl

theorem decode0_len (page : w.toNat / 0x1000 = 0x0) : LengthFits w.toNat (decode0 w w1 w2).len := by
  have second := nib2_toNat w
  unfold decode0
  split <;> simp -failIfUnchanged only [imp_false] at *
  case h_1 => exact decode00_len w w1 (by omega)
  case h_4 => exact decode03_len w w1 w2 (by omega)
  case h_10 => exact decode09_len w w1 w2 (by omega)
  all_goals exact .two rfl

theorem decode1_len (page : w.toNat / 0x1000 = 0x1) : LengthFits w.toNat (decode1 w).len := by
  unfold decode1
  split <;> exact .two rfl

theorem decode45_len (page : w.toNat / 0x100 = 0x45) : LengthFits w.toNat (decode45 w w1 w2).len := by
  have third := nib1_toNat w
  unfold decode45
  split <;> simp -failIfUnchanged only [imp_false] at *
  case h_1 | h_2 => exact .four rfl
  case h_3 => exact .six rfl
  all_goals exact .two rfl

theorem decode4_len (page : w.toNat / 0x1000 = 0x4) : LengthFits w.toNat (decode4 w w1 w2).len := by
  have second := nib2_toNat w
  unfold decode4
  split <;> simp -failIfUnchanged only [imp_false] at *
  case h_6 => exact decode45_len w w1 w2 (by omega)
  case h_9 | h_12 => split <;> exact .four rfl
  case h_10 => exact .four (ldExtOf_len _ _ _)
  case h_11 => exact .four rfl
  all_goals exact .two rfl

theorem decode5_len (page : w.toNat / 0x1000 = 0x5) : LengthFits w.toNat (decode5 w).len := by
  unfold decode5
  split <;> exact .two rfl

theorem decode7Direct_len (o : BitVec 3) (page : w.toNat / 0x800 = 0xE) :
    LengthFits w.toNat (decode7Direct ext o w w1 w2).len := by
  have third := nib1_toNat w
  unfold decode7Direct
  split <;> simp only [imp_false, bopQuadOf_len, bopUBOf_len, bopSBOf_len, bopUWOf_len, bopSWOf_len, bopBOf_len,
    bopWOf_len] at *
  case h_1 | h_2 | h_3 | h_4 | h_5 | h_6 | h_7 | h_8 => exact .four rfl
  all_goals exact .six rfl

theorem decode7Indirect_len (o : BitVec 3) (page : w.toNat / 0x800 = 0xF) :
    LengthFits w.toNat (decode7Indirect ext o w w1).len := by
  unfold decode7Indirect
  split <;> simp only [bopQuadOf_len, bopUBOf_len, bopSBOf_len, bopUWOf_len, bopSWOf_len, bopBOf_len,
    bopWOf_len] <;> exact .four rfl

theorem getLsbD_toNat (i : Nat) : w.getLsbD i = decide (w.toNat / 2 ^ i % 2 = 1) := by
  rw [BitVec.getLsbD, Nat.testBit_eq_decide_div_mod_eq]

theorem decode7_len (page : w.toNat / 0x1000 = 0x7) : LengthFits w.toNat (decode7 ext w w1 w2).len := by
  unfold decode7
  rw [getLsbD_toNat]
  split <;> simp only [decide_eq_true_eq] at *
  · exact decode7Indirect_len ext w w1 _ (by omega)
  · exact decode7Direct_len ext w w1 w2 _ (by omega)

theorem decodeAD_len (page : w.toNat / 0x100 = 0xAD) : LengthFits w.toNat (decodeAD ext w w1 w2).len := by
  have third := nib1_toNat w
  unfold decodeAD
  split <;> simp only [imp_false, bopQuadOf_len, bopBOf_len, uopOf_len] at *
  case h_1 => exact .two rfl
  case h_4 => exact .six rfl
  all_goals exact .four rfl

theorem decodeA_len (page : w.toNat / 0x1000 = 0xA) : LengthFits w.toNat (decodeA ext w w1 w2).len := by
  have second := nib2_toNat w
  unfold decodeA
  simp only [getLsbD_toNat]
  split <;> simp -failIfUnchanged only [imp_false] at *
  case h_3 | h_4 =>
    split <;> simp only [decide_eq_true_eq, bopQuadOf_len, bopWOf_len] at *
    · exact .six rfl
    · exact .four rfl
  case h_5 => exact .two (uopOf_len _ _ _ _)
  case h_6 => exact decodeAD_len ext w w1 w2 (by omega)
  case h_7 => split <;> exact .two rfl
  case h_9 => exact .two (bopQuadOf_len _ _ _)
  all_goals exact .two rfl

theorem decodeB_len (page : w.toNat / 0x1000 = 0xB) : LengthFits w.toNat (decodeB ext w).len := by
  unfold decodeB
  split
  case h_5 | h_6 | h_7 => split <;> exact .two rfl
  all_goals exact .two rfl

theorem decodeF2_len (page : w.toNat / 0x100 = 0xF2) : LengthFits w.toNat (decodeF2 w w1 w2).len := by
  have third := nib1_toNat w
  have last := nib0_toNat w
  unfold decodeF2
  split <;> simp -failIfUnchanged only [imp_false] at *
  case h_3 => exact .four rfl
  case h_4 =>
    split <;> simp -failIfUnchanged only [imp_false] at *
    case h_3 => exact .two rfl
    all_goals exact .six rfl
  all_goals exact .two rfl

theorem decodeFF_len (page : w.toNat / 0x100 = 0xFF) : LengthFits w.toNat (decodeFF w).len := by
  unfold decodeFF
  split <;> exact .two rfl

theorem decodeF_len (page : w.toNat / 0x1000 = 0xF) : LengthFits w.toNat (decodeF w w1 w2).len := by
  have second := nib2_toNat w
  unfold decodeF
  split <;> simp -failIfUnchanged only [imp_false] at *
  case h_1 | h_2 => exact .four rfl
  case h_3 => exact decodeF2_len w w1 w2 (by omega)
  case h_6 => exact decodeFF_len w (by omega)
  all_goals exact .two rfl

theorem decodeWords_len : (decodeWords ext w w1 w2).len = (lengthOfWord w).getD 2 := by
  rw [lengthOfWord_getD]
  apply LengthFits.eq
  have first := nib3_toNat w
  have below := w.isLt
  unfold decodeWords
  split <;> simp -failIfUnchanged only [imp_false] at *
  case h_1 => exact decode0_len w w1 w2 (by omega)
  case h_2 => exact decode1_len w (by omega)
  case h_5 => exact decode4_len w w1 w2 (by omega)
  case h_6 => exact decode5_len w (by omega)
  case h_7 => exact .two (ldExtOf_len _ _ _)
  case h_8 => exact decode7_len ext w w1 w2 (by omega)
  case h_11 => exact decodeA_len ext w w1 w2 (by omega)
  case h_12 => exact decodeB_len ext w (by omega)
  case h_16 => exact decodeF_len w w1 w2 (by omega)
  case h_3 | h_9 | h_10 => split <;> exact .two rfl
  all_goals exact .two rfl

/-! ### The decoder's `unimplemented` holds the word it read -/

variable {ext w w1 w2} {v : Word}

theorem eq_of_decode00_unimplemented (h : decode00 w w1 = .unimplemented v) : v = w := by
  unfold decode00 at h
  split at h
  case h_3 => exact absurd h (ldExtOf_ne_unimplemented _ _ _ _)
  case h_1 | h_2 => split at h <;> cases h <;> rfl
  case h_4 => cases h; rfl

theorem eq_of_decode03_unimplemented (h : decode03 w w1 w2 = .unimplemented v) : v = w := by
  unfold decode03 at h
  split at h <;> cases h

theorem eq_of_decode09_unimplemented (h : decode09 w w1 w2 = .unimplemented v) : v = w := by
  unfold decode09 at h
  split at h <;> cases h
  rfl

theorem eq_of_decode0_unimplemented (h : decode0 w w1 w2 = .unimplemented v) : v = w := by
  unfold decode0 at h
  split at h
  case h_1 => exact eq_of_decode00_unimplemented h
  case h_4 => exact eq_of_decode03_unimplemented h
  case h_10 => exact eq_of_decode09_unimplemented h
  all_goals cases h
  rfl

theorem eq_of_decode4_unimplemented (h : decode4 w w1 w2 = .unimplemented v) : v = w := by
  unfold decode4 at h
  split at h
  case h_6 =>
    unfold decode45 at h
    split at h <;> cases h
    rfl
  case h_9 | h_12 => split at h <;> cases h
  case h_10 => exact absurd h (ldExtOf_ne_unimplemented _ _ _ _)
  all_goals cases h <;> rfl

theorem decode7_ne_unimplemented_of : decode7 ext w w1 w2 ≠ .unimplemented v := by
  unfold decode7 decode7Direct decode7Indirect
  split <;> split <;> simp

theorem eq_of_decodeA_unimplemented (h : decodeA ext w w1 w2 = .unimplemented v) : v = w := by
  unfold decodeA at h
  split at h
  case h_3 | h_4 => split at h <;> simp at h
  case h_5 | h_9 => simp at h
  case h_6 =>
    unfold decodeAD at h
    split at h
    case h_1 => cases h; rfl
    all_goals simp at h
  case h_7 => split at h <;> cases h
  all_goals cases h <;> rfl

theorem eq_of_decodeB_unimplemented (h : decodeB ext w = .unimplemented v) : v = w := by
  unfold decodeB at h
  split at h
  case h_5 | h_6 | h_7 => split at h <;> cases h
  all_goals cases h <;> rfl

theorem eq_of_decodeF_unimplemented (h : decodeF w w1 w2 = .unimplemented v) : v = w := by
  unfold decodeF at h
  split at h
  case h_3 =>
    unfold decodeF2 at h
    split at h
    case h_4 => split at h <;> cases h; rfl
    all_goals cases h <;> rfl
  case h_6 =>
    unfold decodeFF at h
    split at h <;> cases h
    rfl
  all_goals cases h <;> rfl

theorem eq_of_decodeWords_unimplemented (h : decodeWords ext w w1 w2 = .unimplemented v) : v = w := by
  unfold decodeWords at h
  split at h
  case h_1 => exact eq_of_decode0_unimplemented h
  case h_2 => unfold decode1 at h; split at h <;> cases h
  case h_5 => exact eq_of_decode4_unimplemented h
  case h_6 => unfold decode5 at h; split at h <;> cases h
  case h_7 => exact absurd h (ldExtOf_ne_unimplemented _ _ _ _)
  case h_8 => exact absurd h decode7_ne_unimplemented_of
  case h_11 => exact eq_of_decodeA_unimplemented h
  case h_12 => exact eq_of_decodeB_unimplemented h
  case h_16 => exact eq_of_decodeF_unimplemented h
  case h_3 | h_9 | h_10 => split at h <;> cases h
  all_goals cases h

/-- Settles O2: `decodeWords_len`, and an undecoded word is itself one of the ranges of R115. -/
theorem wordZeroGivesTheLength : Obligations.WordZeroGivesTheLength := by
  intro ext w0 w1 w2
  refine ⟨decodeWords_len ext w0 w1 w2, ?_⟩
  generalize decoded : decodeWords ext w0 w1 w2 = i
  cases i with
  | unimplemented v =>
    obtain rfl := eq_of_decodeWords_unimplemented decoded
    exact (decodeWords_eq_unimplemented_iff ext v w1 w2).1 decoded
  | _ => rfl

/-- Settles O4, by evaluating the decoder. -/
theorem decodesTheWrittenOutWords : Obligations.DecodesTheWrittenOutWords := by
  unfold Obligations.DecodesTheWrittenOutWords
  decide

end

end Sys2Proof
end

section
/-! PROOFS. What the Extend modifier changes in the decoder (30_encoding.md R119, 45_cpu_control.md R321, R324): each
operation number and each page gives with it the extended instruction of what it gives without it, or the same. -/

namespace Sys2Proof.Machine

/-- `j` is what the words of `i` mean after Extend. -/
structure ExtendPair (i j : Instr) : Prop where
  base : i.isExtended = false
  words : encode j = encode i
  meaning : extendedOf i = none ∧ j = i ∨ extendedOf i = some j ∧ j.isExtended = true

/-- An instruction with no extended form means the same after Extend. -/
theorem ExtendPair.same {i : Instr} (base : i.isExtended = false) (none : extendedOf i = none) : ExtendPair i i :=
  ⟨base, rfl, .inl ⟨none, rfl⟩⟩

theorem ExtendPair.extended {i j : Instr} (base : i.isExtended = false) (words : encode j = encode i)
    (meaning : extendedOf i = some j) (ext : j.isExtended = true) : ExtendPair i j :=
  ⟨base, words, .inr ⟨meaning, ext⟩⟩

/-! ### Operation numbers -/

theorem bopQuadOf_pair (o : BitVec 3) (f : BopQuad) : ExtendPair (bopQuadOf false o f) (bopQuadOf true o f) := by
  unfold bopQuadOf
  split
  case h_1 | h_2 | h_6 => exact .extended rfl rfl rfl rfl
  all_goals exact .same rfl rfl

theorem bopUBOf_pair (o : BitVec 3) (d : Reg) (m : BopSource) :
    ExtendPair (bopUBOf false o d m) (bopUBOf true o d m) := by
  unfold bopUBOf
  split
  case h_1 | h_2 | h_6 => exact .extended rfl rfl rfl rfl
  all_goals exact .same rfl rfl

theorem bopSBOf_pair (o : BitVec 3) (d : Reg) (m : BopSource) :
    ExtendPair (bopSBOf false o d m) (bopSBOf true o d m) := by
  unfold bopSBOf
  split
  case h_1 | h_2 | h_6 => exact .extended rfl rfl rfl rfl
  all_goals exact .same rfl rfl

theorem bopUWOf_pair (o : BitVec 3) (d : Reg) (m : BopSource) :
    ExtendPair (bopUWOf false o d m) (bopUWOf true o d m) := by
  unfold bopUWOf
  split
  case h_1 | h_2 | h_6 => exact .extended rfl rfl rfl rfl
  all_goals exact .same rfl rfl

theorem bopSWOf_pair (o : BitVec 3) (d : Reg) (m : BopSource) :
    ExtendPair (bopSWOf false o d m) (bopSWOf true o d m) := by
  unfold bopSWOf
  split
  case h_1 | h_2 | h_6 => exact .extended rfl rfl rfl rfl
  all_goals exact .same rfl rfl

theorem bopBOf_pair (o : BitVec 3) (f : BopDest 8) : ExtendPair (bopBOf false o f) (bopBOf true o f) := by
  unfold bopBOf
  split
  case h_1 | h_2 | h_6 => exact .extended rfl rfl rfl rfl
  all_goals exact .same rfl rfl

theorem bopWOf_pair (o : BitVec 3) (f : BopDest 16) : ExtendPair (bopWOf false o f) (bopWOf true o f) := by
  unfold bopWOf
  split
  case h_1 | h_2 | h_6 => exact .extended rfl rfl rfl rfl
  all_goals exact .same rfl rfl

theorem uopBOf_pair (o : BitVec 2) (m : UopDest) : ExtendPair (uopBOf false o m) (uopBOf true o m) := by
  unfold uopBOf
  split
  case h_2 => exact .extended rfl rfl rfl rfl
  all_goals exact .same rfl rfl

theorem uopWOf_pair (o : BitVec 2) (m : UopDest) : ExtendPair (uopWOf false o m) (uopWOf true o m) := by
  unfold uopWOf
  split
  case h_2 => exact .extended rfl rfl rfl rfl
  all_goals exact .same rfl rfl

theorem uopQuadOf_pair (o : BitVec 2) (m : UopDest) : ExtendPair (uopQuadOf false o m) (uopQuadOf true o m) := by
  unfold uopQuadOf
  split
  case h_2 => exact .extended rfl rfl rfl rfl
  all_goals exact .same rfl rfl

theorem uopOf_pair (sel o : BitVec 2) (m : UopDest) : ExtendPair (uopOf false sel o m) (uopOf true sel o m) := by
  unfold uopOf
  split
  · exact uopBOf_pair o m
  · exact uopWOf_pair o m
  · exact uopQuadOf_pair o m

theorem ldExtOf_pair (zb : BitVec 2) (d : Reg) (m : LoadSource) : ExtendPair (ldExtOf zb d m) (ldExtOf zb d m) := by
  unfold ldExtOf
  split <;> exact .same rfl rfl

/-! ### Pages -/

section
variable (w w1 w2 : Word)

theorem decode0_pair : ExtendPair (decode0 w w1 w2) (decode0 w w1 w2) := by
  unfold decode0
  split
  case h_1 =>
    unfold decode00
    split
    case h_3 => exact ldExtOf_pair _ _ _
    case h_1 | h_2 => split <;> exact .same rfl rfl
    case h_4 => exact .same rfl rfl
  case h_4 => unfold decode03; split <;> exact .same rfl rfl
  case h_10 => unfold decode09; split <;> exact .same rfl rfl
  all_goals exact .same rfl rfl

theorem decode1_pair : ExtendPair (decode1 w) (decode1 w) := by
  unfold decode1
  split <;> exact .same rfl rfl

theorem decode4_pair : ExtendPair (decode4 w w1 w2) (decode4 w w1 w2) := by
  unfold decode4
  split
  case h_6 => unfold decode45; split <;> exact .same rfl rfl
  case h_9 | h_12 => split <;> exact .same rfl rfl
  case h_10 => exact ldExtOf_pair _ _ _
  all_goals exact .same rfl rfl

theorem decode5_pair : ExtendPair (decode5 w) (decode5 w) := by
  unfold decode5
  split <;> exact .same rfl rfl

theorem decode7Direct_pair (o : BitVec 3) :
    ExtendPair (decode7Direct false o w w1 w2) (decode7Direct true o w w1 w2) := by
  unfold decode7Direct
  split
  case h_1 | h_9 => exact bopUBOf_pair _ _ _
  case h_2 | h_10 => exact bopSBOf_pair _ _ _
  case h_3 | h_11 => exact bopUWOf_pair _ _ _
  case h_4 | h_12 => exact bopSWOf_pair _ _ _
  case h_6 | h_14 => exact bopBOf_pair _ _
  case h_7 | h_15 => exact bopWOf_pair _ _
  all_goals exact bopQuadOf_pair _ _

theorem decode7Indirect_pair (o : BitVec 3) :
    ExtendPair (decode7Indirect false o w w1) (decode7Indirect true o w w1) := by
  unfold decode7Indirect
  split
  case h_1 => exact bopUBOf_pair _ _ _
  case h_2 => exact bopSBOf_pair _ _ _
  case h_3 => exact bopUWOf_pair _ _ _
  case h_4 => exact bopSWOf_pair _ _ _
  case h_6 => exact bopBOf_pair _ _
  case h_7 => exact bopWOf_pair _ _
  all_goals exact bopQuadOf_pair _ _

theorem decode7_pair : ExtendPair (decode7 false w w1 w2) (decode7 true w w1 w2) := by
  unfold decode7
  split
  · exact decode7Indirect_pair w w1 _
  · exact decode7Direct_pair w w1 w2 _

theorem decodeAD_pair : ExtendPair (decodeAD false w w1 w2) (decodeAD true w w1 w2) := by
  unfold decodeAD
  split
  case h_1 => exact .same rfl rfl
  case h_2 => exact bopBOf_pair _ _
  case h_9 => exact bopQuadOf_pair _ _
  all_goals exact uopOf_pair _ _ _

theorem decodeA_pair : ExtendPair (decodeA false w w1 w2) (decodeA true w w1 w2) := by
  unfold decodeA
  split
  case h_1 | h_2 | h_8 => exact .same rfl rfl
  case h_3 => split <;> exact bopQuadOf_pair _ _
  case h_4 =>
    split
    · exact bopQuadOf_pair _ _
    · exact bopWOf_pair _ _
  case h_5 => exact uopOf_pair _ _ _
  case h_6 => exact decodeAD_pair w w1 w2
  case h_7 => exact .extended rfl rfl rfl rfl
  case h_9 => exact bopQuadOf_pair _ _

/-- Only the register-count shifts of BxxxH have an extended form. -/
theorem decodeB_pair : ExtendPair (decodeB false w) (decodeB true w) := by
  unfold decodeB
  split
  case h_5 | h_6 | h_7 => exact .extended rfl rfl rfl rfl
  all_goals exact .same rfl rfl

theorem decodeF_pair : ExtendPair (decodeF w w1 w2) (decodeF w w1 w2) := by
  unfold decodeF
  split
  case h_3 =>
    unfold decodeF2
    split
    case h_4 => split <;> exact .same rfl rfl
    all_goals exact .same rfl rfl
  case h_6 => unfold decodeFF; split <;> exact .same rfl rfl
  all_goals exact .same rfl rfl

theorem decodeWords_pair : ExtendPair (decodeWords false w w1 w2) (decodeWords true w w1 w2) := by
  unfold decodeWords
  split
  case h_1 => exact decode0_pair w w1 w2
  case h_2 => exact decode1_pair w
  case h_3 | h_9 | h_10 => exact .extended rfl rfl rfl rfl
  case h_5 => exact decode4_pair w w1 w2
  case h_6 => exact decode5_pair w
  case h_7 => exact ldExtOf_pair _ _ _
  case h_8 => exact decode7_pair w w1 w2
  case h_11 => exact decodeA_pair w w1 w2
  case h_12 => exact decodeB_pair w
  case h_16 => exact decodeF_pair w w1 w2
  all_goals exact .same rfl rfl

end

/-- Settles O5, by `decodeWords_pair`. -/
theorem extendPrefixSelectsTheExtendedMnemonics : Obligations.ExtendPrefixSelectsTheExtendedMnemonics := by
  intro w0 w1 w2
  obtain ⟨base, words, same | extended⟩ := decodeWords_pair w0 w1 w2
  · obtain ⟨no_extended, eq⟩ := same
    refine ⟨base, fun j some => ?_, fun _ => eq, words, fun _ => eq⟩
    rw [no_extended] at some
    cases some
  · obtain ⟨meaning, is_extended⟩ := extended
    refine ⟨base, fun j some => ?_, fun none => ?_, words, fun not_extended => ?_⟩
    · rw [meaning] at some
      cases some
      exact ⟨rfl, is_extended⟩
    · rw [meaning] at none; cases none
    · rw [is_extended] at not_extended; cases not_extended

end Sys2Proof.Machine
end

section
/-! PROOFS. The words of every instruction decode to it (30_encoding.md R101, R107, R108, R119): form by form of the
operands, then for every mnemonic. -/

namespace Sys2Proof

/-! ### Fields that lie inside a nibble of word 0 -/

section
variable (a b c d : BitVec 4)

@[simp] theorem wordOf_8_3 : (wordOf a b c d).extractLsb' 8 3 = b.extractLsb' 0 3 := by
  simp (disch := decide) only [wordOf, BitVec.extractLsb'_append_eq_of_le, BitVec.extractLsb'_append_eq_of_add_le,
    Nat.reduceSub]

@[simp] theorem wordOf_4_3 : (wordOf a b c d).extractLsb' 4 3 = c.extractLsb' 0 3 := by
  simp (disch := decide) only [wordOf, BitVec.extractLsb'_append_eq_of_le, BitVec.extractLsb'_append_eq_of_add_le,
    Nat.reduceSub]

@[simp] theorem wordOf_6_2 : (wordOf a b c d).extractLsb' 6 2 = c.extractLsb' 2 2 := by
  simp (disch := decide) only [wordOf, BitVec.extractLsb'_append_eq_of_le, BitVec.extractLsb'_append_eq_of_add_le,
    Nat.reduceSub]

@[simp] theorem wordOf_4_2 : (wordOf a b c d).extractLsb' 4 2 = c.extractLsb' 0 2 := by
  simp (disch := decide) only [wordOf, BitVec.extractLsb'_append_eq_of_le, BitVec.extractLsb'_append_eq_of_add_le,
    Nat.reduceSub]

@[simp] theorem wordOf_2_2 : (wordOf a b c d).extractLsb' 2 2 = d.extractLsb' 2 2 := by
  simp (disch := decide) only [wordOf, BitVec.extractLsb'_append_eq_of_add_le]

@[simp] theorem wordOf_0_2 : (wordOf a b c d).extractLsb' 0 2 = d.extractLsb' 0 2 := by
  simp (disch := decide) only [wordOf, BitVec.extractLsb'_append_eq_of_add_le]

@[simp] theorem wordOf_bit11 : (wordOf a b c d).getLsbD 11 = b.getLsbD 3 := by
  have field : (wordOf a b c d).getLsbD 11 = (nib2 (wordOf a b c d)).getLsbD 3 := by
    rw [nib2, BitVec.getLsbD_extractLsb']; rfl
  rw [field, nib2_wordOf]

@[simp] theorem wordOf_bit7 : (wordOf a b c d).getLsbD 7 = c.getLsbD 3 := by
  have field : (wordOf a b c d).getLsbD 7 = (nib1 (wordOf a b c d)).getLsbD 3 := by
    rw [nib1, BitVec.getLsbD_extractLsb']; rfl
  rw [field, nib1_wordOf]

end

@[simp] theorem append_0_3 (p : BitVec 1) (o : BitVec 3) : (p ++ o).extractLsb' 0 3 = o :=
  BitVec.extractLsb'_append_eq_right
@[simp] theorem append_bit3 (p : BitVec 1) (o : BitVec 3) : (p ++ o).getLsbD 3 = p.getLsbD 0 :=
  BitVec.getLsbD_append (x := p) (y := o)
@[simp] theorem append_2_2 (q r : BitVec 2) : (q ++ r).extractLsb' 2 2 = q := BitVec.extractLsb'_append_eq_left
@[simp] theorem append_0_2 (q r : BitVec 2) : (q ++ r).extractLsb' 0 2 = r := BitVec.extractLsb'_append_eq_right

/-! ### Fields of word 1 -/

@[simp] theorem append_13_3 (x : BitVec 3) (off : BitVec 13) : (x ++ off).extractLsb' 13 3 = x :=
  BitVec.extractLsb'_append_eq_left
@[simp] theorem soff13_append (x : BitVec 3) (off : BitVec 13) : soff13 (x ++ off) = off :=
  BitVec.extractLsb'_append_eq_right
@[simp] theorem append_14_2 (x : BitVec 2) (off : BitVec 14) : (x ++ off).extractLsb' 14 2 = x :=
  BitVec.extractLsb'_append_eq_left
@[simp] theorem soff14_append (x : BitVec 2) (off : BitVec 14) : soff14 (x ++ off) = off :=
  BitVec.extractLsb'_append_eq_right
@[simp] theorem append_bit15 (x : BitVec 2) (off : BitVec 14) : (x ++ off).getLsbD 15 = x.getLsbD 1 :=
  BitVec.getLsbD_append (x := x) (y := off)
@[simp] theorem append_bit14 (x : BitVec 2) (off : BitVec 14) : (x ++ off).getLsbD 14 = x.getLsbD 0 :=
  BitVec.getLsbD_append (x := x) (y := off)
@[simp] theorem lowByte_append (x i : Byte) : lowByte (x ++ i) = i := BitVec.extractLsb'_append_eq_right
@[simp] theorem lowByte_operation (o : BitVec 3) (i : Byte) : lowByte (0#5 ++ o ++ i) = i :=
  BitVec.extractLsb'_append_eq_right
@[simp] theorem operation_8_3 (o : BitVec 3) (i : Byte) : (0#5 ++ o ++ i).extractLsb' 8 3 = o := by
  simp (disch := decide) only [BitVec.extractLsb'_append_eq_of_le, BitVec.extractLsb'_append_eq_right, Nat.reduceSub]

/-! ### Words 0 with a byte or an offset -/

section
variable (a b : BitVec 4) (i : Byte)
@[simp] theorem nib3_wordOfByte : nib3 (wordOfByte a b i) = a := by rw [wordOfByte_eq, nib3_wordOf]
@[simp] theorem nib2_wordOfByte : nib2 (wordOfByte a b i) = b := by rw [wordOfByte_eq, nib2_wordOf]
end

section
variable (a : BitVec 4) (r : BitVec 12)
@[simp] theorem nib3_append12 : nib3 (a ++ r) = a := BitVec.extractLsb'_append_eq_left
@[simp] theorem append_0_12 : (a ++ r).extractLsb' 0 12 = r := BitVec.extractLsb'_append_eq_right
end

section
variable (a d : BitVec 4) (sel : BitVec 2) (off : BitVec 6)

@[simp] theorem nib3_fpRel : nib3 (a ++ sel ++ off ++ d) = a := by
  simp (disch := decide) only [nib3, BitVec.extractLsb'_append_eq_of_le, Nat.reduceSub, BitVec.extractLsb'_eq_self]
@[simp] theorem nib0_fpRel : nib0 (a ++ sel ++ off ++ d) = d := BitVec.extractLsb'_append_eq_right
@[simp] theorem nib2_fpRel : nib2 (a ++ sel ++ off ++ d) = sel ++ off.extractLsb' 4 2 := by
  have last_bits : (a ++ sel).extractLsb' 0 2 = sel := BitVec.extractLsb'_append_eq_right
  rw [nib2, BitVec.extractLsb'_append_eq_of_le (by decide), BitVec.extractLsb'_append_eq_ite]
  simp [last_bits]
@[simp] theorem fpRel_10_2 : (a ++ sel ++ off ++ d).extractLsb' 10 2 = sel := by
  simp (disch := decide) only [BitVec.extractLsb'_append_eq_of_le, BitVec.extractLsb'_append_eq_right, Nat.reduceSub]
@[simp] theorem soff6_fpRel : soff6 (a ++ sel ++ off ++ d) = off := by
  simp (disch := decide) only [soff6, BitVec.extractLsb'_append_eq_of_le, BitVec.extractLsb'_append_eq_right,
    Nat.reduceSub]
end

section
variable (oo : BitVec 2) (n : BitVec 5) (d : BitVec 4)
@[simp] theorem nib3_shift : nib3 (0b1011#4 ++ 1#1 ++ oo ++ n ++ d) = 0xB := by
  simp (disch := decide) only [nib3, BitVec.extractLsb'_append_eq_of_le, Nat.reduceSub]; rfl
@[simp] theorem nib2_shift : nib2 (0b1011#4 ++ 1#1 ++ oo ++ n ++ d) = 1#1 ++ oo ++ n.extractLsb' 4 1 := by
  have last_bit : (0b1011#4 ++ 1#1).extractLsb' 0 1 = 1#1 := BitVec.extractLsb'_append_eq_right
  rw [nib2, BitVec.extractLsb'_append_eq_of_le (by decide), BitVec.extractLsb'_append_eq_ite,
    BitVec.extractLsb'_append_eq_ite]
  simp [last_bit, -BitVec.reduceAppend]
@[simp] theorem nib0_shift : nib0 (0b1011#4 ++ 1#1 ++ oo ++ n ++ d) = d := BitVec.extractLsb'_append_eq_right
@[simp] theorem uimm5_shift : uimm5 (0b1011#4 ++ 1#1 ++ oo ++ n ++ d) = n := by
  simp (disch := decide) only [uimm5, BitVec.extractLsb'_append_eq_of_le, BitVec.extractLsb'_append_eq_right,
    Nat.reduceSub]
end

/-- A 17-bit immediate is its top bit and word 1. -/
theorem simm17_eq (i : BitVec 17) : i.extractLsb' 16 1 ++ i.extractLsb' 0 16 = i :=
  (BitVec.extractLsb'_append_extractLsb'_eq_extractLsb' rfl).trans BitVec.extractLsb'_eq_self

/-- A 24-bit offset is the low byte of word 0 and word 1. -/
@[simp] theorem rel24_eq (r : BitVec 24) : r.extractLsb' 16 8 ++ r.extractLsb' 0 16 = r :=
  (BitVec.extractLsb'_append_extractLsb'_eq_extractLsb' rfl).trans BitVec.extractLsb'_eq_self

theorem bitVec1_cases (b : BitVec 1) : b = 0#1 ∨ b = 1#1 := by revert b; decide
theorem bitVec2_cases (b : BitVec 2) : b = 0 ∨ b = 1 ∨ b = 2 ∨ b = 3 := by revert b; decide
theorem bitVec3_cases (b : BitVec 3) : b = 0 ∨ b = 1 ∨ b = 2 ∨ b = 3 ∨ b = 4 ∨ b = 5 ∨ b = 6 ∨ b = 7 := by
  revert b; decide

/-! ### Two-operand forms -/

section
variable (ext : Bool) (o : BitVec 3)

theorem decodeList_encodeBopQuad (f : BopQuad) : decodeList ext (encodeBopQuad o f) = bopQuadOf ext o f := by
  cases f with
  | regImm32 d i | regUimm16 d i | indImm32 d i =>
    simp [decodeList, encodeBopQuad, decodeWords, decodeA, quadWords, -BitVec.getLsbD_eq_getElem]
  | regReg d s | indSimm16 d i =>
    rcases bitVec3_cases o with rfl | rfl | rfl | rfl | rfl | rfl | rfl | rfl <;>
      simp [decodeList, encodeBopQuad, decodeWords, decodeA, decodeAD]
  | regAddr16 d a | regAddr32 d a | addr16Reg a s | addr32Reg a s =>
    simp [decodeList, encodeBopQuad, decodeWords, decode7, decode7Direct, quadWords, -BitVec.getLsbD_eq_getElem]
  | regInd d off s | indReg off d s =>
    simp [decodeList, encodeBopQuad, decodeWords, decode7, decode7Indirect, -BitVec.getLsbD_eq_getElem]

theorem decodeList_encodeBopB (f : BopDest 8) : decodeList ext (encodeBopB o f) = bopBOf ext o f := by
  cases f with
  | addr16Reg a s | addr32Reg a s =>
    simp [decodeList, encodeBopB, decodeWords, decode7, decode7Direct, quadWords, -BitVec.getLsbD_eq_getElem]
  | indReg off d s =>
    simp [decodeList, encodeBopB, decodeWords, decode7, decode7Indirect, -BitVec.getLsbD_eq_getElem]
  | indImm d i => simp [decodeList, encodeBopB, decodeWords, decodeA, decodeAD]

theorem decodeList_encodeBopW (f : BopDest 16) : decodeList ext (encodeBopW o f) = bopWOf ext o f := by
  cases f with
  | addr16Reg a s | addr32Reg a s =>
    simp [decodeList, encodeBopW, decodeWords, decode7, decode7Direct, quadWords, -BitVec.getLsbD_eq_getElem]
  | indReg off d s =>
    simp [decodeList, encodeBopW, decodeWords, decode7, decode7Indirect, -BitVec.getLsbD_eq_getElem]
  | indImm d i => simp [decodeList, encodeBopW, decodeWords, decodeA, -BitVec.getLsbD_eq_getElem]

theorem decodeList_encodeBopUB (d : Reg) (m : BopSource) :
    decodeList ext (encodeBopSource o 0 d m) = bopUBOf ext o d m := by
  cases m <;>
    simp [decodeList, encodeBopSource, decodeWords, decode7, decode7Direct, decode7Indirect, quadWords,
      -BitVec.getLsbD_eq_getElem]

theorem decodeList_encodeBopSB (d : Reg) (m : BopSource) :
    decodeList ext (encodeBopSource o 1 d m) = bopSBOf ext o d m := by
  cases m <;>
    simp [decodeList, encodeBopSource, decodeWords, decode7, decode7Direct, decode7Indirect, quadWords,
      -BitVec.getLsbD_eq_getElem]

theorem decodeList_encodeBopUW (d : Reg) (m : BopSource) :
    decodeList ext (encodeBopSource o 2 d m) = bopUWOf ext o d m := by
  cases m <;>
    simp [decodeList, encodeBopSource, decodeWords, decode7, decode7Direct, decode7Indirect, quadWords,
      -BitVec.getLsbD_eq_getElem]

theorem decodeList_encodeBopSW (d : Reg) (m : BopSource) :
    decodeList ext (encodeBopSource o 3 d m) = bopSWOf ext o d m := by
  cases m <;>
    simp [decodeList, encodeBopSource, decodeWords, decode7, decode7Direct, decode7Indirect, quadWords,
      -BitVec.getLsbD_eq_getElem]

theorem decodeList_encodeUop (sel o : BitVec 2) (m : UopDest) :
    decodeList ext (encodeUop sel o m) = uopOf ext sel o m := by
  cases m with
  | addr16 a | addr32 a | ind d => simp [decodeList, encodeUop, decodeWords, decodeA, decodeAD, quadWords]
  | off off d =>
    rcases bitVec2_cases o with rfl | rfl | rfl | rfl <;>
      simp [decodeList, encodeUop, decodeWords, decodeA, decodeAD]

theorem decodeList_encodeAddQuad (f : AddQuad) :
    decodeList ext (encodeAddQuad f) = if ext then .adc f else .add f := by
  cases f with
  | bop f => exact decodeList_encodeBopQuad ext 0 f
  | regSimm8 d i => simp [decodeList, encodeAddQuad, decodeWords]
  | regRegReg d s1 s2 => simp [decodeList, encodeAddQuad, decodeWords]

theorem decodeList_encodeCpQuad (f : CpQuad) :
    decodeList ext (encodeCpQuad f) = if ext then .cpc f else .cp f := by
  cases f with
  | bop f => exact decodeList_encodeBopQuad ext 5 f
  | regSimm8 d i => simp [decodeList, encodeCpQuad, decodeWords]

/-! ### Loads and stores -/

theorem decodeList_encodeLoadQuad (d : Reg) (m : LoadSource) :
    decodeList ext (encodeLoadQuad d m) = .ld (.load d m) := by
  cases m with
  | addr16 a | addr32 a => simp [decodeList, encodeLoadQuad, decodeWords, decode0, decode03, quadWords]
  | ind s | postInc s => simp [decodeList, encodeLoadQuad, decodeWords, decode1]
  | off off s => simp [decodeList, encodeLoadQuad, decodeWords, decode4, -BitVec.getLsbD_eq_getElem]
  | pcRel off => simp [decodeList, encodeLoadQuad, decodeWords, decode0, decode00, -BitVec.getLsbD_eq_getElem]
  | fpRel off => simp [decodeList, encodeLoadQuad, decodeWords, decode5, -BitVec.reduceAppend]

theorem decodeList_encodeLoadExt (z b : BitVec 1) (d : Reg) (m : LoadSource) :
    decodeList ext (encodeLoadExt z b d m) = ldExtOf (z ++ b) d m := by
  cases m with
  | addr16 a | addr32 a =>
    rcases bitVec1_cases z with rfl | rfl <;> rcases bitVec1_cases b with rfl | rfl <;>
      simp [decodeList, encodeLoadExt, decodeWords, decode0, decode03, quadWords, ldExtOf]
  | ind s | postInc s =>
    rcases bitVec1_cases z with rfl | rfl <;> rcases bitVec1_cases b with rfl | rfl <;>
      simp [decodeList, encodeLoadExt, decodeWords, decode1, ldExtOf]
  | off off s => simp [decodeList, encodeLoadExt, decodeWords, decode4]
  | pcRel off => simp [decodeList, encodeLoadExt, decodeWords, decode0, decode00]
  | fpRel off =>
    have selector : ∀ z b : BitVec 1, 0x6#4 ++ z ++ b = 0x6#4 ++ (z ++ b) := by decide
    simp [decodeList, encodeLoadExt, decodeWords, selector]

theorem decodeList_encodeStoreQuad (r : Reg) (m : StoreDest) :
    decodeList ext (encodeStoreQuad r m) = .ld (.store m r) := by
  cases m with
  | addr16 a | addr32 a => simp [decodeList, encodeStoreQuad, decodeWords, decode0, decode03, quadWords]
  | ind d => simp [decodeList, encodeStoreQuad, decodeWords, decode0]
  | preDec d | postInc d => simp [decodeList, encodeStoreQuad, decodeWords, decode1]
  | off off d => simp [decodeList, encodeStoreQuad, decodeWords, decode4]
  | fpRel off => simp [decodeList, encodeStoreQuad, decodeWords, decode5, -BitVec.reduceAppend]

theorem decodeList_encodeStoreW (r : Reg) (m : StoreDest) :
    decodeList ext (encodeStoreW r m) = .ldW (.store m r) := by
  cases m with
  | addr16 a | addr32 a => simp [decodeList, encodeStoreW, decodeWords, decode0, decode03, quadWords]
  | ind d => simp [decodeList, encodeStoreW, decodeWords, decode0]
  | preDec d | postInc d => simp [decodeList, encodeStoreW, decodeWords, decode1]
  | off off d => simp [decodeList, encodeStoreW, decodeWords, decode4, -BitVec.getLsbD_eq_getElem]
  | fpRel off => simp [decodeList, encodeStoreW, decodeWords, decode5, -BitVec.reduceAppend]

theorem decodeList_encodeStoreB (r : Reg) (m : StoreDest) :
    decodeList ext (encodeStoreB r m) = .ldB (.store m r) := by
  cases m with
  | addr16 a | addr32 a => simp [decodeList, encodeStoreB, decodeWords, decode0, decode03, quadWords]
  | ind d => simp [decodeList, encodeStoreB, decodeWords, decode0]
  | preDec d | postInc d => simp [decodeList, encodeStoreB, decodeWords, decode1]
  | off off d => simp [decodeList, encodeStoreB, decodeWords, decode4, -BitVec.getLsbD_eq_getElem]
  | fpRel off => simp [decodeList, encodeStoreB, decodeWords, decode5, -BitVec.reduceAppend]

theorem decodeList_encodeLdQuad (f : LdQuad) : decodeList ext (encodeLdQuad f) = .ld f := by
  cases f with
  | regSimm8 d i => simp [decodeList, encodeLdQuad, decodeWords]
  | regSimm17 d i =>
    have value := simm17_eq i
    rcases bitVec1_cases (i.extractLsb' 16 1) with top | top <;> rw [top] at value <;>
      simp [decodeList, encodeLdQuad, decodeWords, decode4, decode45, top, value]
  | regImm32 d i => simp [decodeList, encodeLdQuad, decodeWords, decode4, decode45, quadWords]
  | regReg d s => simp [decodeList, encodeLdQuad, decodeWords, decode4]
  | load d m => exact decodeList_encodeLoadQuad ext d m
  | store m s => exact decodeList_encodeStoreQuad ext s m
  | storeImm32 p d i =>
    cases p <;> simp [decodeList, encodeLdQuad, decodeWords, decode0, decode09, quadWords]
  | storeSimm16 p d i => cases p <;> simp [decodeList, encodeLdQuad, decodeWords, decode0, decode09]

theorem decodeList_encodeLdB (f : LdNarrow 8) : decodeList ext (encodeLdB f) = .ldB f := by
  cases f with
  | store m s => exact decodeList_encodeStoreB ext s m
  | storeImm p d i => cases p <;> simp [decodeList, encodeLdB, decodeWords, decode0, decode09]

theorem decodeList_encodeLdW (f : LdNarrow 16) : decodeList ext (encodeLdW f) = .ldW f := by
  cases f with
  | store m s => exact decodeList_encodeStoreW ext s m
  | storeImm p d i => cases p <;> simp [decodeList, encodeLdW, decodeWords, decode0, decode09]

theorem decodeList_encodeLea (d : Reg) (m : LeaSource) : decodeList ext (encodeLea d m) = .lea d m := by
  cases m with
  | pcRel off => simp [decodeList, encodeLea, decodeWords, decode0, decode00, -BitVec.getLsbD_eq_getElem]
  | off off s => simp [decodeList, encodeLea, decodeWords, decode4, -BitVec.getLsbD_eq_getElem]
  | fpRel off =>
    rcases bitVec2_cases (off.extractLsb' 4 2) with high | high | high | high <;>
      simp [decodeList, encodeLea, decodeWords, decode4, high, -BitVec.reduceAppend] <;> rfl

/-! ### Shifts and transfers -/

/-- The page of the immediate counts; the count's top bit is bit 0 of the second nibble. -/
theorem decodeList_immediateShift (oo : BitVec 2) (n : BitVec 5) (d : BitVec 4) :
    decodeList ext [0b1011#4 ++ 1#1 ++ oo ++ n ++ d] = decodeB ext (0b1011#4 ++ 1#1 ++ oo ++ n ++ d) := by
  simp [decodeList, decodeWords, -BitVec.reduceAppend]

theorem decodeList_encodeShift_uimm5 (d : Reg) (n : BitVec 5) :
    decodeList ext (encodeShift 0 d (.uimm5 n)) = .sra d (.uimm5 n) ∧
    decodeList ext (encodeShift 1 d (.uimm5 n)) = .srl d (.uimm5 n) ∧
    decodeList ext (encodeShift 2 d (.uimm5 n)) = .sll d (.uimm5 n) ∧
    decodeList ext (encodeShift 3 d (.uimm5 n)) = .rl d (.uimm5 n) := by
  simp only [encodeShift, decodeList_immediateShift, decodeB, nib2_shift, nib0_shift, uimm5_shift]
  rcases bitVec1_cases (n.extractLsb' 4 1) with top | top <;> rw [top] <;> exact ⟨rfl, rfl, rfl, rfl⟩

theorem decodeList_encodeShift_reg (d r : Reg) :
    decodeList ext (encodeShift 0 d (.reg r)) = (if ext then .srax d r else .sra d (.reg r)) ∧
    decodeList ext (encodeShift 1 d (.reg r)) = (if ext then .srlx d r else .srl d (.reg r)) ∧
    decodeList ext (encodeShift 2 d (.reg r)) = (if ext then .sllx d r else .sll d (.reg r)) ∧
    decodeList ext (encodeShift 3 d (.reg r)) = .rl d (.reg r) := by
  simp [encodeShift, decodeList, decodeWords, decodeB]

theorem decodeList_encodeJp (t : JumpTarget) : decodeList ext (encodeJp t) = .jp t := by
  cases t <;> simp [decodeList, encodeJp, decodeWords, decodeF, decodeF2]

theorem decodeList_encodeCall (t : JumpTarget) : decodeList ext (encodeCall t) = .call t := by
  cases t <;> simp [decodeList, encodeCall, decodeWords, decodeF, decodeF2]

theorem decodeList_encodeJpCc (cc : Cond) (t : CondTarget) : decodeList ext (encodeJpCc cc t) = .jpCc cc t := by
  cases t <;> simp [decodeList, encodeJpCc, decodeWords, decodeF, decodeF2, Cond.ofBits_bits]
end

/-! ### Every instruction -/

/-- The decoder reads an instruction back from its words. -/
theorem decodeList_encode (i : Instr) (wellFormed : i.wellFormed = true) : decodeList i.isExtended (encode i) = i := by
  cases i with
  | brk | unlink | pushf | popf | atm | noflags | extend | wdt | stop | halt | ei | di | ret | iret | nop | ill => rfl
  | ld f => exact decodeList_encodeLdQuad false f
  | lea d m => exact decodeList_encodeLea false d m
  | ldUB d m => exact decodeList_encodeLoadExt false 0 0 d m
  | ldUW d m => exact decodeList_encodeLoadExt false 0 1 d m
  | ldSB d m => exact decodeList_encodeLoadExt false 1 0 d m
  | ldSW d m => exact decodeList_encodeLoadExt false 1 1 d m
  | ldB f => exact decodeList_encodeLdB false f
  | ldW f => exact decodeList_encodeLdW false f
  | ldCc cc d => simp [decodeList, encode, decodeWords, decode0, Cond.ofBits_bits]
  | pushmlo i | pushmhi i | popmlo i | popmhi i | link i | pushB i | pushW i | push i =>
    simp [decodeList, encode, decodeWords, decode0]
  | extUB d s | extUW d s | extSB d s | extSW d s => simp [decodeList, encode, decodeWords, decode4]
  | ldes d | com d | neg d => simp [decodeList, encode, decodeWords, decode4, decode45]
  | add f => exact decodeList_encodeAddQuad false f
  | adc f => exact decodeList_encodeAddQuad true f
  | cp f => exact decodeList_encodeCpQuad false f
  | cpc f => exact decodeList_encodeCpQuad true f
  | sub f | and f | or f | xor f | tm f | tcm f => exact decodeList_encodeBopQuad false _ f
  | sbc f => exact decodeList_encodeBopQuad true 1 f
  | addUB d m | subUB d m | andUB d m | orUB d m | xorUB d m | cpUB d m | tmUB d m | tcmUB d m =>
    exact decodeList_encodeBopUB false _ d m
  | adcUB d m | sbcUB d m | cpcUB d m => exact decodeList_encodeBopUB true _ d m
  | addSB d m | subSB d m | andSB d m | orSB d m | xorSB d m | cpSB d m | tmSB d m | tcmSB d m =>
    exact decodeList_encodeBopSB false _ d m
  | adcSB d m | sbcSB d m | cpcSB d m => exact decodeList_encodeBopSB true _ d m
  | addUW d m | subUW d m | andUW d m | orUW d m | xorUW d m | cpUW d m | tmUW d m | tcmUW d m =>
    exact decodeList_encodeBopUW false _ d m
  | adcUW d m | sbcUW d m | cpcUW d m => exact decodeList_encodeBopUW true _ d m
  | addSW d m | subSW d m | andSW d m | orSW d m | xorSW d m | cpSW d m | tmSW d m | tcmSW d m =>
    exact decodeList_encodeBopSW false _ d m
  | adcSW d m | sbcSW d m | cpcSW d m => exact decodeList_encodeBopSW true _ d m
  | addB f | subB f | andB f | orB f | xorB f | cpB f | tmB f | tcmB f => exact decodeList_encodeBopB false _ f
  | adcB f | sbcB f | cpcB f => exact decodeList_encodeBopB true _ f
  | addW f | subW f | andW f | orW f | xorW f | cpW f | tmW f | tcmW f => exact decodeList_encodeBopW false _ f
  | adcW f | sbcW f | cpcW f => exact decodeList_encodeBopW true _ f
  | clrB m | clrW m | clr m | cpzB m | cpzW m | cpz m | incB m | incW m | inc m | decB m | decW m | dec m =>
    exact decodeList_encodeUop false _ _ m
  | cpczB m | cpczW m | cpcz m => exact decodeList_encodeUop true _ _ m
  | udiv d s | sdiv d s | udiv64 d s => simp [decodeList, encode, decodeWords, decodeA, Instr.isExtended]
  | umul d s | smul d s | mul d s => simp [decodeList, encode, decodeWords, decodeB]
  | sra d n | srl d n | sll d n | rl d n =>
    cases n with
    | uimm5 n => obtain ⟨sra, srl, sll, rl⟩ := decodeList_encodeShift_uimm5 false d n; assumption
    | reg r => obtain ⟨sra, srl, sll, rl⟩ := decodeList_encodeShift_reg false d r; assumption
  | sllx d s | srax d s | srlx d s => simp [decodeList, encode, decodeWords, decodeB, Instr.isExtended]
  | jp t => exact decodeList_encodeJp false t
  | call t => exact decodeList_encodeCall false t
  | jpCc cc t => exact decodeList_encodeJpCc false cc t
  | jpa i => exact congrArg Instr.jpa (quadOf_quadWords i)
  | calla i => exact congrArg Instr.calla (quadOf_quadWords i)
  | djnz d urel4 => simp [decodeList, encode, decodeWords, decodeF]
  | trap vector => simp [decodeList, encode, decodeWords, decodeF]
  | unimplemented w0 => exact (decodeWords_eq_unimplemented_iff false w0 0 0).2 wellFormed

/-- The bytes of as many words as word 0 asks for, read as words. -/
theorem decodeBytes_words (ext : Bool) (rest : List Byte) :
    ∀ words : List Word, (decodeList ext words).len = 2 * words.length →
      decodeBytes ext (words.flatMap bytesOfWord ++ rest) = .ok (decodeList ext words, rest)
  | [], length => absurd length (by cases ext <;> decide)
  | [w0], length => by
    have two : (lengthOfWord w0).getD 2 = 2 := (decodeWords_len ext w0 0 0).symm.trans length
    simp [decodeBytes, bytesOfWord, two, decodeList]
  | [w0, w1], length => by
    have four : (lengthOfWord w0).getD 2 = 4 := (decodeWords_len ext w0 w1 0).symm.trans length
    simp [decodeBytes, bytesOfWord, four, decodeList]
  | [w0, w1, w2], length => by
    have six : (lengthOfWord w0).getD 2 = 6 := (decodeWords_len ext w0 w1 w2).symm.trans length
    simp [decodeBytes, bytesOfWord, six, decodeList]
  | w0 :: w1 :: w2 :: w3 :: words, length => by
    have byRange : (decodeList ext (w0 :: w1 :: w2 :: w3 :: words)).len = lengthByRange w0.toNat := by
      rw [← lengthOfWord_getD]; exact decodeWords_len ext w0 w1 w2
    have small : lengthByRange w0.toNat ≤ 6 := by unfold lengthByRange; split_ifs <;> omega
    simp only [List.length_cons] at length
    omega

/-- The round trip of O1. -/
theorem decodeBytes_encode (i : Instr) (rest : List Byte) (wellFormed : i.wellFormed = true) :
    decodeBytes i.isExtended ((encode i).flatMap bytesOfWord ++ rest) = .ok (i, rest) := by
  have decoded := decodeList_encode i wellFormed
  have length : (decodeList i.isExtended (encode i)).len = 2 * (encode i).length := by rw [decoded]; rfl
  rw [decodeBytes_words i.isExtended rest (encode i) length, decoded]

end Sys2Proof
end

section
/-! PROOFS. The bits the CPU ignores (30_encoding.md R107): a word that differs from another in them only has the fields
the decoder reads, so it decodes to the same instruction. -/

namespace Sys2Proof.Machine

/-! ### Fields of a word changed in the bits of a mask -/

section
variable (w x : Word) {m : Word} {start len : Nat}

theorem extract_changed (h : m.extractLsb' start len = 0#len) :
    (w ^^^ (x &&& m)).extractLsb' start len = w.extractLsb' start len := by
  rw [BitVec.extractLsb'_xor, BitVec.extractLsb'_and, h, BitVec.and_zero, BitVec.xor_zero]

theorem bit_changed {i : Nat} (h : m.getLsbD i = false) : (w ^^^ (x &&& m)).getLsbD i = w.getLsbD i := by
  rw [BitVec.getLsbD_xor, BitVec.getLsbD_and, h, Bool.and_false, Bool.xor_false]

end

/-- A field that a mask holds whole is known from the masked word. -/
theorem extract_masked {w m v : Word} {start len : Nat} (h : w &&& m = v)
    (whole : m.extractLsb' start len = BitVec.allOnes len) : w.extractLsb' start len = v.extractLsb' start len := by
  rw [← h, BitVec.extractLsb'_and, whole, BitVec.and_allOnes]

theorem bit_masked {w m v : Word} {i : Nat} (h : w &&& m = v) (inMask : m.getLsbD i = true) :
    w.getLsbD i = v.getLsbD i := by
  rw [← h, BitVec.getLsbD_and, inMask, Bool.and_true]

/-- The size selector 1x is Quad whatever its low bit is (40_arithmetic.md R151). -/
theorem uopOf_quad (ext : Bool) {sel : BitVec 2} (o : BitVec 2) (m : UopDest) (h : sel.getLsbD 1 = true) :
    uopOf ext sel o m = uopQuadOf ext o m := by
  rcases bitVec2_cases sel with rfl | rfl | rfl | rfl
  · cases h
  · cases h
  · rfl
  · rfl

theorem nib1_of_upper3 (w : Word) {v : BitVec 3} (h : w.extractLsb' 5 3 = v) : nib1 w = v ++ 0#1 ∨ nib1 w = v ++ 1#1 := by
  have parts : w.extractLsb' 5 3 ++ w.extractLsb' 4 1 = nib1 w :=
    BitVec.extractLsb'_append_extractLsb'_eq_extractLsb' rfl
  rw [← parts, h]
  rcases bitVec1_cases (w.extractLsb' 4 1) with low | low <;> rw [low]
  · exact .inl rfl
  · exact .inr rfl

/-! ### Word 0 -/

section
variable (ext : Bool) {w : Word} (w1 w2 : Word)

theorem decodeWords_ACxx_quad (first : nib3 w = 0xA) (second : nib2 w = 0xC) (quad : w.getLsbD 7 = true) :
    decodeWords ext w w1 w2 = uopQuadOf ext (w.extractLsb' 4 2) (.ind (nib0 w)) := by
  rw [← uopOf_quad ext (sel := w.extractLsb' 6 2) _ _ (by rw [BitVec.getLsbD_extractLsb']; exact quad)]
  simp [decodeWords, decodeA, first, second]

theorem decodeWords_ADAx_quad (first : nib3 w = 0xA) (second : nib2 w = 0xD) (third : nib1 w = 0xA)
    (quad : w.getLsbD 3 = true) : decodeWords ext w w1 w2 = uopQuadOf ext (w.extractLsb' 0 2) (.addr16 w1) := by
  rw [← uopOf_quad ext (sel := w.extractLsb' 2 2) _ _ (by rw [BitVec.getLsbD_extractLsb']; exact quad)]
  simp [decodeWords, decodeA, decodeAD, first, second, third]

theorem decodeWords_ADBx_quad (first : nib3 w = 0xA) (second : nib2 w = 0xD) (third : nib1 w = 0xB)
    (quad : w.getLsbD 3 = true) :
    decodeWords ext w w1 w2 = uopQuadOf ext (w.extractLsb' 0 2) (.addr32 (quadOf w1 w2)) := by
  rw [← uopOf_quad ext (sel := w.extractLsb' 2 2) _ _ (by rw [BitVec.getLsbD_extractLsb']; exact quad)]
  simp [decodeWords, decodeA, decodeAD, first, second, third]

end

/-- The low bit of the size selector 1x of ACxxH and ADAxH, ADBxH. -/
theorem decodeWords_ignored0 (ext : Bool) (w0 w1 w2 x : Word) :
    decodeWords ext (w0 ^^^ (x &&& ignored0 w0)) w1 w2 = decodeWords ext w0 w1 w2 := by
  unfold ignored0
  split
  · next h =>
    have first : nib3 w0 = 0xA := extract_masked h (by decide)
    have second : nib2 w0 = 0xC := extract_masked h (by decide)
    have quad : w0.getLsbD 7 = true := bit_masked h (by decide)
    rw [decodeWords_ACxx_quad ext w1 w2 first second quad,
      decodeWords_ACxx_quad ext w1 w2 ((extract_changed w0 x (by decide)).trans first)
        ((extract_changed w0 x (by decide)).trans second) ((bit_changed w0 x (by decide)).trans quad),
      nib0, nib0, extract_changed w0 x (by decide), extract_changed w0 x (by decide)]
  split
  · next h =>
    have first : nib3 w0 = 0xA := extract_masked h (by decide)
    have second : nib2 w0 = 0xD := extract_masked h (by decide)
    have quad : w0.getLsbD 3 = true := bit_masked h (by decide)
    have first' := (extract_changed w0 x (m := 0x0004) (by decide)).trans first
    have second' := (extract_changed w0 x (m := 0x0004) (by decide)).trans second
    have quad' := (bit_changed w0 x (m := 0x0004) (by decide)).trans quad
    rcases nib1_of_upper3 w0 (extract_masked h (by decide)) with third | third
    · rw [decodeWords_ADAx_quad ext w1 w2 first second third quad,
        decodeWords_ADAx_quad ext w1 w2 first' second' ((extract_changed w0 x (by decide)).trans third) quad',
        extract_changed w0 x (by decide)]
    · rw [decodeWords_ADBx_quad ext w1 w2 first second third quad,
        decodeWords_ADBx_quad ext w1 w2 first' second' ((extract_changed w0 x (by decide)).trans third) quad',
        extract_changed w0 x (by decide)]
  · exact congrArg (decodeWords ext · w1 w2) ((congrArg (w0 ^^^ ·) BitVec.and_zero).trans BitVec.xor_zero)

/-! ### Word 1 -/

section
variable (ext : Bool) {w : Word} (w1 w2 : Word)

theorem decodeWords_002x (first : nib3 w = 0x0) (second : nib2 w = 0x0) (third : nib1 w = 0x2) :
    decodeWords ext w w1 w2 = if w1.getLsbD 15 then .lea (nib0 w) (.pcRel (soff14 w1))
      else .ld (.load (nib0 w) (.pcRel (soff14 w1))) := by
  simp [decodeWords, decode0, decode00, first, second, third]

theorem decodeWords_48xx (first : nib3 w = 0x4) (second : nib2 w = 0x8) :
    decodeWords ext w w1 w2 = if w1.getLsbD 15 then .lea (nib0 w) (.off (soff14 w1) (nib1 w))
      else .ld (.load (nib0 w) (.off (soff14 w1) (nib1 w))) := by
  simp [decodeWords, decode4, first, second]

theorem decodeWords_4Axx (first : nib3 w = 0x4) (second : nib2 w = 0xA) :
    decodeWords ext w w1 w2 = .ld (.store (.off (soff14 w1) (nib0 w)) (nib1 w)) := by
  simp [decodeWords, decode4, first, second]

theorem decodeWords_4Bxx (first : nib3 w = 0x4) (second : nib2 w = 0xB) :
    decodeWords ext w w1 w2 = if w1.getLsbD 14 then .ldW (.store (.off (soff14 w1) (nib0 w)) (nib1 w))
      else .ldB (.store (.off (soff14 w1) (nib0 w)) (nib1 w)) := by
  simp [decodeWords, decode4, first, second]

theorem decodeWords_ADCx (first : nib3 w = 0xA) (second : nib2 w = 0xD) (upper : w.extractLsb' 6 2 = 3#2) :
    decodeWords ext w w1 w2 = uopOf ext (w1.extractLsb' 14 2) (w.extractLsb' 4 2) (.off (soff14 w1) (nib0 w)) := by
  have parts : w.extractLsb' 6 2 ++ w.extractLsb' 4 2 = nib1 w :=
    BitVec.extractLsb'_append_extractLsb'_eq_extractLsb' rfl
  have third : nib1 w = 3#2 ++ w.extractLsb' 4 2 := by rw [← parts, upper]
  rcases bitVec2_cases (w.extractLsb' 4 2) with o | o | o | o <;> rw [o] at third ⊢ <;>
    simp [decodeWords, decodeA, decodeAD, first, second, third]

theorem decodeWords_AD9x (first : nib3 w = 0xA) (second : nib2 w = 0xD) (third : nib1 w = 0x9) :
    decodeWords ext w w1 w2 = bopBOf ext (w1.extractLsb' 8 3) (.indImm (nib0 w) (lowByte w1)) := by
  simp [decodeWords, decodeA, decodeAD, first, second, third]

/-- The stores of an immediate byte, whose word 1 holds it in its low half. -/
theorem decodeWords_09xx_byte (first : nib3 w = 0x0) (second : nib2 w = 0x9)
    (third : nib1 w = 0x4 ∨ nib1 w = 0x5 ∨ nib1 w = 0xC) :
    ∃ p, ∀ w1, decodeWords ext w w1 w2 = .ldB (.storeImm p (nib0 w) (lowByte w1)) := by
  rcases third with third | third | third
  · exact ⟨.preDec, fun w1 => by simp [decodeWords, decode0, decode09, first, second, third]⟩
  · exact ⟨.postInc, fun w1 => by simp [decodeWords, decode0, decode09, first, second, third]⟩
  · exact ⟨.ind, fun w1 => by simp [decodeWords, decode0, decode09, first, second, third]⟩

end

theorem uopOf_ignored (ext : Bool) (w1 x : Word) (quad : w1.getLsbD 15 = true) (o : BitVec 2) (m : UopDest) :
    uopOf ext ((w1 ^^^ (x &&& 0x4000)).extractLsb' 14 2) o m = uopOf ext (w1.extractLsb' 14 2) o m := by
  have quad' : (w1 ^^^ (x &&& 0x4000)).getLsbD 15 = true := (bit_changed w1 x (by decide)).trans quad
  rw [uopOf_quad ext o m (by rw [BitVec.getLsbD_extractLsb']; exact quad'),
    uopOf_quad ext o m (by rw [BitVec.getLsbD_extractLsb']; exact quad)]

theorem decodeWords_ignored1 (ext : Bool) (w0 w1 w2 x : Word) :
    decodeWords ext w0 (w1 ^^^ (x &&& ignored1 w0 w1)) w2 = decodeWords ext w0 w1 w2 := by
  unfold ignored1
  split
  · next h =>
    have bit15 := bit_changed w1 x (m := 0x4000) (i := 15) (by decide)
    have offset : soff14 (w1 ^^^ (x &&& 0x4000)) = soff14 w1 := extract_changed w1 x (by decide)
    rcases h with h | h
    · simp only [decodeWords_002x ext _ w2 (extract_masked h (by decide)) (extract_masked h (by decide))
        (extract_masked h (by decide)), bit15, offset]
    · simp only [decodeWords_48xx ext _ w2 (extract_masked h (by decide)) (extract_masked h (by decide)), bit15, offset]
  split
  · next h =>
    have offset : soff14 (w1 ^^^ (x &&& 0xC000)) = soff14 w1 := extract_changed w1 x (by decide)
    simp only [decodeWords_4Axx ext _ w2 (extract_masked h (by decide)) (extract_masked h (by decide)), offset]
  split
  · next h =>
    have bit14 := bit_changed w1 x (m := 0x8000) (i := 14) (by decide)
    have offset : soff14 (w1 ^^^ (x &&& 0x8000)) = soff14 w1 := extract_changed w1 x (by decide)
    simp only [decodeWords_4Bxx ext _ w2 (extract_masked h (by decide)) (extract_masked h (by decide)), bit14, offset]
  split
  · next h =>
    split
    · next quad =>
      have offset : soff14 (w1 ^^^ (x &&& 0x4000)) = soff14 w1 := extract_changed w1 x (by decide)
      simp only [decodeWords_ADCx ext _ w2 (extract_masked h (by decide)) (extract_masked h (by decide))
        (extract_masked h (by decide)), offset, uopOf_ignored ext w1 x quad]
    · exact congrArg (decodeWords ext w0 · w2) ((congrArg (w1 ^^^ ·) BitVec.and_zero).trans BitVec.xor_zero)
  split
  · next h =>
    have low : lowByte (w1 ^^^ (x &&& 0xFF00)) = lowByte w1 := extract_changed w1 x (by decide)
    have page : nib3 w0 = 0x0 ∧ nib2 w0 = 0x9 ∧ (nib1 w0 = 0x4 ∨ nib1 w0 = 0x5 ∨ nib1 w0 = 0xC) := by
      rcases h with h | h
      · refine ⟨extract_masked h (by decide), extract_masked h (by decide), ?_⟩
        rcases nib1_of_upper3 w0 (extract_masked h (by decide)) with third | third
        · exact .inl third
        · exact .inr (.inl third)
      · exact ⟨extract_masked h (by decide), extract_masked h (by decide),
          .inr (.inr (extract_masked h (by decide)))⟩
    obtain ⟨first, second, third⟩ := page
    obtain ⟨p, decoded⟩ := decodeWords_09xx_byte ext w2 first second third
    rw [decoded, decoded, low]
  split
  · next h =>
    have low : lowByte (w1 ^^^ (x &&& 0xF800)) = lowByte w1 := extract_changed w1 x (by decide)
    have operation := extract_changed w1 x (m := 0xF800) (start := 8) (len := 3) (by decide)
    simp only [decodeWords_AD9x ext _ w2 (extract_masked h (by decide)) (extract_masked h (by decide))
      (extract_masked h (by decide)), low, operation]
  · exact congrArg (decodeWords ext w0 · w2) ((congrArg (w1 ^^^ ·) BitVec.and_zero).trans BitVec.xor_zero)

/-! ### JPA and CALLA -/

/-- Bit 0 of the last word does not count: the target is even. -/
theorem evenAddress_changed (w1 w2 x : Word) :
    evenAddress (quadOf w1 (w2 ^^^ (x &&& 1))) = evenAddress (quadOf w1 w2) := by
  have even (w : Word) : evenAddress (quadOf w1 w) = quadOf w1 (w &&& 0xFFFE) := by
    have mask : (0xFFFFFFFE : Quad) = BitVec.allOnes 16 ++ 0xFFFE#16 := rfl
    rw [evenAddress, quadOf, quadOf, mask]
    exact BitVec.and_append.trans (congrArg (· ++ (w &&& 0xFFFE#16)) BitVec.and_allOnes)
  have same : (w2 ^^^ (x &&& 1)) &&& 0xFFFE = w2 &&& 0xFFFE := by
    apply BitVec.eq_of_getLsbD_eq
    intro i _
    have disjoint : ((1 : Word).getLsbD i && (0xFFFE : Word).getLsbD i) = false := by
      rw [← BitVec.getLsbD_and]; exact BitVec.getLsbD_zero
    simp only [BitVec.getLsbD_and, BitVec.getLsbD_xor]
    revert disjoint
    cases (1 : Word).getLsbD i <;> cases (0xFFFE : Word).getLsbD i <;> simp
  rw [even, even, same]

/-- Settles O1: `decodeBytes_encode`, the ignored bits of words 0 and 1, and of the last word of JPA and CALLA. -/
theorem encodedBytesDecodeBack : Obligations.EncodedBytesDecodeBack := by
  refine ⟨decodeBytes_encode, fun ext w0 w1 w2 x0 x1 => ?_, fun ext w0 w1 w2 x2 s at_jpa => ?_⟩
  · rw [decodeWords_ignored0, decodeWords_ignored1]
  · rcases at_jpa with rfl | rfl
    · calc exec (decodeWords ext 0xF230 w1 (w2 ^^^ (x2 &&& 1))) s
        _ = .next (jump (evenAddress (quadOf w1 (w2 ^^^ (x2 &&& 1)))) s) := rfl
        _ = .next (jump (evenAddress (quadOf w1 w2)) s) := by rw [evenAddress_changed]
    · calc exec (decodeWords ext 0xF231 w1 (w2 ^^^ (x2 &&& 1))) s
        _ = callTo (evenAddress (quadOf w1 (w2 ^^^ (x2 &&& 1)))) 6 s := rfl
        _ = callTo (evenAddress (quadOf w1 w2)) 6 s := by rw [evenAddress_changed]

end Sys2Proof.Machine
end

section
/-! PROOFS. Loads and stores byte by byte (20_memory.md R61, R66 to R71, R90): their order, what they leave alone, and
which accesses complete. -/

namespace Sys2Proof.Machine

/-! ### A datum is its bytes -/

theorem readMem_word_iff (s : State) (a : Quad) (v : Word) : readMem .word s a = .next v ↔
    ∃ b0 b1, readByte s a = .next b0 ∧ readByte s (a + 1) = .next b1 ∧ v = b0 ++ b1 := by
  simp only [readMem, andThen_eq_next, Host.Outcome.next.injEq]
  constructor
  · rintro ⟨b0, h0, b1, h1, rfl⟩; exact ⟨b0, b1, h0, h1, rfl⟩
  · rintro ⟨b0, b1, h0, h1, rfl⟩; exact ⟨b0, h0, b1, h1, rfl⟩

theorem readMem_quad_iff (s : State) (a : Quad) (v : Quad) : readMem .quad s a = .next v ↔
    ∃ b0 b1 b2 b3, readByte s a = .next b0 ∧ readByte s (a + 1) = .next b1 ∧ readByte s (a + 2) = .next b2 ∧
      readByte s (a + 3) = .next b3 ∧ v = b0 ++ b1 ++ b2 ++ b3 := by
  simp only [readMem, andThen_eq_next, Host.Outcome.next.injEq]
  constructor
  · rintro ⟨b0, h0, b1, h1, b2, h2, b3, h3, rfl⟩; exact ⟨b0, b1, b2, b3, h0, h1, h2, h3, rfl⟩
  · rintro ⟨b0, b1, b2, b3, h0, h1, h2, h3, rfl⟩; exact ⟨b0, h0, b1, h1, b2, h2, b3, h3, rfl⟩

theorem writeMem_word_iff (s t : State) (a : Quad) (v : Word) : writeMem .word s a v = .next t ↔
    ∃ s1, writeByte s a (v.extractLsb' 8 8) = .next s1 ∧ writeByte s1 (a + 1) (v.extractLsb' 0 8) = .next t := by
  simp only [writeMem, andThen_eq_next]

theorem writeMem_quad_iff (s t : State) (a : Quad) (v : Quad) : writeMem .quad s a v = .next t ↔
    ∃ s1 s2 s3, writeByte s a (v.extractLsb' 24 8) = .next s1 ∧ writeByte s1 (a + 1) (v.extractLsb' 16 8) = .next s2 ∧
      writeByte s2 (a + 2) (v.extractLsb' 8 8) = .next s3 ∧ writeByte s3 (a + 3) (v.extractLsb' 0 8) = .next t := by
  simp only [writeMem, andThen_eq_next]
  constructor
  · rintro ⟨s1, h1, s2, h2, s3, h3, h4⟩; exact ⟨s1, s2, s3, h1, h2, h3, h4⟩
  · rintro ⟨s1, s2, s3, h1, h2, h3, h4⟩; exact ⟨s1, h1, s2, h2, s3, h3, h4⟩

/-- Each byte of a quad stored to RAM reads back, the most significant first. -/
theorem readByte_stored_quad {s t : State} {a : Quad} {v : Quad} (wf : Memory.wf (blankByte s.cfg) s.mem = true)
    (ram : InRam 4 s a) (stored : writeMem .quad s a v = .next t) {k : Nat} (hk : k < 4) :
    readByte t (offsetBy a k) = .next (v.extractLsb' (8 * (3 - k)) 8) := by
  have cfg := (writeMem_frame stored).cfg
  have memory : memoryByte t (offsetBy a k) = true := by rw [memoryByte_congr cfg]; exact ram.memory k hk
  rw [readByte_memory memory, cfg, writeMem_ram_bytes (sz := .quad) ram wf stored k hk]
  rfl

/-- Adjacent bytes of a quad make a word. -/
theorem extract_bytes_word (v : Quad) (i : Nat) : v.extractLsb' (i + 8) 8 ++ v.extractLsb' i 8 = v.extractLsb' i 16 :=
  BitVec.extractLsb'_append_extractLsb'_eq_extractLsb' rfl

/-- Settles O8: the byte order of loads and stores, and a datum in RAM reads back whole and in part. -/
theorem storedDataReadsBack : Obligations.StoredDataReadsBack := by
  refine ⟨fun s a => ⟨rfl, readMem_word_iff s a, readMem_quad_iff s a, readByte_memory⟩,
    fun s t a => ⟨fun _ => rfl, writeMem_word_iff s t a, writeMem_quad_iff s t a⟩, fun sz s a v wf ram => ?_,
    fun s t a v wf ram stored => ?_⟩
  · obtain ⟨t, stored⟩ := writeMem_next v ram.writable
    have frame := writeMem_ramFrame ram stored
    refine ⟨t, stored, ?_, ⟨frame.pcov, frame.spov, frame.dmabw⟩, frame.flags, frame.sysexcp⟩
    rw [readMem_memory (ram.memory.congr frame.cfg), writeMem_ram_dataAt ram wf stored]
  · have b0 := readByte_stored_quad wf ram stored (k := 0) (by decide)
    rw [offsetBy_zero] at b0
    have b1 : readByte t (a + 1) = _ := readByte_stored_quad wf ram stored (k := 1) (by decide)
    have b2 : readByte t (a + 2) = _ := readByte_stored_quad wf ram stored (k := 2) (by decide)
    have b3 : readByte t (a + 3) = _ := readByte_stored_quad wf ram stored (k := 3) (by decide)
    have next1 : a + 1 + 1 = a + 2 := offsetBy_offsetBy a 1 1
    have next2 : a + 2 + 1 = a + 3 := offsetBy_offsetBy a 2 1
    refine ⟨b0, b1, b2, b3, ?_, ?_, ?_⟩ <;> rw [readMem_word_iff]
    · exact ⟨_, _, b0, b1, (extract_bytes_word v 16).symm⟩
    · rw [next1]; exact ⟨_, _, b1, b2, (extract_bytes_word v 8).symm⟩
    · rw [next2]; exact ⟨_, _, b2, b3, (extract_bytes_word v 0).symm⟩

/-! ### What a store leaves alone -/

/-- `writeMem_induct` with the number of bytes stored so far. -/
theorem writeMem_count {sz : Size} {s t : State} {a : Quad} {v : BitVec sz.bits} (P : Nat → State → Prop)
    (h : writeMem sz s a v = .next t) (h0 : P 0 s)
    (hstep : ∀ k < sz.bytes, ∀ (b : Byte) (m m' : State), StoreFrame s m → P k m →
      writeByte m (offsetBy a k) b = .next m' → P (k + 1) m') : P sz.bytes t := by
  cases sz with
  | byte => exact hstep 0 (by decide) v s t (.refl s) h0 (by rw [offsetBy_zero]; exact h)
  | word =>
    obtain ⟨m1, h1, h2⟩ := (writeMem_word_iff s t a v).1 h
    have p1 := hstep 0 (by decide) _ s m1 (.refl s) h0 (by rw [offsetBy_zero]; exact h1)
    exact hstep 1 (by decide) _ m1 t (writeByte_frame h1) p1 h2
  | quad =>
    obtain ⟨m1, m2, m3, h1, h2, h3, h4⟩ := (writeMem_quad_iff s t a v).1 h
    have f1 := writeByte_frame h1
    have f2 := f1.trans (writeByte_frame h2)
    have f3 := f2.trans (writeByte_frame h3)
    have p1 := hstep 0 (by decide) _ s m1 (.refl s) h0 (by rw [offsetBy_zero]; exact h1)
    have p2 := hstep 1 (by decide) _ m1 m2 f1 p1 h2
    have p3 := hstep 2 (by decide) _ m2 m3 f2 p2 h3
    exact hstep 3 (by decide) _ m3 t f3 p3 h4

/-- A byte store forgets no address, and records its own or none. -/
theorem mem_written_writeByte {s t : State} {a : Quad} {b : Byte} (h : writeByte s a b = .next t) :
    (∀ p ∈ s.written, p ∈ t.written) ∧ (∀ p ∈ t.written, p ∈ s.written ∨ p = phys s.cfg a) ∧
      (ramByte s a = true → phys s.cfg a ∈ t.written) := by
  by_cases ram : ramByte s a = true
  · rw [writeByte_ram b ram] at h
    cases h
    refine ⟨fun p hp => mem_insertAddress.2 (.inr hp), fun p hp => (mem_insertAddress.1 hp).symm, fun _ => ?_⟩
    exact mem_insertAddress.2 (.inl rfl)
  · have same : t.written = s.written := by
      rcases writeByte_cases h with h | ⟨_, h⟩ | ⟨_, h⟩ | h | h | ⟨_, h⟩ | ⟨d, h⟩ | h
      case inl => exact absurd (by rw [ramByte, h.1]) ram
      case inr.inr.inr.inr.inr.inr.inl => rw [h.2, deviceStore_only d b s]
      all_goals rw [h.2]
    rw [same]
    exact ⟨fun p hp => hp, fun p hp => .inl hp, fun h => absurd h ram⟩

/-- A byte store tells the environment of itself where it is a peripheral's, and of nothing elsewhere. -/
theorem events_writeByte {s t : State} {a : Quad} {b : Byte} (h : writeByte s a b = .next t) :
    (∃ d, locate s.cfg (phys s.cfg a) = .device d ∧ t.events = .deviceWrite d.addr b :: s.events) ∨
      (∀ d, locate s.cfg (phys s.cfg a) ≠ .device d) ∧ t.events = s.events ∧ t.ioRegs = s.ioRegs := by
  rcases writeByte_cases h with h | ⟨_, h⟩ | ⟨_, h⟩ | h | h | ⟨_, h⟩ | ⟨d, h⟩ | h
  case inr.inr.inr.inr.inr.inr.inl => exact .inl ⟨d, h.1, by rw [h.2]; exact deviceStore_events d b s⟩
  case inr.inr.inr.inr.inr.inr.inr =>
    refine .inr ⟨fun d hd => ?_, by rw [h.2], by rw [h.2]⟩
    rw [hd] at h
    rcases h.1 with h | h <;> cases h
  all_goals
    obtain ⟨located, rfl⟩ := h
    refine .inr ⟨fun d hd => ?_, rfl, rfl⟩
    rw [located] at hd
    cases hd

theorem writeMem_forgets_none {sz : Size} {s t : State} {a : Quad} {v : BitVec sz.bits}
    (h : writeMem sz s a v = .next t) : ∀ p ∈ s.written, p ∈ t.written :=
  writeMem_induct (fun m => ∀ p ∈ s.written, p ∈ m.written) h (fun _ hp => hp)
    fun _ _ _ _ _ _ ih stored p hp => (mem_written_writeByte stored).1 p (ih p hp)

theorem writeMem_records_its_own {sz : Size} {s t : State} {a : Quad} {v : BitVec sz.bits}
    (h : writeMem sz s a v = .next t) :
    ∀ p ∈ t.written, p ∈ s.written ∨ ∃ k < sz.bytes, p = phys s.cfg (offsetBy a k) := by
  refine writeMem_induct (fun m => ∀ p ∈ m.written, p ∈ s.written ∨ ∃ k < sz.bytes, p = phys s.cfg (offsetBy a k)) h
    (fun _ hp => .inl hp) fun k hk b m m' frame ih stored p hp => ?_
  rcases (mem_written_writeByte stored).2.1 p hp with old | own
  · exact ih p old
  · exact .inr ⟨k, hk, by rw [own, frame.cfg]⟩

theorem writeMem_records_ram {sz : Size} {s t : State} {a : Quad} {v : BitVec sz.bits}
    (h : writeMem sz s a v = .next t) :
    ∀ k < sz.bytes, ramByte s (offsetBy a k) = true → phys s.cfg (offsetBy a k) ∈ t.written := by
  refine writeMem_count
    (fun n m => ∀ k < n, ramByte s (offsetBy a k) = true → phys s.cfg (offsetBy a k) ∈ m.written) h
    (fun k hk => absurd hk (by omega)) fun n hn b m m' frame ih stored k hk ram => ?_
  obtain ⟨kept, _, own⟩ := mem_written_writeByte stored
  by_cases before : k < n
  · exact kept _ (ih k before ram)
  · obtain rfl : k = n := by omega
    rw [← frame.cfg]
    exact own (by rw [ramByte_congr frame.cfg]; exact ram)

/-- What a store tells the environment: one report for each byte that is a peripheral's. -/
theorem writeMem_events {sz : Size} {s t : State} {a : Quad} {v : BitVec sz.bits} (h : writeMem sz s a v = .next t) :
    ∃ told, t.events = told ++ s.events ∧ told.length ≤ sz.bytes ∧
      ∀ e ∈ told, ∃ k < sz.bytes, ∃ d b, locate s.cfg (phys s.cfg (offsetBy a k)) = .device d ∧
        e = .deviceWrite d.addr b := by
  refine writeMem_count (fun n m => ∃ told, m.events = told ++ s.events ∧ told.length ≤ n ∧
    ∀ e ∈ told, ∃ k < sz.bytes, ∃ d b, locate s.cfg (phys s.cfg (offsetBy a k)) = .device d ∧
      e = .deviceWrite d.addr b) h ⟨[], rfl, Nat.le_refl 0, nofun⟩ ?_
  rintro n hn b m m' frame ⟨told, events, length, each⟩ stored
  rcases events_writeByte stored with ⟨d, device, new⟩ | ⟨_, same, _⟩
  · refine ⟨.deviceWrite d.addr b :: told, by rw [new, events]; rfl, Nat.succ_le_succ length, fun e he => ?_⟩
    rcases List.mem_cons.1 he with rfl | he
    · exact ⟨n, hn, d, b, by rw [← frame.cfg]; exact device, rfl⟩
    · exact each e he
  · exact ⟨told, by rw [same, events], Nat.le_succ_of_le length, each⟩

theorem writeMem_noPeripheral {sz : Size} {s t : State} {a : Quad} {v : BitVec sz.bits}
    (h : writeMem sz s a v = .next t) (none : NoPeripheral sz.bytes s a) :
    t.events = s.events ∧ t.ioRegs = s.ioRegs := by
  refine writeMem_induct (fun m => m.events = s.events ∧ m.ioRegs = s.ioRegs) h ⟨rfl, rfl⟩
    fun k hk b m m' frame ih stored => ?_
  rcases events_writeByte stored with ⟨d, device, _⟩ | ⟨_, events, ioRegs⟩
  · rw [frame.cfg] at device
    exact absurd device (none k hk d)
  · exact ⟨events.trans ih.1, ioRegs.trans ih.2⟩

/-! ### What a load leaves alone -/

theorem noteRead_noPeripheral {s : State} {a : Quad} (none : ∀ d, locate s.cfg (phys s.cfg a) ≠ .device d) :
    noteRead a s = s := by
  unfold noteRead
  split
  · next d device => exact absurd device (none d)
  · rfl

theorem noteReads_noPeripheral {sz : Size} {s : State} {a : Quad} (none : NoPeripheral sz.bytes s a) :
    noteReads sz a s = s := by
  have each {k : Nat} (hk : k < sz.bytes) : noteRead (offsetBy a k) s = s := noteRead_noPeripheral (none k hk)
  cases sz with
  | byte => exact offsetBy_zero a ▸ each (k := 0) (by decide)
  | word =>
    have h0 := offsetBy_zero a ▸ each (k := 0) (by decide)
    have h1 : noteRead (a + 1) s = s := each (k := 1) (by decide)
    rw [noteReads, h0, h1]
  | quad =>
    have h0 := offsetBy_zero a ▸ each (k := 0) (by decide)
    have h1 : noteRead (a + 1) s = s := each (k := 1) (by decide)
    have h2 : noteRead (a + 2) s = s := each (k := 2) (by decide)
    have h3 : noteRead (a + 3) s = s := each (k := 3) (by decide)
    rw [noteReads, h0, h1, h2, h3]

/-- Settles O9. -/
theorem storesLeaveTheRestAlone : Obligations.StoresLeaveTheRestAlone := by
  refine ⟨fun sz s t a v stored => ?_, fun sz s a => ⟨noteReads_only sz a s, noteReads_noPeripheral⟩⟩
  have frame := writeMem_frame stored
  exact ⟨writeMem_byteAt stored, fun r _ => readReg_congr frame.regs r, frame.pc, frame.pendingExc,
    ⟨frame.extendPending, frame.noflagsPending, frame.atmCount⟩,
    ⟨frame.runState, frame.wdtEnabled, frame.irq, frame.cfg, frame.env, frame.freeCtr, frame.heldExc⟩,
    writeMem_noPeripheral stored, writeMem_events stored, writeMem_records_its_own stored,
    writeMem_forgets_none stored, writeMem_records_ram stored⟩

/-! ### Address width -/

/-- Two addresses from which all bytes of a datum are the same locations. -/
def SamePlace (c : Config) (a b : Quad) : Prop := ∀ k, phys c (offsetBy a k) = phys c (offsetBy b k)

theorem samePlace_of_bits24 {c : Config} {a b : Quad} (width : c.addrBits = .bits24)
    (same : a.extractLsb' 0 24 = b.extractLsb' 0 24) : SamePlace c a b := by
  intro k
  have low : a.toNat % 2 ^ 24 = b.toNat % 2 ^ 24 := by
    simpa only [BitVec.extractLsb'_toNat, Nat.shiftRight_zero] using congrArg BitVec.toNat same
  simp only [phys, width, offsetBy, BitVec.toNat_add, BitVec.toNat_ofNat]
  omega

theorem SamePlace.first {c : Config} {a b : Quad} (h : SamePlace c a b) : phys c a = phys c b := by
  have := h 0
  rwa [offsetBy_zero, offsetBy_zero] at this

theorem SamePlace.shift {c : Config} {a b : Quad} (h : SamePlace c a b) (k : Nat) :
    SamePlace c (offsetBy a k) (offsetBy b k) := by
  intro j
  rw [offsetBy_offsetBy, offsetBy_offsetBy]
  exact h (k + j)

section
variable {s : State} {a b : Quad}

theorem readByte_samePlace (h : SamePlace s.cfg a b) : readByte s a = readByte s b := by
  unfold readByte; rw [h.first]
theorem writeByte_samePlace (h : SamePlace s.cfg a b) (x : Byte) : writeByte s a x = writeByte s b x := by
  unfold writeByte; rw [h.first]
theorem noteRead_samePlace (h : SamePlace s.cfg a b) : noteRead a s = noteRead b s := by
  unfold noteRead; rw [h.first]
theorem fetchByte_samePlace (h : SamePlace s.cfg a b) : fetchByte s a = fetchByte s b := by
  unfold fetchByte; rw [h.first]

theorem readMem_samePlace (sz : Size) (h : SamePlace s.cfg a b) : readMem sz s a = readMem sz s b := by
  have h0 := readByte_samePlace h
  have h1 : readByte s (a + 1) = readByte s (b + 1) := readByte_samePlace (h.shift 1)
  have h2 : readByte s (a + 2) = readByte s (b + 2) := readByte_samePlace (h.shift 2)
  have h3 : readByte s (a + 3) = readByte s (b + 3) := readByte_samePlace (h.shift 3)
  cases sz <;> simp only [readMem, h0, h1, h2, h3]

theorem noteReads_samePlace (sz : Size) (h : SamePlace s.cfg a b) : noteReads sz a s = noteReads sz b s := by
  have each (t : State) (ht : t.cfg = s.cfg) (k : Nat) : noteRead (offsetBy a k) t = noteRead (offsetBy b k) t :=
    noteRead_samePlace (by rw [ht]; exact h.shift k)
  have h0 := noteRead_samePlace h
  have h1 : noteRead (a + 1) (noteRead b s) = noteRead (b + 1) (noteRead b s) := each _ (noteRead_cfg _ _) 1
  have h2 : noteRead (a + 2) (noteRead (b + 1) (noteRead b s)) = noteRead (b + 2) (noteRead (b + 1) (noteRead b s)) :=
    each _ (by rw [noteRead_cfg, noteRead_cfg]) 2
  cases sz with
  | byte => exact h0
  | word => rw [noteReads, noteReads, h0, h1]
  | quad =>
    rw [noteReads, noteReads, h0, h1, h2]
    exact each _ (by rw [noteRead_cfg, noteRead_cfg, noteRead_cfg]) 3

/-- Chains with the same first operation agree when they agree after it. -/
theorem andThen_congr {α β : Type} {r : Res α} {f g : α → Res β} (h : ∀ x, r = .next x → f x = g x) :
    andThen r f = andThen r g := by
  cases r with
  | next x => exact h x rfl
  | fault e => rfl
  | refused e => rfl

theorem writeMem_samePlace (sz : Size) (h : SamePlace s.cfg a b) (v : BitVec sz.bits) :
    writeMem sz s a v = writeMem sz s b v := by
  have each (t : State) (frame : StoreFrame s t) (k : Nat) (x : Byte) :
      writeByte t (offsetBy a k) x = writeByte t (offsetBy b k) x :=
    writeByte_samePlace (by rw [frame.cfg]; exact h.shift k) x
  cases sz with
  | byte => exact writeByte_samePlace h v
  | word =>
    rw [writeMem, writeMem, writeByte_samePlace h]
    exact andThen_congr fun s1 h1 => each s1 (writeByte_frame h1) 1 _
  | quad =>
    rw [writeMem, writeMem, writeByte_samePlace h]
    refine andThen_congr fun s1 h1 => ?_
    have f1 := writeByte_frame h1
    rw [show writeByte s1 (a + 1) _ = _ from each s1 f1 1 _]
    refine andThen_congr fun s2 h2 => ?_
    have f2 := f1.trans (writeByte_frame h2)
    rw [show writeByte s2 (a + 2) _ = _ from each s2 f2 2 _]
    exact andThen_congr fun s3 h3 => each s3 (f2.trans (writeByte_frame h3)) 3 _

theorem fetchWord_samePlace (h : SamePlace s.cfg a b) : fetchWord s a = fetchWord s b := by
  have h1 : fetchByte s (a + 1) = fetchByte s (b + 1) := fetchByte_samePlace (h.shift 1)
  rw [fetchWord, fetchWord, fetchByte_samePlace h, h1]

end

/-- Settles O10: with 24 address bits the two addresses name the same bytes. -/
theorem highAddressBitsAreIgnored : Obligations.HighAddressBitsAreIgnored := by
  intro sz s a b v width same
  have place := samePlace_of_bits24 width same
  exact ⟨readMem_samePlace sz place, noteReads_samePlace sz place, writeMem_samePlace sz place v,
    fetchWord_samePlace place⟩

/-! ### Which accesses complete -/

theorem writableByte_io {s : State} {a : Quad} (h : (locate s.cfg (phys s.cfg a)).isIo = true) :
    writableByte s a = true := by
  unfold writableByte
  cases hl : locate s.cfg (phys s.cfg a) with
  | absent | nvm => rw [hl] at h; cases h
  | _ => rfl

/-- What stops the first byte stops the datum. -/
theorem writeMem_refused {sz : Size} {s : State} {a : Quad} {e : Refusal} (h : ∀ x, writeByte s a x = .refused e)
    (v : BitVec sz.bits) : writeMem sz s a v = .refused e := by
  cases sz with
  | byte => exact h v
  | word | quad => rw [writeMem, h]; rfl

theorem writeMem_fault {sz : Size} {s : State} {a : Quad} {e : Fault} (h : ∀ x, writeByte s a x = .fault e)
    (v : BitVec sz.bits) : writeMem sz s a v = .fault e := by
  cases sz with
  | byte => exact h v
  | word | quad => rw [writeMem, h]; rfl

theorem readMem_fault {sz : Size} {s : State} {a : Quad} {e : Fault} (h : readByte s a = .fault e) :
    readMem sz s a = .fault e := by
  cases sz with
  | byte => exact h
  | word | quad => rw [readMem, h]; rfl

/-- Between two I/O addresses of one datum all are I/O. -/
theorem isIo_between {s : State} {a : Quad} {n : Nat} (hn : n < 4) (first : ioBase s.cfg ≤ phys s.cfg a)
    (last : ioBase s.cfg ≤ phys s.cfg (offsetBy a n)) {k : Nat} (hk : k ≤ n) :
    (locate s.cfg (phys s.cfg (offsetBy a k))).isIo = true := by
  have between : ioBase s.cfg ≤ phys s.cfg (offsetBy a k) := by
    have below := a.isLt
    unfold phys ioBase offsetBy at *
    cases width : s.cfg.addrBits <;>
      simp only [width, BitVec.toNat_add, BitVec.toNat_ofNat] at first last ⊢ <;> omega
  rw [locate_io between]
  exact locateIo_isIo _ _ _

/-- Settles O12: the first byte's location stops an access; any other completes. -/
theorem accessesWithoutMeaningStop : Obligations.AccessesWithoutMeaningStop := by
  intro sz s a v
  refine ⟨fun below nvm => ?_, fun below unavailable => ⟨?_, ?_⟩, readMem_next, writeMem_next v, fun first last => ?_⟩
  · exact writeMem_refused (fun x => by simp only [writeByte, locate_nvm below nvm]) v
  · exact readMem_fault (by simp only [readByte, locate_unavailable below unavailable])
  · exact writeMem_fault (fun x => by simp only [writeByte, locate_unavailable below unavailable]) v
  · have io {k : Nat} (hk : k < sz.bytes) : (locate s.cfg (phys s.cfg (offsetBy a k))).isIo = true :=
      isIo_between (by cases sz <;> decide) first last (by omega)
    exact ⟨fun k hk => readableByte_io (io hk), fun k hk => writableByte_io (io hk)⟩

end Sys2Proof.Machine
end

section
/-! PROOFS. I/O memory: the CPU control registers, SYSEXCP and configured peripherals at their addresses (10_state.md R35 to
R41, 20_memory.md R67, 60_exceptions.md R434). -/

namespace Sys2Proof.Machine

/-! ### The control registers' addresses -/

/-- The address j bytes above FFFF_E000H is the I/O location at offset j, with 24 or 32 address bits. -/
theorem locate_control (c : Config) {j : Nat} (hj : j < 0x2000) :
    locate c (phys c (offsetBy 0xFFFFE000 j)) = locateIo c (ioBase c + j) j := by
  have base : phys c 0xFFFFE000 = ioBase c + 0 := by
    unfold phys ioBase
    cases c.addrBits <;> rfl
  rw [phys_offsetBy_io base (by omega), Nat.zero_add, locate_ioBase_add]

theorem locate_pcov (c : Config) (k : Fin 4) : locate c (phys c (offsetBy 0xFFFFE004 k)) = .pcov k := by
  have address : offsetBy 0xFFFFE004 k = offsetBy 0xFFFFE000 (4 + k) := offsetBy_offsetBy 0xFFFFE000 4 k
  rw [address, locate_control c (by omega)]
  match k with
  | 0 | 1 | 2 | 3 => rfl

theorem locate_spov (c : Config) (k : Fin 4) : locate c (phys c (offsetBy 0xFFFFE00C k)) = .spov k := by
  have address : offsetBy 0xFFFFE00C k = offsetBy 0xFFFFE000 (12 + k) := offsetBy_offsetBy 0xFFFFE000 12 k
  rw [address, locate_control c (by omega)]
  match k with
  | 0 | 1 | 2 | 3 => rfl

theorem locate_flags (c : Config) : locate c (phys c 0xFFFFE010) = .flags := locate_control c (j := 0x10) (by decide)

theorem locate_cpuctl (c : Config) : locate c (phys c 0xFFFFE012) = .cpuctl := locate_control c (j := 0x12) (by decide)

section
variable (s : State) (b : Byte)

theorem readByte_pcov (k : Fin 4) : readByte s (offsetBy 0xFFFFE004 k) = .next (byteOfQuad s.pcov k) := by
  simp only [readByte, locate_pcov]

theorem writeByte_pcov (k : Fin 4) :
    writeByte s (offsetBy 0xFFFFE004 k) b = .next { s with pcov := setByteOfQuad s.pcov k b } := by
  simp only [writeByte, locate_pcov]

theorem readByte_spov (k : Fin 4) : readByte s (offsetBy 0xFFFFE00C k) = .next (byteOfQuad s.spov k) := by
  simp only [readByte, locate_spov]

theorem writeByte_spov (k : Fin 4) :
    writeByte s (offsetBy 0xFFFFE00C k) b = .next { s with spov := setByteOfQuad s.spov k b } := by
  simp only [writeByte, locate_spov]

theorem writeByte_flags : writeByte s 0xFFFFE010 b = .next { s with flags := b } := by
  simp only [writeByte, locate_flags]

theorem writeByte_cpuctl : writeByte s 0xFFFFE012 b = .next { s with dmabw := b.extractLsb' 0 2 } := by
  simp only [writeByte, locate_cpuctl]

/-- A reserved byte reads as some value and ignores a write. -/
theorem reserved_byte {a : Quad} (h : locate s.cfg (phys s.cfg a) = .reserved) :
    (∃ v, readByte s a = .next v) ∧ writeByte s a b = .next s := by
  simp only [readByte, writeByte, h]
  exact ⟨⟨_, rfl⟩, trivial⟩

end

/-! ### Stores to part of a register -/

/-- The bytes of a register read in order make it. -/
theorem bytesOfQuad (q : Quad) : byteOfQuad q 0 ++ byteOfQuad q 1 ++ byteOfQuad q 2 ++ byteOfQuad q 3 = q :=
  joinBytes_quad q

/-- All four bytes replaced in order. -/
theorem setBytesOfQuad (q v : Quad) :
    setByteOfQuad (setByteOfQuad (setByteOfQuad (setByteOfQuad q 0 (v.extractLsb' 24 8)) 1 (v.extractLsb' 16 8)) 2
      (v.extractLsb' 8 8)) 3 (v.extractLsb' 0 8) = v := by
  simp only [setByteOfQuad, BitVec.extractLsb'_append_eq_left]
  exact joinBytes_quad v

/-- The upper two bytes replaced in order. -/
theorem setBytesOfQuad_upper (q : Quad) (v : Word) :
    setByteOfQuad (setByteOfQuad q 0 (v.extractLsb' 8 8)) 1 (v.extractLsb' 0 8) = v ++ q.extractLsb' 0 16 := by
  have rest (x : BitVec 8) : (x ++ q.extractLsb' 0 24).extractLsb' 0 16 = q.extractLsb' 0 16 := by
    rw [BitVec.extractLsb'_append_eq_of_add_le (by decide), BitVec.extractLsb'_extractLsb'_of_le (by decide)]
  simp only [setByteOfQuad, BitVec.extractLsb'_append_eq_left, rest]
  rw [joinBytes_word]

/-- The lower two bytes replaced in order. -/
theorem setBytesOfQuad_lower (q : Quad) (v : Word) :
    setByteOfQuad (setByteOfQuad q 2 (v.extractLsb' 8 8)) 3 (v.extractLsb' 0 8) = q.extractLsb' 16 16 ++ v := by
  simp only [setByteOfQuad, BitVec.extractLsb'_append_eq_left]
  rw [BitVec.append_assoc, joinBytes_word]
  rfl

/-! ### Other I/O addresses -/

theorem locateIo_other (c : Config) (p : Nat) {offset : Nat} (h : 0x13 ≤ offset) :
    locateIo c p offset = locateOtherIo c p := by
  unfold locateIo
  split
  case h_20 => rfl
  all_goals omega

theorem locate_otherIo {s : State} {a : Quad} (h : OtherIo s a) :
    locate s.cfg (phys s.cfg a) = locatePeripheral s.cfg (phys s.cfg a) := by
  have other : locateOtherIo s.cfg (phys s.cfg a) = locatePeripheral s.cfg (phys s.cfg a) := by
    unfold locateOtherIo
    split
    · next place here => rw [if_neg (h.notSysexcp place here)]
    · rfl
  rw [← other]
  rcases h.io with top | ⟨below, io⟩
  · rw [locate_io (by omega), locateIo_other _ _ (by omega)]
  · rw [locate, if_neg (by omega), io]

theorem locate_noRegister {s : State} {a : Quad} (none : ∀ d ∈ s.cfg.ioDevices, d.addr ≠ phys s.cfg a)
    (h : OtherIo s a) : locate s.cfg (phys s.cfg a) = .unavailableIo := by
  have absent : deviceAt s.cfg (phys s.cfg a) = Option.none := by
    rw [deviceAt, List.find?_eq_none]
    intro d hd
    simpa using none d hd
  rw [locate_otherIo h, locatePeripheral, absent]

section
variable {s : State} {a : Quad} {d : IoDevice}

theorem PeripheralAt.located (h : PeripheralAt s a d) : locate s.cfg (phys s.cfg a) = .device d := by
  have here : deviceAt s.cfg (phys s.cfg a) = some d := h.configured
  rw [locate_otherIo h.toOtherIo, locatePeripheral, here]

theorem PeripheralAt.addr (h : PeripheralAt s a d) : d.addr = phys s.cfg a := by
  simpa using List.find?_some h.configured

/-- A register no store or read has changed holds its reset contents. -/
theorem PeripheralAt.reset (h : PeripheralAt s a d) (none : s.ioRegs = []) : contentsAt s d.addr = d.reset := by
  have here : deviceAt s.cfg (phys s.cfg a) = some d := h.configured
  rw [h.addr, contentsAt, none, resetContents, here]
  rfl

theorem tell_setContents_only (e : EnvEvent) (s : State) (p : Nat) (b : Byte) :
    tell e (setContents s p b) =
      { s with ioRegs := (tell e (setContents s p b)).ioRegs, events := e :: s.events } :=
  congrArg (tell e) (setContents_ioRegs_only s p b)

/-- A read of a register answers and acts as its behaviour says (20_memory.md R67). -/
theorem peripheralRead (d : IoDevice) (wf : Memory.wf (resetContents s.cfg) s.ioRegs = true) :
    PeripheralRead d s (afterDeviceRead d s) (deviceByte d s) := by
  unfold PeripheralRead afterDeviceRead deviceByte
  cases d.read with
  | contents => exact ⟨rfl, rfl, rfl⟩
  | constant c => exact ⟨rfl, rfl, rfl⟩
  | clearing => exact ⟨tell_setContents_only _ s d.addr 0, rfl, setContents_contentsSet d.addr 0 wf⟩

/-- A store to a register acts as its behaviour says. -/
theorem peripheralWritten (d : IoDevice) (b : Byte) (wf : Memory.wf (resetContents s.cfg) s.ioRegs = true) :
    PeripheralWritten d s (deviceStore d b s) b := by
  unfold PeripheralWritten deviceStore
  cases d.write with
  | stored => exact ⟨tell_setContents_only _ s d.addr b, setContents_contentsSet d.addr b wf⟩
  | ignored => exact ⟨rfl, rfl⟩
  | setsOnes p => exact ⟨tell_setContents_only _ s p _, setContents_contentsSet p _ wf⟩
  | clearsOnes p => exact ⟨tell_setContents_only _ s p _, setContents_contentsSet p _ wf⟩

end

/-- Settles O11. -/
theorem controlRegistersInMemory : Obligations.ControlRegistersInMemory := by
  intro s
  refine ⟨?_, ?_, ?_, ?_, fun v => ?_, fun v => ?_, fun v => ?_, fun v => ?_, (writeByte_pcov s · 3), writeByte_flags s,
    writeByte_cpuctl s, fun k hk b => ?_, fun a b none other => ?_, fun a d here => here.reset,
    fun a d here wf => ?_, fun a => ⟨rfl, rfl, rfl⟩⟩
  · exact (readMem_quad_iff s _ _).2 ⟨_, _, _, _, readByte_pcov s 0, readByte_pcov s 1, readByte_pcov s 2,
      readByte_pcov s 3, (bytesOfQuad s.pcov).symm⟩
  · exact (readMem_quad_iff s _ _).2 ⟨_, _, _, _, readByte_spov s 0, readByte_spov s 1, readByte_spov s 2,
      readByte_spov s 3, (bytesOfQuad s.spov).symm⟩
  · simp only [readMem, readByte, locate_flags]
  · simp only [readMem, readByte, locate_cpuctl]
  · refine (writeMem_quad_iff s _ _ _).2 ⟨_, _, _, writeByte_pcov s _ 0, writeByte_pcov _ _ 1, writeByte_pcov _ _ 2, ?_⟩
    exact (writeByte_pcov _ _ 3).trans (by rw [setBytesOfQuad])
  · refine (writeMem_quad_iff s _ _ _).2 ⟨_, _, _, writeByte_spov s _ 0, writeByte_spov _ _ 1, writeByte_spov _ _ 2, ?_⟩
    exact (writeByte_spov _ _ 3).trans (by rw [setBytesOfQuad])
  · refine (writeMem_word_iff s _ _ _).2 ⟨_, writeByte_pcov s _ 0, ?_⟩
    exact (writeByte_pcov _ _ 1).trans (by rw [setBytesOfQuad_upper])
  · refine (writeMem_word_iff s _ _ _).2 ⟨_, writeByte_spov s _ 2, ?_⟩
    exact (writeByte_spov _ _ 3).trans (by rw [setBytesOfQuad_lower])
  · refine reserved_byte s b ?_
    simp only [List.mem_cons, List.not_mem_nil, or_false] at hk
    rcases hk with rfl | rfl | rfl | rfl | rfl | rfl | rfl | rfl | rfl <;> exact locate_control s.cfg (by decide)
  · simp only [readByte, noteRead, writeByte, locate_noRegister none other, and_self]
  · have located := here.located
    refine ⟨⟨deviceByte d s, by simp only [readByte, located], ?_⟩, fun b =>
      ⟨deviceStore d b s, by simp only [writeByte, located], peripheralWritten d b wf⟩⟩
    simp only [noteRead, located]
    exact peripheralRead d wf

/-! ### SYSEXCP -/

theorem getLsbD_bitAt : ∀ (x : Bool) (k j : Fin 8), (bitAt x k).getLsbD j = (x && decide (k = j)) := by decide

/-- A bit of a byte to which the further kinds' bits are added. -/
theorem getLsbD_extraBits (x : Nat) (extra : List (Nat × Fin 8)) (r : Byte) (j : Fin 8) :
    (extra.foldl (fun b e => b ||| bitAt (x.testBit e.1) e.2) r).getLsbD j =
      (r.getLsbD j || extra.any fun e => x.testBit e.1 && decide (e.2 = j)) := by
  induction extra generalizing r with
  | nil => simp
  | cons e extra ih => rw [List.foldl_cons, ih, List.any_cons, BitVec.getLsbD_or, getLsbD_bitAt, Bool.or_assoc]

/-- A bit of the further kinds after those written as 1 are cleared. -/
theorem testBit_clearExtra (b : Byte) (extra : List (Nat × Fin 8)) (x k : Nat) :
    (extra.foldl (fun m e => if b.getLsbD e.2 then setExtraBit m e.1 false else m) x).testBit k =
      (x.testBit k && !(extra.any fun e => decide (e.1 = k) && b.getLsbD e.2)) := by
  induction extra generalizing x with
  | nil => simp
  | cons e extra ih =>
    rw [List.foldl_cons, ih, List.any_cons, Bool.not_or, ← Bool.and_assoc]
    congr 1
    by_cases written : b.getLsbD e.2 = true
    · rw [if_pos written, testBit_setExtraBit, written]
      by_cases here : k = e.1
      · simp [here]
      · simp [here, Ne.symm here]
    · rw [if_neg written, Bool.eq_false_of_not_eq_true written]
      simp

section
variable {α β : Type} [DecidableEq β] {l : List α} {f : α → β}

/-- Among entries with different keys only one has the key of e. -/
theorem any_key_of_nodup (nodup : (l.map f).Nodup) {e : α} (he : e ∈ l) (p : α → Bool) :
    (l.any fun a => decide (f a = f e) && p a) = p e := by
  rw [Bool.eq_iff_iff, List.any_eq_true]
  constructor
  · rintro ⟨a, ha, h⟩
    simp only [Bool.and_eq_true, decide_eq_true_eq] at h
    rw [← List.inj_on_of_nodup_map nodup ha he h.1]
    exact h.2
  · exact fun h => ⟨e, he, by simp [h]⟩

theorem any_key_of_not_mem {b : β} (absent : b ∉ l.map f) (p : α → Bool) :
    (l.any fun a => decide (f a = b) && p a) = false := by
  rw [List.any_eq_false]
  intro a ha h
  simp only [Bool.and_eq_true, decide_eq_true_eq] at h
  exact absurd (h.1 ▸ List.mem_map_of_mem ha) absent

end

theorem getLsbD_readSysexcp (place : SysexcpPlace) (x : Sysexcp) (j : Fin 8) :
    (readSysexcp place x).getLsbD j =
      ((x.pcovf && decide (place.pcovf = j) || x.spovf && decide (place.spovf = j) ||
        x.div0 && decide (place.div0 = j) || x.divovf && decide (place.divovf = j) ||
        x.ill && decide (place.ill = j)) || place.extra.any fun e => decide (e.2 = j) && x.extra.testBit e.1) := by
  rw [readSysexcp, getLsbD_extraBits]
  simp only [BitVec.getLsbD_or, getLsbD_bitAt, Bool.and_comm (x.extra.testBit _)]

/-- SYSEXCP at its configured place above the CPU control registers. -/
theorem locate_sysexcp {c : Config} {place : SysexcpPlace} (placed : c.sysexcpPlace = some place)
    (above : ioBase c + 0x13 ≤ phys c place.addr) : locate c (phys c place.addr) = .sysexcp place := by
  rw [locate_io (by omega), locateIo_other _ _ (by omega), locateOtherIo, placed]
  exact if_pos rfl

theorem and_not_eq_if (x y : Bool) : (x && !y) = if y then false else x := by cases y <;> simp

/-- Settles O13: each bit of the byte is one kind's, because their positions differ. -/
theorem sysexcpIsWriteOneToClear : Obligations.SysexcpIsWriteOneToClear := by
  intro s place b placed above positions kinds
  have located := locate_sysexcp placed above
  obtain ⟨five, further, apart⟩ := List.nodup_append.1 positions
  have none {k : Fin 8} (h : k ∈ [place.pcovf, place.spovf, place.div0, place.divovf, place.ill]) :
      (place.extra.any fun e => decide (e.2 = k) && s.sysexcp.extra.testBit e.1) = false :=
    any_key_of_not_mem (fun hk => apart k h k hk rfl) _
  simp only [List.nodup_cons, List.mem_cons, List.not_mem_nil, not_or, or_false] at five
  obtain ⟨⟨h12, h13, h14, h15⟩, ⟨h23, h24, h25⟩, ⟨h34, h35⟩, h45, -⟩ := five
  refine ⟨⟨readSysexcp place s.sysexcp, by simp only [readByte, located], ?_, ?_, ?_, ?_, ?_, fun e he => ?_,
    fun k absent => ?_⟩, writeSysexcp place s.sysexcp b, by simp only [writeByte, located], and_not_eq_if _ _,
    and_not_eq_if _ _, and_not_eq_if _ _, and_not_eq_if _ _, and_not_eq_if _ _, fun e he => ?_, fun k absent => ?_⟩
  · rw [getLsbD_readSysexcp, none (by simp)]
    simp [Ne.symm h12, Ne.symm h13, Ne.symm h14, Ne.symm h15]
  · rw [getLsbD_readSysexcp, none (by simp)]
    simp [h12, Ne.symm h23, Ne.symm h24, Ne.symm h25]
  · rw [getLsbD_readSysexcp, none (by simp)]
    simp [h13, h23, Ne.symm h34, Ne.symm h35]
  · rw [getLsbD_readSysexcp, none (by simp)]
    simp [h14, h24, h34, Ne.symm h45]
  · rw [getLsbD_readSysexcp, none (by simp)]
    simp [h15, h25, h35, h45]
  · have other {k : Fin 8} (h : k ∈ [place.pcovf, place.spovf, place.div0, place.divovf, place.ill]) : k ≠ e.2 :=
      apart k h e.2 (List.mem_map_of_mem he)
    rw [getLsbD_readSysexcp, any_key_of_nodup further he fun e => s.sysexcp.extra.testBit e.1]
    simp [other, sysexcpBit]
  · rw [List.mem_append, not_or] at absent
    obtain ⟨not_five, not_further⟩ := absent
    simp only [List.mem_cons, List.not_mem_nil, not_or, or_false] at not_five
    obtain ⟨h1, h2, h3, h4, h5⟩ := not_five
    rw [getLsbD_readSysexcp, any_key_of_not_mem not_further]
    simp [Ne.symm h1, Ne.symm h2, Ne.symm h3, Ne.symm h4, Ne.symm h5]
  · simp only [sysexcpBit, writeSysexcp, testBit_clearExtra]
    rw [any_key_of_nodup kinds he fun e => b.getLsbD e.2, and_not_eq_if]
  · simp only [sysexcpBit, writeSysexcp, testBit_clearExtra]
    rw [any_key_of_not_mem absent fun e => b.getLsbD e.2, Bool.not_false, Bool.and_true]

end Sys2Proof.Machine
end

section
/-! PROOFS. Multiplies, divides, shifts and rotates (40_arithmetic.md R164 to R167, R190, 43_rotate_shift.md R230 to R238):
the results of the model's arithmetic, and then the outcome of each instruction by the laws of its skeleton. -/

namespace Sys2Proof.Machine

theorem arithPair_outcome (s : State) (d r : Reg) (vd vr : Quad) (u : FlagUpdate) :
    ∃ t, arithPair d r vd vr u 2 s = .next t ∧ WrotePair s t d r vd vr u 2 :=
  ⟨_, rfl, wrotePair s d r vd vr u 2⟩

/-! ### Multiplies -/

theorem toNat_product (a b : Quad) : (BitVec.ofNat 64 (a.toNat * b.toNat)).toNat = a.toNat * b.toNat := by
  have below : a.toNat * b.toNat < 2 ^ 32 * 2 ^ 32 := Nat.mul_lt_mul'' a.isLt b.isLt
  rw [BitVec.toNat_ofNat, Nat.mod_eq_of_lt (by simpa using below)]

theorem toInt_product (a b : Quad) : (BitVec.ofInt 64 (a.toInt * b.toInt)).toInt = a.toInt * b.toInt := by
  have lower : -(2 ^ (32 * 2 - 2)) ≤ a.toInt * b.toInt := BitVec.le_toInt_mul_toInt
  have upper : a.toInt * b.toInt ≤ 2 ^ (32 * 2 - 2) := BitVec.toInt_mul_toInt_le
  exact BitVec.toInt_ofInt_eq_self (by decide) (by omega) (by omega)

/-- Settles O42. -/
theorem wideMultiplies : Obligations.WideMultiplies := by
  refine fun s d r => ⟨?_, ?_⟩
  · obtain ⟨t, ht, wrote⟩ := arithPair_outcome s d r _ _ _
    exact ⟨t, ht, BitVec.ofNat 64 ((readReg s d).toNat * (readReg s r).toNat), toNat_product _ _, wrote⟩
  · obtain ⟨t, ht, wrote⟩ := arithPair_outcome s d r _ _ _
    exact ⟨t, ht, BitVec.ofInt 64 ((readReg s d).toInt * (readReg s r).toInt), toInt_product _ _, wrote⟩

/-! ### Divides -/

theorem toNat_ne_zero {a : Quad} (h : a ≠ 0) : a.toNat ≠ 0 := fun zero => h (BitVec.eq_of_toNat_eq zero)

theorem toInt_eq_zero {a : Quad} : a.toInt = 0 ↔ a = 0 := by
  rw [← BitVec.toInt_inj]
  rfl

/-- A quotient that fits, and its remainder, by a divisor v that fits. -/
theorem quotient_remainder {n v : Nat} (hv : v < 2 ^ 32) (nonzero : v ≠ 0) (fits : n / v < 2 ^ 32) :
    n = (BitVec.ofNat 32 (n / v)).toNat * v + (BitVec.ofNat 32 (n % v)).toNat ∧ (BitVec.ofNat 32 (n % v)).toNat < v := by
  have remainder : n % v < v := Nat.mod_lt n (Nat.pos_of_ne_zero nonzero)
  rw [BitVec.toNat_ofNat, BitVec.toNat_ofNat, Nat.mod_eq_of_lt fits, Nat.mod_eq_of_lt (by omega)]
  exact ⟨(Nat.div_add_mod' n v).symm, remainder⟩

section
variable {s : State} (d : Reg) {r : Reg}

theorem exec_udiv (h : readReg s r ≠ 0) : exec (.udiv d r) s =
    arithPair d r (BitVec.ofNat 32 ((readReg s d).toNat / (readReg s r).toNat))
      (BitVec.ofNat 32 ((readReg s d).toNat % (readReg s r).toNat))
      (wideFlags (decide (BitVec.ofNat 32 ((readReg s d).toNat / (readReg s r).toNat) = 0))
        (BitVec.ofNat 32 ((readReg s d).toNat / (readReg s r).toNat)).msb) 2 s :=
  if_neg (toNat_ne_zero h)

/-- The dividend of UDIV64: the pair R[d], R[d + 1] (40_arithmetic.md R190). -/
def pairValue (d : Reg) (s : State) : Nat := (readReg s d).toNat * 2 ^ 32 + (readReg s (d + 1)).toNat

/-- The quotient of a pair fits exactly if its high half is below the divisor. -/
theorem pairValue_div_lt (h : readReg s r ≠ 0) :
    pairValue d s / (readReg s r).toNat < 2 ^ 32 ↔ (readReg s d).toNat < (readReg s r).toNat := by
  have low := (readReg s (d + 1)).isLt
  have positive := Nat.pos_of_ne_zero (toNat_ne_zero h)
  rw [Nat.div_lt_iff_lt_mul positive, pairValue]
  omega

theorem exec_udiv64 (h : readReg s r ≠ 0) (fits : (readReg s d).toNat < (readReg s r).toNat) :
    exec (.udiv64 d r) s =
      arithPair d (d + 1) (BitVec.ofNat 32 (pairValue d s / (readReg s r).toNat))
        (BitVec.ofNat 32 (pairValue d s % (readReg s r).toNat))
        (wideFlags (decide (BitVec.ofNat 32 (pairValue d s / (readReg s r).toNat) = 0))
          (BitVec.ofNat 32 (pairValue d s / (readReg s r).toNat)).msb) 2 s :=
  (if_neg (toNat_ne_zero h)).trans (if_neg (Nat.not_le_of_lt ((pairValue_div_lt d h).2 fits)))

theorem exec_udiv64_overflow (h : readReg s r ≠ 0) (large : (readReg s r).toNat ≤ (readReg s d).toNat) :
    exec (.udiv64 d r) s = raiseAndAdvance .divideOverflow 2 s := by
  have overflow : 2 ^ 32 ≤ pairValue d s / (readReg s r).toNat := by
    rw [← Nat.not_lt, pairValue_div_lt d h]
    omega
  exact (if_neg (toNat_ne_zero h)).trans (if_pos overflow)

end

/-- Settles O43. -/
theorem unsignedDivides : Obligations.UnsignedDivides := by
  intro s d r nonzero
  refine ⟨?_, fun fits => ?_⟩
  · have small : (readReg s d).toNat / (readReg s r).toNat < 2 ^ 32 :=
      Nat.lt_of_le_of_lt (Nat.div_le_self _ _) (readReg s d).isLt
    obtain ⟨dividend, remainder⟩ := quotient_remainder (readReg s r).isLt (toNat_ne_zero nonzero) small
    rw [exec_udiv d nonzero]
    obtain ⟨t, ht, wrote⟩ := arithPair_outcome s d r _ _ _
    exact ⟨t, ht, _, _, dividend, remainder, wrote⟩
  · have small := (pairValue_div_lt d nonzero).2 fits
    obtain ⟨dividend, remainder⟩ := quotient_remainder (readReg s r).isLt (toNat_ne_zero nonzero) small
    rw [exec_udiv64 d nonzero fits]
    obtain ⟨t, ht, wrote⟩ := arithPair_outcome s d (d + 1) _ _ _
    exact ⟨t, ht, _, _, dividend, remainder, wrote⟩

/-! ### SDIV -/

/-- The results of SDIV are those of the bit vector's truncating division, but for the one pair that overflows. -/
theorem exec_sdiv {s : State} (d : Reg) {r : Reg} (h : readReg s r ≠ 0)
    (fits : ¬ (readReg s d = 0x80000000 ∧ readReg s r = 0xFFFFFFFF)) :
    exec (.sdiv d r) s = arithPair d r ((readReg s d).sdiv (readReg s r)) ((readReg s d).srem (readReg s r))
      (wideFlags (decide ((readReg s d).sdiv (readReg s r) = 0)) ((readReg s d).sdiv (readReg s r)).msb) 2 s := by
  have quotient : ((readReg s d).sdiv (readReg s r)).toInt = (readReg s d).toInt.tdiv (readReg s r).toInt :=
    BitVec.toInt_sdiv_of_ne_or_ne _ _ (not_and_or.1 fits)
  have remainder : (readReg s d).toInt - (readReg s d).toInt.tdiv (readReg s r).toInt * (readReg s r).toInt =
      ((readReg s d).srem (readReg s r)).toInt := by
    rw [BitVec.toInt_srem, Int.tmod_def, Int.mul_comm]
  have zero : (decide ((readReg s d).toInt.tdiv (readReg s r).toInt = 0)) =
      decide ((readReg s d).sdiv (readReg s r) = 0) := by
    rw [← quotient, decide_eq_decide, toInt_eq_zero]
  have sign : (decide ((readReg s d).toInt.tdiv (readReg s r).toInt < 0)) =
      ((readReg s d).sdiv (readReg s r)).msb := by
    rw [← quotient, BitVec.msb_eq_toInt]
  refine ((if_neg (mt toInt_eq_zero.1 h)).trans (if_neg fits)).trans ?_
  simp only
  rw [zero, sign, remainder, ← quotient, BitVec.ofInt_toInt, BitVec.ofInt_toInt]
  rfl

/-- A truncating remainder is 0 or has the dividend's sign. -/
theorem tmod_zero_or_sign (n v : Int) : n.tmod v = 0 ∨ (n.tmod v < 0 ↔ n < 0) := by
  have sign := Int.sign_tmod n v
  split at sign
  · exact .inl (Int.sign_eq_zero_iff_zero.1 sign)
  · exact .inr (by rw [← Int.sign_eq_neg_one_iff_neg, sign, Int.sign_eq_neg_one_iff_neg])

/-- Settles O44. -/
theorem signedDivide : Obligations.SignedDivide := by
  intro s d r nonzero
  by_cases overflow : readReg s d = 0x80000000 ∧ readReg s r = 0xFFFFFFFF
  · obtain ⟨t, ht, wrote⟩ := arithPair_outcome s d r 0x80000000 0
      { z := some false, s := some true, v := some true, b := some false }
    refine ⟨t, ?_, by rwa [if_pos overflow]⟩
    exact ((if_neg (mt toInt_eq_zero.1 nonzero)).trans (if_pos overflow)).trans ht
  · obtain ⟨t, ht, wrote⟩ := arithPair_outcome s d r ((readReg s d).sdiv (readReg s r))
      ((readReg s d).srem (readReg s r))
      (wideFlags (decide ((readReg s d).sdiv (readReg s r) = 0)) ((readReg s d).sdiv (readReg s r)).msb)
    refine ⟨t, (exec_sdiv d nonzero overflow).trans ht, ?_⟩
    rw [if_neg overflow]
    refine ⟨_, _, ?_, ?_, ?_, wrote⟩
    · rw [BitVec.toInt_sdiv_of_ne_or_ne _ _ (not_and_or.1 overflow), BitVec.toInt_srem, Int.tdiv_mul_add_tmod]
    · rw [BitVec.toInt_srem, Int.natAbs_tmod]
      exact Nat.mod_lt _ (Int.natAbs_pos.2 (mt toInt_eq_zero.1 nonzero))
    · rw [BitVec.toInt_srem]
      exact tmod_zero_or_sign _ _

/-! ### Divides that raise -/

theorem raiseAndAdvance_outcome (e : SysExc) (s : State) :
    ∃ t, raiseAndAdvance e 2 s = .next t ∧ Raised e s t ∧ SameRegs s t [] ∧ t.flags = s.flags ∧ t.pc = s.pc + 2 ∧
      SameRest s t := by
  refine ⟨advance 2 (raise e s), rfl, (raise_raised e s).congr rfl rfl rfl rfl, fun q _ => ?_, by simp, ?_, ?_⟩
  · simp
  · simp [nextPc]
  · exact ⟨.of_eq (by simp) (by simp) (by simp), by simp [SameControl], by simp [SameModifiers],
      by simp [SameEnvironment]⟩

/-- Settles O45. -/
theorem dividesThatRaise : Obligations.DividesThatRaise := by
  intro s d r
  refine ⟨fun zero i hi => ?_, fun nonzero large => ?_⟩
  · have natZero : (readReg s r).toNat = 0 := by rw [zero]; rfl
    have intZero : (readReg s r).toInt = 0 := by rw [zero]; rfl
    have raises : exec i s = raiseAndAdvance .divideByZero 2 s := by
      rcases hi with rfl | rfl | rfl
      · exact if_pos natZero
      · exact if_pos intZero
      · exact if_pos natZero
    rw [raises]
    exact raiseAndAdvance_outcome .divideByZero s
  · rw [exec_udiv64_overflow d nonzero large]
    exact raiseAndAdvance_outcome .divideOverflow s

/-! ### Shifts and rotates -/

theorem shiftCount_eq (n : ShiftCount) (s : State) : shiftCount n s = countOf n s := by
  cases n with
  | uimm5 n => rfl
  | reg r => simp only [shiftCount, countOf, BitVec.extractLsb'_toNat, Nat.shiftRight_zero, Nat.reducePow]

theorem countOf_lt (n : ShiftCount) (s : State) : countOf n s < 32 := by
  cases n with
  | uimm5 n => exact n.isLt
  | reg r => exact Nat.mod_lt _ (by decide)

theorem rotateLeftBy_eq (a : Quad) {n : Nat} (h : n < 32) : rotateLeftBy a n = a.rotateLeft n := by
  rw [rotateLeftBy, BitVec.rotateLeft_def, Nat.mod_eq_of_lt h]
  split
  · next zero =>
    subst zero
    rw [Nat.sub_zero, BitVec.ushiftRight_eq_zero (Nat.le_refl 32), BitVec.shiftLeft_zero, BitVec.or_zero]
  · rfl

theorem lastOutLeft_eq (a : Quad) (n : Nat) : lastOutLeft a n = (decide (n ≠ 0) && a.getLsbD (32 - n)) := by
  unfold lastOutLeft
  split <;> simp_all

theorem lastOutRight_eq (a : Quad) (n : Nat) : lastOutRight a n = (decide (n ≠ 0) && a.getLsbD (n - 1)) := by
  unfold lastOutRight
  split <;> simp_all

/-- The last bit a rotate carries round is bit 0 of its result. -/
theorem lastOutLeft_rotate (a : Quad) {n : Nat} (h : n < 32) :
    lastOutLeft a n = (decide (n ≠ 0) && (a.rotateLeft n).getLsbD 0) := by
  rw [lastOutLeft_eq, BitVec.getLsbD_rotateLeft, Nat.mod_eq_of_lt h]
  by_cases zero : n = 0
  · simp [zero]
  · simp [zero, Nat.pos_of_ne_zero zero]

theorem shiftRegister_outcome (s : State) (d : Reg) (result : Quad) (lastOut : Bool) :
    ∃ t, shiftRegister d result lastOut 2 s = .next t ∧ WroteRegister s t d result (shifted result lastOut) 2 :=
  ⟨_, rfl, wroteRegister s d result (shifted result lastOut) 2⟩

section
variable (s : State) (d : Reg) (n : ShiftCount)

theorem exec_rl : exec (.rl d n) s =
    shiftRegister d ((readReg s d).rotateLeft (countOf n s)) (lastOutLeft (readReg s d) (countOf n s)) 2 s := by
  rw [← rotateLeftBy_eq _ (countOf_lt n s), ← shiftCount_eq]
  cases n <;> rfl

theorem exec_sll : exec (.sll d n) s =
    shiftRegister d (readReg s d <<< countOf n s) (lastOutLeft (readReg s d) (countOf n s)) 2 s := by
  rw [← shiftCount_eq]
  cases n <;> rfl

theorem exec_sra : exec (.sra d n) s =
    shiftRegister d ((readReg s d).sshiftRight (countOf n s)) (lastOutRight (readReg s d) (countOf n s)) 2 s := by
  rw [← shiftCount_eq]
  cases n <;> rfl

theorem exec_srl : exec (.srl d n) s =
    shiftRegister d (readReg s d >>> countOf n s) (lastOutRight (readReg s d) (countOf n s)) 2 s := by
  rw [← shiftCount_eq]
  cases n <;> rfl

end

/-- Settles O46. -/
theorem shiftsAndRotate : Obligations.ShiftsAndRotate := by
  intro s d n
  rw [exec_rl, exec_sll, exec_sra, exec_srl, ← lastOutLeft_rotate _ (countOf_lt n s), ← lastOutLeft_eq,
    ← lastOutRight_eq]
  exact ⟨shiftRegister_outcome s d _ _, shiftRegister_outcome s d _ _, shiftRegister_outcome s d _ _,
    shiftRegister_outcome s d _ _⟩

theorem shiftPair_outcome (s : State) (d r : Reg) (result out : Quad) (lastOut : Bool) :
    ∃ t, shiftPair d r result out lastOut 2 s = .next t ∧ WrotePair s t d r result out (shifted result lastOut) 2 :=
  ⟨_, rfl, wrotePair s d r result out (shifted result lastOut) 2⟩

/-- The bits that leave at the left are the upper half of the 64-bit shift. -/
theorem shiftedOutLeft_append (a : Quad) {n : Nat} (h : n < 32) :
    shiftedOutLeft a n ++ a <<< n = (0#32 ++ a) <<< n := by
  apply BitVec.eq_of_getLsbD_eq
  intro i hi
  rw [BitVec.getLsbD_append, BitVec.getLsbD_shiftLeft, BitVec.getLsbD_shiftLeft, BitVec.getLsbD_append, shiftedOutLeft]
  by_cases low : i < 32
  · have inner : i - n < 32 := by omega
    simp [low, hi, inner]
  · by_cases zero : n = 0
    · simp [low, zero]
    · have position : 32 - n + (i - 32) = i - n := by omega
      have not_low : ¬ i < n := by omega
      by_cases inner : i - n < 32
      · rw [if_neg low, if_neg zero, BitVec.getLsbD_ushiftRight, position]
        simp [hi, not_low, inner]
      · have beyond : a.getLsbD (i - n) = false := BitVec.getLsbD_of_ge a _ (by omega)
        rw [if_neg low, if_neg zero, BitVec.getLsbD_ushiftRight, position, beyond, if_neg inner]
        simp

/-- The bits that leave at the right, left-aligned, are the lower half of the 64-bit shift: below bit 32 - n they are
the zeros appended, above it the bits of a. -/
theorem getLsbD_shiftedOutRight (a : Quad) {n i : Nat} (h : n < 32) (hi : i < 32) :
    (shiftedOutRight a n).getLsbD i = (a ++ 0#32).getLsbD (n + i) := by
  rw [shiftedOutRight, BitVec.getLsbD_append]
  by_cases zero : n = 0
  · simp [zero, hi]
  · rw [if_neg zero, BitVec.getLsbD_shiftLeft]
    by_cases below : n + i < 32
    · have inner : i < 32 - n := by omega
      simp [below, inner]
    · have position : i - (32 - n) = n + i - 32 := by omega
      have inner : ¬ i < 32 - n := by omega
      rw [if_neg below, position]
      simp [hi, inner]

theorem getLsbD_append_zero (a : Quad) {i : Nat} (h : 32 ≤ i) : (a ++ 0#32).getLsbD i = a.getLsbD (i - 32) := by
  rw [BitVec.getLsbD_append, if_neg (by omega)]

theorem shiftedOutRight_append_arith (a : Quad) {n : Nat} (h : n < 32) :
    a.sshiftRight n ++ shiftedOutRight a n = (a ++ 0#32).sshiftRight n := by
  apply BitVec.eq_of_getLsbD_eq
  intro i hi
  rw [BitVec.getLsbD_append, BitVec.getLsbD_sshiftRight (a ++ 0#32)]
  by_cases low : i < 32
  · have inside : n + i < 32 + 32 := by omega
    rw [if_pos low, getLsbD_shiftedOutRight a h low]
    simp [hi, inside]
  · have sign : (a ++ 0#32).msb = a.msb := by
      rw [BitVec.msb_eq_getLsbD_last, BitVec.msb_eq_getLsbD_last, getLsbD_append_zero a (by decide)]
    have not_low : ¬ 32 ≤ i - 32 := by omega
    have width : ¬ 32 + 32 ≤ i := by omega
    rw [if_neg low, BitVec.getLsbD_sshiftRight, sign]
    by_cases inside : n + i < 32 + 32
    · have inside' : n + (i - 32) < 32 := by omega
      have position : n + i - 32 = n + (i - 32) := by omega
      rw [if_pos inside, if_pos inside', getLsbD_append_zero a (by omega), position]
      simp [not_low, width]
    · have inside' : ¬ n + (i - 32) < 32 := by omega
      rw [if_neg inside, if_neg inside']
      simp [not_low, width]

theorem shiftedOutRight_append (a : Quad) {n : Nat} (h : n < 32) :
    a >>> n ++ shiftedOutRight a n = (a ++ 0#32) >>> n := by
  apply BitVec.eq_of_getLsbD_eq
  intro i hi
  rw [BitVec.getLsbD_append, BitVec.getLsbD_ushiftRight (a ++ 0#32)]
  by_cases low : i < 32
  · rw [if_pos low, getLsbD_shiftedOutRight a h low]
  · have position : n + i - 32 = n + (i - 32) := by omega
    rw [if_neg low, BitVec.getLsbD_ushiftRight, getLsbD_append_zero a (by omega), position]

theorem lastOutLeft_eq_bit0 (a : Quad) (n : Nat) : lastOutLeft a n = (shiftedOutLeft a n).getLsbD 0 := by
  unfold lastOutLeft shiftedOutLeft
  split
  · rfl
  · rw [BitVec.getLsbD_ushiftRight]; rfl

theorem lastOutRight_eq_msb (a : Quad) {n : Nat} (h : n < 32) : lastOutRight a n = (shiftedOutRight a n).msb := by
  unfold lastOutRight shiftedOutRight
  split
  · rfl
  · have position : 32 - 1 - (32 - n) = n - 1 := by omega
    have shifted_out : ¬ 31 < 32 - n := by omega
    rw [BitVec.msb_eq_getLsbD_last, BitVec.getLsbD_shiftLeft, position]
    simp [shifted_out]

theorem shiftCount_reg (r : Reg) (s : State) : shiftCount (.reg r) s = (readReg s r).toNat % 32 :=
  shiftCount_eq (.reg r) s

/-- Settles O47: the result and the bits shifted out are the halves of the 64-bit shift. -/
theorem extendedShifts : Obligations.ExtendedShifts := by
  intro s d r n hn
  have small : n < 32 := by omega
  have count : shiftCount (.reg r) s = n := (shiftCount_reg r s).trans hn.symm
  refine ⟨?_, ?_, ?_⟩
  · obtain ⟨t, ht, wrote⟩ := shiftPair_outcome s d r (readReg s d <<< n) (shiftedOutLeft (readReg s d) n)
      (lastOutLeft (readReg s d) n)
    rw [lastOutLeft_eq_bit0] at wrote
    exact ⟨t, by rw [← ht, ← count]; rfl, _, _, shiftedOutLeft_append _ small, wrote⟩
  · obtain ⟨t, ht, wrote⟩ := shiftPair_outcome s d r ((readReg s d).sshiftRight n) (shiftedOutRight (readReg s d) n)
      (lastOutRight (readReg s d) n)
    rw [lastOutRight_eq_msb _ small] at wrote
    exact ⟨t, by rw [← ht, ← count]; rfl, _, _, shiftedOutRight_append_arith _ small, wrote⟩
  · obtain ⟨t, ht, wrote⟩ := shiftPair_outcome s d r (readReg s d >>> n) (shiftedOutRight (readReg s d) n)
      (lastOutRight (readReg s d) n)
    rw [lastOutRight_eq_msb _ small] at wrote
    exact ⟨t, by rw [← ht, ← count]; rfl, _, _, shiftedOutRight_append _ small, wrote⟩

end Sys2Proof.Machine
end

section
/-! PROOFS. The stack instructions, calls, jumps and DJNZ (44_load.md R283 to R297, 46_program_control.md R342 to R353):
one push or pop each by the laws of the stack, and the multiple ones by induction over the list of registers. -/

namespace Sys2Proof.Machine

/-! ### What is unchanged, from one state to the next -/

section
variable {s t u : State}

theorem SameControl.trans (h : SameControl s t) (h' : SameControl t u) : SameControl s u :=
  ⟨h'.1.trans h.1, h'.2.1.trans h.2.1, h'.2.2.trans h.2.2⟩

theorem SameModifiers.trans (h : SameModifiers s t) (h' : SameModifiers t u) : SameModifiers s u :=
  ⟨h'.1.trans h.1, h'.2.1.trans h.2.1, h'.2.2.trans h.2.2⟩

theorem SameEnvironment.trans (h : SameEnvironment s t) (h' : SameEnvironment t u) : SameEnvironment s u := by
  obtain ⟨a1, a2, a3, a4, a5, a6, a7, a8, a9⟩ := h
  obtain ⟨b1, b2, b3, b4, b5, b6, b7, b8, b9⟩ := h'
  exact ⟨b1.trans a1, b2.trans a2, b3.trans a3, b4.trans a4, b5.trans a5, b6.trans a6, b7.trans a7, b8.trans a8,
    b9.trans a9⟩

theorem SameEnvironment.cfg (h : SameEnvironment s t) : t.cfg = s.cfg := h.2.2.2.1

theorem SameMemory.trans (h : SameMemory s t) (h' : SameMemory t u) : SameMemory s u :=
  ⟨h'.1.trans h.1, h'.2.1.trans h.2.1, fun p => (h'.2.2 p).trans (h.2.2 p)⟩

theorem SameRest.trans (h : SameRest s t) (h' : SameRest t u) : SameRest s u := by
  obtain ⟨memory, control, modifiers, environment⟩ := h
  obtain ⟨memory', control', modifiers', environment'⟩ := h'
  exact ⟨memory.trans memory', control.trans control', modifiers.trans modifiers', environment.trans environment'⟩

end

/-! ### Reads do not see pc -/

section
variable {sz : Size} {s t : State} {v : BitVec sz.bits}

theorem readMem_advance (len : Nat) (a : Quad) : readMem sz (advance len s) a = readMem sz s a := by
  cases sz <;> rfl

theorem readMem_jump (target a : Quad) : readMem sz (jump target s) a = readMem sz s a := by
  cases sz <;> rfl

theorem Pushed.advance (h : Pushed sz s t v) (len : Nat) : Pushed sz s (advance len t) v := by
  obtain ⟨stored, rest⟩ := h
  exact ⟨(readMem_advance len _).trans stored, rest⟩

theorem Pushed.jump (h : Pushed sz s t v) (target : Quad) : Pushed sz s (jump target t) v := by
  obtain ⟨stored, rest⟩ := h
  exact ⟨(readMem_jump target _).trans stored, rest⟩

theorem pushThenAdvance_ram (v : BitVec sz.bits) (len : Nat) (wf : Memory.wf (blankByte s.cfg) s.mem = true)
    (ram : InRam sz.bytes s (sp s - sizeQuad sz)) :
    ∃ t, pushThenAdvance sz v len s = .next t ∧ Pushed sz s t v ∧ t.pc = nextPc len s := by
  obtain ⟨t, ht, frame⟩ := push_ram v wf ram
  refine ⟨advance len t, by rw [pushThenAdvance, ht, andThen_next], frame.pushed.advance len, ?_⟩
  rw [advance_pc, nextPc, frame.pc]; rfl

end

/-- POPF (44_load.md R297): the byte above SP into FLAGS, then SP. -/
theorem exec_popf {s : State} {f : Byte} (hf : readByte s (sp s + 1) = .next f) : exec .popf s =
    .next (advance 2 (writeReg { noteReads .byte (sp s + 1) s with flags := f } spReg (sp s + 2))) := by
  show andThen (loadMem .byte (sp s + 1) s) _ = _
  rw [loadMem_next (sz := .byte) hf, andThen_next]
  rfl

/-- Settles O52: each push is `pushThenAdvance`; POPF reads a byte and writes FLAGS and SP. -/
theorem pushAndFlagTransfers : Obligations.PushAndFlagTransfers := by
  intro s wf
  refine ⟨fun ram i => pushThenAdvance_ram (sz := .byte) i 2 wf ram,
    fun ram i => pushThenAdvance_ram (sz := .word) (i.signExtend 16) 2 wf ram,
    fun ram i => pushThenAdvance_ram (sz := .quad) (sext i) 2 wf ram,
    fun ram => pushThenAdvance_ram (sz := .word) (0#8 ++ s.flags) 2 wf ram, fun readable => ?_⟩
  obtain ⟨f, hf⟩ := readMem_next (sz := .byte) readable
  have checked := writeReg_stackChecked { noteReads .byte (sp s + 1) s with flags := f } spReg (sp s + 2)
  refine ⟨f, _, hf, exec_popf hf, by simp, by simp [sp], fun r hr => ?_, ?_, by simp [nextPc], ?_⟩
  · rw [List.mem_singleton] at hr
    rw [readReg_advance, readReg_writeReg, if_neg (show r ≠ spReg from hr)]
    exact readReg_noteReads s .byte _ r
  · refine (checked.congr ?_ ?_ rfl rfl).iff ?_
    · simp
    · simp
    · simp [BelowLimit, spReg]
  · exact writeReg_sameRest { noteReads .byte (sp s + 1) s with flags := f } spReg (sp s + 2)

/-! ### Calls -/

theorem callTo_ram {s : State} (target : Quad) (len : Nat) (wf : Memory.wf (blankByte s.cfg) s.mem = true)
    (ram : InRam 4 s (sp s - 4)) :
    ∃ t, callTo target len s = .next t ∧ Pushed .quad s t (nextPc len s) ∧ t.pc = target ∧ t.written = [] := by
  obtain ⟨t, ht, frame⟩ := push_ram (sz := .quad) (nextPc len s) wf ram
  exact ⟨jump target t, by rw [callTo, ht, andThen_next], frame.pushed.jump target, rfl, rfl⟩

/-- Settles O58: each call is `callTo` of its target. -/
theorem calls : Obligations.Calls :=
  fun s wf ram => ⟨fun r => callTo_ram (evenAddress (readReg s r)) 2 wf ram,
    fun r => callTo_ram (relTarget 2 r s) 2 wf ram, fun r => callTo_ram (relTarget 4 r s) 4 wf ram,
    fun i => callTo_ram (evenAddress i) 6 wf ram⟩

/-! ### Jumps -/

/-- Settles O56: the targets and the branch of JP cc are those of the model, by unfolding the instruction. -/
theorem jumps : Obligations.Jumps :=
  fun _ => ⟨fun _ => ⟨rfl, rfl⟩, fun _ => ⟨rfl, rfl⟩, fun _ => ⟨rfl, rfl⟩, fun _ => ⟨rfl, rfl⟩,
    fun _ _ => ⟨rfl, rfl⟩, fun _ _ => ⟨rfl, rfl⟩⟩

/-- The displacement of DJNZ, a negative number of five fixed and four free bits (46_program_control.md R344). -/
theorem djnz_displacement (u : BitVec 4) :
    0xFFFFFF#24 ++ 0b111#3 ++ u ++ 0#1 = -32#32 + BitVec.ofNat 32 (2 * u.toNat) := by
  revert u
  decide

theorem djnzTarget_eq (u : BitVec 4) (s : State) :
    djnzTarget u 2 s = s.pc + 2 - 32 + BitVec.ofNat 32 (2 * u.toNat) := by
  rw [djnzTarget, djnz_displacement, ← BitVec.add_assoc, ← BitVec.sub_eq_add_neg]
  rfl

/-- DJNZ (46_program_control.md R344): the decrement, its flags, and then the branch. -/
theorem exec_djnz (d : Reg) (u : BitVec 4) (s : State) : exec (.djnz d u) s =
    let s1 := setFlags (decFlags (readReg s d)) (writeReg s d (readReg s d - 1))
    if readReg s d = 1 then .next (advance 2 s1) else .next (jump (djnzTarget u 2 s) s1) := by
  have one : readReg s d - 1#32 = 0#32 ↔ readReg s d = 1 := by
    rw [BitVec.sub_eq_iff_eq_add, BitVec.zero_add]; rfl
  show execDjnz d u s = _
  have decrement := opDec_eq .quad s.flags (readReg s d)
  simp only [execDjnz]
  rw [decrement]
  exact if_congr one rfl rfl

/-- Settles O57: after the decrement, which is a register result with flags, the two branches differ in pc and the record
of stored addresses only. -/
theorem decrementAndJump : Obligations.DecrementAndJump := by
  intro s d u
  refine ⟨rfl, ?_⟩
  rw [exec_djnz]
  obtain ⟨value, regs, checked, flags, pc, ⟨mem, written, bytes⟩, control, modifiers, environment⟩ :=
    wroteRegister s d (readReg s d - 1) (decFlags (readReg s d)) 2
  dsimp only
  split
  · next one => exact ⟨_, rfl, value, regs, checked, flags, ⟨pc, written⟩, mem, bytes, control, modifiers, environment⟩
  · next more =>
    exact ⟨_, rfl, value, regs, checked, flags, ⟨djnzTarget_eq u s, rfl⟩, mem, bytes, control, modifiers, environment⟩

end Sys2Proof.Machine
end

section
/-! PROOFS. LINK and UNLINK, and the pushes and pops of several registers (44_load.md R283, R284, R292, R293): these by
induction over the list of registers, each value pushed or popped at its own place in the block on the stack. -/

namespace Sys2Proof.Machine

/-! ### Addresses around the stack pointer -/

theorem sub_sub_ofNat (a : Quad) (m n : Nat) :
    a - BitVec.ofNat 32 m - BitVec.ofNat 32 n = a - BitVec.ofNat 32 (m + n) := by
  simp only [BitVec.ofNat_add, BitVec.sub_eq_add_neg, BitVec.neg_add, BitVec.add_assoc]

theorem InMemory.shift {n m j : Nat} {s : State} {a : Quad} (h : InMemory n s a) (fits : j + m ≤ n) :
    InMemory m s (offsetBy a j) := fun k hk => by
  rw [offsetBy_offsetBy]
  exact h (j + k) (by omega)

theorem readReg_writeReg_of_ne (s : State) {d r : Reg} (v : Quad) (h : r ≠ d) :
    readReg (writeReg s d v) r = readReg s r := by
  rw [readReg_writeReg, if_neg h]

/-! ### LINK and UNLINK -/

/-- Two register writes, of R14 and R15, the second the last: registers and the Stack Overflow test. -/
theorem writeReg_fp_sp_stackChecked (s : State) (v w : Quad) :
    StackChecked s (writeReg (writeReg s fpReg v) spReg w) (w.toNat < s.spov.toNat) := by
  refine ((writeReg_stackChecked s fpReg v).comp (writeReg_stackChecked (writeReg s fpReg v) spReg w)).iff ?_
  simp [BelowLimit, spReg, fpReg]

/-- LINK (44_load.md R283), from the state after its push. -/
theorem exec_link {s s1 : State} {i : Byte} (h : push .quad (readReg s 14) s = .next s1) : exec (.link i) s =
    .next (advance 2 (writeReg (writeReg s1 fpReg (sp s1)) spReg (sp s1 - i.setWidth 32))) := by
  have sp_kept : sp (writeReg s1 fpReg (sp s1)) = sp s1 := by simp [sp, spReg, fpReg]
  show andThen (push .quad (readReg s 14) s) _ = _
  rw [h, andThen_next]
  dsimp only
  rw [sp_kept]
  rfl

/-- UNLINK (44_load.md R284), where the quad at R14 is in memory. -/
theorem exec_unlink {s : State} {v : Quad} (memory : InMemory 4 s (readReg s 14))
    (hv : readMem .quad s (readReg s 14) = .next v) : exec .unlink s =
    .next (advance 2 (writeReg (writeReg (writeReg s spReg (readReg s 14)) fpReg v) spReg (readReg s 14 + 4))) := by
  have sp_first : sp (writeReg s spReg (readReg s 14)) = readReg s 14 := by simp [sp]
  have sp_kept : sp (writeReg (writeReg s spReg (readReg s 14)) fpReg v) = readReg s 14 := by simp [sp, spReg, fpReg]
  have read : readMem .quad (writeReg s spReg (readReg s 14)) (readReg s 14) = .next v :=
    (readMem_memory_congr (sz := .quad) memory (writeReg_cfg s _ _) (writeReg_mem s _ _)).trans hv
  show andThen (loadMem .quad (sp (writeReg s spReg (readReg s 14))) (writeReg s spReg (readReg s 14))) _ = _
  rw [sp_first, loadMem_memory (sz := .quad) (memory.congr (writeReg_cfg s _ _)) read, andThen_next]
  dsimp only
  rw [sp_kept]
  rfl

/-- Settles O55: LINK is a push and two register writes, UNLINK three register writes with a read between them. -/
theorem linkAndUnlink : Obligations.LinkAndUnlink := by
  intro s wf
  refine ⟨fun ram i => ?_, fun memory => ?_⟩
  · obtain ⟨s1, h1, frame⟩ := push_ram (sz := .quad) (readReg s 14) wf ram
    obtain ⟨stored, sp1, regs, outside, checked, flags, control, modifiers, environment⟩ := frame.pushed
    have cfg1 := environment.cfg
    have in_memory := (InRam.memory (n := 4) ram).congr cfg1
    obtain ⟨⟨mem, _, bytes⟩, control2, modifiers2, environment2⟩ :=
      (writeReg_sameRest s1 fpReg (sp s1)).trans
        (writeReg_sameRest (writeReg s1 fpReg (sp s1)) spReg (sp s1 - i.setWidth 32))
    have sp1' : sp s1 = sp s - 4 := sp1
    refine ⟨_, exec_link h1, ?_, ?_, ?_, fun r hr => ?_, fun p hp => (bytes p).trans (outside p hp), ?_, ?_, ?_,
      control.trans control2, modifiers.trans modifiers2, environment.trans environment2⟩
    · rw [readMem_advance, readMem_memory_congr (sz := .quad) in_memory environment2.cfg mem]
      exact stored
    · simp [spReg, fpReg, sp1']
    · rw [← sp1']; simp [sp]
    · simp only [List.mem_cons, List.not_mem_nil, or_false, not_or] at hr
      have not_sp : r ≠ spReg := hr.2
      have not_fp : r ≠ fpReg := hr.1
      rw [readReg_advance, readReg_writeReg_of_ne _ _ not_sp, readReg_writeReg_of_ne _ _ not_fp]
      exact regs r (List.mem_singleton.not.2 hr.2)
    · have second := writeReg_fp_sp_stackChecked s1 (sp s1) (sp s1 - i.setWidth 32)
      rw [sp1', control.2.1] at second
      rw [sp1']
      exact checked.comp second
    · simp [flags]
    · simp [nextPc, frame.pc]
  · obtain ⟨v, hv⟩ := readMem_next (sz := .quad) (InMemory.readable (n := 4) memory)
    have first := writeReg_stackChecked s spReg (readReg s 14)
    have second := writeReg_fp_sp_stackChecked (writeReg s spReg (readReg s 14)) v (readReg s 14 + 4)
    rw [writeReg_spov] at second
    refine ⟨v, _, hv, exec_unlink memory hv, by simp [spReg, fpReg], by simp [sp], fun r hr => ?_, ?_, by simp,
      by simp [nextPc], ?_⟩
    · simp only [List.mem_cons, List.not_mem_nil, or_false, not_or] at hr
      have not_sp : r ≠ spReg := hr.2
      have not_fp : r ≠ fpReg := hr.1
      rw [readReg_advance, readReg_writeReg_of_ne _ _ not_sp, readReg_writeReg_of_ne _ _ not_fp,
        readReg_writeReg_of_ne _ _ not_sp]
    · exact (first.iff (by simp [BelowLimit, spReg])).comp second
    · exact ((writeReg_sameRest s _ _).trans (writeReg_sameRest _ _ _)).trans (writeReg_sameRest _ _ _)

/-! ### Register masks (44_load.md R292, R293) -/

theorem map_filter_cons {α β : Type} (f : α → β) (p : α → Bool) (a : α) (l : List α) :
    ((a :: l).filter p).map f = (if p a then [f a] else []) ++ (l.filter p).map f := by
  cases h : p a <;> simp [h]

theorem pushMask_eq (top : Reg) (mask : Byte) : pushMask top mask =
    (if mask.getLsbD 0 then [top] else []) ++ (if mask.getLsbD 1 then [top - 1] else []) ++
    (if mask.getLsbD 2 then [top - 2] else []) ++ (if mask.getLsbD 3 then [top - 3] else []) ++
    (if mask.getLsbD 4 then [top - 4] else []) ++ (if mask.getLsbD 5 then [top - 5] else []) ++
    (if mask.getLsbD 6 then [top - 6] else []) ++ (if mask.getLsbD 7 then [top - 7] else []) := by
  simp only [pushMask, map_filter_cons, List.filter_nil, List.map_nil, List.append_nil, List.append_assoc,
    BitVec.sub_zero]
  rfl

theorem popMask_eq (base : Reg) (mask : Byte) : popMask base mask =
    (if mask.getLsbD 0 then [base] else []) ++ (if mask.getLsbD 1 then [base + 1] else []) ++
    (if mask.getLsbD 2 then [base + 2] else []) ++ (if mask.getLsbD 3 then [base + 3] else []) ++
    (if mask.getLsbD 4 then [base + 4] else []) ++ (if mask.getLsbD 5 then [base + 5] else []) ++
    (if mask.getLsbD 6 then [base + 6] else []) ++ (if mask.getLsbD 7 then [base + 7] else []) := by
  simp only [popMask, map_filter_cons, List.filter_nil, List.map_nil, List.append_nil, List.append_assoc,
    BitVec.add_zero]
  rfl

theorem pushMask_length (top : Reg) (mask : Byte) : (pushMask top mask).length ≤ 8 := by
  rw [pushMask, List.length_map]
  exact List.length_filter_le _ _

/-- The registers of a PUSHM mask fall. -/
theorem pushMask_pairwise {top : Reg} (h : top = 7 ∨ top = 15) (mask : Byte) : (pushMask top mask).Pairwise (· > ·) := by
  have all : (([0, 1, 2, 3, 4, 5, 6, 7] : List Nat).map fun k => top - BitVec.ofNat 4 k).Pairwise (· > ·) := by
    rcases h with rfl | rfl <;> decide
  exact all.sublist (List.filter_sublist.map _)

/-- The registers of a POPM mask rise. -/
theorem popMask_pairwise {base : Reg} (h : base = 0 ∨ base = 8) (mask : Byte) :
    (popMask base mask).Pairwise (· < ·) := by
  have all : (([0, 1, 2, 3, 4, 5, 6, 7] : List Nat).map fun k => base + BitVec.ofNat 4 k).Pairwise (· < ·) := by
    rcases h with rfl | rfl <;> decide
  exact all.sublist (List.filter_sublist.map _)

/-! ### Pushes of several registers (44_load.md R293) -/

/-- The quads vs were pushed in RAM, the first first: the k-th from the top of the block, and nothing else but SP, the
Stack Overflow tests and the record of stored addresses. -/
structure QuadsPushed (s t : State) (vs : List Quad) : Prop where
  stored      : ∀ (k : Nat) (hk : k < vs.length), readMem .quad t (sp s - BitVec.ofNat 32 (4 * (k + 1))) = .next vs[k]
  sp          : Machine.sp t = Machine.sp s - BitVec.ofNat 32 (4 * vs.length)
  regs        : SameRegs s t [15]
  outside     : SameOutside s t (4 * vs.length) (Machine.sp s - BitVec.ofNat 32 (4 * vs.length))
  stack       : StackChecked s t
    (∃ k < vs.length, (Machine.sp s - BitVec.ofNat 32 (4 * (k + 1))).toNat < s.spov.toNat)
  flags       : t.flags = s.flags
  pc          : t.pc = s.pc
  control     : SameControl s t
  modifiers   : SameModifiers s t
  environment : SameEnvironment s t

theorem QuadsPushed.nil (s : State) : QuadsPushed s s [] where
  stored _ hk := absurd hk (Nat.not_lt_zero _)
  sp := (BitVec.sub_zero _).symm
  regs _ _ := rfl
  outside _ _ := rfl
  stack := .refl s fun ⟨_, hk, _⟩ => absurd hk (Nat.not_lt_zero _)
  flags := rfl
  pc := rfl
  control := ⟨rfl, rfl, rfl⟩
  modifiers := ⟨rfl, rfl, rfl⟩
  environment := ⟨rfl, rfl, rfl, rfl, rfl, rfl, rfl, rfl, rfl⟩

/-- One push and then the others, below it: the first quad stays as it is, for the block is smaller than the address
space. -/
theorem QuadsPushed.cons {s s1 t : State} {v : Quad} {vs : List Quad} (first : PushFrame .quad s s1 v)
    (rest : QuadsPushed s1 t vs) (ram : InRam 4 s (Machine.sp s - 4)) (small : vs.length < 8) :
    QuadsPushed s t (v :: vs) := by
  obtain ⟨stored, sp1, regs, outside, checked, flags, control, modifiers, environment⟩ := first.pushed
  have sp1' : Machine.sp s1 = Machine.sp s - BitVec.ofNat 32 4 := sp1
  have below (n : Nat) : Machine.sp s1 - BitVec.ofNat 32 (4 * n) = Machine.sp s - BitVec.ofNat 32 (4 * (n + 1)) := by
    rw [sp1', sub_sub_ofNat, Nat.mul_succ, Nat.add_comm]
  have top (k : Nat) : offsetBy (Machine.sp s - BitVec.ofNat 32 4) k =
      offsetBy (Machine.sp s - BitVec.ofNat 32 (4 * (vs.length + 1))) (4 * vs.length + k) := by
    rw [← offsetBy_offsetBy, offsetBy_sub_of_le (k := 4 * vs.length) _ (by omega), Nat.mul_succ, Nat.add_sub_cancel_left]
  have cfg1 := environment.cfg
  have rest_outside : SameOutside s1 t (4 * vs.length) (Machine.sp s - BitVec.ofNat 32 (4 * (vs.length + 1))) := by
    rw [← below]
    exact rest.outside
  refine ⟨fun k hk => ?_, ?_, fun r hr => (rest.regs r hr).trans (regs r hr), fun p hp => ?_, ?_,
    rest.flags.trans flags, rest.pc.trans first.pc, control.trans rest.control, modifiers.trans rest.modifiers,
    environment.trans rest.environment⟩
  · cases k with
    | zero =>
      have kept : readMem .quad t (Machine.sp s - 4) = readMem .quad s1 (Machine.sp s - 4) := by
        refine readMem_congr ((InRam.memory (n := 4) ram).congr cfg1) rest.environment.cfg fun k hk => ?_
        replace hk : k < 4 := hk
        refine rest_outside _ fun j hj same => ?_
        rw [show Machine.sp s - 4 = Machine.sp s - BitVec.ofNat 32 4 from rfl, top] at same
        have := phys_offset_inj (by omega) (by omega) same
        omega
      exact kept.trans stored
    | succ k =>
      rw [← below]
      exact rest.stored k (by simpa using hk)
  · rw [rest.sp, below]; rfl
  · rw [rest_outside p fun k hk => ?_, outside p fun k hk => ?_]
    · rw [show Machine.sp s - sizeQuad .quad = Machine.sp s - BitVec.ofNat 32 4 from rfl, top]
      replace hk : k < 4 := hk
      exact hp (4 * vs.length + k) (by simp only [List.length_cons]; omega)
    · rw [cfg1]
      exact hp k (by simp only [List.length_cons]; omega)
  · have both := checked.comp rest.stack
    simp only [below, control.2.1] at both
    refine both.iff ?_
    rw [List.length_cons, Nat.exists_lt_succ_left]
    rfl

/-- The listed registers are pushed with the values they have in s, if SP is not among those after the first. -/
theorem pushRegs_ram {l : List Reg} {s : State} (wf : Memory.wf (blankByte s.cfg) s.mem = true) (small : l.length ≤ 8)
    (ram : InRam (4 * l.length) s (sp s - BitVec.ofNat 32 (4 * l.length))) (falling : l.Pairwise (· > ·)) :
    ∃ t, pushRegs l s = .next t ∧ QuadsPushed s t (l.map (readReg s)) := by
  induction l generalizing s with
  | nil => exact ⟨s, rfl, .nil s⟩
  | cons r rest ih =>
    rw [List.length_cons] at ram small
    have ram4 : InRam 4 s (sp s - 4) := ram.sub (j := 4) (by omega) 4 (by omega)
    obtain ⟨s1, h1, first⟩ := push_ram (sz := .quad) (readReg s r) wf ram4
    obtain ⟨_, sp1, regs, _, _, _, _, _, environment⟩ := first.pushed
    have sp1' : sp s1 = sp s - BitVec.ofNat 32 4 := sp1
    obtain ⟨below_r, falling_rest⟩ := List.pairwise_cons.1 falling
    have values : rest.map (readReg s1) = rest.map (readReg s) := by
      refine List.map_congr_left fun x hx => regs x ?_
      have lt : x < r := below_r x hx
      rw [List.mem_singleton]
      rintro rfl
      have := r.isLt
      bv_omega
    have ram_rest : InRam (4 * rest.length) s1 (sp s1 - BitVec.ofNat 32 (4 * rest.length)) := by
      rw [sp1', sub_sub_ofNat, Nat.add_comm, ← Nat.mul_succ]
      exact InRam.congr (fun k hk => ram k (by omega)) environment.cfg
    obtain ⟨t, ht, pushed⟩ := ih first.memory (by omega) ram_rest falling_rest
    rw [values] at pushed
    exact ⟨t, by rw [pushRegs, h1, andThen_next, ht], pushed.cons first ram4 (by rw [List.length_map]; omega)⟩

/-- Settles O53, by `pushRegs_ram` on the registers of the mask. -/
theorem pushMultipleRegisters : Obligations.PushMultipleRegisters := by
  refine ⟨pushMask_eq, fun s mask i top form wf ram => ?_⟩
  have tops : top = 7 ∨ top = 15 := form.imp (·.2) (·.2)
  have exec_eq : exec i s = pushMultiple (pushMask top mask) 2 s := by
    rcases form with ⟨rfl, rfl⟩ | ⟨rfl, rfl⟩ <;> rfl
  obtain ⟨t, ht, pushed⟩ := pushRegs_ram wf (pushMask_length top mask) ram (pushMask_pairwise tops mask)
  have length_eq : ((pushMask top mask).map (readReg s)).length = (pushMask top mask).length := List.length_map _
  refine ⟨advance 2 t, by rw [exec_eq, pushMultiple, ht, andThen_next], fun k hk => ?_, ?_, pushed.regs, ?_, ?_,
    pushed.flags, ?_, pushed.control, pushed.modifiers, pushed.environment⟩
  · rw [readMem_advance, pushed.stored k (length_eq ▸ hk), List.getElem_map]
  · exact length_eq ▸ pushed.sp
  · exact length_eq ▸ pushed.outside
  · exact length_eq ▸ pushed.stack
  · rw [advance_pc, nextPc, pushed.pc]; rfl

/-! ### Pops of several registers (44_load.md R292) -/

/-- The listed registers took the values v from the stack, SP the address after them unless it is itself listed; nothing
else changed but by the Stack Overflow tests. -/
structure QuadsPopped (s t : State) (l : List Reg) (v : Nat → Quad) : Prop where
  values : ∀ (k : Nat) (hk : k < l.length), readReg t l[k] = v k
  sp     : 15 ∉ l → Machine.sp t = Machine.sp s + BitVec.ofNat 32 (4 * l.length)
  regs   : SameRegs s t (15 :: l)
  stack  : StackChecked s t ((∃ k < l.length, (Machine.sp s + BitVec.ofNat 32 (4 * (k + 1))).toNat < s.spov.toNat) ∨
    (15 ∈ l ∧ (Machine.sp t).toNat < s.spov.toNat))
  flags  : t.flags = s.flags
  pc     : t.pc = s.pc
  rest   : SameRest s t

/-- The state after one pop into R[r]. -/
def afterPop (r : Reg) (v : Quad) (s : State) : State := writeReg (writeReg s spReg (sp s + 4)) r v

theorem SameRest.refl (s : State) : SameRest s s :=
  ⟨.of_eq rfl rfl rfl, ⟨rfl, rfl, rfl⟩, ⟨rfl, rfl, rfl⟩, ⟨rfl, rfl, rfl, rfl, rfl, rfl, rfl, rfl, rfl⟩⟩

theorem afterPop_sameRest (r : Reg) (v : Quad) (s : State) : SameRest s (afterPop r v s) :=
  (writeReg_sameRest s _ _).trans (writeReg_sameRest _ _ _)

theorem afterPop_stackChecked (r : Reg) (v : Quad) (s : State) : StackChecked s (afterPop r v s)
    ((sp s + 4).toNat < s.spov.toNat ∨ BelowLimit s r v) := by
  refine ((writeReg_stackChecked s spReg (sp s + 4)).comp (writeReg_stackChecked _ r v)).iff ?_
  simp [BelowLimit, spReg]

theorem readReg_afterPop_same (r : Reg) (v : Quad) (s : State) : readReg (afterPop r v s) r = v := by
  rw [afterPop, readReg_writeReg, if_pos rfl]

theorem readReg_afterPop_other {r x : Reg} (hr : x ≠ r) (hs : x ≠ 15) (v : Quad) (s : State) :
    readReg (afterPop r v s) x = readReg s x := by
  rw [afterPop, readReg_writeReg_of_ne _ _ hr, readReg_writeReg_of_ne _ _ (show x ≠ spReg from hs)]

theorem sp_afterPop {r : Reg} (h : r ≠ 15) (v : Quad) (s : State) : sp (afterPop r v s) = sp s + 4 := by
  rw [sp_eq, afterPop, readReg_writeReg_of_ne _ _ (Ne.symm h), readReg_writeReg]
  rfl

theorem QuadsPopped.nil (s : State) (v : Nat → Quad) : QuadsPopped s s [] v where
  values _ hk := absurd hk (Nat.not_lt_zero _)
  sp _ := (BitVec.add_zero _).symm
  regs _ _ := rfl
  stack := .refl s (by simp)
  flags := rfl
  pc := rfl
  rest := .refl s

/-- SP itself, which is the last register of a rising list. -/
theorem QuadsPopped.sp_last (s : State) (v : Nat → Quad) : QuadsPopped s (afterPop 15 (v 0) s) [15] v where
  values k hk := by
    obtain rfl : k = 0 := by simpa using hk
    simp [afterPop]
  sp h := by simp at h
  regs r hr := by
    have other : r ≠ 15 := List.ne_of_not_mem_cons hr
    exact readReg_afterPop_other other other (v 0) s
  stack := by
    refine (afterPop_stackChecked 15 (v 0) s).iff ?_
    simp [BelowLimit, afterPop, Machine.sp, spReg]
  flags := by simp [afterPop]
  pc := by simp [afterPop]
  rest := afterPop_sameRest 15 (v 0) s

/-- One register and then the others, which are different ones. -/
theorem QuadsPopped.cons {s t : State} {r : Reg} {l : List Reg} {v : Nat → Quad} (not_sp : r ≠ 15) (fresh : r ∉ l)
    (h : QuadsPopped (afterPop r (v 0) s) t l fun k => v (k + 1)) : QuadsPopped s t (r :: l) v := by
  have sp1 := sp_afterPop not_sp (v 0) s
  have spov1 : (afterPop r (v 0) s).spov = s.spov := by simp [afterPop]
  have above (n : Nat) : Machine.sp (afterPop r (v 0) s) + BitVec.ofNat 32 (4 * n) =
      Machine.sp s + BitVec.ofNat 32 (4 * (n + 1)) := by
    rw [sp1, Nat.mul_succ, Nat.add_comm, BitVec.ofNat_add, ← BitVec.add_assoc]
    rfl
  refine ⟨fun k hk => ?_, fun absent => ?_, fun x hx => ?_, ?_, ?_, ?_, (afterPop_sameRest r (v 0) s).trans h.rest⟩
  · cases k with
    | zero =>
      exact (h.regs r (List.not_mem_cons_of_ne_of_not_mem not_sp fresh)).trans (readReg_afterPop_same r (v 0) s)
    | succ k => exact h.values k (by simpa using hk)
  · rw [h.sp fun mem => absent (List.mem_cons_of_mem r mem), above]; rfl
  · obtain ⟨not_sp', hx'⟩ := List.ne_and_not_mem_of_not_mem_cons hx
    obtain ⟨not_r, absent⟩ := List.ne_and_not_mem_of_not_mem_cons hx'
    exact (h.regs x (List.not_mem_cons_of_ne_of_not_mem not_sp' absent)).trans (readReg_afterPop_other not_r not_sp' (v 0) s)
  · have both := (afterPop_stackChecked r (v 0) s).comp h.stack
    simp only [above, spov1] at both
    refine both.iff ?_
    rw [List.length_cons, Nat.exists_lt_succ_left, List.mem_cons]
    simp only [BelowLimit, not_sp, Ne.symm not_sp, false_and, or_false, false_or, or_assoc]
    rfl
  · rw [h.flags]; simp [afterPop]
  · rw [h.pc]; simp [afterPop]

/-- The last value popped into the registers of l, or `before` if there is none. -/
def lastPopped (l : List Reg) (v : Nat → Quad) (before : Option Quad) : Option Quad :=
  if l = [] then before else some (v (l.length - 1))

theorem lastPopped_cons (r : Reg) (l : List Reg) (v : Nat → Quad) (before : Option Quad) :
    lastPopped l (fun k => v (k + 1)) (some (v 0)) = lastPopped (r :: l) v before := by
  cases l <;> rfl

/-- A list of registers in rising order is popped from memory. -/
theorem popRegs_memory {l : List Reg} {s : State} {v : Nat → Quad} (before : Option Quad) (rising : l.Pairwise (· < ·))
    (memory : InMemory (4 * l.length) s (sp s))
    (held : ∀ k < l.length, readMem .quad s (offsetBy (sp s) (4 * k)) = .next (v k)) :
    ∃ t, popRegs l before s = .next (lastPopped l v before, t) ∧ QuadsPopped s t l v := by
  induction l generalizing s v before with
  | nil => exact ⟨s, rfl, .nil s v⟩
  | cons r rest ih =>
    rw [List.length_cons] at memory held
    obtain ⟨above_r, rising_rest⟩ := List.pairwise_cons.1 rising
    have first : readMem .quad s (sp s) = .next (v 0) := by
      have := held 0 (Nat.succ_pos _)
      rwa [Nat.mul_zero, offsetBy_zero] at this
    have popped : popRegs (r :: rest) before s = popRegs rest (some (v 0)) (afterPop r (v 0) s) := by
      rw [popRegs, popQuad_memory (fun k hk => memory k (by omega)) first, andThen_next]
      rfl
    have cfg_kept : (afterPop r (v 0) s).cfg = s.cfg := (afterPop_sameRest r (v 0) s).2.2.2.cfg
    have mem_kept : (afterPop r (v 0) s).mem = s.mem := (afterPop_sameRest r (v 0) s).1.1
    rw [popped]
    by_cases is_sp : r = 15
    · obtain rfl : rest = [] := by
        refine List.eq_nil_iff_forall_not_mem.2 fun x hx => ?_
        have lt : r < x := above_r x hx
        have := x.isLt
        bv_omega
      subst is_sp
      exact ⟨_, rfl, .sp_last s v⟩
    · have sp1 : sp (afterPop r (v 0) s) = offsetBy (sp s) 4 := sp_afterPop is_sp (v 0) s
      have memory_rest : InMemory (4 * rest.length) (afterPop r (v 0) s) (sp (afterPop r (v 0) s)) := by
        rw [sp1]
        exact (memory.shift (by omega)).congr cfg_kept
      have held_rest : ∀ k < rest.length, readMem .quad (afterPop r (v 0) s)
          (offsetBy (sp (afterPop r (v 0) s)) (4 * k)) = .next (v (k + 1)) := fun k hk => by
        rw [sp1, offsetBy_offsetBy, Nat.add_comm, ← Nat.mul_succ, ← held (k + 1) (Nat.succ_lt_succ hk)]
        refine readMem_memory_congr (sz := .quad) (memory.shift ?_) cfg_kept mem_kept
        show 4 * (k + 1) + 4 ≤ _
        omega
      obtain ⟨t, ht, h⟩ := ih (v := fun k => v (k + 1)) (some (v 0)) rising_rest memory_rest held_rest
      have fresh : r ∉ rest := fun mem => by
        have lt : r < r := above_r r mem
        bv_omega
      exact ⟨t, by rw [ht, lastPopped_cons r rest v before], h.cons is_sp fresh⟩

/-- Settles O54, by `popRegs_memory` on the registers of the mask; then B is set if there was one. -/
theorem popMultipleRegisters : Obligations.PopMultipleRegisters := by
  refine ⟨popMask_eq, fun s mask i base v form memory held => ?_⟩
  have bases : base = 0 ∨ base = 8 := form.imp (·.2) (·.2)
  have exec_eq : exec i s = popMultiple (popMask base mask) 2 s := by
    rcases form with ⟨rfl, rfl⟩ | ⟨rfl, rfl⟩ <;> rfl
  obtain ⟨t, ht, popped⟩ := popRegs_memory none (popMask_pairwise bases mask) memory held
  obtain ⟨values, sp_after, regs, stack, flags, pc, rest⟩ := popped
  rw [exec_eq, popMultiple, ht, andThen_next]
  by_cases empty : popMask base mask = []
  · refine ⟨advance 2 t, by simp [lastPopped, empty], values, sp_after, regs, stack, ?_, ?_, rest⟩
    · rw [if_pos empty, advance_flags, flags]
      simp [FlagsSet]
    · rw [advance_pc, nextPc, pc]; rfl
  · have last : lastPopped (popMask base mask) v none = some (v ((popMask base mask).length - 1)) := if_neg empty
    obtain ⟨regs_kept, no_exception, flags_set, pc_next, rest_kept⟩ :=
      setFlagsOnly t (blankFlag (v ((popMask base mask).length - 1))) 2
    have kept (r : Reg) := regs_kept r List.not_mem_nil
    rw [flags, rest.2.2.1.2.1] at flags_set
    rw [pc] at pc_next
    refine ⟨_, by rw [last], fun k hk => (kept _).trans (values k hk), fun absent => (kept 15).trans (sp_after absent),
      fun r hr => (kept r).trans (regs r hr), ?_, ?_, pc_next, rest.trans rest_kept⟩
    · rw [show sp _ = sp t from kept 15]
      exact stack.congr rfl rfl no_exception.1 no_exception.2
    · rw [if_neg empty]
      exact flags_set

end Sys2Proof.Machine
end
